-- ==== Sys2Proof/Word.lean ====
section
/-! DEFINITION. The word sizes the spec uses (spec/00_scope.md R3, R4, R9; spec/10_state.md R20, R27). -/

namespace Sys2Proof

/-- A value of XLEN = 32 bits: an integer register, the program counter, an address, an instruction. -/
abbrev Word := BitVec 32

/-- The 8-bit unit of memory (spec/20_memory.md R50). -/
abbrev Byte := BitVec 8

/-- A 16-bit halfword. -/
abbrev Half := BitVec 16

/-- A 64-bit doubleword: what `fld` and `fsd` move, and the widest f register (FLEN = 64). -/
abbrev Double := BitVec 64

/-- A 5-bit register number, naming x0..x31 or f0..f31 (spec/30_encoding.md R84). -/
abbrev Reg := BitVec 5

end Sys2Proof
end

