-- ==== Sys2Proof/Syntax.lean ====
section
/-! DEFINITION. The instructions: one constructor of `Instr` per row of spec/opcode_table.json, in the table's
order. Every bit of a word that its row does not fix is an operand, also the bits the hart ignores (the fields of
`fence` and `fence.i`, spec/30_encoding.md R94; `aq` and `rl` of the atomics, R96), so that encoding an
instruction gives back the whole word. Operand order is the assembler's (spec/47_pseudo_instructions.md R387). -/

namespace Sys2Proof

/-- The 139 instructions of spec/opcode_table.json (spec/30_encoding.md R98, R99). A register operand is a 5-bit
number; `imm` is the 12-bit immediate field, sign-extended when used (R86, R87), or the 20-bit field of the U
format (R89); `offset` is the byte offset of a branch (13 bits, R88) or of `jal` (21 bits, R90), bit 0 zero;
`shamt` is R92's shift amount; `csr` and `uimm` are R93's; `rm` is the rounding-mode field as it stands in the
word, reserved values included (R97; spec/45_fd_extension.md R242). -/
inductive Instr where
  /-- `lb`, base group: spec/42_load_store.md R172. -/
  | lb (rd rs1 : Reg) (imm : BitVec 12)
  /-- `lh`, base group: spec/42_load_store.md R173. -/
  | lh (rd rs1 : Reg) (imm : BitVec 12)
  /-- `lw`, base group: spec/42_load_store.md R174. -/
  | lw (rd rs1 : Reg) (imm : BitVec 12)
  /-- `lbu`, base group: spec/42_load_store.md R175. -/
  | lbu (rd rs1 : Reg) (imm : BitVec 12)
  /-- `lhu`, base group: spec/42_load_store.md R176. -/
  | lhu (rd rs1 : Reg) (imm : BitVec 12)
  /-- `fence`, base group: spec/43_system_csr_fence.md R200. -/
  | fence (rd rs1 : Reg) (imm : BitVec 12)
  /-- `fence.i`, base group: spec/43_system_csr_fence.md R201. -/
  | fenceI (rd rs1 : Reg) (imm : BitVec 12)
  /-- `addi`, base group: spec/40_integer_computational.md R131. -/
  | addi (rd rs1 : Reg) (imm : BitVec 12)
  /-- `slli`, base group: spec/40_integer_computational.md R137. -/
  | slli (rd rs1 : Reg) (shamt : BitVec 5)
  /-- `slti`, base group: spec/40_integer_computational.md R132. -/
  | slti (rd rs1 : Reg) (imm : BitVec 12)
  /-- `sltiu`, base group: spec/40_integer_computational.md R133. -/
  | sltiu (rd rs1 : Reg) (imm : BitVec 12)
  /-- `xori`, base group: spec/40_integer_computational.md R134. -/
  | xori (rd rs1 : Reg) (imm : BitVec 12)
  /-- `srli`, base group: spec/40_integer_computational.md R138. -/
  | srli (rd rs1 : Reg) (shamt : BitVec 5)
  /-- `srai`, base group: spec/40_integer_computational.md R139. -/
  | srai (rd rs1 : Reg) (shamt : BitVec 5)
  /-- `ori`, base group: spec/40_integer_computational.md R135. -/
  | ori (rd rs1 : Reg) (imm : BitVec 12)
  /-- `andi`, base group: spec/40_integer_computational.md R136. -/
  | andi (rd rs1 : Reg) (imm : BitVec 12)
  /-- `auipc`, base group: spec/40_integer_computational.md R141. -/
  | auipc (rd : Reg) (imm : BitVec 20)
  /-- `sb`, base group: spec/42_load_store.md R177. -/
  | sb (rs2 rs1 : Reg) (imm : BitVec 12)
  /-- `sh`, base group: spec/42_load_store.md R178. -/
  | sh (rs2 rs1 : Reg) (imm : BitVec 12)
  /-- `sw`, base group: spec/42_load_store.md R179. -/
  | sw (rs2 rs1 : Reg) (imm : BitVec 12)
  /-- `add`, base group: spec/40_integer_computational.md R121. -/
  | add (rd rs1 rs2 : Reg)
  /-- `sub`, base group: spec/40_integer_computational.md R122. -/
  | sub (rd rs1 rs2 : Reg)
  /-- `sll`, base group: spec/40_integer_computational.md R123. -/
  | sll (rd rs1 rs2 : Reg)
  /-- `slt`, base group: spec/40_integer_computational.md R124. -/
  | slt (rd rs1 rs2 : Reg)
  /-- `sltu`, base group: spec/40_integer_computational.md R125. -/
  | sltu (rd rs1 rs2 : Reg)
  /-- `xor`, base group: spec/40_integer_computational.md R126. -/
  | xor (rd rs1 rs2 : Reg)
  /-- `srl`, base group: spec/40_integer_computational.md R127. -/
  | srl (rd rs1 rs2 : Reg)
  /-- `sra`, base group: spec/40_integer_computational.md R128. -/
  | sra (rd rs1 rs2 : Reg)
  /-- `or`, base group: spec/40_integer_computational.md R129. -/
  | or (rd rs1 rs2 : Reg)
  /-- `and`, base group: spec/40_integer_computational.md R130. -/
  | and (rd rs1 rs2 : Reg)
  /-- `lui`, base group: spec/40_integer_computational.md R140. -/
  | lui (rd : Reg) (imm : BitVec 20)
  /-- `beq`, base group: spec/41_control_transfer.md R154. -/
  | beq (rs1 rs2 : Reg) (offset : BitVec 13)
  /-- `bne`, base group: spec/41_control_transfer.md R155. -/
  | bne (rs1 rs2 : Reg) (offset : BitVec 13)
  /-- `blt`, base group: spec/41_control_transfer.md R156. -/
  | blt (rs1 rs2 : Reg) (offset : BitVec 13)
  /-- `bge`, base group: spec/41_control_transfer.md R157. -/
  | bge (rs1 rs2 : Reg) (offset : BitVec 13)
  /-- `bltu`, base group: spec/41_control_transfer.md R158. -/
  | bltu (rs1 rs2 : Reg) (offset : BitVec 13)
  /-- `bgeu`, base group: spec/41_control_transfer.md R159. -/
  | bgeu (rs1 rs2 : Reg) (offset : BitVec 13)
  /-- `jalr`, base group: spec/41_control_transfer.md R153. -/
  | jalr (rd rs1 : Reg) (imm : BitVec 12)
  /-- `jal`, base group: spec/41_control_transfer.md R152. -/
  | jal (rd : Reg) (offset : BitVec 21)
  /-- `ecall`, base group: spec/43_system_csr_fence.md R198. -/
  | ecall
  /-- `ebreak`, base group: spec/43_system_csr_fence.md R199. -/
  | ebreak
  /-- `csrrw`, base group: spec/43_system_csr_fence.md R192. -/
  | csrrw (rd : Reg) (csr : BitVec 12) (rs1 : Reg)
  /-- `csrrs`, base group: spec/43_system_csr_fence.md R193. -/
  | csrrs (rd : Reg) (csr : BitVec 12) (rs1 : Reg)
  /-- `csrrc`, base group: spec/43_system_csr_fence.md R194. -/
  | csrrc (rd : Reg) (csr : BitVec 12) (rs1 : Reg)
  /-- `csrrwi`, base group: spec/43_system_csr_fence.md R195. -/
  | csrrwi (rd : Reg) (csr : BitVec 12) (uimm : BitVec 5)
  /-- `csrrsi`, base group: spec/43_system_csr_fence.md R196. -/
  | csrrsi (rd : Reg) (csr : BitVec 12) (uimm : BitVec 5)
  /-- `csrrci`, base group: spec/43_system_csr_fence.md R197. -/
  | csrrci (rd : Reg) (csr : BitVec 12) (uimm : BitVec 5)
  /-- `mul`, M group: spec/44_m_extension.md R221. -/
  | mul (rd rs1 rs2 : Reg)
  /-- `mulh`, M group: spec/44_m_extension.md R222. -/
  | mulh (rd rs1 rs2 : Reg)
  /-- `mulhsu`, M group: spec/44_m_extension.md R223. -/
  | mulhsu (rd rs1 rs2 : Reg)
  /-- `mulhu`, M group: spec/44_m_extension.md R224. -/
  | mulhu (rd rs1 rs2 : Reg)
  /-- `div`, M group: spec/44_m_extension.md R225. -/
  | div (rd rs1 rs2 : Reg)
  /-- `divu`, M group: spec/44_m_extension.md R226. -/
  | divu (rd rs1 rs2 : Reg)
  /-- `rem`, M group: spec/44_m_extension.md R227. -/
  | rem (rd rs1 rs2 : Reg)
  /-- `remu`, M group: spec/44_m_extension.md R228. -/
  | remu (rd rs1 rs2 : Reg)
  /-- `lr.w`, A group: spec/46_a_extension.md R334. -/
  | lrW (rd rs1 : Reg) (aq rl : BitVec 1)
  /-- `lr.d`, A group, not admitted at XLEN = 32: spec/46_a_extension.md R336. -/
  | lrD (rd rs1 : Reg) (aq rl : BitVec 1)
  /-- `sc.w`, A group: spec/46_a_extension.md R335. -/
  | scW (rd rs2 rs1 : Reg) (aq rl : BitVec 1)
  /-- `sc.d`, A group, not admitted at XLEN = 32: spec/46_a_extension.md R337. -/
  | scD (rd rs2 rs1 : Reg) (aq rl : BitVec 1)
  /-- `amoswap.w`, A group: spec/46_a_extension.md R338. -/
  | amoswapW (rd rs2 rs1 : Reg) (aq rl : BitVec 1)
  /-- `amoswap.d`, A group, not admitted at XLEN = 32: spec/46_a_extension.md R347. -/
  | amoswapD (rd rs2 rs1 : Reg) (aq rl : BitVec 1)
  /-- `amoadd.w`, A group: spec/46_a_extension.md R339. -/
  | amoaddW (rd rs2 rs1 : Reg) (aq rl : BitVec 1)
  /-- `amoadd.d`, A group, not admitted at XLEN = 32: spec/46_a_extension.md R348. -/
  | amoaddD (rd rs2 rs1 : Reg) (aq rl : BitVec 1)
  /-- `amoxor.w`, A group: spec/46_a_extension.md R340. -/
  | amoxorW (rd rs2 rs1 : Reg) (aq rl : BitVec 1)
  /-- `amoxor.d`, A group, not admitted at XLEN = 32: spec/46_a_extension.md R349. -/
  | amoxorD (rd rs2 rs1 : Reg) (aq rl : BitVec 1)
  /-- `amoand.w`, A group: spec/46_a_extension.md R341. -/
  | amoandW (rd rs2 rs1 : Reg) (aq rl : BitVec 1)
  /-- `amoand.d`, A group, not admitted at XLEN = 32: spec/46_a_extension.md R350. -/
  | amoandD (rd rs2 rs1 : Reg) (aq rl : BitVec 1)
  /-- `amoor.w`, A group: spec/46_a_extension.md R342. -/
  | amoorW (rd rs2 rs1 : Reg) (aq rl : BitVec 1)
  /-- `amoor.d`, A group, not admitted at XLEN = 32: spec/46_a_extension.md R351. -/
  | amoorD (rd rs2 rs1 : Reg) (aq rl : BitVec 1)
  /-- `amomin.w`, A group: spec/46_a_extension.md R343. -/
  | amominW (rd rs2 rs1 : Reg) (aq rl : BitVec 1)
  /-- `amomin.d`, A group, not admitted at XLEN = 32: spec/46_a_extension.md R352. -/
  | amominD (rd rs2 rs1 : Reg) (aq rl : BitVec 1)
  /-- `amomax.w`, A group: spec/46_a_extension.md R344. -/
  | amomaxW (rd rs2 rs1 : Reg) (aq rl : BitVec 1)
  /-- `amomax.d`, A group, not admitted at XLEN = 32: spec/46_a_extension.md R353. -/
  | amomaxD (rd rs2 rs1 : Reg) (aq rl : BitVec 1)
  /-- `amominu.w`, A group: spec/46_a_extension.md R345. -/
  | amominuW (rd rs2 rs1 : Reg) (aq rl : BitVec 1)
  /-- `amominu.d`, A group, not admitted at XLEN = 32: spec/46_a_extension.md R354. -/
  | amominuD (rd rs2 rs1 : Reg) (aq rl : BitVec 1)
  /-- `amomaxu.w`, A group: spec/46_a_extension.md R346. -/
  | amomaxuW (rd rs2 rs1 : Reg) (aq rl : BitVec 1)
  /-- `amomaxu.d`, A group, not admitted at XLEN = 32: spec/46_a_extension.md R355. -/
  | amomaxuD (rd rs2 rs1 : Reg) (aq rl : BitVec 1)
  /-- `flw`, F group: spec/45_fd_extension.md R250. -/
  | flw (rd rs1 : Reg) (imm : BitVec 12)
  /-- `fld`, D group: spec/45_fd_extension.md R251. -/
  | fld (rd rs1 : Reg) (imm : BitVec 12)
  /-- `fsw`, F group: spec/45_fd_extension.md R252. -/
  | fsw (rs2 rs1 : Reg) (imm : BitVec 12)
  /-- `fsd`, D group: spec/45_fd_extension.md R253. -/
  | fsd (rs2 rs1 : Reg) (imm : BitVec 12)
  /-- `fadd.s`, F group: spec/45_fd_extension.md R254. -/
  | faddS (rd rs1 rs2 : Reg) (rm : BitVec 3)
  /-- `fadd.d`, D group: spec/45_fd_extension.md R255. -/
  | faddD (rd rs1 rs2 : Reg) (rm : BitVec 3)
  /-- `fsub.s`, F group: spec/45_fd_extension.md R256. -/
  | fsubS (rd rs1 rs2 : Reg) (rm : BitVec 3)
  /-- `fsub.d`, D group: spec/45_fd_extension.md R257. -/
  | fsubD (rd rs1 rs2 : Reg) (rm : BitVec 3)
  /-- `fmul.s`, F group: spec/45_fd_extension.md R258. -/
  | fmulS (rd rs1 rs2 : Reg) (rm : BitVec 3)
  /-- `fmul.d`, D group: spec/45_fd_extension.md R259. -/
  | fmulD (rd rs1 rs2 : Reg) (rm : BitVec 3)
  /-- `fdiv.s`, F group: spec/45_fd_extension.md R260. -/
  | fdivS (rd rs1 rs2 : Reg) (rm : BitVec 3)
  /-- `fdiv.d`, D group: spec/45_fd_extension.md R261. -/
  | fdivD (rd rs1 rs2 : Reg) (rm : BitVec 3)
  /-- `fsqrt.s`, F group: spec/45_fd_extension.md R262. -/
  | fsqrtS (rd rs1 : Reg) (rm : BitVec 3)
  /-- `fsqrt.d`, D group: spec/45_fd_extension.md R263. -/
  | fsqrtD (rd rs1 : Reg) (rm : BitVec 3)
  /-- `fmadd.s`, F group: spec/45_fd_extension.md R264. -/
  | fmaddS (rd rs1 rs2 rs3 : Reg) (rm : BitVec 3)
  /-- `fmadd.d`, D group: spec/45_fd_extension.md R265. -/
  | fmaddD (rd rs1 rs2 rs3 : Reg) (rm : BitVec 3)
  /-- `fmsub.s`, F group: spec/45_fd_extension.md R266. -/
  | fmsubS (rd rs1 rs2 rs3 : Reg) (rm : BitVec 3)
  /-- `fmsub.d`, D group: spec/45_fd_extension.md R267. -/
  | fmsubD (rd rs1 rs2 rs3 : Reg) (rm : BitVec 3)
  /-- `fnmsub.s`, F group: spec/45_fd_extension.md R268. -/
  | fnmsubS (rd rs1 rs2 rs3 : Reg) (rm : BitVec 3)
  /-- `fnmsub.d`, D group: spec/45_fd_extension.md R269. -/
  | fnmsubD (rd rs1 rs2 rs3 : Reg) (rm : BitVec 3)
  /-- `fnmadd.s`, F group: spec/45_fd_extension.md R270. -/
  | fnmaddS (rd rs1 rs2 rs3 : Reg) (rm : BitVec 3)
  /-- `fnmadd.d`, D group: spec/45_fd_extension.md R271. -/
  | fnmaddD (rd rs1 rs2 rs3 : Reg) (rm : BitVec 3)
  /-- `fsgnj.s`, F group: spec/45_fd_extension.md R272. -/
  | fsgnjS (rd rs1 rs2 : Reg)
  /-- `fsgnj.d`, D group: spec/45_fd_extension.md R273. -/
  | fsgnjD (rd rs1 rs2 : Reg)
  /-- `fsgnjn.s`, F group: spec/45_fd_extension.md R274. -/
  | fsgnjnS (rd rs1 rs2 : Reg)
  /-- `fsgnjn.d`, D group: spec/45_fd_extension.md R275. -/
  | fsgnjnD (rd rs1 rs2 : Reg)
  /-- `fsgnjx.s`, F group: spec/45_fd_extension.md R276. -/
  | fsgnjxS (rd rs1 rs2 : Reg)
  /-- `fsgnjx.d`, D group: spec/45_fd_extension.md R277. -/
  | fsgnjxD (rd rs1 rs2 : Reg)
  /-- `fmin.s`, F group: spec/45_fd_extension.md R278. -/
  | fminS (rd rs1 rs2 : Reg)
  /-- `fmin.d`, D group: spec/45_fd_extension.md R279. -/
  | fminD (rd rs1 rs2 : Reg)
  /-- `fmax.s`, F group: spec/45_fd_extension.md R280. -/
  | fmaxS (rd rs1 rs2 : Reg)
  /-- `fmax.d`, D group: spec/45_fd_extension.md R281. -/
  | fmaxD (rd rs1 rs2 : Reg)
  /-- `feq.s`, F group: spec/48_fd_compare_convert.md R282. -/
  | feqS (rd rs1 rs2 : Reg)
  /-- `feq.d`, D group: spec/48_fd_compare_convert.md R283. -/
  | feqD (rd rs1 rs2 : Reg)
  /-- `flt.s`, F group: spec/48_fd_compare_convert.md R284. -/
  | fltS (rd rs1 rs2 : Reg)
  /-- `flt.d`, D group: spec/48_fd_compare_convert.md R285. -/
  | fltD (rd rs1 rs2 : Reg)
  /-- `fle.s`, F group: spec/48_fd_compare_convert.md R286. -/
  | fleS (rd rs1 rs2 : Reg)
  /-- `fle.d`, D group: spec/48_fd_compare_convert.md R287. -/
  | fleD (rd rs1 rs2 : Reg)
  /-- `fclass.s`, F group: spec/48_fd_compare_convert.md R288. -/
  | fclassS (rd rs1 : Reg)
  /-- `fclass.d`, D group: spec/48_fd_compare_convert.md R289. -/
  | fclassD (rd rs1 : Reg)
  /-- `fmv.s.x`, F group: spec/48_fd_compare_convert.md R290. -/
  | fmvSX (rd rs1 : Reg)
  /-- `fmv.d.x`, D group, not admitted at XLEN = 32: spec/48_fd_compare_convert.md R291. -/
  | fmvDX (rd rs1 : Reg)
  /-- `fmv.x.s`, F group: spec/48_fd_compare_convert.md R292. -/
  | fmvXS (rd rs1 : Reg)
  /-- `fmv.x.d`, D group, not admitted at XLEN = 32: spec/48_fd_compare_convert.md R293. -/
  | fmvXD (rd rs1 : Reg)
  /-- `fcvt.d.s`, D group: spec/48_fd_compare_convert.md R294. -/
  | fcvtDS (rd rs1 : Reg) (rm : BitVec 3)
  /-- `fcvt.s.d`, D group: spec/48_fd_compare_convert.md R295. -/
  | fcvtSD (rd rs1 : Reg) (rm : BitVec 3)
  /-- `fcvt.s.w`, F group: spec/48_fd_compare_convert.md R296. -/
  | fcvtSW (rd rs1 : Reg) (rm : BitVec 3)
  /-- `fcvt.d.w`, D group: spec/48_fd_compare_convert.md R297. -/
  | fcvtDW (rd rs1 : Reg) (rm : BitVec 3)
  /-- `fcvt.s.l`, F group, not admitted at XLEN = 32: spec/48_fd_compare_convert.md R298. -/
  | fcvtSL (rd rs1 : Reg) (rm : BitVec 3)
  /-- `fcvt.d.l`, D group, not admitted at XLEN = 32: spec/48_fd_compare_convert.md R299. -/
  | fcvtDL (rd rs1 : Reg) (rm : BitVec 3)
  /-- `fcvt.s.wu`, F group: spec/48_fd_compare_convert.md R300. -/
  | fcvtSWu (rd rs1 : Reg) (rm : BitVec 3)
  /-- `fcvt.d.wu`, D group: spec/48_fd_compare_convert.md R301. -/
  | fcvtDWu (rd rs1 : Reg) (rm : BitVec 3)
  /-- `fcvt.s.lu`, F group, not admitted at XLEN = 32: spec/48_fd_compare_convert.md R302. -/
  | fcvtSLu (rd rs1 : Reg) (rm : BitVec 3)
  /-- `fcvt.d.lu`, D group, not admitted at XLEN = 32: spec/48_fd_compare_convert.md R303. -/
  | fcvtDLu (rd rs1 : Reg) (rm : BitVec 3)
  /-- `fcvt.w.s`, F group: spec/48_fd_compare_convert.md R304. -/
  | fcvtWS (rd rs1 : Reg) (rm : BitVec 3)
  /-- `fcvt.w.d`, D group: spec/48_fd_compare_convert.md R305. -/
  | fcvtWD (rd rs1 : Reg) (rm : BitVec 3)
  /-- `fcvt.l.s`, F group, not admitted at XLEN = 32: spec/48_fd_compare_convert.md R306. -/
  | fcvtLS (rd rs1 : Reg) (rm : BitVec 3)
  /-- `fcvt.l.d`, D group, not admitted at XLEN = 32: spec/48_fd_compare_convert.md R307. -/
  | fcvtLD (rd rs1 : Reg) (rm : BitVec 3)
  /-- `fcvt.wu.s`, F group: spec/48_fd_compare_convert.md R308. -/
  | fcvtWuS (rd rs1 : Reg) (rm : BitVec 3)
  /-- `fcvt.wu.d`, D group: spec/48_fd_compare_convert.md R309. -/
  | fcvtWuD (rd rs1 : Reg) (rm : BitVec 3)
  /-- `fcvt.lu.s`, F group, not admitted at XLEN = 32: spec/48_fd_compare_convert.md R310. -/
  | fcvtLuS (rd rs1 : Reg) (rm : BitVec 3)
  /-- `fcvt.lu.d`, D group, not admitted at XLEN = 32: spec/48_fd_compare_convert.md R311. -/
  | fcvtLuD (rd rs1 : Reg) (rm : BitVec 3)
  deriving DecidableEq, Repr

end Sys2Proof
end

