-- ==== Sys2Proof/WellFormed.lean ====
section
/-! DEFINITION. Well-formed instructions: those some 32-bit word stands for. An operand of `Instr` has exactly
the bits of its field, except the offsets of the branches and of `jal`, whose bit 0 no word holds
(spec/30_encoding.md R88, R90). -/

namespace Sys2Proof

/-- Bit 0 of an SB-format offset is zero (spec/30_encoding.md R88). -/
def branchOffsetEven (offset : BitVec 13) : Bool := offset.extractLsb' 0 1 == 0#1

/-- Bit 0 of the UJ-format offset is zero (spec/30_encoding.md R90). -/
def jumpOffsetEven (offset : BitVec 21) : Bool := offset.extractLsb' 0 1 == 0#1

/-- An instruction some word stands for: no wildcard, so that a new instruction must be placed here. -/
def Instr.wellFormed : Instr → Bool
  | .lb _ _ _ => true
  | .lh _ _ _ => true
  | .lw _ _ _ => true
  | .lbu _ _ _ => true
  | .lhu _ _ _ => true
  | .fence _ _ _ => true
  | .fenceI _ _ _ => true
  | .addi _ _ _ => true
  | .slli _ _ _ => true
  | .slti _ _ _ => true
  | .sltiu _ _ _ => true
  | .xori _ _ _ => true
  | .srli _ _ _ => true
  | .srai _ _ _ => true
  | .ori _ _ _ => true
  | .andi _ _ _ => true
  | .auipc _ _ => true
  | .sb _ _ _ => true
  | .sh _ _ _ => true
  | .sw _ _ _ => true
  | .add _ _ _ => true
  | .sub _ _ _ => true
  | .sll _ _ _ => true
  | .slt _ _ _ => true
  | .sltu _ _ _ => true
  | .xor _ _ _ => true
  | .srl _ _ _ => true
  | .sra _ _ _ => true
  | .or _ _ _ => true
  | .and _ _ _ => true
  | .lui _ _ => true
  | .beq _ _ offset => branchOffsetEven offset
  | .bne _ _ offset => branchOffsetEven offset
  | .blt _ _ offset => branchOffsetEven offset
  | .bge _ _ offset => branchOffsetEven offset
  | .bltu _ _ offset => branchOffsetEven offset
  | .bgeu _ _ offset => branchOffsetEven offset
  | .jalr _ _ _ => true
  | .jal _ offset => jumpOffsetEven offset
  | .ecall => true
  | .ebreak => true
  | .csrrw _ _ _ => true
  | .csrrs _ _ _ => true
  | .csrrc _ _ _ => true
  | .csrrwi _ _ _ => true
  | .csrrsi _ _ _ => true
  | .csrrci _ _ _ => true
  | .mul _ _ _ => true
  | .mulh _ _ _ => true
  | .mulhsu _ _ _ => true
  | .mulhu _ _ _ => true
  | .div _ _ _ => true
  | .divu _ _ _ => true
  | .rem _ _ _ => true
  | .remu _ _ _ => true
  | .lrW _ _ _ _ => true
  | .lrD _ _ _ _ => true
  | .scW _ _ _ _ _ => true
  | .scD _ _ _ _ _ => true
  | .amoswapW _ _ _ _ _ => true
  | .amoswapD _ _ _ _ _ => true
  | .amoaddW _ _ _ _ _ => true
  | .amoaddD _ _ _ _ _ => true
  | .amoxorW _ _ _ _ _ => true
  | .amoxorD _ _ _ _ _ => true
  | .amoandW _ _ _ _ _ => true
  | .amoandD _ _ _ _ _ => true
  | .amoorW _ _ _ _ _ => true
  | .amoorD _ _ _ _ _ => true
  | .amominW _ _ _ _ _ => true
  | .amominD _ _ _ _ _ => true
  | .amomaxW _ _ _ _ _ => true
  | .amomaxD _ _ _ _ _ => true
  | .amominuW _ _ _ _ _ => true
  | .amominuD _ _ _ _ _ => true
  | .amomaxuW _ _ _ _ _ => true
  | .amomaxuD _ _ _ _ _ => true
  | .flw _ _ _ => true
  | .fld _ _ _ => true
  | .fsw _ _ _ => true
  | .fsd _ _ _ => true
  | .faddS _ _ _ _ => true
  | .faddD _ _ _ _ => true
  | .fsubS _ _ _ _ => true
  | .fsubD _ _ _ _ => true
  | .fmulS _ _ _ _ => true
  | .fmulD _ _ _ _ => true
  | .fdivS _ _ _ _ => true
  | .fdivD _ _ _ _ => true
  | .fsqrtS _ _ _ => true
  | .fsqrtD _ _ _ => true
  | .fmaddS _ _ _ _ _ => true
  | .fmaddD _ _ _ _ _ => true
  | .fmsubS _ _ _ _ _ => true
  | .fmsubD _ _ _ _ _ => true
  | .fnmsubS _ _ _ _ _ => true
  | .fnmsubD _ _ _ _ _ => true
  | .fnmaddS _ _ _ _ _ => true
  | .fnmaddD _ _ _ _ _ => true
  | .fsgnjS _ _ _ => true
  | .fsgnjD _ _ _ => true
  | .fsgnjnS _ _ _ => true
  | .fsgnjnD _ _ _ => true
  | .fsgnjxS _ _ _ => true
  | .fsgnjxD _ _ _ => true
  | .fminS _ _ _ => true
  | .fminD _ _ _ => true
  | .fmaxS _ _ _ => true
  | .fmaxD _ _ _ => true
  | .feqS _ _ _ => true
  | .feqD _ _ _ => true
  | .fltS _ _ _ => true
  | .fltD _ _ _ => true
  | .fleS _ _ _ => true
  | .fleD _ _ _ => true
  | .fclassS _ _ => true
  | .fclassD _ _ => true
  | .fmvSX _ _ => true
  | .fmvDX _ _ => true
  | .fmvXS _ _ => true
  | .fmvXD _ _ => true
  | .fcvtDS _ _ _ => true
  | .fcvtSD _ _ _ => true
  | .fcvtSW _ _ _ => true
  | .fcvtDW _ _ _ => true
  | .fcvtSL _ _ _ => true
  | .fcvtDL _ _ _ => true
  | .fcvtSWu _ _ _ => true
  | .fcvtDWu _ _ _ => true
  | .fcvtSLu _ _ _ => true
  | .fcvtDLu _ _ _ => true
  | .fcvtWS _ _ _ => true
  | .fcvtWD _ _ _ => true
  | .fcvtLS _ _ _ => true
  | .fcvtLD _ _ _ => true
  | .fcvtWuS _ _ _ => true
  | .fcvtWuD _ _ _ => true
  | .fcvtLuS _ _ _ => true
  | .fcvtLuD _ _ _ => true

end Sys2Proof
end

