-- ==== Sys2Proof/Decode.lean ====
section
/-! DEFINITION. Decoding (spec/30_encoding.md R80 to R103) and, after it, encoding. `decode` finds the one row of
spec/opcode_table.json a word matches, whichever groups are present: whether the hart has the row's group is a
matter of its parameters and is checked where the instruction is executed (R100). -/

namespace Sys2Proof

/-- Why bytes or a word stand for no instruction of spec/opcode_table.json. -/
inductive DecodeError where
  /-- No row has this opcode field (spec/30_encoding.md R101). -/
  | unassignedOpcode (opcode : BitVec 7)
  /-- Rows have this opcode field, but none matches the whole word (spec/30_encoding.md R101). -/
  | unassignedWord (w : Word)
  /-- Fewer than the four bytes of an instruction (spec/30_encoding.md R82). -/
  | truncated (count : Nat)
  deriving DecidableEq, Repr

/-! ## Fields -/

/-- `inst[6:0]` (spec/30_encoding.md R83). -/
def fieldOpcode (w : Word) : BitVec 7 := w.extractLsb' 0 7
/-- `inst[11:7]` (spec/30_encoding.md R84). -/
def fieldRd (w : Word) : Reg := w.extractLsb' 7 5
/-- `inst[14:12]` (spec/30_encoding.md R83); the rounding mode `rm` where a row has one (R97). -/
def fieldFunct3 (w : Word) : BitVec 3 := w.extractLsb' 12 3
/-- `inst[19:15]` (spec/30_encoding.md R84); the 5-bit immediate `uimm` of R93. -/
def fieldRs1 (w : Word) : Reg := w.extractLsb' 15 5
/-- `inst[24:20]` (spec/30_encoding.md R84); the shift amount of R92. -/
def fieldRs2 (w : Word) : Reg := w.extractLsb' 20 5
/-- `inst[31:25]` (spec/30_encoding.md R83). -/
def fieldFunct7 (w : Word) : BitVec 7 := w.extractLsb' 25 7
/-- `inst[31:27]`: `rs3` of the R4 format (R91), the operation of an atomic (R96). -/
def fieldRs3 (w : Word) : Reg := w.extractLsb' 27 5
/-- `inst[26:25]`: the precision of the R4 format (R91). -/
def fieldFmt (w : Word) : BitVec 2 := w.extractLsb' 25 2
/-- `inst[26]` (R96). -/
def fieldAq (w : Word) : BitVec 1 := w.extractLsb' 26 1
/-- `inst[25]` (R96). -/
def fieldRl (w : Word) : BitVec 1 := w.extractLsb' 25 1
/-- `inst[31:20]`: the immediate of the I format (R86), the CSR address of R93. -/
def fieldImmI (w : Word) : BitVec 12 := w.extractLsb' 20 12
/-- `inst[31:25] ++ inst[11:7]` (R87). -/
def fieldImmS (w : Word) : BitVec 12 := w.extractLsb' 25 7 ++ w.extractLsb' 7 5
/-- `inst[31] ++ inst[7] ++ inst[30:25] ++ inst[11:8] ++ 0` (R88). -/
def fieldOffsetB (w : Word) : BitVec 13 :=
  w.extractLsb' 31 1 ++ w.extractLsb' 7 1 ++ w.extractLsb' 25 6 ++ w.extractLsb' 8 4 ++ 0#1
/-- `inst[31:12]` (R89). -/
def fieldImmU (w : Word) : BitVec 20 := w.extractLsb' 12 20
/-- `inst[31] ++ inst[19:12] ++ inst[20] ++ inst[30:21] ++ 0` (R90). -/
def fieldOffsetJ (w : Word) : BitVec 21 :=
  w.extractLsb' 31 1 ++ w.extractLsb' 12 8 ++ w.extractLsb' 20 1 ++ w.extractLsb' 21 10 ++ 0#1

/-! ## Decoding, opcode by opcode -/

/-- Opcode 0000011 (R98). -/
def decodeLoad (w : Word) : Except DecodeError Instr :=
  match fieldFunct3 w with
  | 0b000#3 => .ok (.lb (fieldRd w) (fieldRs1 w) (fieldImmI w))
  | 0b001#3 => .ok (.lh (fieldRd w) (fieldRs1 w) (fieldImmI w))
  | 0b010#3 => .ok (.lw (fieldRd w) (fieldRs1 w) (fieldImmI w))
  | 0b100#3 => .ok (.lbu (fieldRd w) (fieldRs1 w) (fieldImmI w))
  | 0b101#3 => .ok (.lhu (fieldRd w) (fieldRs1 w) (fieldImmI w))
  | _ => .error (.unassignedWord w)

/-- Opcode 0001111 (R94, R98). -/
def decodeFence (w : Word) : Except DecodeError Instr :=
  match fieldFunct3 w with
  | 0b000#3 => .ok (.fence (fieldRd w) (fieldRs1 w) (fieldImmI w))
  | 0b001#3 => .ok (.fenceI (fieldRd w) (fieldRs1 w) (fieldImmI w))
  | _ => .error (.unassignedWord w)

/-- Opcode 0010011; the three shifts carry a function code in `inst[31:25]` (R92). -/
def decodeOpImm (w : Word) : Except DecodeError Instr :=
  match fieldFunct3 w with
  | 0b000#3 => .ok (.addi (fieldRd w) (fieldRs1 w) (fieldImmI w))
  | 0b001#3 =>
    match fieldFunct7 w with
    | 0b0000000#7 => .ok (.slli (fieldRd w) (fieldRs1 w) (fieldRs2 w))
    | _ => .error (.unassignedWord w)
  | 0b010#3 => .ok (.slti (fieldRd w) (fieldRs1 w) (fieldImmI w))
  | 0b011#3 => .ok (.sltiu (fieldRd w) (fieldRs1 w) (fieldImmI w))
  | 0b100#3 => .ok (.xori (fieldRd w) (fieldRs1 w) (fieldImmI w))
  | 0b101#3 =>
    match fieldFunct7 w with
    | 0b0000000#7 => .ok (.srli (fieldRd w) (fieldRs1 w) (fieldRs2 w))
    | 0b0100000#7 => .ok (.srai (fieldRd w) (fieldRs1 w) (fieldRs2 w))
    | _ => .error (.unassignedWord w)
  | 0b110#3 => .ok (.ori (fieldRd w) (fieldRs1 w) (fieldImmI w))
  | 0b111#3 => .ok (.andi (fieldRd w) (fieldRs1 w) (fieldImmI w))

/-- Opcode 0100011 (R98). -/
def decodeStore (w : Word) : Except DecodeError Instr :=
  match fieldFunct3 w with
  | 0b000#3 => .ok (.sb (fieldRs2 w) (fieldRs1 w) (fieldImmS w))
  | 0b001#3 => .ok (.sh (fieldRs2 w) (fieldRs1 w) (fieldImmS w))
  | 0b010#3 => .ok (.sw (fieldRs2 w) (fieldRs1 w) (fieldImmS w))
  | _ => .error (.unassignedWord w)

/-- Opcode 0110011: register-register arithmetic (R98) and the M group (R99). -/
def decodeOp (w : Word) : Except DecodeError Instr :=
  match fieldFunct7 w with
  | 0b0000000#7 =>
    match fieldFunct3 w with
    | 0b000#3 => .ok (.add (fieldRd w) (fieldRs1 w) (fieldRs2 w))
    | 0b001#3 => .ok (.sll (fieldRd w) (fieldRs1 w) (fieldRs2 w))
    | 0b010#3 => .ok (.slt (fieldRd w) (fieldRs1 w) (fieldRs2 w))
    | 0b011#3 => .ok (.sltu (fieldRd w) (fieldRs1 w) (fieldRs2 w))
    | 0b100#3 => .ok (.xor (fieldRd w) (fieldRs1 w) (fieldRs2 w))
    | 0b101#3 => .ok (.srl (fieldRd w) (fieldRs1 w) (fieldRs2 w))
    | 0b110#3 => .ok (.or (fieldRd w) (fieldRs1 w) (fieldRs2 w))
    | 0b111#3 => .ok (.and (fieldRd w) (fieldRs1 w) (fieldRs2 w))
  | 0b0100000#7 =>
    match fieldFunct3 w with
    | 0b000#3 => .ok (.sub (fieldRd w) (fieldRs1 w) (fieldRs2 w))
    | 0b101#3 => .ok (.sra (fieldRd w) (fieldRs1 w) (fieldRs2 w))
    | _ => .error (.unassignedWord w)
  | 0b0000001#7 =>
    match fieldFunct3 w with
    | 0b000#3 => .ok (.mul (fieldRd w) (fieldRs1 w) (fieldRs2 w))
    | 0b001#3 => .ok (.mulh (fieldRd w) (fieldRs1 w) (fieldRs2 w))
    | 0b010#3 => .ok (.mulhsu (fieldRd w) (fieldRs1 w) (fieldRs2 w))
    | 0b011#3 => .ok (.mulhu (fieldRd w) (fieldRs1 w) (fieldRs2 w))
    | 0b100#3 => .ok (.div (fieldRd w) (fieldRs1 w) (fieldRs2 w))
    | 0b101#3 => .ok (.divu (fieldRd w) (fieldRs1 w) (fieldRs2 w))
    | 0b110#3 => .ok (.rem (fieldRd w) (fieldRs1 w) (fieldRs2 w))
    | 0b111#3 => .ok (.remu (fieldRd w) (fieldRs1 w) (fieldRs2 w))
  | _ => .error (.unassignedWord w)

/-- Opcode 1100011 (R98). -/
def decodeBranch (w : Word) : Except DecodeError Instr :=
  match fieldFunct3 w with
  | 0b000#3 => .ok (.beq (fieldRs1 w) (fieldRs2 w) (fieldOffsetB w))
  | 0b001#3 => .ok (.bne (fieldRs1 w) (fieldRs2 w) (fieldOffsetB w))
  | 0b100#3 => .ok (.blt (fieldRs1 w) (fieldRs2 w) (fieldOffsetB w))
  | 0b101#3 => .ok (.bge (fieldRs1 w) (fieldRs2 w) (fieldOffsetB w))
  | 0b110#3 => .ok (.bltu (fieldRs1 w) (fieldRs2 w) (fieldOffsetB w))
  | 0b111#3 => .ok (.bgeu (fieldRs1 w) (fieldRs2 w) (fieldOffsetB w))
  | _ => .error (.unassignedWord w)

/-- Opcode 1100111 (R98). -/
def decodeJalr (w : Word) : Except DecodeError Instr :=
  match fieldFunct3 w with
  | 0b000#3 => .ok (.jalr (fieldRd w) (fieldRs1 w) (fieldImmI w))
  | _ => .error (.unassignedWord w)

/-- Opcode 1110011: the two words of R95 and the six CSR instructions (R93). -/
def decodeSystem (w : Word) : Except DecodeError Instr :=
  match fieldFunct3 w with
  | 0b000#3 =>
    if w = 0x00000073#32 then .ok .ecall
    else if w = 0x00100073#32 then .ok .ebreak
    else .error (.unassignedWord w)
  | 0b001#3 => .ok (.csrrw (fieldRd w) (fieldImmI w) (fieldRs1 w))
  | 0b010#3 => .ok (.csrrs (fieldRd w) (fieldImmI w) (fieldRs1 w))
  | 0b011#3 => .ok (.csrrc (fieldRd w) (fieldImmI w) (fieldRs1 w))
  | 0b101#3 => .ok (.csrrwi (fieldRd w) (fieldImmI w) (fieldRs1 w))
  | 0b110#3 => .ok (.csrrsi (fieldRd w) (fieldImmI w) (fieldRs1 w))
  | 0b111#3 => .ok (.csrrci (fieldRd w) (fieldImmI w) (fieldRs1 w))
  | _ => .error (.unassignedWord w)

/-- Opcode 0101111: the A group (R96, R99; spec/46_a_extension.md R357). -/
def decodeAtomic (w : Word) : Except DecodeError Instr :=
  match fieldFunct3 w with
  | 0b010#3 =>
    match fieldRs3 w with
    | 0b00010#5 => if fieldRs2 w = 0#5 then .ok (.lrW (fieldRd w) (fieldRs1 w) (fieldAq w) (fieldRl w)) else .error (.unassignedWord w)
    | 0b00011#5 => .ok (.scW (fieldRd w) (fieldRs2 w) (fieldRs1 w) (fieldAq w) (fieldRl w))
    | 0b00001#5 => .ok (.amoswapW (fieldRd w) (fieldRs2 w) (fieldRs1 w) (fieldAq w) (fieldRl w))
    | 0b00000#5 => .ok (.amoaddW (fieldRd w) (fieldRs2 w) (fieldRs1 w) (fieldAq w) (fieldRl w))
    | 0b00100#5 => .ok (.amoxorW (fieldRd w) (fieldRs2 w) (fieldRs1 w) (fieldAq w) (fieldRl w))
    | 0b01100#5 => .ok (.amoandW (fieldRd w) (fieldRs2 w) (fieldRs1 w) (fieldAq w) (fieldRl w))
    | 0b01000#5 => .ok (.amoorW (fieldRd w) (fieldRs2 w) (fieldRs1 w) (fieldAq w) (fieldRl w))
    | 0b10000#5 => .ok (.amominW (fieldRd w) (fieldRs2 w) (fieldRs1 w) (fieldAq w) (fieldRl w))
    | 0b10100#5 => .ok (.amomaxW (fieldRd w) (fieldRs2 w) (fieldRs1 w) (fieldAq w) (fieldRl w))
    | 0b11000#5 => .ok (.amominuW (fieldRd w) (fieldRs2 w) (fieldRs1 w) (fieldAq w) (fieldRl w))
    | 0b11100#5 => .ok (.amomaxuW (fieldRd w) (fieldRs2 w) (fieldRs1 w) (fieldAq w) (fieldRl w))
    | _ => .error (.unassignedWord w)
  | 0b011#3 =>
    match fieldRs3 w with
    | 0b00010#5 => if fieldRs2 w = 0#5 then .ok (.lrD (fieldRd w) (fieldRs1 w) (fieldAq w) (fieldRl w)) else .error (.unassignedWord w)
    | 0b00011#5 => .ok (.scD (fieldRd w) (fieldRs2 w) (fieldRs1 w) (fieldAq w) (fieldRl w))
    | 0b00001#5 => .ok (.amoswapD (fieldRd w) (fieldRs2 w) (fieldRs1 w) (fieldAq w) (fieldRl w))
    | 0b00000#5 => .ok (.amoaddD (fieldRd w) (fieldRs2 w) (fieldRs1 w) (fieldAq w) (fieldRl w))
    | 0b00100#5 => .ok (.amoxorD (fieldRd w) (fieldRs2 w) (fieldRs1 w) (fieldAq w) (fieldRl w))
    | 0b01100#5 => .ok (.amoandD (fieldRd w) (fieldRs2 w) (fieldRs1 w) (fieldAq w) (fieldRl w))
    | 0b01000#5 => .ok (.amoorD (fieldRd w) (fieldRs2 w) (fieldRs1 w) (fieldAq w) (fieldRl w))
    | 0b10000#5 => .ok (.amominD (fieldRd w) (fieldRs2 w) (fieldRs1 w) (fieldAq w) (fieldRl w))
    | 0b10100#5 => .ok (.amomaxD (fieldRd w) (fieldRs2 w) (fieldRs1 w) (fieldAq w) (fieldRl w))
    | 0b11000#5 => .ok (.amominuD (fieldRd w) (fieldRs2 w) (fieldRs1 w) (fieldAq w) (fieldRl w))
    | 0b11100#5 => .ok (.amomaxuD (fieldRd w) (fieldRs2 w) (fieldRs1 w) (fieldAq w) (fieldRl w))
    | _ => .error (.unassignedWord w)
  | _ => .error (.unassignedWord w)

/-- Opcode 0000111 (R99). -/
def decodeFpLoad (w : Word) : Except DecodeError Instr :=
  match fieldFunct3 w with
  | 0b010#3 => .ok (.flw (fieldRd w) (fieldRs1 w) (fieldImmI w))
  | 0b011#3 => .ok (.fld (fieldRd w) (fieldRs1 w) (fieldImmI w))
  | _ => .error (.unassignedWord w)

/-- Opcode 0100111 (R99). -/
def decodeFpStore (w : Word) : Except DecodeError Instr :=
  match fieldFunct3 w with
  | 0b010#3 => .ok (.fsw (fieldRs2 w) (fieldRs1 w) (fieldImmS w))
  | 0b011#3 => .ok (.fsd (fieldRs2 w) (fieldRs1 w) (fieldImmS w))
  | _ => .error (.unassignedWord w)

/-- Opcode 1000011: format R4 (R91, R99). -/
def decodeFmadd (w : Word) : Except DecodeError Instr :=
  match fieldFmt w with
  | 0b00#2 => .ok (.fmaddS (fieldRd w) (fieldRs1 w) (fieldRs2 w) (fieldRs3 w) (fieldFunct3 w))
  | 0b01#2 => .ok (.fmaddD (fieldRd w) (fieldRs1 w) (fieldRs2 w) (fieldRs3 w) (fieldFunct3 w))
  | _ => .error (.unassignedWord w)

/-- Opcode 1000111: format R4 (R91, R99). -/
def decodeFmsub (w : Word) : Except DecodeError Instr :=
  match fieldFmt w with
  | 0b00#2 => .ok (.fmsubS (fieldRd w) (fieldRs1 w) (fieldRs2 w) (fieldRs3 w) (fieldFunct3 w))
  | 0b01#2 => .ok (.fmsubD (fieldRd w) (fieldRs1 w) (fieldRs2 w) (fieldRs3 w) (fieldFunct3 w))
  | _ => .error (.unassignedWord w)

/-- Opcode 1001011: format R4 (R91, R99). -/
def decodeFnmsub (w : Word) : Except DecodeError Instr :=
  match fieldFmt w with
  | 0b00#2 => .ok (.fnmsubS (fieldRd w) (fieldRs1 w) (fieldRs2 w) (fieldRs3 w) (fieldFunct3 w))
  | 0b01#2 => .ok (.fnmsubD (fieldRd w) (fieldRs1 w) (fieldRs2 w) (fieldRs3 w) (fieldFunct3 w))
  | _ => .error (.unassignedWord w)

/-- Opcode 1001111: format R4 (R91, R99). -/
def decodeFnmadd (w : Word) : Except DecodeError Instr :=
  match fieldFmt w with
  | 0b00#2 => .ok (.fnmaddS (fieldRd w) (fieldRs1 w) (fieldRs2 w) (fieldRs3 w) (fieldFunct3 w))
  | 0b01#2 => .ok (.fnmaddD (fieldRd w) (fieldRs1 w) (fieldRs2 w) (fieldRs3 w) (fieldFunct3 w))
  | _ => .error (.unassignedWord w)

/-- Opcode 1010011: floating-point computation (R97, R99; spec/48_fd_compare_convert.md R314). -/
def decodeOpFp (w : Word) : Except DecodeError Instr :=
  match fieldFunct7 w with
  | 0b0000000#7 => .ok (.faddS (fieldRd w) (fieldRs1 w) (fieldRs2 w) (fieldFunct3 w))
  | 0b0000001#7 => .ok (.faddD (fieldRd w) (fieldRs1 w) (fieldRs2 w) (fieldFunct3 w))
  | 0b0000100#7 => .ok (.fsubS (fieldRd w) (fieldRs1 w) (fieldRs2 w) (fieldFunct3 w))
  | 0b0000101#7 => .ok (.fsubD (fieldRd w) (fieldRs1 w) (fieldRs2 w) (fieldFunct3 w))
  | 0b0001000#7 => .ok (.fmulS (fieldRd w) (fieldRs1 w) (fieldRs2 w) (fieldFunct3 w))
  | 0b0001001#7 => .ok (.fmulD (fieldRd w) (fieldRs1 w) (fieldRs2 w) (fieldFunct3 w))
  | 0b0001100#7 => .ok (.fdivS (fieldRd w) (fieldRs1 w) (fieldRs2 w) (fieldFunct3 w))
  | 0b0001101#7 => .ok (.fdivD (fieldRd w) (fieldRs1 w) (fieldRs2 w) (fieldFunct3 w))
  | 0b0010000#7 =>
    match fieldFunct3 w with
    | 0b000#3 => .ok (.fsgnjS (fieldRd w) (fieldRs1 w) (fieldRs2 w))
    | 0b001#3 => .ok (.fsgnjnS (fieldRd w) (fieldRs1 w) (fieldRs2 w))
    | 0b010#3 => .ok (.fsgnjxS (fieldRd w) (fieldRs1 w) (fieldRs2 w))
    | _ => .error (.unassignedWord w)
  | 0b0010001#7 =>
    match fieldFunct3 w with
    | 0b000#3 => .ok (.fsgnjD (fieldRd w) (fieldRs1 w) (fieldRs2 w))
    | 0b001#3 => .ok (.fsgnjnD (fieldRd w) (fieldRs1 w) (fieldRs2 w))
    | 0b010#3 => .ok (.fsgnjxD (fieldRd w) (fieldRs1 w) (fieldRs2 w))
    | _ => .error (.unassignedWord w)
  | 0b0010100#7 =>
    match fieldFunct3 w with
    | 0b000#3 => .ok (.fminS (fieldRd w) (fieldRs1 w) (fieldRs2 w))
    | 0b001#3 => .ok (.fmaxS (fieldRd w) (fieldRs1 w) (fieldRs2 w))
    | _ => .error (.unassignedWord w)
  | 0b0010101#7 =>
    match fieldFunct3 w with
    | 0b000#3 => .ok (.fminD (fieldRd w) (fieldRs1 w) (fieldRs2 w))
    | 0b001#3 => .ok (.fmaxD (fieldRd w) (fieldRs1 w) (fieldRs2 w))
    | _ => .error (.unassignedWord w)
  | 0b0100000#7 =>
    match fieldRs2 w with
    | 0b00001#5 => .ok (.fcvtSD (fieldRd w) (fieldRs1 w) (fieldFunct3 w))
    | _ => .error (.unassignedWord w)
  | 0b0100001#7 =>
    match fieldRs2 w with
    | 0b00000#5 => .ok (.fcvtDS (fieldRd w) (fieldRs1 w) (fieldFunct3 w))
    | _ => .error (.unassignedWord w)
  | 0b0101100#7 =>
    match fieldRs2 w with
    | 0b00000#5 => .ok (.fsqrtS (fieldRd w) (fieldRs1 w) (fieldFunct3 w))
    | _ => .error (.unassignedWord w)
  | 0b0101101#7 =>
    match fieldRs2 w with
    | 0b00000#5 => .ok (.fsqrtD (fieldRd w) (fieldRs1 w) (fieldFunct3 w))
    | _ => .error (.unassignedWord w)
  | 0b1010000#7 =>
    match fieldFunct3 w with
    | 0b000#3 => .ok (.fleS (fieldRd w) (fieldRs1 w) (fieldRs2 w))
    | 0b001#3 => .ok (.fltS (fieldRd w) (fieldRs1 w) (fieldRs2 w))
    | 0b010#3 => .ok (.feqS (fieldRd w) (fieldRs1 w) (fieldRs2 w))
    | _ => .error (.unassignedWord w)
  | 0b1010001#7 =>
    match fieldFunct3 w with
    | 0b000#3 => .ok (.fleD (fieldRd w) (fieldRs1 w) (fieldRs2 w))
    | 0b001#3 => .ok (.fltD (fieldRd w) (fieldRs1 w) (fieldRs2 w))
    | 0b010#3 => .ok (.feqD (fieldRd w) (fieldRs1 w) (fieldRs2 w))
    | _ => .error (.unassignedWord w)
  | 0b1100000#7 =>
    match fieldRs2 w with
    | 0b00000#5 => .ok (.fcvtWS (fieldRd w) (fieldRs1 w) (fieldFunct3 w))
    | 0b00001#5 => .ok (.fcvtWuS (fieldRd w) (fieldRs1 w) (fieldFunct3 w))
    | 0b00010#5 => .ok (.fcvtLS (fieldRd w) (fieldRs1 w) (fieldFunct3 w))
    | 0b00011#5 => .ok (.fcvtLuS (fieldRd w) (fieldRs1 w) (fieldFunct3 w))
    | _ => .error (.unassignedWord w)
  | 0b1100001#7 =>
    match fieldRs2 w with
    | 0b00000#5 => .ok (.fcvtWD (fieldRd w) (fieldRs1 w) (fieldFunct3 w))
    | 0b00001#5 => .ok (.fcvtWuD (fieldRd w) (fieldRs1 w) (fieldFunct3 w))
    | 0b00010#5 => .ok (.fcvtLD (fieldRd w) (fieldRs1 w) (fieldFunct3 w))
    | 0b00011#5 => .ok (.fcvtLuD (fieldRd w) (fieldRs1 w) (fieldFunct3 w))
    | _ => .error (.unassignedWord w)
  | 0b1101000#7 =>
    match fieldRs2 w with
    | 0b00000#5 => .ok (.fcvtSW (fieldRd w) (fieldRs1 w) (fieldFunct3 w))
    | 0b00001#5 => .ok (.fcvtSWu (fieldRd w) (fieldRs1 w) (fieldFunct3 w))
    | 0b00010#5 => .ok (.fcvtSL (fieldRd w) (fieldRs1 w) (fieldFunct3 w))
    | 0b00011#5 => .ok (.fcvtSLu (fieldRd w) (fieldRs1 w) (fieldFunct3 w))
    | _ => .error (.unassignedWord w)
  | 0b1101001#7 =>
    match fieldRs2 w with
    | 0b00000#5 => .ok (.fcvtDW (fieldRd w) (fieldRs1 w) (fieldFunct3 w))
    | 0b00001#5 => .ok (.fcvtDWu (fieldRd w) (fieldRs1 w) (fieldFunct3 w))
    | 0b00010#5 => .ok (.fcvtDL (fieldRd w) (fieldRs1 w) (fieldFunct3 w))
    | 0b00011#5 => .ok (.fcvtDLu (fieldRd w) (fieldRs1 w) (fieldFunct3 w))
    | _ => .error (.unassignedWord w)
  | 0b1110000#7 =>
    match fieldRs2 w with
    | 0b00000#5 =>
      match fieldFunct3 w with
      | 0b000#3 => .ok (.fmvXS (fieldRd w) (fieldRs1 w))
      | 0b001#3 => .ok (.fclassS (fieldRd w) (fieldRs1 w))
      | _ => .error (.unassignedWord w)
    | _ => .error (.unassignedWord w)
  | 0b1110001#7 =>
    match fieldRs2 w with
    | 0b00000#5 =>
      match fieldFunct3 w with
      | 0b000#3 => .ok (.fmvXD (fieldRd w) (fieldRs1 w))
      | 0b001#3 => .ok (.fclassD (fieldRd w) (fieldRs1 w))
      | _ => .error (.unassignedWord w)
    | _ => .error (.unassignedWord w)
  | 0b1111000#7 =>
    match fieldRs2 w with
    | 0b00000#5 =>
      match fieldFunct3 w with
      | 0b000#3 => .ok (.fmvSX (fieldRd w) (fieldRs1 w))
      | _ => .error (.unassignedWord w)
    | _ => .error (.unassignedWord w)
  | 0b1111001#7 =>
    match fieldRs2 w with
    | 0b00000#5 =>
      match fieldFunct3 w with
      | 0b000#3 => .ok (.fmvDX (fieldRd w) (fieldRs1 w))
      | _ => .error (.unassignedWord w)
    | _ => .error (.unassignedWord w)
  | _ => .error (.unassignedWord w)

/-- The instruction a word stands for (spec/30_encoding.md R100, whatever the groups present): total. -/
def decode (w : Word) : Except DecodeError Instr :=
  match fieldOpcode w with
  | 0b0000011#7 => decodeLoad w
  | 0b0001111#7 => decodeFence w
  | 0b0010011#7 => decodeOpImm w
  | 0b0100011#7 => decodeStore w
  | 0b0110011#7 => decodeOp w
  | 0b1100011#7 => decodeBranch w
  | 0b1100111#7 => decodeJalr w
  | 0b1110011#7 => decodeSystem w
  | 0b0101111#7 => decodeAtomic w
  | 0b0000111#7 => decodeFpLoad w
  | 0b0100111#7 => decodeFpStore w
  | 0b1000011#7 => decodeFmadd w
  | 0b1000111#7 => decodeFmsub w
  | 0b1001011#7 => decodeFnmsub w
  | 0b1001111#7 => decodeFnmadd w
  | 0b1010011#7 => decodeOpFp w
  | 0b0010111#7 => .ok (.auipc (fieldRd w) (fieldImmU w))
  | 0b0110111#7 => .ok (.lui (fieldRd w) (fieldImmU w))
  | 0b1101111#7 => .ok (.jal (fieldRd w) (fieldOffsetJ w))
  | opcode => .error (.unassignedOpcode opcode)

/-! ## Bytes -/

/-- The word of four bytes, the first at the lowest address: it holds bits 7:0 (spec/20_memory.md R51, R58). -/
def wordOfBytes (b0 b1 b2 b3 : Byte) : Word := b3 ++ b2 ++ b1 ++ b0

/-- The four bytes of a word as memory holds them, lowest address first (spec/20_memory.md R51). -/
def bytesOfWord (w : Word) : List Byte :=
  [w.extractLsb' 0 8, w.extractLsb' 8 8, w.extractLsb' 16 8, w.extractLsb' 24 8]

/-- The instruction at the front of a list of bytes and the bytes after it. Every instruction is four bytes
(spec/30_encoding.md R82). -/
def decodeBytes : List Byte → Except DecodeError (Instr × List Byte)
  | b0 :: b1 :: b2 :: b3 :: rest =>
    match decode (wordOfBytes b0 b1 b2 b3) with
    | .ok i => .ok (i, rest)
    | .error e => .error e
  | bytes => .error (.truncated bytes.length)

/-- The 32-bit word of an instruction given as `nbits` bits `w`, every bit above them zero. -/
def tableWord (nbits w : Nat) : Word := BitVec.ofNat 32 (w % 2 ^ nbits)

/-- What the decoder reads from an instruction whose bits are `w`, laid out in memory as the hart stores words. -/
def decodeTableWord (nbits w : Nat) : Option Instr :=
  match decodeBytes (bytesOfWord (tableWord nbits w)) with
  | .ok (i, _) => some i
  | .error _ => none

/-! ## Encoding -/

/-- Format R (spec/30_encoding.md R80). -/
def encodeR (funct7 : BitVec 7) (rs2 rs1 : Reg) (funct3 : BitVec 3) (rd : Reg) (opcode : BitVec 7) : Word :=
  funct7 ++ rs2 ++ rs1 ++ funct3 ++ rd ++ opcode

/-- Format I (spec/30_encoding.md R86). -/
def encodeI (imm : BitVec 12) (rs1 : Reg) (funct3 : BitVec 3) (rd : Reg) (opcode : BitVec 7) : Word :=
  imm ++ rs1 ++ funct3 ++ rd ++ opcode

/-- Format S: the immediate in two parts (spec/30_encoding.md R87). -/
def encodeS (imm : BitVec 12) (rs2 rs1 : Reg) (funct3 : BitVec 3) (opcode : BitVec 7) : Word :=
  imm.extractLsb' 5 7 ++ rs2 ++ rs1 ++ funct3 ++ imm.extractLsb' 0 5 ++ opcode

/-- Format SB: `inst[31] = offset[12]`, `inst[30:25] = offset[10:5]`, `inst[11:8] = offset[4:1]`,
`inst[7] = offset[11]` (spec/30_encoding.md R88). -/
def encodeB (offset : BitVec 13) (rs2 rs1 : Reg) (funct3 : BitVec 3) (opcode : BitVec 7) : Word :=
  offset.extractLsb' 12 1 ++ offset.extractLsb' 5 6 ++ rs2 ++ rs1 ++ funct3 ++ offset.extractLsb' 1 4 ++
    offset.extractLsb' 11 1 ++ opcode

/-- Format U (spec/30_encoding.md R89). -/
def encodeU (imm : BitVec 20) (rd : Reg) (opcode : BitVec 7) : Word := imm ++ rd ++ opcode

/-- Format UJ: `inst[31] = offset[20]`, `inst[30:21] = offset[10:1]`, `inst[20] = offset[11]`,
`inst[19:12] = offset[19:12]` (spec/30_encoding.md R90). -/
def encodeJ (offset : BitVec 21) (rd : Reg) (opcode : BitVec 7) : Word :=
  offset.extractLsb' 20 1 ++ offset.extractLsb' 1 10 ++ offset.extractLsb' 11 1 ++ offset.extractLsb' 12 8 ++
    rd ++ opcode

/-- Format R4 (spec/30_encoding.md R91). -/
def encodeR4 (rs3 : Reg) (fmt : BitVec 2) (rs2 rs1 : Reg) (rm : BitVec 3) (rd : Reg) (opcode : BitVec 7) : Word :=
  rs3 ++ fmt ++ rs2 ++ rs1 ++ rm ++ rd ++ opcode

/-- An atomic: format R with funct7 split into the operation, `aq` and `rl` (spec/30_encoding.md R96). -/
def encodeA (funct5 : BitVec 5) (aq rl : BitVec 1) (rs2 rs1 : Reg) (funct3 : BitVec 3) (rd : Reg) : Word :=
  funct5 ++ aq ++ rl ++ rs2 ++ rs1 ++ funct3 ++ rd ++ 0b0101111#7

/-- The word of an instruction. It is the trap value of the IllegalInstruction exceptions an instruction raises
(spec/60_exceptions.md R403): the encoding of a decoded word is that word. -/
def encode : Instr → Word
  | .lb rd rs1 imm => encodeI imm rs1 0b000#3 rd 0b0000011#7
  | .lh rd rs1 imm => encodeI imm rs1 0b001#3 rd 0b0000011#7
  | .lw rd rs1 imm => encodeI imm rs1 0b010#3 rd 0b0000011#7
  | .lbu rd rs1 imm => encodeI imm rs1 0b100#3 rd 0b0000011#7
  | .lhu rd rs1 imm => encodeI imm rs1 0b101#3 rd 0b0000011#7
  | .fence rd rs1 imm => encodeI imm rs1 0b000#3 rd 0b0001111#7
  | .fenceI rd rs1 imm => encodeI imm rs1 0b001#3 rd 0b0001111#7
  | .addi rd rs1 imm => encodeI imm rs1 0b000#3 rd 0b0010011#7
  | .slli rd rs1 shamt => encodeR 0b0000000#7 shamt rs1 0b001#3 rd 0b0010011#7
  | .slti rd rs1 imm => encodeI imm rs1 0b010#3 rd 0b0010011#7
  | .sltiu rd rs1 imm => encodeI imm rs1 0b011#3 rd 0b0010011#7
  | .xori rd rs1 imm => encodeI imm rs1 0b100#3 rd 0b0010011#7
  | .srli rd rs1 shamt => encodeR 0b0000000#7 shamt rs1 0b101#3 rd 0b0010011#7
  | .srai rd rs1 shamt => encodeR 0b0100000#7 shamt rs1 0b101#3 rd 0b0010011#7
  | .ori rd rs1 imm => encodeI imm rs1 0b110#3 rd 0b0010011#7
  | .andi rd rs1 imm => encodeI imm rs1 0b111#3 rd 0b0010011#7
  | .auipc rd imm => encodeU imm rd 0b0010111#7
  | .sb rs2 rs1 imm => encodeS imm rs2 rs1 0b000#3 0b0100011#7
  | .sh rs2 rs1 imm => encodeS imm rs2 rs1 0b001#3 0b0100011#7
  | .sw rs2 rs1 imm => encodeS imm rs2 rs1 0b010#3 0b0100011#7
  | .add rd rs1 rs2 => encodeR 0b0000000#7 rs2 rs1 0b000#3 rd 0b0110011#7
  | .sub rd rs1 rs2 => encodeR 0b0100000#7 rs2 rs1 0b000#3 rd 0b0110011#7
  | .sll rd rs1 rs2 => encodeR 0b0000000#7 rs2 rs1 0b001#3 rd 0b0110011#7
  | .slt rd rs1 rs2 => encodeR 0b0000000#7 rs2 rs1 0b010#3 rd 0b0110011#7
  | .sltu rd rs1 rs2 => encodeR 0b0000000#7 rs2 rs1 0b011#3 rd 0b0110011#7
  | .xor rd rs1 rs2 => encodeR 0b0000000#7 rs2 rs1 0b100#3 rd 0b0110011#7
  | .srl rd rs1 rs2 => encodeR 0b0000000#7 rs2 rs1 0b101#3 rd 0b0110011#7
  | .sra rd rs1 rs2 => encodeR 0b0100000#7 rs2 rs1 0b101#3 rd 0b0110011#7
  | .or rd rs1 rs2 => encodeR 0b0000000#7 rs2 rs1 0b110#3 rd 0b0110011#7
  | .and rd rs1 rs2 => encodeR 0b0000000#7 rs2 rs1 0b111#3 rd 0b0110011#7
  | .lui rd imm => encodeU imm rd 0b0110111#7
  | .beq rs1 rs2 offset => encodeB offset rs2 rs1 0b000#3 0b1100011#7
  | .bne rs1 rs2 offset => encodeB offset rs2 rs1 0b001#3 0b1100011#7
  | .blt rs1 rs2 offset => encodeB offset rs2 rs1 0b100#3 0b1100011#7
  | .bge rs1 rs2 offset => encodeB offset rs2 rs1 0b101#3 0b1100011#7
  | .bltu rs1 rs2 offset => encodeB offset rs2 rs1 0b110#3 0b1100011#7
  | .bgeu rs1 rs2 offset => encodeB offset rs2 rs1 0b111#3 0b1100011#7
  | .jalr rd rs1 imm => encodeI imm rs1 0b000#3 rd 0b1100111#7
  | .jal rd offset => encodeJ offset rd 0b1101111#7
  | .ecall => 0x00000073#32
  | .ebreak => 0x00100073#32
  | .csrrw rd csr rs1 => encodeI csr rs1 0b001#3 rd 0b1110011#7
  | .csrrs rd csr rs1 => encodeI csr rs1 0b010#3 rd 0b1110011#7
  | .csrrc rd csr rs1 => encodeI csr rs1 0b011#3 rd 0b1110011#7
  | .csrrwi rd csr uimm => encodeI csr uimm 0b101#3 rd 0b1110011#7
  | .csrrsi rd csr uimm => encodeI csr uimm 0b110#3 rd 0b1110011#7
  | .csrrci rd csr uimm => encodeI csr uimm 0b111#3 rd 0b1110011#7
  | .mul rd rs1 rs2 => encodeR 0b0000001#7 rs2 rs1 0b000#3 rd 0b0110011#7
  | .mulh rd rs1 rs2 => encodeR 0b0000001#7 rs2 rs1 0b001#3 rd 0b0110011#7
  | .mulhsu rd rs1 rs2 => encodeR 0b0000001#7 rs2 rs1 0b010#3 rd 0b0110011#7
  | .mulhu rd rs1 rs2 => encodeR 0b0000001#7 rs2 rs1 0b011#3 rd 0b0110011#7
  | .div rd rs1 rs2 => encodeR 0b0000001#7 rs2 rs1 0b100#3 rd 0b0110011#7
  | .divu rd rs1 rs2 => encodeR 0b0000001#7 rs2 rs1 0b101#3 rd 0b0110011#7
  | .rem rd rs1 rs2 => encodeR 0b0000001#7 rs2 rs1 0b110#3 rd 0b0110011#7
  | .remu rd rs1 rs2 => encodeR 0b0000001#7 rs2 rs1 0b111#3 rd 0b0110011#7
  | .lrW rd rs1 aq rl => encodeA 0b00010#5 aq rl 0b00000#5 rs1 0b010#3 rd
  | .lrD rd rs1 aq rl => encodeA 0b00010#5 aq rl 0b00000#5 rs1 0b011#3 rd
  | .scW rd rs2 rs1 aq rl => encodeA 0b00011#5 aq rl rs2 rs1 0b010#3 rd
  | .scD rd rs2 rs1 aq rl => encodeA 0b00011#5 aq rl rs2 rs1 0b011#3 rd
  | .amoswapW rd rs2 rs1 aq rl => encodeA 0b00001#5 aq rl rs2 rs1 0b010#3 rd
  | .amoswapD rd rs2 rs1 aq rl => encodeA 0b00001#5 aq rl rs2 rs1 0b011#3 rd
  | .amoaddW rd rs2 rs1 aq rl => encodeA 0b00000#5 aq rl rs2 rs1 0b010#3 rd
  | .amoaddD rd rs2 rs1 aq rl => encodeA 0b00000#5 aq rl rs2 rs1 0b011#3 rd
  | .amoxorW rd rs2 rs1 aq rl => encodeA 0b00100#5 aq rl rs2 rs1 0b010#3 rd
  | .amoxorD rd rs2 rs1 aq rl => encodeA 0b00100#5 aq rl rs2 rs1 0b011#3 rd
  | .amoandW rd rs2 rs1 aq rl => encodeA 0b01100#5 aq rl rs2 rs1 0b010#3 rd
  | .amoandD rd rs2 rs1 aq rl => encodeA 0b01100#5 aq rl rs2 rs1 0b011#3 rd
  | .amoorW rd rs2 rs1 aq rl => encodeA 0b01000#5 aq rl rs2 rs1 0b010#3 rd
  | .amoorD rd rs2 rs1 aq rl => encodeA 0b01000#5 aq rl rs2 rs1 0b011#3 rd
  | .amominW rd rs2 rs1 aq rl => encodeA 0b10000#5 aq rl rs2 rs1 0b010#3 rd
  | .amominD rd rs2 rs1 aq rl => encodeA 0b10000#5 aq rl rs2 rs1 0b011#3 rd
  | .amomaxW rd rs2 rs1 aq rl => encodeA 0b10100#5 aq rl rs2 rs1 0b010#3 rd
  | .amomaxD rd rs2 rs1 aq rl => encodeA 0b10100#5 aq rl rs2 rs1 0b011#3 rd
  | .amominuW rd rs2 rs1 aq rl => encodeA 0b11000#5 aq rl rs2 rs1 0b010#3 rd
  | .amominuD rd rs2 rs1 aq rl => encodeA 0b11000#5 aq rl rs2 rs1 0b011#3 rd
  | .amomaxuW rd rs2 rs1 aq rl => encodeA 0b11100#5 aq rl rs2 rs1 0b010#3 rd
  | .amomaxuD rd rs2 rs1 aq rl => encodeA 0b11100#5 aq rl rs2 rs1 0b011#3 rd
  | .flw rd rs1 imm => encodeI imm rs1 0b010#3 rd 0b0000111#7
  | .fld rd rs1 imm => encodeI imm rs1 0b011#3 rd 0b0000111#7
  | .fsw rs2 rs1 imm => encodeS imm rs2 rs1 0b010#3 0b0100111#7
  | .fsd rs2 rs1 imm => encodeS imm rs2 rs1 0b011#3 0b0100111#7
  | .faddS rd rs1 rs2 rm => encodeR 0b0000000#7 rs2 rs1 rm rd 0b1010011#7
  | .faddD rd rs1 rs2 rm => encodeR 0b0000001#7 rs2 rs1 rm rd 0b1010011#7
  | .fsubS rd rs1 rs2 rm => encodeR 0b0000100#7 rs2 rs1 rm rd 0b1010011#7
  | .fsubD rd rs1 rs2 rm => encodeR 0b0000101#7 rs2 rs1 rm rd 0b1010011#7
  | .fmulS rd rs1 rs2 rm => encodeR 0b0001000#7 rs2 rs1 rm rd 0b1010011#7
  | .fmulD rd rs1 rs2 rm => encodeR 0b0001001#7 rs2 rs1 rm rd 0b1010011#7
  | .fdivS rd rs1 rs2 rm => encodeR 0b0001100#7 rs2 rs1 rm rd 0b1010011#7
  | .fdivD rd rs1 rs2 rm => encodeR 0b0001101#7 rs2 rs1 rm rd 0b1010011#7
  | .fsqrtS rd rs1 rm => encodeR 0b0101100#7 0b00000#5 rs1 rm rd 0b1010011#7
  | .fsqrtD rd rs1 rm => encodeR 0b0101101#7 0b00000#5 rs1 rm rd 0b1010011#7
  | .fmaddS rd rs1 rs2 rs3 rm => encodeR4 rs3 0b00#2 rs2 rs1 rm rd 0b1000011#7
  | .fmaddD rd rs1 rs2 rs3 rm => encodeR4 rs3 0b01#2 rs2 rs1 rm rd 0b1000011#7
  | .fmsubS rd rs1 rs2 rs3 rm => encodeR4 rs3 0b00#2 rs2 rs1 rm rd 0b1000111#7
  | .fmsubD rd rs1 rs2 rs3 rm => encodeR4 rs3 0b01#2 rs2 rs1 rm rd 0b1000111#7
  | .fnmsubS rd rs1 rs2 rs3 rm => encodeR4 rs3 0b00#2 rs2 rs1 rm rd 0b1001011#7
  | .fnmsubD rd rs1 rs2 rs3 rm => encodeR4 rs3 0b01#2 rs2 rs1 rm rd 0b1001011#7
  | .fnmaddS rd rs1 rs2 rs3 rm => encodeR4 rs3 0b00#2 rs2 rs1 rm rd 0b1001111#7
  | .fnmaddD rd rs1 rs2 rs3 rm => encodeR4 rs3 0b01#2 rs2 rs1 rm rd 0b1001111#7
  | .fsgnjS rd rs1 rs2 => encodeR 0b0010000#7 rs2 rs1 0b000#3 rd 0b1010011#7
  | .fsgnjD rd rs1 rs2 => encodeR 0b0010001#7 rs2 rs1 0b000#3 rd 0b1010011#7
  | .fsgnjnS rd rs1 rs2 => encodeR 0b0010000#7 rs2 rs1 0b001#3 rd 0b1010011#7
  | .fsgnjnD rd rs1 rs2 => encodeR 0b0010001#7 rs2 rs1 0b001#3 rd 0b1010011#7
  | .fsgnjxS rd rs1 rs2 => encodeR 0b0010000#7 rs2 rs1 0b010#3 rd 0b1010011#7
  | .fsgnjxD rd rs1 rs2 => encodeR 0b0010001#7 rs2 rs1 0b010#3 rd 0b1010011#7
  | .fminS rd rs1 rs2 => encodeR 0b0010100#7 rs2 rs1 0b000#3 rd 0b1010011#7
  | .fminD rd rs1 rs2 => encodeR 0b0010101#7 rs2 rs1 0b000#3 rd 0b1010011#7
  | .fmaxS rd rs1 rs2 => encodeR 0b0010100#7 rs2 rs1 0b001#3 rd 0b1010011#7
  | .fmaxD rd rs1 rs2 => encodeR 0b0010101#7 rs2 rs1 0b001#3 rd 0b1010011#7
  | .feqS rd rs1 rs2 => encodeR 0b1010000#7 rs2 rs1 0b010#3 rd 0b1010011#7
  | .feqD rd rs1 rs2 => encodeR 0b1010001#7 rs2 rs1 0b010#3 rd 0b1010011#7
  | .fltS rd rs1 rs2 => encodeR 0b1010000#7 rs2 rs1 0b001#3 rd 0b1010011#7
  | .fltD rd rs1 rs2 => encodeR 0b1010001#7 rs2 rs1 0b001#3 rd 0b1010011#7
  | .fleS rd rs1 rs2 => encodeR 0b1010000#7 rs2 rs1 0b000#3 rd 0b1010011#7
  | .fleD rd rs1 rs2 => encodeR 0b1010001#7 rs2 rs1 0b000#3 rd 0b1010011#7
  | .fclassS rd rs1 => encodeR 0b1110000#7 0b00000#5 rs1 0b001#3 rd 0b1010011#7
  | .fclassD rd rs1 => encodeR 0b1110001#7 0b00000#5 rs1 0b001#3 rd 0b1010011#7
  | .fmvSX rd rs1 => encodeR 0b1111000#7 0b00000#5 rs1 0b000#3 rd 0b1010011#7
  | .fmvDX rd rs1 => encodeR 0b1111001#7 0b00000#5 rs1 0b000#3 rd 0b1010011#7
  | .fmvXS rd rs1 => encodeR 0b1110000#7 0b00000#5 rs1 0b000#3 rd 0b1010011#7
  | .fmvXD rd rs1 => encodeR 0b1110001#7 0b00000#5 rs1 0b000#3 rd 0b1010011#7
  | .fcvtDS rd rs1 rm => encodeR 0b0100001#7 0b00000#5 rs1 rm rd 0b1010011#7
  | .fcvtSD rd rs1 rm => encodeR 0b0100000#7 0b00001#5 rs1 rm rd 0b1010011#7
  | .fcvtSW rd rs1 rm => encodeR 0b1101000#7 0b00000#5 rs1 rm rd 0b1010011#7
  | .fcvtDW rd rs1 rm => encodeR 0b1101001#7 0b00000#5 rs1 rm rd 0b1010011#7
  | .fcvtSL rd rs1 rm => encodeR 0b1101000#7 0b00010#5 rs1 rm rd 0b1010011#7
  | .fcvtDL rd rs1 rm => encodeR 0b1101001#7 0b00010#5 rs1 rm rd 0b1010011#7
  | .fcvtSWu rd rs1 rm => encodeR 0b1101000#7 0b00001#5 rs1 rm rd 0b1010011#7
  | .fcvtDWu rd rs1 rm => encodeR 0b1101001#7 0b00001#5 rs1 rm rd 0b1010011#7
  | .fcvtSLu rd rs1 rm => encodeR 0b1101000#7 0b00011#5 rs1 rm rd 0b1010011#7
  | .fcvtDLu rd rs1 rm => encodeR 0b1101001#7 0b00011#5 rs1 rm rd 0b1010011#7
  | .fcvtWS rd rs1 rm => encodeR 0b1100000#7 0b00000#5 rs1 rm rd 0b1010011#7
  | .fcvtWD rd rs1 rm => encodeR 0b1100001#7 0b00000#5 rs1 rm rd 0b1010011#7
  | .fcvtLS rd rs1 rm => encodeR 0b1100000#7 0b00010#5 rs1 rm rd 0b1010011#7
  | .fcvtLD rd rs1 rm => encodeR 0b1100001#7 0b00010#5 rs1 rm rd 0b1010011#7
  | .fcvtWuS rd rs1 rm => encodeR 0b1100000#7 0b00001#5 rs1 rm rd 0b1010011#7
  | .fcvtWuD rd rs1 rm => encodeR 0b1100001#7 0b00001#5 rs1 rm rd 0b1010011#7
  | .fcvtLuS rd rs1 rm => encodeR 0b1100000#7 0b00011#5 rs1 rm rd 0b1010011#7
  | .fcvtLuD rd rs1 rm => encodeR 0b1100001#7 0b00011#5 rs1 rm rd 0b1010011#7

end Sys2Proof
end

