-- ==== Sys2Proof/Config.lean ====
section
/-! DEFINITION. The parameters of the model (spec/00_scope.md R15): those this spec decides are
constants, those a model may choose are fields of `Config`, and the open input `sc_may_succeed` is an
uninterpreted constant. -/

namespace Sys2Proof

/-- Which floating-point groups decode: `HAS_D` requires `HAS_F` (spec/00_scope.md R15). -/
inductive FpGroups where
  /-- `HAS_F` and `HAS_D` false: no f registers, no control register. -/
  | absent
  /-- `HAS_F` only: FLEN = 32. -/
  | single
  /-- `HAS_F` and `HAS_D`: FLEN = 64. -/
  | double
  deriving DecidableEq, Repr

/-- The parameters of spec/00_scope.md R15 that a model chooses. They are fixed for a machine. -/
structure Config where
  /-- `HAS_M`: the 8 multiply/divide instructions decode. -/
  hasM : Bool
  /-- `HAS_A`: the 11 `.w` atomic instructions decode. -/
  hasA : Bool
  /-- `HAS_F` and `HAS_D`. -/
  fp : FpGroups
  /-- `RES_GRANULE` is 2 to the power of this plus 2: a power of two, at least 4. -/
  granuleExp : Nat
  deriving DecidableEq, Repr

/-- `HAS_F`. -/
def Config.hasF (c : Config) : Bool := c.fp != .absent

/-- `HAS_D`. -/
def Config.hasD (c : Config) : Bool := c.fp == .double

/-- FLEN, the width of an f register (spec/10_state.md R27); 0 where there is none. -/
def Config.flen (c : Config) : Nat :=
  match c.fp with
  | .absent => 0
  | .single => 32
  | .double => 64

/-- `RES_GRANULE`, the bytes one reservation covers (spec/46_a_extension.md R332). -/
def Config.resGranule (c : Config) : Nat := 2 ^ (c.granuleExp + 2)

/-- Every group present, the least reservation granule.
DESIGN CHOICE (log entries 2 and 5), unsafe: R15's decided default of the groups is `Config.base`, and says
that a model may take true; RES_GRANULE is OPEN. -/
def Config.full : Config := { hasM := true, hasA := true, fp := .double, granuleExp := 0 }

/-- The decided default of spec/00_scope.md R15: the 47 base instructions only. -/
def Config.base : Config := { hasM := false, hasA := false, fp := .absent, granuleExp := 0 }

/-- `PC_RESET` (spec/00_scope.md R15). -/
def Config.pcReset : Word := 0x00400000#32

/-- The least address of `MEM_VALID` (spec/20_memory.md R57). -/
def Config.memLow : Nat := 0x00400000

/-- One more than the greatest address of `MEM_VALID`: the 32-bit space ends there (spec/10_state.md R33). -/
def Config.memTop : Nat := 2 ^ 32

/-- What a byte of `MEM_VALID` reads as that nothing has loaded or stored.
DESIGN CHOICE (log entry 4), unsafe: spec/10_state.md R37 leaves it unspecified. -/
def Config.unwrittenByte : Byte := 0#8

/-- The OPEN input `sc_may_succeed` of spec/46_a_extension.md R356, one boolean per completed `sc.w`; it has
no body, so nothing can be proved of a value of it. -/
opaque Config.scMaySucceed : Nat → Bool

end Sys2Proof
end

