-- ==== Sys2Proof/Machine/State.lean ====
section
/-! DEFINITION. The state of the hart (spec/10_state.md) as plain data, the state after reset, and the reasons a
step can stop. -/

namespace Sys2Proof.Machine

/-- The nine exceptions (spec/60_exceptions.md R400). -/
inductive Cause where
  /-- Code 0 (R401). -/
  | instructionAddressMisaligned
  /-- Code 1 (R402). -/
  | instructionAccessFault
  /-- Code 2 (R403). -/
  | illegalInstruction
  /-- Code 3 (R404). -/
  | breakpoint
  /-- Code 4 (R405). -/
  | loadAddressMisaligned
  /-- Code 5 (R406). -/
  | loadAccessFault
  /-- Code 6 (R407). -/
  | storeAmoAddressMisaligned
  /-- Code 7 (R408). -/
  | storeAmoAccessFault
  /-- Code 8 (R409). -/
  | environmentCall
  deriving DecidableEq, Repr

/-- The recorded part of a trap outcome: `Trap(cause, pc, tval, state)` of spec/60_exceptions.md R410 without
its `state`, which is the rest of `State`. -/
structure Trap where
  /-- The exception. -/
  cause : Cause
  /-- The address of the raising instruction. -/
  pc : Word
  /-- The trap value. -/
  tval : Word
  deriving DecidableEq, Repr

/-- Memory: the bytes that differ from what an unlisted byte reads as, by strictly rising address
(spec/10_state.md R33); `Memory.wf` in Ops.lean states the form. -/
abbrev Memory := List Host.Cell

/-- The whole state of the hart (spec/10_state.md, introduction), plus three fields of the model's own: `cfg`,
`trap` and `scIndex`. -/
structure State where
  /-- The parameters the machine was built with (spec/00_scope.md R15); no step changes them (log entry 2). -/
  cfg : Config
  /-- x0 .. x31 (R20); x0 is held as 0 and read through `State.getX`, written through `State.setX` (R21). -/
  x : Vector Word 32
  /-- The address of the instruction to execute (R24). -/
  pc : Word
  /-- f0 .. f31 (R27), each a pattern of FLEN bits, the bits above FLEN zero. -/
  f : Vector Double 32
  /-- The floating-point control and status register: `frm` is bits 7:5, `fflags` bits 4:0 (R32). -/
  fcsr : BitVec 8
  /-- The load reservation (R34): none, or the least address of the reserved block. -/
  reservation : Option Word
  /-- The bytes of `MEM_VALID` (R33). -/
  mem : Memory
  /-- The addresses of the bytes stored since reset or the last `fence.i`, strictly rising (R35). -/
  dirty : List Nat
  /-- The trap outcome being handed to the environment, if the last instruction raised one
  (spec/60_exceptions.md R410; log entry 1). -/
  trap : Option Trap
  /-- Which value of the open input `sc_may_succeed` the next completed `sc.w` consumes
  (spec/46_a_extension.md R356; log entry 6). -/
  scIndex : Nat
  deriving DecidableEq, Repr

/-- Why the machine stops: it only ever does when the environment says so. -/
inductive Fault where
  /-- The environment answered Halt to the trap outcome (cause, pc, tval): the run is over and that outcome is its
  result (spec/60_exceptions.md R411; spec/70_reset_and_hazards.md R442). Raised by the step that hands the
  outcome over, never by an instruction. Safe: it is the spec's own end of a run. -/
  | halted (cause : Cause) (pc tval : Word)
  deriving DecidableEq, Repr

/-- Why a step has no outcome in the model. -/
inductive Refusal where
  /-- An instruction whose meaning is not written. No arm of `exec` answers it. Safe. -/
  | notModelled (mnemonic : String)
  /-- The fetch at `pc` overlaps bytes stored since the last `fence.i`: the step has no outcome
  (spec/20_memory.md R58, R66; spec/93_implementation_defined.md U9). Raised by the fetch. Safe: the hardware
  returns the old or the new bytes, and nothing is claimed of either. -/
  | staleFetch (pc : Word)
  /-- The environment resumed with something that is no state of this hart, for example a pc that is not a multiple
  of 4 (spec/10_state.md R25; log entry 8). Raised by the step that hands a trap outcome over. Safe. -/
  | envNotHartState
  deriving DecidableEq, Repr

/-- What a step or an instruction answers. -/
abbrev Result := Host.Outcome State Fault Refusal

/-- The state after reset (spec/10_state.md R37; spec/70_reset_and_hazards.md R440). The spec gives pc, x0, the
reservation and `dirty`; the other registers and memory are unspecified there and hold named values here
(log entries 3 and 4, DESIGN CHOICE, unsafe). -/
def State.reset : State :=
  { cfg := Config.full
    x := Vector.replicate 32 0#32
    pc := Config.pcReset
    f := Vector.replicate 32 0#64
    fcsr := 0#8
    reservation := none
    mem := []
    dirty := []
    trap := none
    scIndex := 0 }

end Sys2Proof.Machine
end

