-- ==== Sys2Proof/Machine/Ops.lean ====
section
/-! DEFINITION. The operations over registers, memory, the reservation and the trap outcome that the meanings of
the instructions share. -/

namespace Sys2Proof.Machine

/-! ## Integer registers and the program counter -/

/-- `x[r]`: x0 reads 0 (spec/10_state.md R21). -/
def State.getX (s : State) (r : Reg) : Word :=
  if r = 0#5 then 0#32 else s.x[r.toNat]'r.isLt

/-- `x[r] <- v`: a write to x0 is dropped (spec/10_state.md R21). -/
def State.setX (s : State) (r : Reg) (v : Word) : State :=
  if r = 0#5 then s else { s with x := s.x.set r.toNat v r.isLt }

/-- `pc <- pc + 4`, what follows every instruction that does not set `pc` (spec/00_scope.md R14). -/
def State.advance (s : State) : State := { s with pc := s.pc + 4#32 }

/-- `x[r] <- v; pc <- pc + 4`: how every instruction with an integer result ends. -/
def State.finishX (s : State) (r : Reg) (v : Word) : Result := .next (s.setX r v).advance

/-! ## Floating-point registers as bit patterns -/

/-- `f[r]` (spec/00_scope.md R9). None is hardwired (spec/10_state.md R27). -/
def State.getF (s : State) (r : Reg) : Double := s.f[r.toNat]'r.isLt

/-- `f[r] <- v` (spec/00_scope.md R9). -/
def State.setF (s : State) (r : Reg) (v : Double) : State := { s with f := s.f.set r.toNat v r.isLt }

/-! ## Exceptions -/

/-- The cause code (spec/60_exceptions.md R400). -/
def causeCode : Cause → Nat
  | .instructionAddressMisaligned => 0
  | .instructionAccessFault => 1
  | .illegalInstruction => 2
  | .breakpoint => 3
  | .loadAddressMisaligned => 4
  | .loadAccessFault => 5
  | .storeAmoAddressMisaligned => 6
  | .storeAmoAccessFault => 7
  | .environmentCall => 8

/-- Taking an exception (spec/60_exceptions.md R410, R415): the outcome `Trap(cause, pc, tval, state)`, with `pc`
the address of the raising instruction and `state` the state before it. The outcome is recorded in `trap`, and
the next step hands it to the environment; no register, byte of memory, flag or reservation changes. -/
def raise (cause : Cause) (tval : Word) (s : State) : Result :=
  .next { s with trap := some { cause := cause, pc := s.pc, tval := tval } }

/-- IllegalInstruction: the trap value is the instruction word (spec/60_exceptions.md R403). -/
def raiseIllegal (i : Instr) (s : State) : Result := raise .illegalInstruction (encode i) s

/-- An instruction of an optional group: where the group is absent its word raises IllegalInstruction
(spec/30_encoding.md R100). -/
def whenPresent (present : Bool) (i : Instr) (s : State) (k : Result) : Result :=
  if present then k else raiseIllegal i s

/-! ## Memory -/

/-- `MEM_VALID` (spec/20_memory.md R57). -/
def memValid (a : Nat) : Bool := decide (Config.memLow ≤ a) && decide (a < Config.memTop)

/-- Every byte of an access of `n` bytes at `a` exists; addresses are modulo 2^32 (spec/20_memory.md R52). -/
def bytesValid (a : Word) (n : Nat) : Bool :=
  (List.range n).all fun k => memValid ((a.toNat + k) % Config.memTop)

/-- An access of `n` bytes at `a` is aligned (spec/20_memory.md R55). -/
def aligned (a : Word) (n : Nat) : Bool := a.toNat % n == 0

/-- The byte at an address. -/
def Memory.read : Memory → Nat → Byte
  | [], _ => Config.unwrittenByte
  | (k, b) :: m, a => if k = a then b else Memory.read m a

/-- Memory with one byte changed. The list stays strictly rising and never lists a byte that reads as an unlisted
one does. -/
def Memory.write : Memory → Nat → Byte → Memory
  | [], a, b => if b = Config.unwrittenByte then [] else [(a, b)]
  | (k, c) :: m, a, b =>
    if k < a then (k, c) :: Memory.write m a b
    else if k = a then if b = Config.unwrittenByte then m else (a, b) :: m
    else if b = Config.unwrittenByte then (k, c) :: m else (a, b) :: (k, c) :: m

/-- The `n` bytes from `a` upward as one number, the byte at the lowest address least significant
(spec/20_memory.md R51). -/
def loadBytes (m : Memory) (a : Nat) : Nat → Nat
  | 0 => 0
  | n + 1 => (Memory.read m a).toNat + 256 * loadBytes m (a + 1) n

/-- Memory with the low `n` bytes of `v` stored from `a` upward, the least significant at `a`
(spec/20_memory.md R51, R53). -/
def storeBytes (m : Memory) (a : Nat) : Nat → Nat → Memory
  | 0, _ => m
  | n + 1, v => storeBytes (Memory.write m a (BitVec.ofNat 8 v)) (a + 1) n (v / 256)

/-- A set of addresses with one more member; the list stays strictly rising. -/
def addAddress : List Nat → Nat → List Nat
  | [], a => [a]
  | k :: d, a => if k < a then k :: addAddress d a else if k = a then k :: d else a :: k :: d

/-- `dirty` after a store of `n` bytes at `a` (spec/20_memory.md R53). -/
def markDirty (d : List Nat) (a : Nat) : Nat → List Nat
  | 0 => d
  | n + 1 => markDirty (addAddress d a) (a + 1) n

/-- Whether any of the `n` bytes from `a` upward is in `dirty` (spec/20_memory.md R58). -/
def overlapsDirty (d : List Nat) (a n : Nat) : Bool := d.any fun k => decide (a ≤ k) && decide (k < a + n)

/-- The class of a data access decides which exceptions it raises (spec/20_memory.md R55, R57;
spec/46_a_extension.md R331). -/
inductive Access where
  /-- Loads, `flw`, `fld`, `lr.w`. -/
  | load
  /-- Stores, `fsw`, `fsd`, `sc.w`, and the read as well as the write of an `amo*.w`. -/
  | storeAmo
  deriving DecidableEq, Repr

/-- The misaligned exception of a class (spec/60_exceptions.md R405, R407). -/
def misalignedCause : Access → Cause
  | .load => .loadAddressMisaligned
  | .storeAmo => .storeAmoAddressMisaligned

/-- The access-fault exception of a class (spec/60_exceptions.md R406, R408). -/
def accessFaultCause : Access → Cause
  | .load => .loadAccessFault
  | .storeAmo => .storeAmoAccessFault

/-- The exception an access of `n` bytes at `a` raises, if any: alignment is checked before validity
(spec/20_memory.md R52, R53; spec/60_exceptions.md R414). -/
def accessCause (k : Access) (a : Word) (n : Nat) : Option Cause :=
  if aligned a n then if bytesValid a n then none else some (accessFaultCause k)
  else some (misalignedCause k)

/-- `MemRead(a, n)` (spec/20_memory.md R52); with class `storeAmo` it is `AmoRead` (spec/46_a_extension.md R331).
A read changes no state. -/
def State.memRead (s : State) (k : Access) (a : Word) (n : Nat) : Except Cause (BitVec (8 * n)) :=
  match accessCause k a n with
  | some cause => .error cause
  | none => .ok (BitVec.ofNat (8 * n) (loadBytes s.mem a.toNat n))

/-- Memory and `dirty` after `n` bytes are stored at `a` (spec/20_memory.md R53, step 3). -/
def State.store (s : State) (a : Word) (n : Nat) (v : BitVec (8 * n)) : State :=
  { s with mem := storeBytes s.mem a.toNat n v.toNat, dirty := markDirty s.dirty a.toNat n }

/-- `MemWrite(a, n, v)` (spec/20_memory.md R53). The reservation is untouched (spec/46_a_extension.md R333). -/
def State.memWrite (s : State) (a : Word) (n : Nat) (v : BitVec (8 * n)) : Except Cause State :=
  match accessCause .storeAmo a n with
  | some cause => .error cause
  | none => .ok (s.store a n v)

/-- The byte the hart would read at an address: for statements about memory. -/
def State.byteAt (s : State) (a : Nat) : Byte := Memory.read s.mem a

/-! ## Instruction fetch -/

/-- What a fetch gives (spec/20_memory.md R58). -/
inductive Fetched where
  /-- The instruction word. -/
  | word (w : Word)
  /-- An exception with the pc as trap value. -/
  | trap (cause : Cause)
  /-- The fetch overlaps `dirty` (R66). -/
  | stale
  deriving DecidableEq, Repr

/-- `MemFetch(pc)` (spec/20_memory.md R58): alignment, then validity, then `dirty`, then the word. -/
def State.fetch (s : State) : Fetched :=
  if aligned s.pc 4 then
    if bytesValid s.pc 4 then
      if overlapsDirty s.dirty s.pc.toNat 4 then .stale
      else .word (wordOfBytes (s.byteAt s.pc.toNat) (s.byteAt (s.pc.toNat + 1)) (s.byteAt (s.pc.toNat + 2))
        (s.byteAt (s.pc.toNat + 3)))
    else .trap .instructionAccessFault
  else .trap .instructionAddressMisaligned

/-! ## The load reservation -/

/-- `granule(a)`: the least address of the block of RES_GRANULE bytes that contains `a`
(spec/46_a_extension.md R332). -/
def granule (c : Config) (a : Word) : Word := BitVec.ofNat 32 (a.toNat - a.toNat % c.resGranule)

/-! ## The environment -/

/-- A trap outcome as it is handed to the environment (spec/60_exceptions.md R410). -/
structure TrapOutcome where
  /-- Cause, pc and trap value. -/
  trap : Trap
  /-- The state before the raising instruction. -/
  state : State
  deriving DecidableEq, Repr

/-- What the environment answers (spec/60_exceptions.md R411). -/
inductive EnvReply where
  /-- The run ends with the outcome as its result. -/
  | halt
  /-- Execution resumes from this state. -/
  | resume (s : State)
  deriving DecidableEq, Repr, Inhabited

/-- `ENV`, the OPEN parameter of spec/60_exceptions.md R411: some function of the trap outcome, of which nothing can
be proved. -/
opaque environment : TrapOutcome → EnvReply

/-- The canonical form of memory: addresses strictly rising, all in `MEM_VALID`, no byte listed that reads as an
unlisted one does. -/
def Memory.wf (m : Memory) : Bool :=
  decide (m.Pairwise (fun c d => c.1 < d.1)) && m.all fun c => memValid c.1 && c.2 != Config.unwrittenByte

/-- A state the hart can be in: memory and `dirty` in canonical form and inside `MEM_VALID`, x0 held as 0
(spec/10_state.md R21), pc a multiple of 4 (R25), every f register within FLEN bits and `fcsr` 0 where the hart has
none (R27, R31), the reservation the base of a block and none without the A group (R34). -/
def State.wf (s : State) : Bool :=
  Memory.wf s.mem
    && decide (s.dirty.Pairwise (· < ·)) && s.dirty.all memValid
    && (s.x[0] == 0#32)
    && aligned s.pc 4
    && s.f.toList.all (fun v => decide (v.toNat < 2 ^ s.cfg.flen))
    && (s.cfg.hasF || s.fcsr == 0#8)
    && match s.reservation with
       | none => true
       | some a => s.cfg.hasA && granule s.cfg a == a

/-- Handing a trap outcome to the environment (spec/60_exceptions.md R411). There is no return instruction (R412):
the environment halts the run or supplies the whole next state of the hart. The machine's parameters and the
position in the `sc_may_succeed` input are not state of the hart and stay. -/
def handOver (t : Trap) (s : State) : Result :=
  match environment { trap := t, state := { s with trap := none } } with
  | .halt => .fault (.halted t.cause t.pc t.tval)
  | .resume r =>
    let next : State := { r with cfg := s.cfg, trap := none, scIndex := s.scIndex }
    if next.wf then .next next else .refused .envNotHartState

end Sys2Proof.Machine
end

