-- ==== Sys2Proof/Machine/Flags.lean ====
section
/-! DEFINITION. The floating-point flags, the rounding mode and the control registers through which both are seen
(spec/10_state.md R30 to R32; spec/45_fd_extension.md R242, R243). The hart has no other flags (R26). -/

namespace Sys2Proof.Machine

/-- The five exception flags, in the order of `fflags`: NV DZ OF UF NX (spec/10_state.md R32). -/
abbrev FpFlags := BitVec 5

/-- No flag. -/
def flagNone : FpFlags := 0b00000#5
/-- Invalid operation (spec/45_fd_extension.md R243). -/
def flagNV : FpFlags := 0b10000#5
/-- Division of a finite non-zero number by zero. -/
def flagDZ : FpFlags := 0b01000#5
/-- The rounded result exceeds the largest finite number. -/
def flagOF : FpFlags := 0b00100#5
/-- The result is tiny and inexact. -/
def flagUF : FpFlags := 0b00010#5
/-- The delivered result differs from the exact one. -/
def flagNX : FpFlags := 0b00001#5

/-- A flag when a condition holds. -/
def flagIf (b : Bool) (fl : FpFlags) : FpFlags := if b then fl else flagNone

/-- `fflags`: bits 4:0 of `fcsr` (spec/10_state.md R32). -/
def State.fflags (s : State) : FpFlags := s.fcsr.extractLsb' 0 5

/-- `frm`: bits 7:5 of `fcsr` (spec/10_state.md R32). -/
def State.frm (s : State) : BitVec 3 := s.fcsr.extractLsb' 5 3

/-- `fflags <- fflags | fl` (spec/45_fd_extension.md R240, R243): flags are only ever added, `frm` stays. -/
def State.accrue (s : State) (fl : FpFlags) : State := { s with fcsr := s.frm ++ (s.fflags ||| fl) }

/-! ## Control registers -/

/-- The members of `CSR_IMPL` (spec/10_state.md R31, R32). -/
inductive Csr where
  /-- Address 0x001. -/
  | fflags
  /-- Address 0x002. -/
  | frm
  /-- Address 0x003. -/
  | fcsr
  deriving DecidableEq, Repr

/-- The control register at an address: none without `HAS_F`, three with it (spec/10_state.md R31, R32). -/
def csrAt (c : Config) (a : BitVec 12) : Option Csr :=
  if c.hasF then
    if a = 0x001#12 then some .fflags
    else if a = 0x002#12 then some .frm
    else if a = 0x003#12 then some .fcsr
    else none
  else none

/-- Whether a control register is read-only (spec/10_state.md R31): none of the three is (R32). -/
def csrReadOnly : Csr → Bool
  | .fflags => false
  | .frm => false
  | .fcsr => false

/-- `csr[a]`: bits a register does not implement read 0 (spec/10_state.md R32). -/
def State.readCsr (s : State) : Csr → Word
  | .fflags => s.fflags.setWidth 32
  | .frm => s.frm.setWidth 32
  | .fcsr => s.fcsr.setWidth 32

/-- `csr[a] <- v`: bits a register does not implement are ignored, and the three registers are views of one 8-bit
state (spec/10_state.md R32). -/
def State.writeCsr (s : State) (c : Csr) (v : Word) : State :=
  match c with
  | .fflags => { s with fcsr := s.frm ++ v.extractLsb' 0 5 }
  | .frm => { s with fcsr := v.extractLsb' 0 3 ++ s.fflags }
  | .fcsr => { s with fcsr := v.extractLsb' 0 8 }

end Sys2Proof.Machine
end

