-- ==== Sys2Proof/Machine/Operands.lean ====
section
/-! DEFINITION. The operand forms: immediates, effective addresses, jump targets, shift amounts, single and double
operands of f registers, rounding modes. -/

namespace Sys2Proof.Machine

/-- The immediate of formats I and S: `sext_32` of 12 bits (spec/30_encoding.md R86, R87). -/
def immediate (imm : BitVec 12) : Word := imm.signExtend 32

/-- The immediate of format U: the 20 bits above 12 zeros (spec/30_encoding.md R89). -/
def upperImmediate (imm : BitVec 20) : Word := imm ++ 0#12

/-- The effective address `ea = (x[rs1] + imm)[31:0]` (spec/42_load_store.md R170). -/
def State.effectiveAddress (s : State) (rs1 : Reg) (imm : BitVec 12) : Word := s.getX rs1 + immediate imm

/-- The target of a branch: relative to the branch itself, modulo 2^32 (spec/30_encoding.md R88;
spec/41_control_transfer.md R150). -/
def State.branchTarget (s : State) (offset : BitVec 13) : Word := s.pc + offset.signExtend 32

/-- The target of `jal` (spec/30_encoding.md R90; spec/41_control_transfer.md R152). -/
def State.jalTarget (s : State) (offset : BitVec 21) : Word := s.pc + offset.signExtend 32

/-- The target of `jalr`: bit 0 of the sum is set to 0 (spec/41_control_transfer.md R153). -/
def State.jalrTarget (s : State) (rs1 : Reg) (imm : BitVec 12) : Word :=
  (s.getX rs1 + immediate imm) &&& 0xFFFFFFFE#32

/-- The amount of a register shift: the low five bits (spec/40_integer_computational.md R142). -/
def shiftAmount (v : Word) : Nat := (v.extractLsb' 0 5).toNat

/-- The 5-bit immediate of the `csrr*i` forms, zero-extended (spec/30_encoding.md R93). -/
def csrImmediate (uimm : BitVec 5) : Word := uimm.setWidth 32

/-- The 32-bit values 1 and 0 of a comparison (spec/40_integer_computational.md R124). -/
def truthWord (b : Bool) : Word := if b then 1#32 else 0#32

/-! ## Operands in f registers (spec/45_fd_extension.md R240) -/

/-- A single-precision pattern. -/
abbrev Single := BitVec 32

/-- The canonical single NaN (spec/45_fd_extension.md R244). -/
def canonicalNaNSingle : Single := 0x7FC00000#32

/-- `rdD`: a double operand. -/
def State.rdD (s : State) (r : Reg) : Double := s.getF r

/-- `wrD`. -/
def State.wrD (s : State) (r : Reg) (v : Double) : State := s.setF r v

/-- `rdS`: with FLEN = 64 a register that is not NaN-boxed reads as the canonical NaN (spec/10_state.md R29). -/
def State.rdS (s : State) (r : Reg) : Single :=
  if s.cfg.hasD then
    if (s.getF r).extractLsb' 32 32 = 0xFFFFFFFF#32 then (s.getF r).extractLsb' 0 32 else canonicalNaNSingle
  else (s.getF r).extractLsb' 0 32

/-- `wrS`: with FLEN = 64 the value is NaN-boxed (spec/10_state.md R29). -/
def State.wrS (s : State) (r : Reg) (v : Single) : State :=
  if s.cfg.hasD then s.setF r (0xFFFFFFFF#32 ++ v) else s.setF r (v.setWidth 64)

/-- `f[r][31:0]` without the box check, as `fsw` and `fmv.x.s` read it (spec/10_state.md R29). -/
def State.lowF (s : State) (r : Reg) : Single := (s.getF r).extractLsb' 0 32

/-! ## Rounding modes (spec/45_fd_extension.md R242) -/

/-- The five rounding modes. -/
inductive RoundingMode where
  /-- To nearest, ties to even. -/
  | rne
  /-- Toward zero. -/
  | rtz
  /-- Toward minus infinity. -/
  | rdn
  /-- Toward plus infinity. -/
  | rup
  /-- To nearest, ties away from zero. -/
  | rmm
  deriving DecidableEq, Repr

/-- The mode a 3-bit code names; 101, 110 and 111 name none. -/
def roundingModeOfBits (b : BitVec 3) : Option RoundingMode :=
  match b with
  | 0b000#3 => some .rne
  | 0b001#3 => some .rtz
  | 0b010#3 => some .rdn
  | 0b011#3 => some .rup
  | 0b100#3 => some .rmm
  | _ => none

/-- `RM`, the effective mode of an instruction with the field `rm`: 111 takes it from `frm`. None: the instruction
raises IllegalInstruction. -/
def State.effectiveRm (s : State) (rm : BitVec 3) : Option RoundingMode :=
  if rm = 0b111#3 then roundingModeOfBits s.frm else roundingModeOfBits rm

end Sys2Proof.Machine
end

