-- ==== Sys2Proof/Machine/Atomic.lean ====
section
/-! DEFINITION. The A group (spec/46_a_extension.md). `aq` and `rl` are ignored: with one hart they have no effect
(R330). -/

namespace Sys2Proof.Machine

/-- `lr.w`: read the word, reserve its block (spec/46_a_extension.md R334). A load that raises leaves the reservation
as it was. -/
def State.loadReserved (s : State) (rd : Reg) (a : Word) : Result :=
  match s.memRead .load a 4 with
  | .error cause => raise cause a s
  | .ok v => { s with reservation := some (granule s.cfg a) }.finishX rd v

/-- `sc.w`: the address is checked first; the store happens when the reservation is the block of the address and the
open input allows it; success or failure, the reservation is cleared and one value of the input is consumed
(spec/46_a_extension.md R335, R356). -/
def State.storeConditional (s : State) (rd : Reg) (a : Word) (v : Word) : Result :=
  match accessCause .storeAmo a 4 with
  | some cause => raise cause a s
  | none =>
    let released : State := { s with reservation := none, scIndex := s.scIndex + 1 }
    if s.reservation == some (granule s.cfg a) && Config.scMaySucceed s.scIndex then
      (released.store a 4 v).finishX rd 0#32
    else released.finishX rd 1#32

/-- An atomic memory operation: read the word with the store exception classes, always write `op old operand`, deliver
the old word; the reservation is not changed (spec/46_a_extension.md R331, R333, R338). -/
def State.atomicUpdate (s : State) (rd : Reg) (a : Word) (op : Word → Word) : Result :=
  match s.memRead .storeAmo a 4 with
  | .error cause => raise cause a s
  | .ok v => (s.store a 4 (op v)).finishX rd v

/-- `lr.w`: load reserved (spec/46_a_extension.md R334). -/
def execLrW (rd rs1 : Reg) (aq rl : BitVec 1) (s : State) : Result :=
  whenPresent s.cfg.hasA (.lrW rd rs1 aq rl) s (s.loadReserved rd (s.getX rs1))

/-- `sc.w`: store conditional (spec/46_a_extension.md R335). -/
def execScW (rd rs2 rs1 : Reg) (aq rl : BitVec 1) (s : State) : Result :=
  whenPresent s.cfg.hasA (.scW rd rs2 rs1 aq rl) s (s.storeConditional rd (s.getX rs1) (s.getX rs2))

/-- `amoswap.w`: swap (spec/46_a_extension.md R338). -/
def execAmoswapW (rd rs2 rs1 : Reg) (aq rl : BitVec 1) (s : State) : Result :=
  whenPresent s.cfg.hasA (.amoswapW rd rs2 rs1 aq rl) s (s.atomicUpdate rd (s.getX rs1) (fun _ => s.getX rs2))

/-- `amoadd.w`: add modulo 2^32 (spec/46_a_extension.md R339). -/
def execAmoaddW (rd rs2 rs1 : Reg) (aq rl : BitVec 1) (s : State) : Result :=
  whenPresent s.cfg.hasA (.amoaddW rd rs2 rs1 aq rl) s
    (s.atomicUpdate rd (s.getX rs1) (fun v => v + s.getX rs2))

/-- `amoxor.w`: exclusive or (spec/46_a_extension.md R340). -/
def execAmoxorW (rd rs2 rs1 : Reg) (aq rl : BitVec 1) (s : State) : Result :=
  whenPresent s.cfg.hasA (.amoxorW rd rs2 rs1 aq rl) s
    (s.atomicUpdate rd (s.getX rs1) (fun v => v ^^^ s.getX rs2))

/-- `amoand.w`: and (spec/46_a_extension.md R341). -/
def execAmoandW (rd rs2 rs1 : Reg) (aq rl : BitVec 1) (s : State) : Result :=
  whenPresent s.cfg.hasA (.amoandW rd rs2 rs1 aq rl) s
    (s.atomicUpdate rd (s.getX rs1) (fun v => v &&& s.getX rs2))

/-- `amoor.w`: or (spec/46_a_extension.md R342). -/
def execAmoorW (rd rs2 rs1 : Reg) (aq rl : BitVec 1) (s : State) : Result :=
  whenPresent s.cfg.hasA (.amoorW rd rs2 rs1 aq rl) s
    (s.atomicUpdate rd (s.getX rs1) (fun v => v ||| s.getX rs2))

/-- `amomin.w`: signed minimum (spec/46_a_extension.md R343). -/
def execAmominW (rd rs2 rs1 : Reg) (aq rl : BitVec 1) (s : State) : Result :=
  whenPresent s.cfg.hasA (.amominW rd rs2 rs1 aq rl) s
    (s.atomicUpdate rd (s.getX rs1) (fun v => if (s.getX rs2).slt v then s.getX rs2 else v))

/-- `amomax.w`: signed maximum (spec/46_a_extension.md R344). -/
def execAmomaxW (rd rs2 rs1 : Reg) (aq rl : BitVec 1) (s : State) : Result :=
  whenPresent s.cfg.hasA (.amomaxW rd rs2 rs1 aq rl) s
    (s.atomicUpdate rd (s.getX rs1) (fun v => if v.slt (s.getX rs2) then s.getX rs2 else v))

/-- `amominu.w`: unsigned minimum (spec/46_a_extension.md R345). -/
def execAmominuW (rd rs2 rs1 : Reg) (aq rl : BitVec 1) (s : State) : Result :=
  whenPresent s.cfg.hasA (.amominuW rd rs2 rs1 aq rl) s
    (s.atomicUpdate rd (s.getX rs1) (fun v => if (s.getX rs2).ult v then s.getX rs2 else v))

/-- `amomaxu.w`: unsigned maximum (spec/46_a_extension.md R346). -/
def execAmomaxuW (rd rs2 rs1 : Reg) (aq rl : BitVec 1) (s : State) : Result :=
  whenPresent s.cfg.hasA (.amomaxuW rd rs2 rs1 aq rl) s
    (s.atomicUpdate rd (s.getX rs1) (fun v => if v.ult (s.getX rs2) then s.getX rs2 else v))

/-! ## The doubleword forms: not in this hardware, whatever `HAS_A` (spec/46_a_extension.md R336, R337, R347 to R355) -/

/-- `lr.d`: raises IllegalInstruction (spec/46_a_extension.md R336). -/
def execLrD (rd rs1 : Reg) (aq rl : BitVec 1) (s : State) : Result :=
  raiseIllegal (.lrD rd rs1 aq rl) s

/-- `sc.d`: raises IllegalInstruction (spec/46_a_extension.md R337). -/
def execScD (rd rs2 rs1 : Reg) (aq rl : BitVec 1) (s : State) : Result :=
  raiseIllegal (.scD rd rs2 rs1 aq rl) s

/-- `amoswap.d`: raises IllegalInstruction (spec/46_a_extension.md R347). -/
def execAmoswapD (rd rs2 rs1 : Reg) (aq rl : BitVec 1) (s : State) : Result :=
  raiseIllegal (.amoswapD rd rs2 rs1 aq rl) s

/-- `amoadd.d`: raises IllegalInstruction (spec/46_a_extension.md R348). -/
def execAmoaddD (rd rs2 rs1 : Reg) (aq rl : BitVec 1) (s : State) : Result :=
  raiseIllegal (.amoaddD rd rs2 rs1 aq rl) s

/-- `amoxor.d`: raises IllegalInstruction (spec/46_a_extension.md R349). -/
def execAmoxorD (rd rs2 rs1 : Reg) (aq rl : BitVec 1) (s : State) : Result :=
  raiseIllegal (.amoxorD rd rs2 rs1 aq rl) s

/-- `amoand.d`: raises IllegalInstruction (spec/46_a_extension.md R350). -/
def execAmoandD (rd rs2 rs1 : Reg) (aq rl : BitVec 1) (s : State) : Result :=
  raiseIllegal (.amoandD rd rs2 rs1 aq rl) s

/-- `amoor.d`: raises IllegalInstruction (spec/46_a_extension.md R351). -/
def execAmoorD (rd rs2 rs1 : Reg) (aq rl : BitVec 1) (s : State) : Result :=
  raiseIllegal (.amoorD rd rs2 rs1 aq rl) s

/-- `amomin.d`: raises IllegalInstruction (spec/46_a_extension.md R352). -/
def execAmominD (rd rs2 rs1 : Reg) (aq rl : BitVec 1) (s : State) : Result :=
  raiseIllegal (.amominD rd rs2 rs1 aq rl) s

/-- `amomax.d`: raises IllegalInstruction (spec/46_a_extension.md R353). -/
def execAmomaxD (rd rs2 rs1 : Reg) (aq rl : BitVec 1) (s : State) : Result :=
  raiseIllegal (.amomaxD rd rs2 rs1 aq rl) s

/-- `amominu.d`: raises IllegalInstruction (spec/46_a_extension.md R354). -/
def execAmominuD (rd rs2 rs1 : Reg) (aq rl : BitVec 1) (s : State) : Result :=
  raiseIllegal (.amominuD rd rs2 rs1 aq rl) s

/-- `amomaxu.d`: raises IllegalInstruction (spec/46_a_extension.md R355). -/
def execAmomaxuD (rd rs2 rs1 : Reg) (aq rl : BitVec 1) (s : State) : Result :=
  raiseIllegal (.amomaxuD rd rs2 rs1 aq rl) s

end Sys2Proof.Machine
end

