-- ==== Sys2Proof/Machine/Control.lean ====
section
/-! DEFINITION. Control transfer (spec/41_control_transfer.md): two jumps with link and six conditional branches. -/

namespace Sys2Proof.Machine

/-- `x[rd] <- pc + 4; pc <- t`, or InstructionAddressMisaligned with the target as trap value when `t` is not a
multiple of 4: then neither `rd` nor `pc` changes (spec/41_control_transfer.md R151). -/
def State.jumpAndLink (s : State) (rd : Reg) (t : Word) : Result :=
  if aligned t 4 then .next { s.setX rd (s.pc + 4#32) with pc := t }
  else raise .instructionAddressMisaligned t s

/-- A conditional branch: taken to an aligned target, taken to a misaligned one (which raises), or not taken, which
raises nothing whatever the offset (spec/41_control_transfer.md R151, section 3). -/
def State.branchIf (s : State) (cond : Bool) (offset : BitVec 13) : Result :=
  if cond then
    if aligned (s.branchTarget offset) 4 then .next { s with pc := s.branchTarget offset }
    else raise .instructionAddressMisaligned (s.branchTarget offset) s
  else .next s.advance

/-- `jal`: jump relative to the instruction, with link (spec/41_control_transfer.md R152). -/
def execJal (rd : Reg) (offset : BitVec 21) (s : State) : Result :=
  s.jumpAndLink rd (s.jalTarget offset)

/-- `jalr`: jump to a register plus the immediate, bit 0 cleared, with link; the target uses the old `x[rs1]`
(spec/41_control_transfer.md R153). -/
def execJalr (rd rs1 : Reg) (imm : BitVec 12) (s : State) : Result :=
  s.jumpAndLink rd (s.jalrTarget rs1 imm)

/-- `beq`: taken when equal (spec/41_control_transfer.md R154). -/
def execBeq (rs1 rs2 : Reg) (offset : BitVec 13) (s : State) : Result :=
  s.branchIf (s.getX rs1 == s.getX rs2) offset

/-- `bne`: taken when not equal (spec/41_control_transfer.md R155). -/
def execBne (rs1 rs2 : Reg) (offset : BitVec 13) (s : State) : Result :=
  s.branchIf (s.getX rs1 != s.getX rs2) offset

/-- `blt`: taken when less as signed integers (spec/41_control_transfer.md R156). -/
def execBlt (rs1 rs2 : Reg) (offset : BitVec 13) (s : State) : Result :=
  s.branchIf ((s.getX rs1).slt (s.getX rs2)) offset

/-- `bge`: taken when not less as signed integers (spec/41_control_transfer.md R157). -/
def execBge (rs1 rs2 : Reg) (offset : BitVec 13) (s : State) : Result :=
  s.branchIf (!(s.getX rs1).slt (s.getX rs2)) offset

/-- `bltu`: taken when less as unsigned integers (spec/41_control_transfer.md R158). -/
def execBltu (rs1 rs2 : Reg) (offset : BitVec 13) (s : State) : Result :=
  s.branchIf ((s.getX rs1).ult (s.getX rs2)) offset

/-- `bgeu`: taken when not less as unsigned integers (spec/41_control_transfer.md R159). -/
def execBgeu (rs1 rs2 : Reg) (offset : BitVec 13) (s : State) : Result :=
  s.branchIf (!(s.getX rs1).ult (s.getX rs2)) offset

end Sys2Proof.Machine
end

