-- ==== Sys2Proof/Machine/Ieee754.lean ====
section
/-! DEFINITION. The record `FP` of pure floating-point functions (spec/45_fd_extension.md R245) with its decided
value: the IEEE 754-2008 operations with the NaN rule R244, the flag rule R243 and the saturation table of
spec/48_fd_compare_convert.md R312. A pattern is unpacked to the exact number it stands for, the operation is done
exactly on integers, and one function rounds and packs the result. -/

namespace Sys2Proof.Machine

/-! ## Formats (spec/45_fd_extension.md R241) -/

/-- A binary interchange format: the widths of the exponent and fraction fields. -/
structure FloatFormat where
  /-- Width of the exponent field. -/
  expBits : Nat
  /-- Width of the fraction field. -/
  fracBits : Nat
  deriving DecidableEq, Repr

/-- The width of a pattern: sign, exponent, fraction. -/
abbrev FloatFormat.width (fmt : FloatFormat) : Nat := 1 + fmt.expBits + fmt.fracBits

/-- Half precision, 16 bits: no instruction of this hardware uses it. -/
abbrev FloatFormat.half : FloatFormat := ⟨5, 10⟩
/-- Single precision, 32 bits. -/
abbrev FloatFormat.single : FloatFormat := ⟨8, 23⟩
/-- Double precision, 64 bits. -/
abbrev FloatFormat.double : FloatFormat := ⟨11, 52⟩
/-- Quad precision, 128 bits: no instruction of this hardware uses it. -/
abbrev FloatFormat.quad : FloatFormat := ⟨15, 112⟩

/-- The exponent bias: 15, 127, 1023, 16383. -/
def floatBias (fmt : FloatFormat) : Nat := 2 ^ (fmt.expBits - 1) - 1

/-- The power of two of the last fraction bit of the subnormals and of the least normals. -/
def floatMinExp (fmt : FloatFormat) : Int := 1 - (floatBias fmt : Int) - (fmt.fracBits : Int)

/-- A pattern of the format from its exponent and fraction fields taken as one number. -/
def packMagnitude (fmt : FloatFormat) (neg : Bool) (magnitude : Nat) : BitVec fmt.width :=
  (BitVec.ofBool neg ++ BitVec.ofNat fmt.expBits (magnitude / 2 ^ fmt.fracBits)) ++
    BitVec.ofNat fmt.fracBits magnitude

/-- The magnitude of infinity: exponent all ones, fraction zero. -/
def infinityMagnitude (fmt : FloatFormat) : Nat := (2 ^ fmt.expBits - 1) * 2 ^ fmt.fracBits

/-- The infinity of a sign. -/
def packInfinity (fmt : FloatFormat) (neg : Bool) : BitVec fmt.width := packMagnitude fmt neg (infinityMagnitude fmt)

/-- The zero of a sign. -/
def packZero (fmt : FloatFormat) (neg : Bool) : BitVec fmt.width := packMagnitude fmt neg 0

/-- The canonical NaN: sign 0, exponent all ones, only the top fraction bit set (spec/45_fd_extension.md R244). -/
def canonicalNaN (fmt : FloatFormat) : BitVec fmt.width :=
  packMagnitude fmt false (infinityMagnitude fmt + 2 ^ (fmt.fracBits - 1))

/-- The number a pattern stands for. -/
inductive FloatValue where
  /-- A NaN, signaling or quiet. -/
  | nan (signaling : Bool)
  /-- An infinity of a sign. -/
  | infinity (neg : Bool)
  /-- (-1)^neg times `significand` times 2^`exponent`; `significand` 0 is the zero of the sign. -/
  | finite (neg : Bool) (significand : Nat) (exponent : Int)
  deriving DecidableEq, Repr

/-- Sign field. -/
def signField (fmt : FloatFormat) (v : BitVec fmt.width) : Bool := v.getLsbD (fmt.expBits + fmt.fracBits)
/-- Exponent field. -/
def exponentField (fmt : FloatFormat) (v : BitVec fmt.width) : Nat := v.toNat / 2 ^ fmt.fracBits % 2 ^ fmt.expBits
/-- Fraction field. -/
def fractionField (fmt : FloatFormat) (v : BitVec fmt.width) : Nat := v.toNat % 2 ^ fmt.fracBits

/-- The number of a pattern (spec/45_fd_extension.md R241): a NaN is quiet when the top fraction bit is 1; exponent
field 0 is a zero or a subnormal, otherwise the value is (1 + Fraction) times 2^(Exponent - Bias). -/
def unpack (fmt : FloatFormat) (v : BitVec fmt.width) : FloatValue :=
  if exponentField fmt v = 2 ^ fmt.expBits - 1 then
    if fractionField fmt v = 0 then .infinity (signField fmt v)
    else .nan (decide (fractionField fmt v < 2 ^ (fmt.fracBits - 1)))
  else if exponentField fmt v = 0 then .finite (signField fmt v) (fractionField fmt v) (floatMinExp fmt)
  else .finite (signField fmt v) (2 ^ fmt.fracBits + fractionField fmt v)
    (floatMinExp fmt + (exponentField fmt v : Int) - 1)

/-! ## Rounding (spec/45_fd_extension.md R242, R243) -/

/-- Whether the magnitude is rounded away from zero: `quotient` is the magnitude rounded toward zero, `remainder` out
of `2 * half` what is lost, in units of the last place. -/
def roundsAway (mode : RoundingMode) (neg : Bool) (quotient remainder half : Nat) : Bool :=
  match mode with
  | .rne => decide (half < remainder) || (remainder == half && quotient % 2 == 1)
  | .rtz => false
  | .rdn => neg && decide (0 < remainder)
  | .rup => !neg && decide (0 < remainder)
  | .rmm => decide (half ≤ remainder)

/-- The number `significand * 2^exponent` rounded to a multiple of `2^target`: the multiple, and whether the result
is inexact. -/
def roundToExponent (mode : RoundingMode) (neg : Bool) (significand : Nat) (exponent target : Int) : Nat × Bool :=
  if target ≤ exponent then (significand * 2 ^ (exponent - target).toNat, false)
  else
    let drop := (target - exponent).toNat
    let quotient := significand / 2 ^ drop
    let remainder := significand % 2 ^ drop
    (if roundsAway mode neg quotient remainder (2 ^ (drop - 1)) then quotient + 1 else quotient, remainder != 0)

/-- Whether overflow delivers an infinity rather than the largest finite number (spec/45_fd_extension.md R243). -/
def overflowsToInfinity (mode : RoundingMode) (neg : Bool) : Bool :=
  match mode with
  | .rne => true
  | .rmm => true
  | .rtz => false
  | .rdn => neg
  | .rup => !neg

/-- Whether a non-zero number is tiny: rounded to the format's precision with an unbounded exponent it is below the
least normal number ("tininess detected after rounding", spec/45_fd_extension.md R243). -/
def tinyAfterRounding (fmt : FloatFormat) (mode : RoundingMode) (neg : Bool) (significand : Nat)
    (exponent : Int) : Bool :=
  let target := exponent + (Nat.log2 significand : Int) - (fmt.fracBits : Int)
  decide (target < floatMinExp fmt) &&
    !(target == floatMinExp fmt - 1 &&
      (roundToExponent mode neg significand exponent target).1 == 2 ^ (fmt.fracBits + 1))

/-- The number `(-1)^neg * significand * 2^exponent` rounded and packed, with its flags (spec/45_fd_extension.md
R243, R247): the last place kept is that of the format's precision, or of the subnormals. A magnitude that reaches
that of infinity has overflowed. -/
def roundAndPack (fmt : FloatFormat) (mode : RoundingMode) (neg : Bool) (significand : Nat) (exponent : Int) :
    BitVec fmt.width × FpFlags :=
  if significand = 0 then (packZero fmt neg, flagNone)
  else
    let target := max (exponent + (Nat.log2 significand : Int) - (fmt.fracBits : Int)) (floatMinExp fmt)
    let rounded := roundToExponent mode neg significand exponent target
    let magnitude := (target - floatMinExp fmt).toNat * 2 ^ fmt.fracBits + rounded.1
    if infinityMagnitude fmt ≤ magnitude then
      (if overflowsToInfinity mode neg then packInfinity fmt neg
        else packMagnitude fmt neg (infinityMagnitude fmt - 1), flagOF ||| flagNX)
    else
      (packMagnitude fmt neg magnitude,
        flagIf rounded.2 flagNX |||
          flagIf (rounded.2 && tinyAfterRounding fmt mode neg significand exponent) flagUF)

/-! ## NaN operands (spec/45_fd_extension.md R244) -/

/-- Whether a value is a NaN. -/
def isNaN : FloatValue → Bool
  | .nan _ => true
  | .infinity _ => false
  | .finite _ _ _ => false

/-- Whether a value is a signaling NaN. -/
def isSignaling : FloatValue → Bool
  | .nan signaling => signaling
  | .infinity _ => false
  | .finite _ _ _ => false

/-- Whether a value is a zero of either sign. -/
def isZero : FloatValue → Bool
  | .nan _ => false
  | .infinity _ => false
  | .finite _ significand _ => significand == 0

/-- The sign of an infinity or a finite number; of a NaN it is not used. -/
def isNegative : FloatValue → Bool
  | .nan _ => false
  | .infinity neg => neg
  | .finite neg _ _ => neg

/-- An invalid operation: the canonical NaN and NV. -/
def invalidResult (fmt : FloatFormat) : BitVec fmt.width × FpFlags := (canonicalNaN fmt, flagNV)

/-- The canonical NaN, with NV when an operand is signaling. -/
def nanResult (fmt : FloatFormat) (signaling : Bool) : BitVec fmt.width × FpFlags :=
  (canonicalNaN fmt, flagIf signaling flagNV)

/-! ## Addition, multiplication, fused multiply-add -/

/-- The integer `(-1)^neg * significand`. -/
def signedNat (neg : Bool) (significand : Nat) : Int := if neg then -(significand : Int) else (significand : Int)

/-- The sum of two values, exact and then rounded once. An exact zero sum of operands of opposite signs is +0, and -0
in the mode RDN (spec/45_fd_extension.md R254). -/
def addValues (fmt : FloatFormat) (mode : RoundingMode) (a b : FloatValue) : BitVec fmt.width × FpFlags :=
  match a, b with
  | .nan sa, b => nanResult fmt (sa || isSignaling b)
  | .infinity _, .nan sb => nanResult fmt sb
  | .finite _ _ _, .nan sb => nanResult fmt sb
  | .infinity na, .infinity nb => if na = nb then (packInfinity fmt na, flagNone) else invalidResult fmt
  | .infinity na, .finite _ _ _ => (packInfinity fmt na, flagNone)
  | .finite _ _ _, .infinity nb => (packInfinity fmt nb, flagNone)
  | .finite na ma ea, .finite nb mb eb =>
    let e := min ea eb
    let sum := signedNat na (ma * 2 ^ (ea - e).toNat) + signedNat nb (mb * 2 ^ (eb - e).toNat)
    if sum = 0 then (packZero fmt (if na = nb then na else mode == .rdn), flagNone)
    else roundAndPack fmt mode (decide (sum < 0)) sum.natAbs e

/-- The exact product of two values, a value again; `none` for the invalid 0 times infinity. NaN operands are treated
by the callers. -/
def multiplyExact (a b : FloatValue) : Option FloatValue :=
  match a, b with
  | .finite na ma ea, .finite nb mb eb => some (.finite (na != nb) (ma * mb) (ea + eb))
  | a, b => if isZero a || isZero b then none else some (.infinity (isNegative a != isNegative b))

/-- `FP.add` (spec/45_fd_extension.md R245, R254). -/
def fpAdd (fmt : FloatFormat) (mode : RoundingMode) (a b : BitVec fmt.width) : BitVec fmt.width × FpFlags :=
  addValues fmt mode (unpack fmt a) (unpack fmt b)

/-- The pattern with its sign bit flipped: `neg` of spec/45_fd_extension.md R266. -/
def fpNegate (fmt : FloatFormat) (v : BitVec fmt.width) : BitVec fmt.width :=
  v ^^^ BitVec.twoPow fmt.width (fmt.expBits + fmt.fracBits)

/-- `FP.sub` (spec/45_fd_extension.md R256): the sum with the second operand's sign flipped. -/
def fpSub (fmt : FloatFormat) (mode : RoundingMode) (a b : BitVec fmt.width) : BitVec fmt.width × FpFlags :=
  fpAdd fmt mode a (fpNegate fmt b)

/-- `FP.mul` (spec/45_fd_extension.md R258). -/
def fpMul (fmt : FloatFormat) (mode : RoundingMode) (a b : BitVec fmt.width) : BitVec fmt.width × FpFlags :=
  let va := unpack fmt a
  let vb := unpack fmt b
  if isNaN va || isNaN vb then nanResult fmt (isSignaling va || isSignaling vb)
  else
    match multiplyExact va vb with
    | none => invalidResult fmt
    | some (.finite neg m e) => roundAndPack fmt mode neg m e
    | some (.infinity neg) => (packInfinity fmt neg, flagNone)
    | some (.nan signaling) => nanResult fmt signaling

/-- `FP.fma`: `a * b + c` rounded once (spec/45_fd_extension.md R245, R264). 0 times infinity is invalid also when `c` is
a quiet NaN. -/
def fpFma (fmt : FloatFormat) (mode : RoundingMode) (a b c : BitVec fmt.width) : BitVec fmt.width × FpFlags :=
  let va := unpack fmt a
  let vb := unpack fmt b
  let vc := unpack fmt c
  if isNaN va || isNaN vb then nanResult fmt (isSignaling va || isSignaling vb || isSignaling vc)
  else
    match multiplyExact va vb with
    | none => invalidResult fmt
    | some p => addValues fmt mode p vc

/-! ## Division and square root -/

/-- `FP.div` (spec/45_fd_extension.md R260). The quotient is computed to two bits more than the format keeps, and a last
bit says whether anything remained. -/
def fpDiv (fmt : FloatFormat) (mode : RoundingMode) (a b : BitVec fmt.width) : BitVec fmt.width × FpFlags :=
  match unpack fmt a, unpack fmt b with
  | .nan sa, vb => nanResult fmt (sa || isSignaling vb)
  | .infinity _, .nan sb => nanResult fmt sb
  | .finite _ _ _, .nan sb => nanResult fmt sb
  | .infinity _, .infinity _ => invalidResult fmt
  | .infinity na, .finite nb _ _ => (packInfinity fmt (na != nb), flagNone)
  | .finite na _ _, .infinity nb => (packZero fmt (na != nb), flagNone)
  | .finite na ma ea, .finite nb mb eb =>
    if mb = 0 then if ma = 0 then invalidResult fmt else (packInfinity fmt (na != nb), flagDZ)
    else
      let scale := fmt.fracBits + 4 + Nat.log2 mb
      let quotient := ma * 2 ^ scale / mb
      let remainder := ma * 2 ^ scale % mb
      roundAndPack fmt mode (na != nb) (2 * quotient + if remainder = 0 then 0 else 1)
        (ea - eb - (scale : Int) - 1)

/-- The integer square root of `n`, for `n` below 4^`bits`: one bit of the root per step. -/
def integerSqrt : Nat → Nat → Nat
  | 0, _ => 0
  | bits + 1, n =>
    let root := 2 * integerSqrt bits (n / 4)
    if (root + 1) * (root + 1) ≤ n then root + 1 else root

/-- `FP.sqrt` (spec/45_fd_extension.md R262): the operand is scaled to an even exponent and enough bits, and a last bit of
the root says whether anything remained. -/
def fpSqrt (fmt : FloatFormat) (mode : RoundingMode) (a : BitVec fmt.width) : BitVec fmt.width × FpFlags :=
  match unpack fmt a with
  | .nan signaling => nanResult fmt signaling
  | .infinity neg => if neg then invalidResult fmt else (packInfinity fmt false, flagNone)
  | .finite neg m e =>
    if m = 0 then (packZero fmt neg, flagNone)
    else if neg then invalidResult fmt
    else
      let scale := 2 * (fmt.fracBits + 4) + (e % 2).toNat
      let radicand := m * 2 ^ scale
      let root := integerSqrt ((Nat.log2 m + scale) / 2 + 1) radicand
      roundAndPack fmt mode false (2 * root + if root * root = radicand then 0 else 1)
        ((e - (scale : Int)) / 2 - 1)

/-! ## Comparisons, minimum, maximum, classification -/

/-- The exact comparison `a < b` of two values that are not NaN; the zeros of both signs are equal. -/
def valueLess (a b : FloatValue) : Bool :=
  match a, b with
  | .nan _, _ => false
  | .infinity _, .nan _ => false
  | .finite _ _ _, .nan _ => false
  | .infinity na, .infinity nb => na && !nb
  | .infinity na, .finite _ _ _ => na
  | .finite _ _ _, .infinity nb => !nb
  | .finite na ma ea, .finite nb mb eb =>
    let e := min ea eb
    decide (signedNat na (ma * 2 ^ (ea - e).toNat) < signedNat nb (mb * 2 ^ (eb - e).toNat))

/-- NV when an operand is a signaling NaN: the quiet comparison and minimum, maximum. -/
def quietFlags (a b : FloatValue) : FpFlags := flagIf (isSignaling a || isSignaling b) flagNV

/-- NV when an operand is any NaN: the signaling comparisons. -/
def signalingFlags (a b : FloatValue) : FpFlags := flagIf (isNaN a || isNaN b) flagNV

/-- `FP.eq` (spec/48_fd_compare_convert.md R282): false on NaN, -0 equals +0. -/
def fpEq (fmt : FloatFormat) (a b : BitVec fmt.width) : Bool × FpFlags :=
  let va := unpack fmt a
  let vb := unpack fmt b
  (!isNaN va && !isNaN vb && !valueLess va vb && !valueLess vb va, quietFlags va vb)

/-- `FP.lt` (spec/48_fd_compare_convert.md R284). -/
def fpLt (fmt : FloatFormat) (a b : BitVec fmt.width) : Bool × FpFlags :=
  let va := unpack fmt a
  let vb := unpack fmt b
  (!isNaN va && !isNaN vb && valueLess va vb, signalingFlags va vb)

/-- `FP.le` (spec/48_fd_compare_convert.md R286). -/
def fpLe (fmt : FloatFormat) (a b : BitVec fmt.width) : Bool × FpFlags :=
  let va := unpack fmt a
  let vb := unpack fmt b
  (!isNaN va && !isNaN vb && !valueLess vb va, signalingFlags va vb)

/-- The smaller of two values, -0 counted smaller than +0. -/
def precedes (a b : FloatValue) : Bool := valueLess a b || (isZero a && isZero b && isNegative a)

/-- `FP.min` (spec/45_fd_extension.md R278): the canonical NaN of two NaNs, the other operand of one NaN. -/
def fpMin (fmt : FloatFormat) (a b : BitVec fmt.width) : BitVec fmt.width × FpFlags :=
  let va := unpack fmt a
  let vb := unpack fmt b
  (if isNaN va then if isNaN vb then canonicalNaN fmt else b
   else if isNaN vb then a
   else if precedes va vb then a else b, quietFlags va vb)

/-- `FP.max` (spec/45_fd_extension.md R280). -/
def fpMax (fmt : FloatFormat) (a b : BitVec fmt.width) : BitVec fmt.width × FpFlags :=
  let va := unpack fmt a
  let vb := unpack fmt b
  (if isNaN va then if isNaN vb then canonicalNaN fmt else b
   else if isNaN vb then a
   else if precedes va vb then b else a, quietFlags va vb)

/-- The bit of `class10` that is set (spec/48_fd_compare_convert.md R313). -/
def classBit (fmt : FloatFormat) (v : BitVec fmt.width) : Nat :=
  match unpack fmt v with
  | .nan signaling => if signaling then 8 else 9
  | .infinity neg => if neg then 0 else 7
  | .finite neg significand _ =>
    if significand = 0 then if neg then 3 else 4
    else if significand < 2 ^ fmt.fracBits then if neg then 2 else 5
    else if neg then 1 else 6

/-- `class10` (spec/48_fd_compare_convert.md R313): one bit of ten. -/
def class10 (fmt : FloatFormat) (v : BitVec fmt.width) : BitVec 10 := BitVec.twoPow 10 (classBit fmt v)

/-! ## Conversions (spec/48_fd_compare_convert.md R294 to R312) -/

/-- A value of one format in another: exact, then rounded (`FP.cvt_s_to_d`, `FP.cvt_d_to_s`; R294, R295). -/
def fpConvert (source target : FloatFormat) (mode : RoundingMode) (a : BitVec source.width) :
    BitVec target.width × FpFlags :=
  match unpack source a with
  | .nan signaling => nanResult target signaling
  | .infinity neg => (packInfinity target neg, flagNone)
  | .finite neg significand exponent => roundAndPack target mode neg significand exponent

/-- An integer as a floating-point number (`FP.cvt_w_to_s` and its like; R296 to R301). 0 converts to +0. -/
def fpOfInt (fmt : FloatFormat) (mode : RoundingMode) (i : Int) : BitVec fmt.width × FpFlags :=
  roundAndPack fmt mode (decide (i < 0)) i.natAbs 0

/-- A floating-point number as an integer of the range `least` .. `greatest`: rounded in the mode, then tested for
range; outside it, for an infinity and for a NaN the saturated value and NV (R312). -/
def fpToInt (fmt : FloatFormat) (mode : RoundingMode) (least greatest : Int) (a : BitVec fmt.width) : Int × FpFlags :=
  match unpack fmt a with
  | .nan _ => (greatest, flagNV)
  | .infinity neg => (if neg then least else greatest, flagNV)
  | .finite neg significand exponent =>
    let rounded := roundToExponent mode neg significand exponent 0
    let value := signedNat neg rounded.1
    if value < least then (least, flagNV)
    else if greatest < value then (greatest, flagNV)
    else (value, flagIf rounded.2 flagNX)

/-- `FP.cvt_s_to_w`, `FP.cvt_d_to_w`: to a signed 32-bit integer (R304, R305). -/
def fpToWord (fmt : FloatFormat) (mode : RoundingMode) (a : BitVec fmt.width) : Word × FpFlags :=
  let r := fpToInt fmt mode (-(2 ^ 31)) (2 ^ 31 - 1) a
  (BitVec.ofInt 32 r.1, r.2)

/-- `FP.cvt_s_to_wu`, `FP.cvt_d_to_wu`: to an unsigned 32-bit integer (R308, R309). -/
def fpToWordUnsigned (fmt : FloatFormat) (mode : RoundingMode) (a : BitVec fmt.width) : Word × FpFlags :=
  let r := fpToInt fmt mode 0 (2 ^ 32 - 1) a
  (BitVec.ofInt 32 r.1, r.2)

end Sys2Proof.Machine
end

