-- ==== Sys2Proof/Machine/LoadStore.lean ====
section
/-! DEFINITION. The integer loads and stores (spec/42_load_store.md). -/

namespace Sys2Proof.Machine

/-- A load of `n` bytes at `a`: `k` receives what was read; a load that raises writes nothing
(spec/42_load_store.md R171). -/
def State.loadThen (s : State) (a : Word) (n : Nat) (k : BitVec (8 * n) → Result) : Result :=
  match s.memRead .load a n with
  | .error cause => raise cause a s
  | .ok v => k v

/-- A store of `n` bytes at `a`, then `pc + 4`; a store that raises writes nothing (spec/42_load_store.md R171). -/
def State.storeThenAdvance (s : State) (a : Word) (n : Nat) (v : BitVec (8 * n)) : Result :=
  match s.memWrite a n v with
  | .error cause => raise cause a s
  | .ok t => .next t.advance

/-- `lb`: load a byte, sign-extended (spec/42_load_store.md R172). -/
def execLb (rd rs1 : Reg) (imm : BitVec 12) (s : State) : Result :=
  s.loadThen (s.effectiveAddress rs1 imm) 1 fun v => s.finishX rd (v.signExtend 32)

/-- `lh`: load a halfword, sign-extended (spec/42_load_store.md R173). -/
def execLh (rd rs1 : Reg) (imm : BitVec 12) (s : State) : Result :=
  s.loadThen (s.effectiveAddress rs1 imm) 2 fun v => s.finishX rd (v.signExtend 32)

/-- `lw`: load a word (spec/42_load_store.md R174). -/
def execLw (rd rs1 : Reg) (imm : BitVec 12) (s : State) : Result :=
  s.loadThen (s.effectiveAddress rs1 imm) 4 fun v => s.finishX rd v

/-- `lbu`: load a byte, zero-extended (spec/42_load_store.md R175). -/
def execLbu (rd rs1 : Reg) (imm : BitVec 12) (s : State) : Result :=
  s.loadThen (s.effectiveAddress rs1 imm) 1 fun v => s.finishX rd (v.setWidth 32)

/-- `lhu`: load a halfword, zero-extended (spec/42_load_store.md R176). -/
def execLhu (rd rs1 : Reg) (imm : BitVec 12) (s : State) : Result :=
  s.loadThen (s.effectiveAddress rs1 imm) 2 fun v => s.finishX rd (v.setWidth 32)

/-- `sb`: store the low byte of `x[rs2]` (spec/42_load_store.md R177). -/
def execSb (rs2 rs1 : Reg) (imm : BitVec 12) (s : State) : Result :=
  s.storeThenAdvance (s.effectiveAddress rs1 imm) 1 ((s.getX rs2).extractLsb' 0 8)

/-- `sh`: store the low halfword of `x[rs2]` (spec/42_load_store.md R178). -/
def execSh (rs2 rs1 : Reg) (imm : BitVec 12) (s : State) : Result :=
  s.storeThenAdvance (s.effectiveAddress rs1 imm) 2 ((s.getX rs2).extractLsb' 0 16)

/-- `sw`: store `x[rs2]` (spec/42_load_store.md R179). -/
def execSw (rs2 rs1 : Reg) (imm : BitVec 12) (s : State) : Result :=
  s.storeThenAdvance (s.effectiveAddress rs1 imm) 4 (s.getX rs2)

end Sys2Proof.Machine
end

