-- ==== Sys2Proof/Machine/FloatMove.lean ====
section
/-! DEFINITION. Floating-point loads, stores, sign injection, moves and classification (spec/45_fd_extension.md
R250 to R253, R272 to R277; spec/48_fd_compare_convert.md R288 to R293), and how every floating-point instruction ends. -/

namespace Sys2Proof.Machine

/-- An instruction that rounds, or only has the field `rm`: a reserved mode raises IllegalInstruction with no register
and no flag written (spec/45_fd_extension.md R242). -/
def State.withRm (s : State) (i : Instr) (rm : BitVec 3) (k : RoundingMode → Result) : Result :=
  match s.effectiveRm rm with
  | none => raiseIllegal i s
  | some mode => k mode

/-- `wrS(rd, r); fflags <- fflags | fl; pc <- pc + 4` (spec/45_fd_extension.md R240). -/
def State.finishS (s : State) (rd : Reg) (r : Single × FpFlags) : Result :=
  .next ((s.wrS rd r.1).accrue r.2).advance

/-- `wrD(rd, r); fflags <- fflags | fl; pc <- pc + 4` (spec/45_fd_extension.md R240). -/
def State.finishD (s : State) (rd : Reg) (r : Double × FpFlags) : Result :=
  .next ((s.wrD rd r.1).accrue r.2).advance

/-- `x[rd] <- v; fflags <- fflags | fl; pc <- pc + 4` (spec/48_fd_compare_convert.md R282, R304). -/
def State.finishInteger (s : State) (rd : Reg) (r : Word × FpFlags) : Result := (s.accrue r.2).finishX rd r.1

/-- The same for a comparison: the 32-bit value 1 or 0 (spec/48_fd_compare_convert.md R282). -/
def State.finishTruth (s : State) (rd : Reg) (r : Bool × FpFlags) : Result :=
  s.finishInteger rd (truthWord r.1, r.2)

/-! ## Loads and stores -/

/-- `flw`: load a single, boxed (spec/45_fd_extension.md R250). -/
def execFlw (rd rs1 : Reg) (imm : BitVec 12) (s : State) : Result :=
  whenPresent s.cfg.hasF (.flw rd rs1 imm) s
    (s.loadThen (s.effectiveAddress rs1 imm) 4 fun v => .next (s.wrS rd v).advance)

/-- `fld`: load a double (spec/45_fd_extension.md R251). -/
def execFld (rd rs1 : Reg) (imm : BitVec 12) (s : State) : Result :=
  whenPresent s.cfg.hasD (.fld rd rs1 imm) s
    (s.loadThen (s.effectiveAddress rs1 imm) 8 fun v => .next (s.wrD rd v).advance)

/-- `fsw`: store the low 32 bits of `f[rs2]`, without the box check (spec/45_fd_extension.md R252). -/
def execFsw (rs2 rs1 : Reg) (imm : BitVec 12) (s : State) : Result :=
  whenPresent s.cfg.hasF (.fsw rs2 rs1 imm) s (s.storeThenAdvance (s.effectiveAddress rs1 imm) 4 (s.lowF rs2))

/-- `fsd`: store `f[rs2]` (spec/45_fd_extension.md R253). -/
def execFsd (rs2 rs1 : Reg) (imm : BitVec 12) (s : State) : Result :=
  whenPresent s.cfg.hasD (.fsd rs2 rs1 imm) s (s.storeThenAdvance (s.effectiveAddress rs1 imm) 8 (s.rdD rs2))

/-! ## Sign injection: bits only, no flag, not even for a signaling NaN -/

/-- `fsgnj.s`: the sign of the second operand (spec/45_fd_extension.md R272). -/
def execFsgnjS (rd rs1 rs2 : Reg) (s : State) : Result :=
  whenPresent s.cfg.hasF (.fsgnjS rd rs1 rs2) s
    (.next (s.wrS rd ((s.rdS rs2).extractLsb' 31 1 ++ (s.rdS rs1).extractLsb' 0 31)).advance)

/-- `fsgnj.d`: the sign of the second operand (spec/45_fd_extension.md R273). -/
def execFsgnjD (rd rs1 rs2 : Reg) (s : State) : Result :=
  whenPresent s.cfg.hasD (.fsgnjD rd rs1 rs2) s
    (.next (s.wrD rd ((s.rdD rs2).extractLsb' 63 1 ++ (s.rdD rs1).extractLsb' 0 63)).advance)

/-- `fsgnjn.s`: the opposite of the second operand's sign (spec/45_fd_extension.md R274). -/
def execFsgnjnS (rd rs1 rs2 : Reg) (s : State) : Result :=
  whenPresent s.cfg.hasF (.fsgnjnS rd rs1 rs2) s
    (.next (s.wrS rd (~~~((s.rdS rs2).extractLsb' 31 1) ++ (s.rdS rs1).extractLsb' 0 31)).advance)

/-- `fsgnjn.d`: the opposite of the second operand's sign (spec/45_fd_extension.md R275). -/
def execFsgnjnD (rd rs1 rs2 : Reg) (s : State) : Result :=
  whenPresent s.cfg.hasD (.fsgnjnD rd rs1 rs2) s
    (.next (s.wrD rd (~~~((s.rdD rs2).extractLsb' 63 1) ++ (s.rdD rs1).extractLsb' 0 63)).advance)

/-- `fsgnjx.s`: the exclusive or of the signs (spec/45_fd_extension.md R276). -/
def execFsgnjxS (rd rs1 rs2 : Reg) (s : State) : Result :=
  whenPresent s.cfg.hasF (.fsgnjxS rd rs1 rs2) s
    (.next (s.wrS rd (((s.rdS rs1).extractLsb' 31 1 ^^^ (s.rdS rs2).extractLsb' 31 1) ++ (s.rdS rs1).extractLsb' 0 31)).advance)

/-- `fsgnjx.d`: the exclusive or of the signs (spec/45_fd_extension.md R277). -/
def execFsgnjxD (rd rs1 rs2 : Reg) (s : State) : Result :=
  whenPresent s.cfg.hasD (.fsgnjxD rd rs1 rs2) s
    (.next (s.wrD rd (((s.rdD rs1).extractLsb' 63 1 ^^^ (s.rdD rs2).extractLsb' 63 1) ++ (s.rdD rs1).extractLsb' 0 63)).advance)

/-! ## Moves between the register files -/

/-- `fmv.s.x`: move 32 bits to an f register, boxed (spec/48_fd_compare_convert.md R290). -/
def execFmvSX (rd rs1 : Reg) (s : State) : Result :=
  whenPresent s.cfg.hasF (.fmvSX rd rs1) s (.next (s.wrS rd (s.getX rs1)).advance)

/-- `fmv.x.s`: move the low 32 bits of an f register, without the box check
(spec/48_fd_compare_convert.md R292). -/
def execFmvXS (rd rs1 : Reg) (s : State) : Result :=
  whenPresent s.cfg.hasF (.fmvXS rd rs1) s (s.finishX rd (s.lowF rs1))

/-- `fmv.d.x`: needs a 64-bit integer register: raises IllegalInstruction (spec/48_fd_compare_convert.md R291). -/
def execFmvDX (rd rs1 : Reg) (s : State) : Result :=
  raiseIllegal (.fmvDX rd rs1) s

/-- `fmv.x.d`: needs a 64-bit integer register: raises IllegalInstruction (spec/48_fd_compare_convert.md R293). -/
def execFmvXD (rd rs1 : Reg) (s : State) : Result :=
  raiseIllegal (.fmvXD rd rs1) s

/-! ## Classification -/

/-- `fclass.s`: the class of the operand, one bit of ten; no flag (spec/48_fd_compare_convert.md R288). -/
def execFclassS (rd rs1 : Reg) (s : State) : Result :=
  whenPresent s.cfg.hasF (.fclassS rd rs1) s (s.finishX rd ((class10 .single (s.rdS rs1)).setWidth 32))

/-- `fclass.d`: the class of the operand, one bit of ten; no flag (spec/48_fd_compare_convert.md R289). -/
def execFclassD (rd rs1 : Reg) (s : State) : Result :=
  whenPresent s.cfg.hasD (.fclassD rd rs1) s (s.finishX rd ((class10 .double (s.rdD rs1)).setWidth 32))

end Sys2Proof.Machine
end

