-- ==== Sys2Proof/Machine/FloatArith.lean ====
section
/-! DEFINITION. Floating-point arithmetic (spec/45_fd_extension.md R254 to R271, R278 to R281). -/

namespace Sys2Proof.Machine

/-- `fadd.s`: addition (spec/45_fd_extension.md R254). -/
def execFaddS (rd rs1 rs2 : Reg) (rm : BitVec 3) (s : State) : Result :=
  whenPresent s.cfg.hasF (.faddS rd rs1 rs2 rm) s
    (s.withRm (.faddS rd rs1 rs2 rm) rm fun mode => s.finishS rd (fpAdd .single mode (s.rdS rs1) (s.rdS rs2)))

/-- `fadd.d`: addition (spec/45_fd_extension.md R255). -/
def execFaddD (rd rs1 rs2 : Reg) (rm : BitVec 3) (s : State) : Result :=
  whenPresent s.cfg.hasD (.faddD rd rs1 rs2 rm) s
    (s.withRm (.faddD rd rs1 rs2 rm) rm fun mode => s.finishD rd (fpAdd .double mode (s.rdD rs1) (s.rdD rs2)))

/-- `fsub.s`: subtraction (spec/45_fd_extension.md R256). -/
def execFsubS (rd rs1 rs2 : Reg) (rm : BitVec 3) (s : State) : Result :=
  whenPresent s.cfg.hasF (.fsubS rd rs1 rs2 rm) s
    (s.withRm (.fsubS rd rs1 rs2 rm) rm fun mode => s.finishS rd (fpSub .single mode (s.rdS rs1) (s.rdS rs2)))

/-- `fsub.d`: subtraction (spec/45_fd_extension.md R257). -/
def execFsubD (rd rs1 rs2 : Reg) (rm : BitVec 3) (s : State) : Result :=
  whenPresent s.cfg.hasD (.fsubD rd rs1 rs2 rm) s
    (s.withRm (.fsubD rd rs1 rs2 rm) rm fun mode => s.finishD rd (fpSub .double mode (s.rdD rs1) (s.rdD rs2)))

/-- `fmul.s`: multiplication (spec/45_fd_extension.md R258). -/
def execFmulS (rd rs1 rs2 : Reg) (rm : BitVec 3) (s : State) : Result :=
  whenPresent s.cfg.hasF (.fmulS rd rs1 rs2 rm) s
    (s.withRm (.fmulS rd rs1 rs2 rm) rm fun mode => s.finishS rd (fpMul .single mode (s.rdS rs1) (s.rdS rs2)))

/-- `fmul.d`: multiplication (spec/45_fd_extension.md R259). -/
def execFmulD (rd rs1 rs2 : Reg) (rm : BitVec 3) (s : State) : Result :=
  whenPresent s.cfg.hasD (.fmulD rd rs1 rs2 rm) s
    (s.withRm (.fmulD rd rs1 rs2 rm) rm fun mode => s.finishD rd (fpMul .double mode (s.rdD rs1) (s.rdD rs2)))

/-- `fdiv.s`: division; division of a finite non-zero number by zero sets DZ (spec/45_fd_extension.md R260). -/
def execFdivS (rd rs1 rs2 : Reg) (rm : BitVec 3) (s : State) : Result :=
  whenPresent s.cfg.hasF (.fdivS rd rs1 rs2 rm) s
    (s.withRm (.fdivS rd rs1 rs2 rm) rm fun mode => s.finishS rd (fpDiv .single mode (s.rdS rs1) (s.rdS rs2)))

/-- `fdiv.d`: division; division of a finite non-zero number by zero sets DZ (spec/45_fd_extension.md R261). -/
def execFdivD (rd rs1 rs2 : Reg) (rm : BitVec 3) (s : State) : Result :=
  whenPresent s.cfg.hasD (.fdivD rd rs1 rs2 rm) s
    (s.withRm (.fdivD rd rs1 rs2 rm) rm fun mode => s.finishD rd (fpDiv .double mode (s.rdD rs1) (s.rdD rs2)))

/-- `fsqrt.s`: square root (spec/45_fd_extension.md R262). -/
def execFsqrtS (rd rs1 : Reg) (rm : BitVec 3) (s : State) : Result :=
  whenPresent s.cfg.hasF (.fsqrtS rd rs1 rm) s
    (s.withRm (.fsqrtS rd rs1 rm) rm fun mode => s.finishS rd (fpSqrt .single mode (s.rdS rs1)))

/-- `fsqrt.d`: square root (spec/45_fd_extension.md R263). -/
def execFsqrtD (rd rs1 : Reg) (rm : BitVec 3) (s : State) : Result :=
  whenPresent s.cfg.hasD (.fsqrtD rd rs1 rm) s
    (s.withRm (.fsqrtD rd rs1 rm) rm fun mode => s.finishD rd (fpSqrt .double mode (s.rdD rs1)))

/-! ## Fused multiply-add: the standard forms, the product negated before the addition (spec/90_conflicts.md C19) -/

/-- `fmadd.s`: `a * b + c` rounded once (spec/45_fd_extension.md R264). -/
def execFmaddS (rd rs1 rs2 rs3 : Reg) (rm : BitVec 3) (s : State) : Result :=
  whenPresent s.cfg.hasF (.fmaddS rd rs1 rs2 rs3 rm) s
    (s.withRm (.fmaddS rd rs1 rs2 rs3 rm) rm fun mode =>
      s.finishS rd (fpFma .single mode (s.rdS rs1) (s.rdS rs2) (s.rdS rs3)))

/-- `fmadd.d`: `a * b + c` rounded once (spec/45_fd_extension.md R265). -/
def execFmaddD (rd rs1 rs2 rs3 : Reg) (rm : BitVec 3) (s : State) : Result :=
  whenPresent s.cfg.hasD (.fmaddD rd rs1 rs2 rs3 rm) s
    (s.withRm (.fmaddD rd rs1 rs2 rs3 rm) rm fun mode =>
      s.finishD rd (fpFma .double mode (s.rdD rs1) (s.rdD rs2) (s.rdD rs3)))

/-- `fmsub.s`: `a * b - c` rounded once (spec/45_fd_extension.md R266). -/
def execFmsubS (rd rs1 rs2 rs3 : Reg) (rm : BitVec 3) (s : State) : Result :=
  whenPresent s.cfg.hasF (.fmsubS rd rs1 rs2 rs3 rm) s
    (s.withRm (.fmsubS rd rs1 rs2 rs3 rm) rm fun mode =>
      s.finishS rd (fpFma .single mode (s.rdS rs1) (s.rdS rs2) (fpNegate .single (s.rdS rs3))))

/-- `fmsub.d`: `a * b - c` rounded once (spec/45_fd_extension.md R267). -/
def execFmsubD (rd rs1 rs2 rs3 : Reg) (rm : BitVec 3) (s : State) : Result :=
  whenPresent s.cfg.hasD (.fmsubD rd rs1 rs2 rs3 rm) s
    (s.withRm (.fmsubD rd rs1 rs2 rs3 rm) rm fun mode =>
      s.finishD rd (fpFma .double mode (s.rdD rs1) (s.rdD rs2) (fpNegate .double (s.rdD rs3))))

/-- `fnmsub.s`: `-(a * b) + c` rounded once (spec/45_fd_extension.md R268). -/
def execFnmsubS (rd rs1 rs2 rs3 : Reg) (rm : BitVec 3) (s : State) : Result :=
  whenPresent s.cfg.hasF (.fnmsubS rd rs1 rs2 rs3 rm) s
    (s.withRm (.fnmsubS rd rs1 rs2 rs3 rm) rm fun mode =>
      s.finishS rd (fpFma .single mode (fpNegate .single (s.rdS rs1)) (s.rdS rs2) (s.rdS rs3)))

/-- `fnmsub.d`: `-(a * b) + c` rounded once (spec/45_fd_extension.md R269). -/
def execFnmsubD (rd rs1 rs2 rs3 : Reg) (rm : BitVec 3) (s : State) : Result :=
  whenPresent s.cfg.hasD (.fnmsubD rd rs1 rs2 rs3 rm) s
    (s.withRm (.fnmsubD rd rs1 rs2 rs3 rm) rm fun mode =>
      s.finishD rd (fpFma .double mode (fpNegate .double (s.rdD rs1)) (s.rdD rs2) (s.rdD rs3)))

/-- `fnmadd.s`: `-(a * b) - c` rounded once (spec/45_fd_extension.md R270). -/
def execFnmaddS (rd rs1 rs2 rs3 : Reg) (rm : BitVec 3) (s : State) : Result :=
  whenPresent s.cfg.hasF (.fnmaddS rd rs1 rs2 rs3 rm) s
    (s.withRm (.fnmaddS rd rs1 rs2 rs3 rm) rm fun mode =>
      s.finishS rd (fpFma .single mode (fpNegate .single (s.rdS rs1)) (s.rdS rs2) (fpNegate .single (s.rdS rs3))))

/-- `fnmadd.d`: `-(a * b) - c` rounded once (spec/45_fd_extension.md R271). -/
def execFnmaddD (rd rs1 rs2 rs3 : Reg) (rm : BitVec 3) (s : State) : Result :=
  whenPresent s.cfg.hasD (.fnmaddD rd rs1 rs2 rs3 rm) s
    (s.withRm (.fnmaddD rd rs1 rs2 rs3 rm) rm fun mode =>
      s.finishD rd (fpFma .double mode (fpNegate .double (s.rdD rs1)) (s.rdD rs2) (fpNegate .double (s.rdD rs3))))

/-! ## Minimum and maximum: exact, no rounding mode -/

/-- `fmin.s`: minimum (spec/45_fd_extension.md R278). -/
def execFminS (rd rs1 rs2 : Reg) (s : State) : Result :=
  whenPresent s.cfg.hasF (.fminS rd rs1 rs2) s (s.finishS rd (fpMin .single (s.rdS rs1) (s.rdS rs2)))

/-- `fmin.d`: minimum (spec/45_fd_extension.md R279). -/
def execFminD (rd rs1 rs2 : Reg) (s : State) : Result :=
  whenPresent s.cfg.hasD (.fminD rd rs1 rs2) s (s.finishD rd (fpMin .double (s.rdD rs1) (s.rdD rs2)))

/-- `fmax.s`: maximum (spec/45_fd_extension.md R280). -/
def execFmaxS (rd rs1 rs2 : Reg) (s : State) : Result :=
  whenPresent s.cfg.hasF (.fmaxS rd rs1 rs2) s (s.finishS rd (fpMax .single (s.rdS rs1) (s.rdS rs2)))

/-- `fmax.d`: maximum (spec/45_fd_extension.md R281). -/
def execFmaxD (rd rs1 rs2 : Reg) (s : State) : Result :=
  whenPresent s.cfg.hasD (.fmaxD rd rs1 rs2) s (s.finishD rd (fpMax .double (s.rdD rs1) (s.rdD rs2)))

end Sys2Proof.Machine
end

