-- ==== Sys2Proof/Machine/FloatConvert.lean ====
section
/-! DEFINITION. Floating-point comparisons and conversions (spec/48_fd_compare_convert.md R282 to R287,
R294 to R312). -/

namespace Sys2Proof.Machine

/-! ## Comparisons -/

/-- `feq.s`: equal; quiet (spec/48_fd_compare_convert.md R282). -/
def execFeqS (rd rs1 rs2 : Reg) (s : State) : Result :=
  whenPresent s.cfg.hasF (.feqS rd rs1 rs2) s
    (s.finishTruth rd (fpEq .single (s.rdS rs1) (s.rdS rs2)))

/-- `feq.d`: equal; quiet (spec/48_fd_compare_convert.md R283). -/
def execFeqD (rd rs1 rs2 : Reg) (s : State) : Result :=
  whenPresent s.cfg.hasD (.feqD rd rs1 rs2) s
    (s.finishTruth rd (fpEq .double (s.rdD rs1) (s.rdD rs2)))

/-- `flt.s`: less; signaling (spec/48_fd_compare_convert.md R284). -/
def execFltS (rd rs1 rs2 : Reg) (s : State) : Result :=
  whenPresent s.cfg.hasF (.fltS rd rs1 rs2) s
    (s.finishTruth rd (fpLt .single (s.rdS rs1) (s.rdS rs2)))

/-- `flt.d`: less; signaling (spec/48_fd_compare_convert.md R285). -/
def execFltD (rd rs1 rs2 : Reg) (s : State) : Result :=
  whenPresent s.cfg.hasD (.fltD rd rs1 rs2) s
    (s.finishTruth rd (fpLt .double (s.rdD rs1) (s.rdD rs2)))

/-- `fle.s`: less or equal; signaling (spec/48_fd_compare_convert.md R286). -/
def execFleS (rd rs1 rs2 : Reg) (s : State) : Result :=
  whenPresent s.cfg.hasF (.fleS rd rs1 rs2) s
    (s.finishTruth rd (fpLe .single (s.rdS rs1) (s.rdS rs2)))

/-- `fle.d`: less or equal; signaling (spec/48_fd_compare_convert.md R287). -/
def execFleD (rd rs1 rs2 : Reg) (s : State) : Result :=
  whenPresent s.cfg.hasD (.fleD rd rs1 rs2) s
    (s.finishTruth rd (fpLe .double (s.rdD rs1) (s.rdD rs2)))

/-! ## Between the formats -/

/-- `fcvt.d.s`: single to double: exact; `rm` is checked though nothing rounds
(spec/48_fd_compare_convert.md R294). -/
def execFcvtDS (rd rs1 : Reg) (rm : BitVec 3) (s : State) : Result :=
  whenPresent s.cfg.hasD (.fcvtDS rd rs1 rm) s
    (s.withRm (.fcvtDS rd rs1 rm) rm fun _ => s.finishD rd (fpConvert .single .double .rne (s.rdS rs1)))

/-- `fcvt.s.d`: double to single (spec/48_fd_compare_convert.md R295). -/
def execFcvtSD (rd rs1 : Reg) (rm : BitVec 3) (s : State) : Result :=
  whenPresent s.cfg.hasD (.fcvtSD rd rs1 rm) s
    (s.withRm (.fcvtSD rd rs1 rm) rm fun mode => s.finishS rd (fpConvert .double .single mode (s.rdD rs1)))

/-! ## From integers -/

/-- `fcvt.s.w`: signed 32-bit integer to single (spec/48_fd_compare_convert.md R296). -/
def execFcvtSW (rd rs1 : Reg) (rm : BitVec 3) (s : State) : Result :=
  whenPresent s.cfg.hasF (.fcvtSW rd rs1 rm) s
    (s.withRm (.fcvtSW rd rs1 rm) rm fun mode => s.finishS rd (fpOfInt .single mode (s.getX rs1).toInt))

/-- `fcvt.d.w`: signed 32-bit integer to double: exact; `rm` is checked though nothing rounds
(spec/48_fd_compare_convert.md R297). -/
def execFcvtDW (rd rs1 : Reg) (rm : BitVec 3) (s : State) : Result :=
  whenPresent s.cfg.hasD (.fcvtDW rd rs1 rm) s
    (s.withRm (.fcvtDW rd rs1 rm) rm fun _ => s.finishD rd (fpOfInt .double .rne (s.getX rs1).toInt))

/-- `fcvt.s.wu`: unsigned 32-bit integer to single (spec/48_fd_compare_convert.md R300). -/
def execFcvtSWu (rd rs1 : Reg) (rm : BitVec 3) (s : State) : Result :=
  whenPresent s.cfg.hasF (.fcvtSWu rd rs1 rm) s
    (s.withRm (.fcvtSWu rd rs1 rm) rm fun mode =>
      s.finishS rd (fpOfInt .single mode ((s.getX rs1).toNat : Int)))

/-- `fcvt.d.wu`: unsigned 32-bit integer to double: exact; `rm` is checked though nothing rounds
(spec/48_fd_compare_convert.md R301). -/
def execFcvtDWu (rd rs1 : Reg) (rm : BitVec 3) (s : State) : Result :=
  whenPresent s.cfg.hasD (.fcvtDWu rd rs1 rm) s
    (s.withRm (.fcvtDWu rd rs1 rm) rm fun _ => s.finishD rd (fpOfInt .double .rne ((s.getX rs1).toNat : Int)))

/-! ## To integers (spec/48_fd_compare_convert.md R312) -/

/-- `fcvt.w.s`: single to signed 32-bit integer (spec/48_fd_compare_convert.md R304). -/
def execFcvtWS (rd rs1 : Reg) (rm : BitVec 3) (s : State) : Result :=
  whenPresent s.cfg.hasF (.fcvtWS rd rs1 rm) s
    (s.withRm (.fcvtWS rd rs1 rm) rm fun mode => s.finishInteger rd (fpToWord .single mode (s.rdS rs1)))

/-- `fcvt.w.d`: double to signed 32-bit integer (spec/48_fd_compare_convert.md R305). -/
def execFcvtWD (rd rs1 : Reg) (rm : BitVec 3) (s : State) : Result :=
  whenPresent s.cfg.hasD (.fcvtWD rd rs1 rm) s
    (s.withRm (.fcvtWD rd rs1 rm) rm fun mode => s.finishInteger rd (fpToWord .double mode (s.rdD rs1)))

/-- `fcvt.wu.s`: single to unsigned 32-bit integer (spec/48_fd_compare_convert.md R308). -/
def execFcvtWuS (rd rs1 : Reg) (rm : BitVec 3) (s : State) : Result :=
  whenPresent s.cfg.hasF (.fcvtWuS rd rs1 rm) s
    (s.withRm (.fcvtWuS rd rs1 rm) rm fun mode =>
      s.finishInteger rd (fpToWordUnsigned .single mode (s.rdS rs1)))

/-- `fcvt.wu.d`: double to unsigned 32-bit integer (spec/48_fd_compare_convert.md R309). -/
def execFcvtWuD (rd rs1 : Reg) (rm : BitVec 3) (s : State) : Result :=
  whenPresent s.cfg.hasD (.fcvtWuD rd rs1 rm) s
    (s.withRm (.fcvtWuD rd rs1 rm) rm fun mode =>
      s.finishInteger rd (fpToWordUnsigned .double mode (s.rdD rs1)))

/-! ## The 64-bit integer forms: not in this hardware -/

/-- `fcvt.s.l`: needs a 64-bit integer register: raises IllegalInstruction (spec/48_fd_compare_convert.md R298). -/
def execFcvtSL (rd rs1 : Reg) (rm : BitVec 3) (s : State) : Result :=
  raiseIllegal (.fcvtSL rd rs1 rm) s

/-- `fcvt.d.l`: needs a 64-bit integer register: raises IllegalInstruction (spec/48_fd_compare_convert.md R299). -/
def execFcvtDL (rd rs1 : Reg) (rm : BitVec 3) (s : State) : Result :=
  raiseIllegal (.fcvtDL rd rs1 rm) s

/-- `fcvt.s.lu`: needs a 64-bit integer register: raises IllegalInstruction
(spec/48_fd_compare_convert.md R302). -/
def execFcvtSLu (rd rs1 : Reg) (rm : BitVec 3) (s : State) : Result :=
  raiseIllegal (.fcvtSLu rd rs1 rm) s

/-- `fcvt.d.lu`: needs a 64-bit integer register: raises IllegalInstruction
(spec/48_fd_compare_convert.md R303). -/
def execFcvtDLu (rd rs1 : Reg) (rm : BitVec 3) (s : State) : Result :=
  raiseIllegal (.fcvtDLu rd rs1 rm) s

/-- `fcvt.l.s`: needs a 64-bit integer register: raises IllegalInstruction (spec/48_fd_compare_convert.md R306). -/
def execFcvtLS (rd rs1 : Reg) (rm : BitVec 3) (s : State) : Result :=
  raiseIllegal (.fcvtLS rd rs1 rm) s

/-- `fcvt.l.d`: needs a 64-bit integer register: raises IllegalInstruction (spec/48_fd_compare_convert.md R307). -/
def execFcvtLD (rd rs1 : Reg) (rm : BitVec 3) (s : State) : Result :=
  raiseIllegal (.fcvtLD rd rs1 rm) s

/-- `fcvt.lu.s`: needs a 64-bit integer register: raises IllegalInstruction
(spec/48_fd_compare_convert.md R310). -/
def execFcvtLuS (rd rs1 : Reg) (rm : BitVec 3) (s : State) : Result :=
  raiseIllegal (.fcvtLuS rd rs1 rm) s

/-- `fcvt.lu.d`: needs a 64-bit integer register: raises IllegalInstruction
(spec/48_fd_compare_convert.md R311). -/
def execFcvtLuD (rd rs1 : Reg) (rm : BitVec 3) (s : State) : Result :=
  raiseIllegal (.fcvtLuD rd rs1 rm) s

end Sys2Proof.Machine
end

