-- ==== Sys2Proof/Machine/Integer.lean ====
section
/-! DEFINITION. The 21 integer computational instructions (spec/40_integer_computational.md): each writes `x[rd]` and
advances, none raises an exception (R120). -/

namespace Sys2Proof.Machine

/-! ## Register-register instructions -/

/-- `add`: the sum modulo 2^32 (spec/40_integer_computational.md R121). -/
def execAdd (rd rs1 rs2 : Reg) (s : State) : Result :=
  s.finishX rd (s.getX rs1 + s.getX rs2)

/-- `sub`: the difference modulo 2^32 (spec/40_integer_computational.md R122). -/
def execSub (rd rs1 rs2 : Reg) (s : State) : Result :=
  s.finishX rd (s.getX rs1 - s.getX rs2)

/-- `sll`: shift left by the low five bits of the second source (spec/40_integer_computational.md R123). -/
def execSll (rd rs1 rs2 : Reg) (s : State) : Result :=
  s.finishX rd (s.getX rs1 <<< shiftAmount (s.getX rs2))

/-- `slt`: 1 when less as signed integers, else 0 (spec/40_integer_computational.md R124). -/
def execSlt (rd rs1 rs2 : Reg) (s : State) : Result :=
  s.finishX rd (truthWord ((s.getX rs1).slt (s.getX rs2)))

/-- `sltu`: 1 when less as unsigned integers, else 0 (spec/40_integer_computational.md R125). -/
def execSltu (rd rs1 rs2 : Reg) (s : State) : Result :=
  s.finishX rd (truthWord ((s.getX rs1).ult (s.getX rs2)))

/-- `xor`: bitwise exclusive or (spec/40_integer_computational.md R126). -/
def execXor (rd rs1 rs2 : Reg) (s : State) : Result :=
  s.finishX rd (s.getX rs1 ^^^ s.getX rs2)

/-- `srl`: shift right, zeros entering (spec/40_integer_computational.md R127). -/
def execSrl (rd rs1 rs2 : Reg) (s : State) : Result :=
  s.finishX rd (s.getX rs1 >>> shiftAmount (s.getX rs2))

/-- `sra`: shift right, copies of the sign bit entering (spec/40_integer_computational.md R128). -/
def execSra (rd rs1 rs2 : Reg) (s : State) : Result :=
  s.finishX rd ((s.getX rs1).sshiftRight (shiftAmount (s.getX rs2)))

/-- `or`: bitwise or (spec/40_integer_computational.md R129). -/
def execOr (rd rs1 rs2 : Reg) (s : State) : Result :=
  s.finishX rd (s.getX rs1 ||| s.getX rs2)

/-- `and`: bitwise and (spec/40_integer_computational.md R130). -/
def execAnd (rd rs1 rs2 : Reg) (s : State) : Result :=
  s.finishX rd (s.getX rs1 &&& s.getX rs2)

/-! ## Register-immediate instructions -/

/-- `addi`: the sum with the sign-extended immediate (spec/40_integer_computational.md R131). -/
def execAddi (rd rs1 : Reg) (imm : BitVec 12) (s : State) : Result :=
  s.finishX rd (s.getX rs1 + immediate imm)

/-- `slti`: 1 when less than the immediate as signed integers (spec/40_integer_computational.md R132). -/
def execSlti (rd rs1 : Reg) (imm : BitVec 12) (s : State) : Result :=
  s.finishX rd (truthWord ((s.getX rs1).slt (immediate imm)))

/-- `sltiu`: 1 when less than the sign-extended immediate as unsigned integers
(spec/40_integer_computational.md R133). -/
def execSltiu (rd rs1 : Reg) (imm : BitVec 12) (s : State) : Result :=
  s.finishX rd (truthWord ((s.getX rs1).ult (immediate imm)))

/-- `xori`: bitwise exclusive or with the immediate (spec/40_integer_computational.md R134). -/
def execXori (rd rs1 : Reg) (imm : BitVec 12) (s : State) : Result :=
  s.finishX rd (s.getX rs1 ^^^ immediate imm)

/-- `ori`: bitwise or with the immediate (spec/40_integer_computational.md R135). -/
def execOri (rd rs1 : Reg) (imm : BitVec 12) (s : State) : Result :=
  s.finishX rd (s.getX rs1 ||| immediate imm)

/-- `andi`: bitwise and with the immediate (spec/40_integer_computational.md R136). -/
def execAndi (rd rs1 : Reg) (imm : BitVec 12) (s : State) : Result :=
  s.finishX rd (s.getX rs1 &&& immediate imm)

/-- `slli`: shift left by `shamt` (spec/40_integer_computational.md R137). -/
def execSlli (rd rs1 : Reg) (shamt : BitVec 5) (s : State) : Result :=
  s.finishX rd (s.getX rs1 <<< shamt.toNat)

/-- `srli`: shift right by `shamt`, zeros entering (spec/40_integer_computational.md R138). -/
def execSrli (rd rs1 : Reg) (shamt : BitVec 5) (s : State) : Result :=
  s.finishX rd (s.getX rs1 >>> shamt.toNat)

/-- `srai`: shift right by `shamt`, copies of the sign bit entering (spec/40_integer_computational.md R139). -/
def execSrai (rd rs1 : Reg) (shamt : BitVec 5) (s : State) : Result :=
  s.finishX rd ((s.getX rs1).sshiftRight shamt.toNat)

/-! ## Upper-immediate instructions -/

/-- `lui`: the immediate above 12 zeros (spec/40_integer_computational.md R140). -/
def execLui (rd : Reg) (imm : BitVec 20) (s : State) : Result :=
  s.finishX rd (upperImmediate imm)

/-- `auipc`: the upper immediate added to the address of the instruction itself
(spec/40_integer_computational.md R141). -/
def execAuipc (rd : Reg) (imm : BitVec 20) (s : State) : Result :=
  s.finishX rd (s.pc + upperImmediate imm)

end Sys2Proof.Machine
end

