-- ==== Sys2Proof/Machine/MulDiv.lean ====
section
/-! DEFINITION. The M group (spec/44_m_extension.md): no division raises an exception (R229). -/

namespace Sys2Proof.Machine

/-- The high half of a 64-bit product (spec/44_m_extension.md R222 to R224). -/
def highHalf (p : Int) : Word := (BitVec.ofInt 64 p).extractLsb' 32 32

/-- Signed division: by zero -1; -2^31 by -1 gives -2^31; otherwise toward zero (spec/44_m_extension.md R225, R229). -/
def divideSigned (a b : Word) : Word :=
  if b = 0#32 then 0xFFFFFFFF#32
  else if a = 0x80000000#32 ∧ b = 0xFFFFFFFF#32 then 0x80000000#32
  else BitVec.ofInt 32 (a.toInt.tdiv b.toInt)

/-- Unsigned division: by zero 2^32 - 1 (spec/44_m_extension.md R226, R229). -/
def divideUnsigned (a b : Word) : Word :=
  if b = 0#32 then 0xFFFFFFFF#32 else BitVec.ofNat 32 (a.toNat / b.toNat)

/-- Signed remainder: by zero the dividend; -2^31 by -1 gives 0; otherwise of the dividend's sign
(spec/44_m_extension.md R227, R229). -/
def remainderSigned (a b : Word) : Word :=
  if b = 0#32 then a
  else if a = 0x80000000#32 ∧ b = 0xFFFFFFFF#32 then 0#32
  else BitVec.ofInt 32 (a.toInt - b.toInt * a.toInt.tdiv b.toInt)

/-- Unsigned remainder: by zero the dividend (spec/44_m_extension.md R228, R229). -/
def remainderUnsigned (a b : Word) : Word :=
  if b = 0#32 then a else BitVec.ofNat 32 (a.toNat % b.toNat)

/-- `mul`: the low half of the product (spec/44_m_extension.md R221). -/
def execMul (rd rs1 rs2 : Reg) (s : State) : Result :=
  whenPresent s.cfg.hasM (.mul rd rs1 rs2) s (s.finishX rd (s.getX rs1 * s.getX rs2))

/-- `mulh`: the high half, both operands signed (spec/44_m_extension.md R222). -/
def execMulh (rd rs1 rs2 : Reg) (s : State) : Result :=
  whenPresent s.cfg.hasM (.mulh rd rs1 rs2) s
    (s.finishX rd (highHalf ((s.getX rs1).toInt * (s.getX rs2).toInt)))

/-- `mulhsu`: the high half, `x[rs1]` signed and `x[rs2]` unsigned (spec/44_m_extension.md R223). -/
def execMulhsu (rd rs1 rs2 : Reg) (s : State) : Result :=
  whenPresent s.cfg.hasM (.mulhsu rd rs1 rs2) s
    (s.finishX rd (highHalf ((s.getX rs1).toInt * ((s.getX rs2).toNat : Int))))

/-- `mulhu`: the high half, both operands unsigned (spec/44_m_extension.md R224). -/
def execMulhu (rd rs1 rs2 : Reg) (s : State) : Result :=
  whenPresent s.cfg.hasM (.mulhu rd rs1 rs2) s
    (s.finishX rd (highHalf (((s.getX rs1).toNat : Int) * ((s.getX rs2).toNat : Int))))

/-- `div`: signed quotient (spec/44_m_extension.md R225). -/
def execDiv (rd rs1 rs2 : Reg) (s : State) : Result :=
  whenPresent s.cfg.hasM (.div rd rs1 rs2) s (s.finishX rd (divideSigned (s.getX rs1) (s.getX rs2)))

/-- `divu`: unsigned quotient (spec/44_m_extension.md R226). -/
def execDivu (rd rs1 rs2 : Reg) (s : State) : Result :=
  whenPresent s.cfg.hasM (.divu rd rs1 rs2) s (s.finishX rd (divideUnsigned (s.getX rs1) (s.getX rs2)))

/-- `rem`: signed remainder (spec/44_m_extension.md R227). -/
def execRem (rd rs1 rs2 : Reg) (s : State) : Result :=
  whenPresent s.cfg.hasM (.rem rd rs1 rs2) s (s.finishX rd (remainderSigned (s.getX rs1) (s.getX rs2)))

/-- `remu`: unsigned remainder (spec/44_m_extension.md R228). -/
def execRemu (rd rs1 rs2 : Reg) (s : State) : Result :=
  whenPresent s.cfg.hasM (.remu rd rs1 rs2) s (s.finishX rd (remainderUnsigned (s.getX rs1) (s.getX rs2)))

end Sys2Proof.Machine
end

