-- ==== Sys2Proof/Machine/System.lean ====
section
/-! DEFINITION. The CSR instructions, `ecall`, `ebreak` and the fences (spec/43_system_csr_fence.md). -/

namespace Sys2Proof.Machine

/-- The shape of the six CSR instructions (spec/43_system_csr_fence.md R190, R191): IllegalInstruction when the control
register does not exist, or is read-only and would be written; otherwise the old value goes to `x[rd]` and, if the
instruction writes, `new old` to the register. Both use the state before the instruction. Reading a control register
of this hart has no side effect, so the read that R190 (a) suppresses for `rd = x0` is not observable. -/
def State.csrAccess (s : State) (i : Instr) (rd : Reg) (csr : BitVec 12) (writes : Bool) (new : Word → Word) : Result :=
  match csrAt s.cfg csr with
  | none => raiseIllegal i s
  | some c =>
    if writes && csrReadOnly c then raiseIllegal i s
    else
      let old := s.readCsr c
      (if writes then s.writeCsr c (new old) else s).finishX rd old

/-- `csrrw`: read and write (spec/43_system_csr_fence.md R192). -/
def execCsrrw (rd : Reg) (csr : BitVec 12) (rs1 : Reg) (s : State) : Result :=
  s.csrAccess (.csrrw rd csr rs1) rd csr true (fun _ => s.getX rs1)

/-- `csrrs`: read and set bits; `rs1 = x0` does not write (spec/43_system_csr_fence.md R193). -/
def execCsrrs (rd : Reg) (csr : BitVec 12) (rs1 : Reg) (s : State) : Result :=
  s.csrAccess (.csrrs rd csr rs1) rd csr (rs1 != 0#5) (fun old => old ||| s.getX rs1)

/-- `csrrc`: read and clear bits; `rs1 = x0` does not write (spec/43_system_csr_fence.md R194). -/
def execCsrrc (rd : Reg) (csr : BitVec 12) (rs1 : Reg) (s : State) : Result :=
  s.csrAccess (.csrrc rd csr rs1) rd csr (rs1 != 0#5) (fun old => old &&& ~~~s.getX rs1)

/-- `csrrwi`: read and write an immediate (spec/43_system_csr_fence.md R195). -/
def execCsrrwi (rd : Reg) (csr : BitVec 12) (uimm : BitVec 5) (s : State) : Result :=
  s.csrAccess (.csrrwi rd csr uimm) rd csr true (fun _ => csrImmediate uimm)

/-- `csrrsi`: read and set bits; `uimm = 0` does not write (spec/43_system_csr_fence.md R196). -/
def execCsrrsi (rd : Reg) (csr : BitVec 12) (uimm : BitVec 5) (s : State) : Result :=
  s.csrAccess (.csrrsi rd csr uimm) rd csr (uimm != 0#5) (fun old => old ||| csrImmediate uimm)

/-- `csrrci`: read and clear bits; `uimm = 0` does not write (spec/43_system_csr_fence.md R197). -/
def execCsrrci (rd : Reg) (csr : BitVec 12) (uimm : BitVec 5) (s : State) : Result :=
  s.csrAccess (.csrrci rd csr uimm) rd csr (uimm != 0#5) (fun old => old &&& ~~~csrImmediate uimm)

/-- `ecall`: EnvironmentCall, trap value 0; `pc` is not advanced (spec/43_system_csr_fence.md R198). -/
def execEcall (s : State) : Result :=
  raise .environmentCall 0#32 s

/-- `ebreak`: Breakpoint, trap value its own address; `pc` is not advanced (spec/43_system_csr_fence.md R199). -/
def execEbreak (s : State) : Result :=
  raise .breakpoint s.pc s

/-- `fence`: with one hart and no device nothing is left to order; every field is ignored
(spec/43_system_csr_fence.md R200). -/
def execFence (_rd _rs1 : Reg) (_imm : BitVec 12) (s : State) : Result :=
  .next s.advance

/-- `fence.i`: every byte stored so far may be fetched: `dirty` becomes empty; every field is ignored
(spec/43_system_csr_fence.md R201). -/
def execFenceI (_rd _rs1 : Reg) (_imm : BitVec 12) (s : State) : Result :=
  .next { s.advance with dirty := [] }

end Sys2Proof.Machine
end

