-- ==== Sys2Proof/Machine/Step.lean ====
section
/-! DEFINITION. One step of the hart (spec/00_scope.md R12), and how an instruction is placed where the next step
fetches it. -/

namespace Sys2Proof.Machine

/-- The trap value of an instruction word that stands for no instruction is the word (spec/30_encoding.md R101). -/
def executeWord (w : Word) (s : State) : Result :=
  match decode w with
  | .ok i => exec i s
  | .error _ => raise .illegalInstruction w s

/-- Fetch, decode, execute (spec/00_scope.md R12). -/
def fetchAndExecute (s : State) : Result :=
  match s.fetch with
  | .word w => executeWord w s
  | .trap cause => raise cause s.pc s
  | .stale => .refused (.staleFetch s.pc)

/-- One step: a trap outcome that is pending is handed to the environment (spec/60_exceptions.md R410, R411); otherwise
the instruction at `pc` is fetched and executed. -/
def step (s : State) : Host.Outcome State Fault Refusal :=
  match s.trap with
  | some t => handOver t s
  | none => fetchAndExecute s

/-- Whether a word can be fetched at an address. -/
def fetchable (a : Word) : Bool := aligned a 4 && bytesValid a 4

/-- The state with one instruction word loaded where the next step fetches it, as the environment loads a program
(spec/70_reset_and_hazards.md R441; log entry 9): its four bytes at `pc`, none of them in `dirty`, no trap outcome
pending. A `pc` that no word can be fetched at is set to the reset value. -/
def State.withFetchWord (s : State) (nbits w : Nat) : State :=
  let pc := if fetchable s.pc then s.pc else Config.pcReset
  { s with
    pc := pc
    mem := storeBytes s.mem pc.toNat 4 (tableWord nbits w).toNat
    dirty := s.dirty.filter fun a => !(decide (pc.toNat ≤ a) && decide (a < pc.toNat + 4))
    trap := none }

end Sys2Proof.Machine
end

