-- ==== Sys2Proof/Machine/Pseudo.lean ====
section
/-! DEFINITION. The pseudo-instructions and the register names of the assembler (spec/47_pseudo_instructions.md;
spec/10_state.md R22, R28). None of them is an instruction of the hardware: a pseudo-instruction is the real
instructions it expands to (R370). -/

namespace Sys2Proof.Machine

/-- The sixteen rows of spec/47_pseudo_instructions.md (R371 to R386), nineteen mnemonics. -/
inductive Pseudo where
  /-- R371. -/
  | beqz (rs1 : Reg) (offset : BitVec 13)
  /-- R372. -/
  | bnez (rs1 : Reg) (offset : BitVec 13)
  /-- R373. -/
  | fabsS (rd rs1 : Reg)
  /-- R373. -/
  | fabsD (rd rs1 : Reg)
  /-- R374. -/
  | fmvS (rd rs1 : Reg)
  /-- R374. -/
  | fmvD (rd rs1 : Reg)
  /-- R375. -/
  | fnegS (rd rs1 : Reg)
  /-- R375. -/
  | fnegD (rd rs1 : Reg)
  /-- R376. -/
  | j (offset : BitVec 21)
  /-- R377. -/
  | jr (rs1 : Reg)
  /-- R378; the operand is the address of the symbol. -/
  | la (rd : Reg) (address : Word)
  /-- R379. -/
  | li (rd : Reg) (constant : Word)
  /-- R380. -/
  | mv (rd rs1 : Reg)
  /-- R381. -/
  | neg (rd rs : Reg)
  /-- R382. -/
  | nop
  /-- R383. -/
  | not (rd rs1 : Reg)
  /-- R384. -/
  | ret
  /-- R385. -/
  | seqz (rd rs1 : Reg)
  /-- R386. -/
  | snez (rd rs : Reg)
  deriving DecidableEq, Repr

/-- `lo`: the low twelve bits, which `addi` sign-extends (spec/47_pseudo_instructions.md R378, R379). -/
def lowPart (v : Word) : BitVec 12 := v.extractLsb' 0 12

/-- `hi`: what is left for the upper immediate, rounded up when `lo` is negative (R378, R379). -/
def highPart (v : Word) : BitVec 20 := (v - immediate (lowPart v)).extractLsb' 12 20

/-- The real instructions of a pseudo-instruction assembled at an address (R371 to R386). -/
def expandPseudo (address : Word) : Pseudo → List Instr
  | .beqz rs1 offset => [.beq rs1 0#5 offset]
  | .bnez rs1 offset => [.bne rs1 0#5 offset]
  | .fabsS rd rs1 => [.fsgnjxS rd rs1 rs1]
  | .fabsD rd rs1 => [.fsgnjxD rd rs1 rs1]
  | .fmvS rd rs1 => [.fsgnjS rd rs1 rs1]
  | .fmvD rd rs1 => [.fsgnjD rd rs1 rs1]
  | .fnegS rd rs1 => [.fsgnjnS rd rs1 rs1]
  | .fnegD rd rs1 => [.fsgnjnD rd rs1 rs1]
  | .j offset => [.jal 0#5 offset]
  | .jr rs1 => [.jalr 0#5 rs1 0#12]
  | .la rd symbol =>
    [.auipc rd (highPart (symbol - address)), .addi rd rd (lowPart (symbol - address))]
  | .li rd constant =>
    if immediate (lowPart constant) = constant then [.addi rd 0#5 (lowPart constant)]
    else if lowPart constant = 0#12 then [.lui rd (highPart constant)]
    else [.lui rd (highPart constant), .addi rd rd (lowPart constant)]
  | .mv rd rs1 => [.addi rd rs1 0#12]
  | .neg rd rs => [.sub rd 0#5 rs]
  | .nop => [.addi 0#5 0#5 0#12]
  | .not rd rs1 => [.xori rd rs1 0xFFF#12]
  | .ret => [.jalr 0#5 1#5 0#12]
  | .seqz rd rs1 => [.sltiu rd rs1 1#12]
  | .snez rd rs => [.sltu rd 0#5 rs]

/-- Instructions one after the other, up to the first that does not complete. -/
def execList : List Instr → State → Result
  | [], s => .next s
  | i :: rest, s =>
    match exec i s with
    | .next t => if t.trap = none then execList rest t else .next t
    | .fault r => .fault r
    | .refused r => .refused r

/-- The assembler's name of an integer register (spec/10_state.md R22); the hardware treats all but x0 alike. -/
def integerRegisterName (r : Reg) : String :=
  match r.toNat with
  | 0 => "zero" | 1 => "ra" | 2 => "sp" | 3 => "gp" | 4 => "tp" | 5 => "t0" | 6 => "t1" | 7 => "t2"
  | 8 => "s0" | 9 => "s1" | 10 => "a0" | 11 => "a1" | 12 => "a2" | 13 => "a3" | 14 => "a4" | 15 => "a5"
  | 16 => "a6" | 17 => "a7" | 18 => "s2" | 19 => "s3" | 20 => "s4" | 21 => "s5" | 22 => "s6" | 23 => "s7"
  | 24 => "s8" | 25 => "s9" | 26 => "s10" | 27 => "s11" | 28 => "t3" | 29 => "t4" | 30 => "t5" | _ => "t6"

/-- The assembler's name of a floating-point register (spec/10_state.md R28). -/
def floatRegisterName (r : Reg) : String :=
  match r.toNat with
  | 0 => "ft0" | 1 => "ft1" | 2 => "ft2" | 3 => "ft3" | 4 => "ft4" | 5 => "ft5" | 6 => "ft6" | 7 => "ft7"
  | 8 => "fs0" | 9 => "fs1" | 10 => "fa0" | 11 => "fa1" | 12 => "fa2" | 13 => "fa3" | 14 => "fa4" | 15 => "fa5"
  | 16 => "fa6" | 17 => "fa7" | 18 => "fs2" | 19 => "fs3" | 20 => "fs4" | 21 => "fs5" | 22 => "fs6" | 23 => "fs7"
  | 24 => "fs8" | 25 => "fs9" | 26 => "fs10" | 27 => "fs11" | 28 => "ft8" | 29 => "ft9" | 30 => "ft10" | _ => "ft11"

/-- Which side of a call preserves a register, by software convention (spec/10_state.md R22, R28). -/
inductive Saver where
  /-- The caller. -/
  | caller
  /-- The callee. -/
  | callee
  /-- The source gives none (x0, gp, tp). -/
  | notGiven
  deriving DecidableEq, Repr

/-- The SAVER column for integer registers (spec/10_state.md R22). -/
def integerRegisterSaver (r : Reg) : Saver :=
  if r.toNat = 0 ∨ r.toNat = 3 ∨ r.toNat = 4 then .notGiven
  else if r.toNat = 2 ∨ r.toNat = 8 ∨ r.toNat = 9 ∨ (18 ≤ r.toNat ∧ r.toNat ≤ 27) then .callee
  else .caller

/-- The SAVER column for floating-point registers (spec/10_state.md R28). -/
def floatRegisterSaver (r : Reg) : Saver :=
  if r.toNat = 8 ∨ r.toNat = 9 ∨ (18 ≤ r.toNat ∧ r.toNat ≤ 27) then .callee else .caller

end Sys2Proof.Machine
end

