-- ==== Sys2Proof/Safety.lean ====
section
/-! DEFINITION. The terms claims are stated in: what an instruction leaves unchanged, how it completes, how it
raises, and what a run is. -/

namespace Sys2Proof.Machine

/-! ## Frames -/

/-- Every integer register reads as before. -/
def KeepsX (s t : State) : Prop := ∀ r : Reg, t.getX r = s.getX r

/-- Every f register and the floating-point control register are as before. -/
def KeepsFloat (s t : State) : Prop := (∀ r : Reg, t.getF r = s.getF r) ∧ t.fcsr = s.fcsr

/-- Every byte of memory reads as before and no byte becomes, or stops being, stored-but-not-fetchable. -/
def KeepsMemory (s t : State) : Prop := (∀ a : Nat, t.byteAt a = s.byteAt a) ∧ t.dirty = s.dirty

/-- The parameters, the position in the `sc_may_succeed` input and the pending trap outcome are as before. -/
def KeepsModelFields (s t : State) : Prop := t.cfg = s.cfg ∧ t.scIndex = s.scIndex ∧ t.trap = s.trap

/-- Of the integer registers only `rd` changes, to `v`; where `rd` is x0 nothing changes and x0 still reads 0
(spec/10_state.md R21). -/
def WritesX (s t : State) (rd : Reg) (v : Word) : Prop :=
  (rd ≠ 0#5 → t.getX rd = v) ∧ t.getX 0#5 = 0#32 ∧ ∀ r : Reg, r ≠ rd → t.getX r = s.getX r

/-- Of the f registers only `rd` changes, to `v`; of the control register only flags are added. -/
def WritesF (s t : State) (rd : Reg) (v : Double) (fl : FpFlags) : Prop :=
  t.getF rd = v ∧ (∀ r : Reg, r ≠ rd → t.getF r = s.getF r) ∧ t.fflags = s.fflags ||| fl ∧ t.frm = s.frm

/-- The `n` bytes from `a` upward become the bytes of `v`, the least significant at `a`, every other byte reads as
before, and exactly the stored addresses join `dirty` (spec/20_memory.md R51, R53). -/
def StoresBytes (s t : State) (a n v : Nat) : Prop :=
  (∀ k : Nat, k < n → t.byteAt (a + k) = BitVec.ofNat 8 (v / 256 ^ k)) ∧
  (∀ b : Nat, b < a ∨ a + n ≤ b → t.byteAt b = s.byteAt b) ∧
  (∀ b : Nat, b ∈ t.dirty ↔ b ∈ s.dirty ∨ (a ≤ b ∧ b < a + n))

/-! ## Outcomes of an instruction -/

/-- The instruction completes: it writes `v` to `x[rd]`, advances, and changes nothing else. -/
def CompletesWithX (i : Instr) (s : State) (rd : Reg) (v : Word) : Prop :=
  ∃ t, exec i s = .next t ∧ WritesX s t rd v ∧ t.pc = s.pc + 4#32 ∧ KeepsFloat s t ∧ KeepsMemory s t ∧
    t.reservation = s.reservation ∧ KeepsModelFields s t

/-- The instruction completes: it writes `v` to `f[rd]`, adds flags, advances, and changes nothing else. -/
def CompletesWithF (i : Instr) (s : State) (rd : Reg) (v : Double) (fl : FpFlags) : Prop :=
  ∃ t, exec i s = .next t ∧ WritesF s t rd v fl ∧ t.pc = s.pc + 4#32 ∧ KeepsX s t ∧ KeepsMemory s t ∧
    t.reservation = s.reservation ∧ KeepsModelFields s t

/-- The instruction completes: it writes `v` to `x[rd]`, adds flags, advances, and changes nothing else. -/
def CompletesWithXFlags (i : Instr) (s : State) (rd : Reg) (v : Word) (fl : FpFlags) : Prop :=
  ∃ t, exec i s = .next t ∧ WritesX s t rd v ∧ (∀ r : Reg, t.getF r = s.getF r) ∧ t.fflags = s.fflags ||| fl ∧
    t.frm = s.frm ∧ t.pc = s.pc + 4#32 ∧ KeepsMemory s t ∧ t.reservation = s.reservation ∧ KeepsModelFields s t

/-- The instruction completes: it stores the low `n` bytes of `v` at `a`, advances, and changes nothing else. -/
def CompletesWithStore (i : Instr) (s : State) (a n v : Nat) : Prop :=
  ∃ t, exec i s = .next t ∧ StoresBytes s t a n v ∧ t.pc = s.pc + 4#32 ∧ KeepsX s t ∧ KeepsFloat s t ∧
    t.reservation = s.reservation ∧ KeepsModelFields s t

/-- The instruction completes with the next instruction at `target`, having written `link` to `x[rd]`, and changes
nothing else. -/
def CompletesWithJump (i : Instr) (s : State) (target : Word) (rd : Reg) (link : Word) : Prop :=
  ∃ t, exec i s = .next t ∧ t.pc = target ∧ WritesX s t rd link ∧ KeepsFloat s t ∧ KeepsMemory s t ∧
    t.reservation = s.reservation ∧ KeepsModelFields s t

/-- The instruction raises: the trap outcome names the exception, the instruction's own address and the trap value,
and the state in it is the state before the instruction (spec/60_exceptions.md R410, R415). -/
def Raises (i : Instr) (s : State) (cause : Cause) (tval : Word) : Prop :=
  exec i s = .next { s with trap := some { cause := cause, pc := s.pc, tval := tval } }

/-! ## Memory in the terms of the spec -/

/-- The `n` bytes at `a` all exist; for an aligned access, which cannot wrap, this says that its lowest byte does
(spec/20_memory.md R57). -/
def InMemory (a : Word) : Prop := Config.memLow ≤ a.toNat

/-- An address is a multiple of an access size (spec/20_memory.md R55). -/
def AlignedTo (a : Word) (n : Nat) : Prop := a.toNat % n = 0

/-- The 2 bytes at `a`, little-endian (spec/20_memory.md R51). -/
def State.halfAt (s : State) (a : Nat) : Half := s.byteAt (a + 1) ++ s.byteAt a

/-- The 4 bytes at `a`, little-endian (spec/20_memory.md R51). -/
def State.wordAt (s : State) (a : Nat) : Word :=
  s.byteAt (a + 3) ++ s.byteAt (a + 2) ++ s.byteAt (a + 1) ++ s.byteAt a

/-- The 8 bytes at `a`, little-endian (spec/20_memory.md R51). -/
def State.doubleAt (s : State) (a : Nat) : Double := s.wordAt (a + 4) ++ s.wordAt a

/-! ## Kinds of instructions, for whole-machine rules -/

/-- The nine `amo*.w` (spec/46_a_extension.md R338 to R346). -/
def isAtomicUpdate : Instr → Bool
  | .amoswapW .. | .amoaddW .. | .amoxorW .. | .amoandW .. | .amoorW .. | .amominW .. | .amomaxW ..
  | .amominuW .. | .amomaxuW .. => true
  | _ => false

/-- The instructions that can write memory (spec/10_state.md R33, R35). -/
def isStoring : Instr → Bool
  | .sb .. | .sh .. | .sw .. | .fsw .. | .fsd .. | .scW .. => true
  | i => isAtomicUpdate i

/-- The six CSR instructions. -/
def isCsrAccess : Instr → Bool
  | .csrrw .. | .csrrs .. | .csrrc .. | .csrrwi .. | .csrrsi .. | .csrrci .. => true
  | _ => false

/-- The jumps and branches: the only instructions that set `pc` to anything but `pc + 4`
(spec/41_control_transfer.md R150). -/
def isControlTransfer : Instr → Bool
  | .jal .. | .jalr .. | .beq .. | .bne .. | .blt .. | .bge .. | .bltu .. | .bgeu .. => true
  | _ => false

/-! ## Runs -/

/-- The states of a run from a state: it takes `n` steps and none of them stops. -/
def ReachesIn : Nat → State → State → Prop
  | 0, s, t => t = s
  | n + 1, s, t => ∃ u, step s = .next u ∧ ReachesIn n u t

/-! ## The opcode table as data, for rules over all instructions (spec/opcode_table.json) -/

/-- The column `group`. -/
inductive Group where
  /-- Always enabled. -/
  | base
  /-- Enabled by `HAS_M`. -/
  | m
  /-- Enabled by `HAS_A`. -/
  | a
  /-- Enabled by `HAS_F`. -/
  | f
  /-- Enabled by `HAS_D`. -/
  | d
  deriving DecidableEq, Repr

/-- The group of a row. -/
def groupOf : Instr → Group
  | .lb .. | .lh .. | .lw .. | .lbu .. | .lhu .. | .fence .. | .fenceI .. | .addi .. | .slli .. | .slti ..
  | .sltiu .. | .xori .. | .srli .. | .srai .. | .ori .. | .andi .. | .auipc .. | .sb .. | .sh .. | .sw ..
  | .add .. | .sub .. | .sll .. | .slt .. | .sltu .. | .xor .. | .srl .. | .sra .. | .or .. | .and .. | .lui ..
  | .beq .. | .bne .. | .blt .. | .bge .. | .bltu .. | .bgeu .. | .jalr .. | .jal .. | .ecall .. | .ebreak ..
  | .csrrw .. | .csrrs .. | .csrrc .. | .csrrwi .. | .csrrsi .. | .csrrci .. => .base
  | .mul .. | .mulh .. | .mulhsu .. | .mulhu .. | .div .. | .divu .. | .rem .. | .remu .. => .m
  | .lrW .. | .lrD .. | .scW .. | .scD .. | .amoswapW .. | .amoswapD .. | .amoaddW .. | .amoaddD ..
  | .amoxorW .. | .amoxorD .. | .amoandW .. | .amoandD .. | .amoorW .. | .amoorD .. | .amominW .. | .amominD ..
  | .amomaxW .. | .amomaxD .. | .amominuW .. | .amominuD .. | .amomaxuW .. | .amomaxuD .. => .a
  | .flw .. | .fsw .. | .faddS .. | .fsubS .. | .fmulS .. | .fdivS .. | .fsqrtS .. | .fmaddS .. | .fmsubS ..
  | .fnmsubS .. | .fnmaddS .. | .fsgnjS .. | .fsgnjnS .. | .fsgnjxS .. | .fminS .. | .fmaxS .. | .feqS ..
  | .fltS .. | .fleS .. | .fclassS .. | .fmvSX .. | .fmvXS .. | .fcvtSW .. | .fcvtSL .. | .fcvtSWu ..
  | .fcvtSLu .. | .fcvtWS .. | .fcvtLS .. | .fcvtWuS .. | .fcvtLuS .. => .f
  | .fld .. | .fsd .. | .faddD .. | .fsubD .. | .fmulD .. | .fdivD .. | .fsqrtD .. | .fmaddD .. | .fmsubD ..
  | .fnmsubD .. | .fnmaddD .. | .fsgnjD .. | .fsgnjnD .. | .fsgnjxD .. | .fminD .. | .fmaxD .. | .feqD ..
  | .fltD .. | .fleD .. | .fclassD .. | .fmvDX .. | .fmvXD .. | .fcvtDS .. | .fcvtSD .. | .fcvtDW ..
  | .fcvtDL .. | .fcvtDWu .. | .fcvtDLu .. | .fcvtWD .. | .fcvtLD .. | .fcvtWuD .. | .fcvtLuD .. => .d

/-- Whether the hart has a group (spec/30_encoding.md R100). -/
def groupEnabled (c : Config) : Group → Bool
  | .base => true
  | .m => c.hasM
  | .a => c.hasA
  | .f => c.hasF
  | .d => c.hasD

/-- The column `admitted_at_xlen32`. -/
def admitted : Instr → Bool
  | .lrD .. | .scD .. | .amoswapD .. | .amoaddD .. | .amoxorD .. | .amoandD .. | .amoorD .. | .amominD ..
  | .amomaxD .. | .amominuD .. | .amomaxuD .. | .fmvDX .. | .fmvXD .. | .fcvtSL .. | .fcvtDL .. | .fcvtSLu ..
  | .fcvtDLu .. | .fcvtLS .. | .fcvtLD .. | .fcvtLuS .. | .fcvtLuD .. => false
  | _ => true

/-- The field `rm`, of the rows that have one. -/
def roundingField : Instr → Option (BitVec 3)
  | .faddS _ _ _ rm => some rm
  | .faddD _ _ _ rm => some rm
  | .fsubS _ _ _ rm => some rm
  | .fsubD _ _ _ rm => some rm
  | .fmulS _ _ _ rm => some rm
  | .fmulD _ _ _ rm => some rm
  | .fdivS _ _ _ rm => some rm
  | .fdivD _ _ _ rm => some rm
  | .fsqrtS _ _ rm => some rm
  | .fsqrtD _ _ rm => some rm
  | .fmaddS _ _ _ _ rm => some rm
  | .fmaddD _ _ _ _ rm => some rm
  | .fmsubS _ _ _ _ rm => some rm
  | .fmsubD _ _ _ _ rm => some rm
  | .fnmsubS _ _ _ _ rm => some rm
  | .fnmsubD _ _ _ _ rm => some rm
  | .fnmaddS _ _ _ _ rm => some rm
  | .fnmaddD _ _ _ _ rm => some rm
  | .fcvtDS _ _ rm => some rm
  | .fcvtSD _ _ rm => some rm
  | .fcvtSW _ _ rm => some rm
  | .fcvtDW _ _ rm => some rm
  | .fcvtSL _ _ rm => some rm
  | .fcvtDL _ _ rm => some rm
  | .fcvtSWu _ _ rm => some rm
  | .fcvtDWu _ _ rm => some rm
  | .fcvtSLu _ _ rm => some rm
  | .fcvtDLu _ _ rm => some rm
  | .fcvtWS _ _ rm => some rm
  | .fcvtWD _ _ rm => some rm
  | .fcvtLS _ _ rm => some rm
  | .fcvtLD _ _ rm => some rm
  | .fcvtWuS _ _ rm => some rm
  | .fcvtWuD _ _ rm => some rm
  | .fcvtLuS _ _ rm => some rm
  | .fcvtLuD _ _ rm => some rm
  | _ => none

/-- The control register a CSR instruction names (spec/30_encoding.md R93). -/
def csrField : Instr → Option (BitVec 12)
  | .csrrw _ csr _ => some csr
  | .csrrs _ csr _ => some csr
  | .csrrc _ csr _ => some csr
  | .csrrwi _ csr _ => some csr
  | .csrrsi _ csr _ => some csr
  | .csrrci _ csr _ => some csr
  | _ => none

/-- Whether a CSR instruction writes its control register (spec/43_system_csr_fence.md R190). -/
def csrWrites : Instr → Bool
  | .csrrw .. => true
  | .csrrwi .. => true
  | .csrrs _ _ rs1 => rs1 != 0#5
  | .csrrc _ _ rs1 => rs1 != 0#5
  | .csrrsi _ _ uimm => uimm != 0#5
  | .csrrci _ _ uimm => uimm != 0#5
  | _ => false

/-- The rounding modes that raise: the field is 101 or 110, or it is 111 and `frm` names no mode
(spec/45_fd_extension.md R242). -/
def reservedRounding (s : State) (rm : BitVec 3) : Prop :=
  rm = 0b101#3 ∨ rm = 0b110#3 ∨
    (rm = 0b111#3 ∧ (s.frm = 0b101#3 ∨ s.frm = 0b110#3 ∨ s.frm = 0b111#3))

/-- The condition and the offset of a conditional branch (spec/41_control_transfer.md R154 to R159). -/
def branchOf (s : State) : Instr → Option (Bool × BitVec 13)
  | .beq rs1 rs2 offset => some (decide ((s.getX rs1).toNat = (s.getX rs2).toNat), offset)
  | .bne rs1 rs2 offset => some (decide ((s.getX rs1).toNat ≠ (s.getX rs2).toNat), offset)
  | .blt rs1 rs2 offset => some (decide ((s.getX rs1).toInt < (s.getX rs2).toInt), offset)
  | .bge rs1 rs2 offset => some (decide ((s.getX rs2).toInt ≤ (s.getX rs1).toInt), offset)
  | .bltu rs1 rs2 offset => some (decide ((s.getX rs1).toNat < (s.getX rs2).toNat), offset)
  | .bgeu rs1 rs2 offset => some (decide ((s.getX rs2).toNat ≤ (s.getX rs1).toNat), offset)
  | _ => none

/-- The address and the number of bytes of a load (spec/20_memory.md R54). -/
def dataLoad (s : State) : Instr → Option (Word × Nat)
  | .lb _ rs1 imm => some (s.effectiveAddress rs1 imm, 1)
  | .lbu _ rs1 imm => some (s.effectiveAddress rs1 imm, 1)
  | .lh _ rs1 imm => some (s.effectiveAddress rs1 imm, 2)
  | .lhu _ rs1 imm => some (s.effectiveAddress rs1 imm, 2)
  | .lw _ rs1 imm => some (s.effectiveAddress rs1 imm, 4)
  | .flw _ rs1 imm => some (s.effectiveAddress rs1 imm, 4)
  | .fld _ rs1 imm => some (s.effectiveAddress rs1 imm, 8)
  | .lrW _ rs1 _ _ => some (s.getX rs1, 4)
  | _ => none

/-- The address and the number of bytes of a store or an atomic memory operation (spec/20_memory.md R54). -/
def dataStore (s : State) : Instr → Option (Word × Nat)
  | .sb _ rs1 imm => some (s.effectiveAddress rs1 imm, 1)
  | .sh _ rs1 imm => some (s.effectiveAddress rs1 imm, 2)
  | .sw _ rs1 imm => some (s.effectiveAddress rs1 imm, 4)
  | .fsw _ rs1 imm => some (s.effectiveAddress rs1 imm, 4)
  | .fsd _ rs1 imm => some (s.effectiveAddress rs1 imm, 8)
  | .scW _ _ rs1 _ _ => some (s.getX rs1, 4)
  | .amoswapW _ _ rs1 _ _ => some (s.getX rs1, 4)
  | .amoaddW _ _ rs1 _ _ => some (s.getX rs1, 4)
  | .amoxorW _ _ rs1 _ _ => some (s.getX rs1, 4)
  | .amoandW _ _ rs1 _ _ => some (s.getX rs1, 4)
  | .amoorW _ _ rs1 _ _ => some (s.getX rs1, 4)
  | .amominW _ _ rs1 _ _ => some (s.getX rs1, 4)
  | .amomaxW _ _ rs1 _ _ => some (s.getX rs1, 4)
  | .amominuW _ _ rs1 _ _ => some (s.getX rs1, 4)
  | .amomaxuW _ _ rs1 _ _ => some (s.getX rs1, 4)
  | _ => none

/-! ## More outcomes of an instruction -/

/-- The instruction completes with the next instruction at `target` and changes nothing else. -/
def CompletesWithPc (i : Instr) (s : State) (target : Word) : Prop :=
  ∃ t, exec i s = .next t ∧ t.pc = target ∧ KeepsX s t ∧ KeepsFloat s t ∧ KeepsMemory s t ∧
    t.reservation = s.reservation ∧ KeepsModelFields s t

/-- The instruction completes: the old control register to `x[rd]`, the 8 bits `new` as the whole floating-point
control and status register, and nothing else changes. -/
def CompletesWithCsr (i : Instr) (s : State) (rd : Reg) (old : Word) (new : Nat) : Prop :=
  ∃ t, exec i s = .next t ∧ WritesX s t rd old ∧ t.fcsr = BitVec.ofNat 8 new ∧ (∀ r : Reg, t.getF r = s.getF r) ∧
    t.pc = s.pc + 4#32 ∧ KeepsMemory s t ∧ t.reservation = s.reservation ∧ KeepsModelFields s t

/-- The instruction completes: the old word at `a` to `x[rd]`, the word `new` to `a`, and nothing else changes. -/
def CompletesWithAtomic (i : Instr) (s : State) (rd : Reg) (a : Word) (new : Word) : Prop :=
  ∃ t, exec i s = .next t ∧ WritesX s t rd (s.wordAt a.toNat) ∧ StoresBytes s t a.toNat 4 new.toNat ∧
    t.pc = s.pc + 4#32 ∧ KeepsFloat s t ∧ t.reservation = s.reservation ∧ KeepsModelFields s t

/-- The value of a control register as its rule gives it (spec/10_state.md R32). -/
def csrValue (fcsr : BitVec 8) : Csr → Nat
  | .fflags => fcsr.toNat % 32
  | .frm => fcsr.toNat / 32
  | .fcsr => fcsr.toNat

/-- The whole 8-bit register after a value is written through one of its three addresses
(spec/10_state.md R32). -/
def csrWritten (fcsr : BitVec 8) (c : Csr) (v : Word) : Nat :=
  match c with
  | .fflags => fcsr.toNat / 32 * 32 + v.toNat % 32
  | .frm => v.toNat % 8 * 32 + fcsr.toNat % 32
  | .fcsr => v.toNat % 256

/-- A fetched word raises IllegalInstruction: the trap value is the word, and nothing else changes
(spec/60_exceptions.md R403). -/
def RaisesIllegal (w : Word) (s : State) : Prop :=
  executeWord w s = .next { s with trap := some { cause := .illegalInstruction, pc := s.pc, tval := w } }

/-! ## Floating-point registers and numbers -/

/-- The row of the table of classes a single belongs to (spec/48_fd_compare_convert.md R313). -/
def classOfSingle (v : Single) : Nat :=
  if v.toNat = 0xFF800000 then 0
  else if 0x80800000 ≤ v.toNat ∧ v.toNat ≤ 0xFF7FFFFF then 1
  else if 0x80000001 ≤ v.toNat ∧ v.toNat ≤ 0x807FFFFF then 2
  else if v.toNat = 0x80000000 then 3
  else if v.toNat = 0x00000000 then 4
  else if v.toNat ≤ 0x007FFFFF then 5
  else if v.toNat ≤ 0x7F7FFFFF then 6
  else if v.toNat = 0x7F800000 then 7
  else if v.getLsbD 22 = false then 8
  else 9

/-- The row of the table of classes a double belongs to (spec/48_fd_compare_convert.md R313). -/
def classOfDouble (v : Double) : Nat :=
  if v.toNat = 0xFFF0000000000000 then 0
  else if 0x8010000000000000 ≤ v.toNat ∧ v.toNat ≤ 0xFFEFFFFFFFFFFFFF then 1
  else if 0x8000000000000001 ≤ v.toNat ∧ v.toNat ≤ 0x800FFFFFFFFFFFFF then 2
  else if v.toNat = 0x8000000000000000 then 3
  else if v.toNat = 0x0000000000000000 then 4
  else if v.toNat ≤ 0x000FFFFFFFFFFFFF then 5
  else if v.toNat ≤ 0x7FEFFFFFFFFFFFFF then 6
  else if v.toNat = 0x7FF0000000000000 then 7
  else if v.getLsbD 51 = false then 8
  else 9

/-- The pattern an f register holds for a single: boxed when FLEN = 64 (spec/10_state.md R29). -/
def boxedSingle (s : State) (v : Single) : Double :=
  if s.cfg.hasD then BitVec.ofNat 64 (0xFFFFFFFF * 2 ^ 32 + v.toNat) else BitVec.ofNat 64 v.toNat

/-- The rational number `(-1)^neg * significand * 2^exponent` (spec/45_fd_extension.md R241). -/
def rationalOf (neg : Bool) (significand : Nat) (exponent : Int) : ℚ :=
  (if neg then -1 else 1) * (significand : ℚ) * (2 : ℚ) ^ exponent

/-- `r` is the integer `q` rounds to in a mode (spec/45_fd_extension.md R242). -/
def RoundsToInteger (mode : RoundingMode) (q : ℚ) (r : Int) : Prop :=
  match mode with
  | .rne => |q - r| ≤ 1 / 2 ∧ (|q - r| = 1 / 2 → Even r)
  | .rtz => |(r : ℚ)| ≤ |q| ∧ |q - r| < 1
  | .rdn => (r : ℚ) ≤ q ∧ q < r + 1
  | .rup => q ≤ (r : ℚ) ∧ (r : ℚ) < q + 1
  | .rmm => |q - r| ≤ 1 / 2 ∧ (|q - r| = 1 / 2 → |q| < |(r : ℚ)|)

/-- What a pattern stands for, by its three fields and the bias of its format (spec/45_fd_extension.md R241). -/
def StandsFor (fmt : FloatFormat) (bias : Nat) (p : BitVec fmt.width) (v : FloatValue) : Prop :=
  let sign := p.getLsbD (fmt.expBits + fmt.fracBits)
  let exponent := p.toNat / 2 ^ fmt.fracBits % 2 ^ fmt.expBits
  let fraction := p.toNat % 2 ^ fmt.fracBits
  match v with
  | .nan signaling =>
    exponent = 2 ^ fmt.expBits - 1 ∧ fraction ≠ 0 ∧ signaling = !p.getLsbD (fmt.fracBits - 1)
  | .infinity neg => exponent = 2 ^ fmt.expBits - 1 ∧ fraction = 0 ∧ neg = sign
  | .finite neg m e =>
    exponent ≠ 2 ^ fmt.expBits - 1 ∧ neg = sign ∧
    rationalOf neg m e = (if sign then -1 else 1) *
      if exponent = 0 then (fraction : ℚ) / 2 ^ fmt.fracBits * 2 ^ (1 - (bias : Int))
      else (1 + (fraction : ℚ) / 2 ^ fmt.fracBits) * 2 ^ ((exponent : Int) - bias)

/-! ## Rounding to a format (spec/45_fd_extension.md R242, R243, R247) -/

/-- A real number is that of a finite pattern of the format. -/
def IsNumberOf (fmt : FloatFormat) (q : ℝ) : Prop :=
  ∃ (p : BitVec fmt.width) (neg : Bool) (m : Nat) (e : Int), unpack fmt p = .finite neg m e ∧ q = rationalOf neg m e

/-- `v` is a number of the format that `q` may round to in a mode: no number of the format is nearer, in the
direction the mode allows (spec/45_fd_extension.md R242). For `rmm` a tie goes to the greater magnitude; the tie rule
of `rne` is about the pattern and is stated where this is used. -/
def NearestInFormat (fmt : FloatFormat) (mode : RoundingMode) (q v : ℝ) : Prop :=
  match mode with
  | .rne => ∀ w, IsNumberOf fmt w → |q - v| ≤ |q - w|
  | .rmm => ∀ w, IsNumberOf fmt w → |q - v| ≤ |q - w| ∧ (|q - v| = |q - w| → |w| ≤ |v|)
  | .rtz => |v| ≤ |q| ∧ 0 ≤ q * v ∧ ∀ w, IsNumberOf fmt w → |w| ≤ |q| → |w| ≤ |v|
  | .rdn => v ≤ q ∧ ∀ w, IsNumberOf fmt w → w ≤ q → w ≤ v
  | .rup => q ≤ v ∧ ∀ w, IsNumberOf fmt w → q ≤ w → v ≤ w

/-- The largest finite number: all fraction bits set, the greatest exponent. -/
def largestFinite (fmt : FloatFormat) : ℚ :=
  ((2 : ℚ) ^ (fmt.fracBits + 1) - 1) * 2 ^ ((floatBias fmt : Int) - fmt.fracBits)

/-- The power of two after the largest finite number. -/
def overflowThreshold (fmt : FloatFormat) : ℚ := (2 : ℚ) ^ ((floatBias fmt : Int) + 1)

/-- The least normal number. -/
def leastNormal (fmt : FloatFormat) : ℚ := (2 : ℚ) ^ (1 - (floatBias fmt : Int))

/-- The rounded result exceeds the largest finite number (spec/45_fd_extension.md R243): `q`, rounded to the precision
of the format with no bound on the exponent, is greater in magnitude. A mode that rounds away from zero exceeds it as
soon as `q` does, a mode to nearest from the middle of the gap to the next power of two on, a mode that rounds toward
zero at that power. -/
def Overflows (fmt : FloatFormat) (mode : RoundingMode) (q : ℝ) : Prop :=
  match mode with
  | .rne => (largestFinite fmt + overflowThreshold fmt) / 2 ≤ |q|
  | .rmm => (largestFinite fmt + overflowThreshold fmt) / 2 ≤ |q|
  | .rtz => overflowThreshold fmt ≤ |q|
  | .rdn => q < -(largestFinite fmt : ℝ) ∨ overflowThreshold fmt ≤ q
  | .rup => q ≤ -(overflowThreshold fmt : ℝ) ∨ largestFinite fmt < q

/-- The result is tiny, tininess detected after rounding (spec/45_fd_extension.md R243): `q`, rounded to the precision
of the format with no bound on the exponent, is below the least normal number in magnitude. Just below that number
the last place is half that of the subnormals. -/
def Tiny (fmt : FloatFormat) (mode : RoundingMode) (q : ℝ) : Prop :=
  let lastPlace : ℝ := (2 : ℝ) ^ (floatMinExp fmt - 1)
  match mode with
  | .rne => |q| < leastNormal fmt - lastPlace / 2
  | .rmm => |q| < leastNormal fmt - lastPlace / 2
  | .rtz => |q| < leastNormal fmt
  | .rdn => -((leastNormal fmt : ℝ) - lastPlace) ≤ q ∧ q < leastNormal fmt
  | .rup => -(leastNormal fmt : ℝ) < q ∧ q ≤ leastNormal fmt - lastPlace

/-- The result and the flags of an overflow: an infinity or the largest finite number of the sign, as the mode directs,
with OF and NX (spec/45_fd_extension.md R243). -/
def DeliversOverflow (fmt : FloatFormat) (mode : RoundingMode) (neg : Bool) (r : BitVec fmt.width × FpFlags) : Prop :=
  r.2 = flagOF ||| flagNX ∧
  if mode = .rne ∨ mode = .rmm ∨ (mode = .rdn ∧ neg = true) ∨ (mode = .rup ∧ neg = false) then
    unpack fmt r.1 = .infinity neg
  else ∃ m e, unpack fmt r.1 = .finite neg m e ∧ rationalOf false m e = largestFinite fmt

/-- The result and the flags of a rounding that does not overflow: a number of the format nearest to `q` in the mode, a
tie of `rne` going to the pattern with low bit 0, of the sign of `q` also when it is a zero; NX when it differs from
`q`, with UF when it is tiny too (spec/45_fd_extension.md R242, R243, R247). -/
def DeliversNearest (fmt : FloatFormat) (mode : RoundingMode) (q : ℝ) (r : BitVec fmt.width × FpFlags) : Prop :=
  ∃ (neg : Bool) (m : Nat) (e : Int) (v : ℝ), unpack fmt r.1 = .finite neg m e ∧ v = rationalOf neg m e ∧
    (neg = true ↔ q < 0) ∧ NearestInFormat fmt mode q v ∧
    (mode = .rne → (∃ w, IsNumberOf fmt w ∧ w ≠ v ∧ |q - w| = |q - v|) → r.1.getLsbD 0 = false) ∧
    (v = q → r.2 = flagNone) ∧ (v ≠ q → Tiny fmt mode q → r.2 = flagUF ||| flagNX) ∧
    (v ≠ q → ¬Tiny fmt mode q → r.2 = flagNX)

/-- The zero of a sign, no flag. -/
def DeliversZero (fmt : FloatFormat) (neg : Bool) (r : BitVec fmt.width × FpFlags) : Prop :=
  (∃ e, unpack fmt r.1 = .finite neg 0 e) ∧ r.2 = flagNone

/-- The infinity of a sign, no flag. -/
def DeliversInfinity (fmt : FloatFormat) (neg : Bool) (r : BitVec fmt.width × FpFlags) : Prop :=
  unpack fmt r.1 = .infinity neg ∧ r.2 = flagNone

/-- The result of an invalid operation: the canonical NaN and NV (spec/45_fd_extension.md R243, R244). -/
def DeliversInvalid (fmt : FloatFormat) (r : BitVec fmt.width × FpFlags) : Prop := r = (canonicalNaN fmt, flagNV)

/-- What an operation with the exact result `q` delivers: `q` rounded once, or the zero of the sign `zeroNeg`. -/
def DeliversRounded (fmt : FloatFormat) (mode : RoundingMode) (zeroNeg : Bool) (q : ℝ)
    (r : BitVec fmt.width × FpFlags) : Prop :=
  (q = 0 → DeliversZero fmt zeroNeg r) ∧
  (q ≠ 0 → Overflows fmt mode q → DeliversOverflow fmt mode (decide (q < 0)) r) ∧
  (q ≠ 0 → ¬Overflows fmt mode q → DeliversNearest fmt mode q r)

/-- The sign of an exact zero sum of two operands of these signs: the common sign, otherwise + but - in the mode RDN
(spec/45_fd_extension.md R254). -/
def zeroSumSign (mode : RoundingMode) (na nb : Bool) : Bool := if na = nb then na else mode == .rdn

/-! ## Operands that are no finite number, and comparisons -/

/-- A pattern is a signaling NaN. -/
abbrev SignalingNaN (fmt : FloatFormat) (p : BitVec fmt.width) : Prop := unpack fmt p = .nan true

/-- A pattern is a NaN, signaling or quiet. -/
abbrev AnyNaN (fmt : FloatFormat) (p : BitVec fmt.width) : Prop :=
  unpack fmt p = .nan true ∨ unpack fmt p = .nan false

/-- One operand is an infinity and the other a zero: their product is invalid (spec/45_fd_extension.md R258). -/
def ZeroTimesInfinity (fmt : FloatFormat) (a b : BitVec fmt.width) : Prop :=
  ∃ na nb e, (unpack fmt a = .infinity na ∧ unpack fmt b = .finite nb 0 e) ∨
    (unpack fmt a = .finite na 0 e ∧ unpack fmt b = .infinity nb)

/-- The exact product of two operands is an infinity of a sign: one is an infinity, the other an infinity or a finite
number that is not zero. -/
def InfiniteProduct (fmt : FloatFormat) (a b : BitVec fmt.width) (neg : Bool) : Prop :=
  ∃ na nb m e, neg = (na != nb) ∧
    ((unpack fmt a = .infinity na ∧ unpack fmt b = .infinity nb) ∨
      (m ≠ 0 ∧ unpack fmt a = .infinity na ∧ unpack fmt b = .finite nb m e) ∨
      (m ≠ 0 ∧ unpack fmt a = .finite na m e ∧ unpack fmt b = .infinity nb))

/-- `x` is the number of a value that is no NaN, the infinities at the two ends of the line. -/
def HasNumber (v : FloatValue) (x : EReal) : Prop :=
  match v with
  | .nan _ => False
  | .infinity neg => x = if neg then ⊥ else ⊤
  | .finite neg m e => x = ((rationalOf neg m e : ℝ) : EReal)

/-! ## Targets, and the instructions that must not execute -/

/-- The address a jump or a taken branch goes to (spec/41_control_transfer.md R152 to R159). -/
def transferTarget (s : State) (i : Instr) : Option Word :=
  match i, branchOf s i with
  | .jal _ offset, _ => some (s.pc + offset.signExtend 32)
  | .jalr _ rs1 imm, _ => some ((s.getX rs1 + imm.signExtend 32) &&& 0xFFFFFFFE#32)
  | _, some (true, offset) => some (s.pc + offset.signExtend 32)
  | _, _ => none

/-- The cases in which a decoded instruction is illegal (spec/60_exceptions.md R403): its group is absent, it is not
admitted at XLEN = 32, it names a control register that does not exist, or its rounding mode is reserved. -/
def IsIllegal (s : State) (i : Instr) : Prop :=
  groupEnabled s.cfg (groupOf i) = false ∨ admitted i = false ∨
    (∃ a, csrField i = some a ∧ ¬(s.cfg.hasF = true ∧ (a = 0x001#12 ∨ a = 0x002#12 ∨ a = 0x003#12))) ∨
    ∃ rm, roundingField i = some rm ∧ reservedRounding s rm

end Sys2Proof.Machine
end

