-- ==== Sys2Proof/Certificates/Slice0/Obligations.lean ====
section
/-! DEFINITION. The statements for the provers. Each name says what it states; OBLIGATIONS.json lists them. -/

section

open Sys2Proof Sys2Proof.Machine

/-- Decoding an encoded instruction gives it back, for all 139 rows and every operand value (spec/30_encoding.md R80
to R100). -/
def Obligations.DecodeOfEncode : Prop :=
  ∀ i : Instr, i.wellFormed = true → decode (encode i) = .ok i

/-- A word that decodes is the word of the instruction it decodes to (spec/30_encoding.md R80 to R100). -/
def Obligations.EncodeOfDecode : Prop :=
  ∀ (w : Word) (i : Instr), decode w = .ok i → i.wellFormed = true ∧ encode i = w

/-- Words printed as examples in the rules, one or more of every family. -/
def Obligations.DecodesWordsOfTheSpec : Prop :=
  decode 0x002081B3#32 = .ok (.add 3 1 2) ∧
  decode 0xFFF30293#32 = .ok (.addi 5 6 0xFFF) ∧
  decode 0x40435293#32 = .ok (.srai 5 6 4) ∧
  decode 0x12345537#32 = .ok (.lui 10 0x12345) ∧
  decode 0xFF9FF06F#32 = .ok (.jal 0 0x1FFFF8) ∧
  decode 0xFFD280E7#32 = .ok (.jalr 1 5 0xFFD) ∧
  decode 0xFE208EE3#32 = .ok (.beq 1 2 0x1FFC) ∧
  decode 0xFFF10283#32 = .ok (.lb 5 2 0xFFF) ∧
  decode 0xFE510FA3#32 = .ok (.sb 5 2 0xFFF) ∧
  decode 0x003312F3#32 = .ok (.csrrw 5 3 6) ∧
  decode 0x001FF2F3#32 = .ok (.csrrci 5 1 31) ∧
  decode 0x00000073#32 = .ok .ecall ∧
  decode 0x00100073#32 = .ok .ebreak ∧
  decode 0x0FF0000F#32 = .ok (.fence 0 0 0x0FF) ∧
  decode 0x0000100F#32 = .ok (.fenceI 0 0 0) ∧
  decode 0x022081B3#32 = .ok (.mul 3 1 2) ∧
  decode 0x1875232F#32 = .ok (.scW 6 7 10 0 0) ∧
  decode 0x00852087#32 = .ok (.flw 1 10 8) ∧
  decode 0x00153827#32 = .ok (.fsd 1 10 16) ∧
  decode 0x0020F1D3#32 = .ok (.faddS 3 1 2 7) ∧
  decode 0x1A20F243#32 = .ok (.fmaddD 4 1 2 3 7) ∧
  decode 0xE00092D3#32 = .ok (.fclassS 5 1) ∧
  decode 0xC01092D3#32 = .ok (.fcvtWuS 5 1 1)

/-- Words that no row assigns, and with the base group alone the list by opcode (spec/30_encoding.md R101). -/
def Obligations.UnassignedWordsRaise : Prop :=
  ∀ (w : Word) (s : State),
  ((∃ e, decode w = .error e) → RaisesIllegal w s) ∧
  (s.cfg.hasM = false → s.cfg.hasA = false → s.cfg.hasF = false →
    (w.extractLsb' 0 7 = 0b0000011#7 ∧ w.extractLsb' 12 3 ∈ [0b011#3, 0b110#3, 0b111#3]) ∨
    (w.extractLsb' 0 7 = 0b0001111#7 ∧ w.extractLsb' 12 3 ∉ [0b000#3, 0b001#3]) ∨
    (w.extractLsb' 0 7 = 0b0010011#7 ∧ w.extractLsb' 12 3 = 0b001#3 ∧ w.extractLsb' 25 7 ≠ 0b0000000#7) ∨
    (w.extractLsb' 0 7 = 0b0010011#7 ∧ w.extractLsb' 12 3 = 0b101#3 ∧
      w.extractLsb' 25 7 ∉ [0b0000000#7, 0b0100000#7]) ∨
    (w.extractLsb' 0 7 = 0b0100011#7 ∧ w.extractLsb' 12 3 ∉ [0b000#3, 0b001#3, 0b010#3]) ∨
    (w.extractLsb' 0 7 = 0b0110011#7 ∧ w.extractLsb' 25 7 ≠ 0b0000000#7 ∧
      ¬(w.extractLsb' 25 7 = 0b0100000#7 ∧ w.extractLsb' 12 3 ∈ [0b000#3, 0b101#3])) ∨
    (w.extractLsb' 0 7 = 0b1100011#7 ∧ w.extractLsb' 12 3 ∈ [0b010#3, 0b011#3]) ∨
    (w.extractLsb' 0 7 = 0b1100111#7 ∧ w.extractLsb' 12 3 ≠ 0b000#3) ∨
    (w.extractLsb' 0 7 = 0b1110011#7 ∧ w.extractLsb' 12 3 = 0b100#3) ∨
    (w.extractLsb' 0 7 = 0b1110011#7 ∧ w.extractLsb' 12 3 = 0b000#3 ∧ w ≠ 0x00000073#32 ∧ w ≠ 0x00100073#32) ∨
    w.extractLsb' 0 7 ∉ [0b0000011#7, 0b0001111#7, 0b0010011#7, 0b0010111#7, 0b0100011#7, 0b0110011#7, 0b0110111#7,
      0b1100011#7, 0b1100111#7, 0b1101111#7, 0b1110011#7] →
    RaisesIllegal w s)

/-- Unassigned words under the atomic opcode (spec/46_a_extension.md R357). -/
def Obligations.AtomicOpcodeUnassignedWordsRaise : Prop :=
  ∀ (w : Word) (s : State), w.extractLsb' 0 7 = 0b0101111#7 →
  w.extractLsb' 12 3 ≠ 0b010#3 ∨
  w.extractLsb' 27 5 ∉ [0b00010#5, 0b00011#5, 0b00001#5, 0b00000#5, 0b00100#5, 0b01100#5, 0b01000#5, 0b10000#5,
    0b10100#5, 0b11000#5, 0b11100#5] ∨
  (w.extractLsb' 27 5 = 0b00010#5 ∧ w.extractLsb' 20 5 ≠ 0b00000#5) ∨
  s.cfg.hasA = false →
  RaisesIllegal w s

/-- Unassigned words under the floating-point opcodes (spec/48_fd_compare_convert.md R314). -/
def Obligations.FloatOpcodeUnassignedWordsRaise : Prop :=
  ∀ (w : Word) (s : State),
  (w.extractLsb' 0 7 ∈ [0b0000111#7, 0b0100111#7] ∧ w.extractLsb' 12 3 ∉ [0b010#3, 0b011#3]) ∨
  (w.extractLsb' 0 7 ∈ [0b1000011#7, 0b1000111#7, 0b1001011#7, 0b1001111#7, 0b1010011#7] ∧
    w.extractLsb' 25 2 ∈ [0b10#2, 0b11#2]) ∨
  (w.extractLsb' 0 7 = 0b1010011#7 ∧
    (w.extractLsb' 27 5 ∉ [0b00000#5, 0b00001#5, 0b00010#5, 0b00011#5, 0b00100#5, 0b00101#5, 0b01000#5, 0b01011#5,
        0b10100#5, 0b11000#5, 0b11010#5, 0b11100#5, 0b11110#5] ∨
      (w.extractLsb' 25 7 = 0b0100000#7 ∧ w.extractLsb' 20 5 ≠ 0b00001#5) ∨
      (w.extractLsb' 25 7 = 0b0100001#7 ∧ w.extractLsb' 20 5 ≠ 0b00000#5) ∨
      (w.extractLsb' 27 5 ∈ [0b01011#5, 0b11100#5, 0b11110#5] ∧ w.extractLsb' 20 5 ≠ 0b00000#5) ∨
      (w.extractLsb' 27 5 ∈ [0b11000#5, 0b11010#5] ∧
        w.extractLsb' 20 5 ∉ [0b00000#5, 0b00001#5, 0b00010#5, 0b00011#5]) ∨
      (w.extractLsb' 27 5 ∈ [0b00100#5, 0b10100#5] ∧ w.extractLsb' 12 3 ∉ [0b000#3, 0b001#3, 0b010#3]) ∨
      (w.extractLsb' 27 5 ∈ [0b00101#5, 0b11100#5] ∧ w.extractLsb' 12 3 ∉ [0b000#3, 0b001#3]) ∨
      (w.extractLsb' 27 5 = 0b11110#5 ∧ w.extractLsb' 12 3 ≠ 0b000#3))) →
  RaisesIllegal w s

/-- When IllegalInstruction is raised, and only then (spec/60_exceptions.md R403). No control register of this hart
is read-only, so that the second half of case (c) is the last conjunct. -/
def Obligations.IllegalInstructionExactly : Prop :=
  causeCode .illegalInstruction = 2 ∧
  (∀ (w : Word) (s : State), s.trap = none →
    (RaisesIllegal w s ↔
      (∃ e, decode w = .error e) ∨
      ∃ i, decode w = .ok i ∧
        (groupEnabled s.cfg (groupOf i) = false ∨ admitted i = false ∨
          (∃ a, csrField i = some a ∧
            ¬(s.cfg.hasF = true ∧ (a = 0x001#12 ∨ a = 0x002#12 ∨ a = 0x003#12))) ∨
          ∃ rm, roundingField i = some rm ∧ reservedRounding s rm))) ∧
  ∀ c : Csr, csrReadOnly c = false

/-- The 21 rows not admitted at XLEN = 32: their whole effect is the exception (spec/46_a_extension.md R336, R337,
R347 to R355; spec/48_fd_compare_convert.md R291, R293, R298, R299, R302, R303, R306, R307, R310, R311). -/
def Obligations.SixtyFourBitFormsRaise : Prop :=
  ∀ (s : State) (rd rs1 rs2 : Reg) (aq rl : BitVec 1) (rm : BitVec 3),
  Raises (.lrD rd rs1 aq rl) s .illegalInstruction (encode (.lrD rd rs1 aq rl)) ∧
  Raises (.scD rd rs2 rs1 aq rl) s .illegalInstruction (encode (.scD rd rs2 rs1 aq rl)) ∧
  Raises (.amoswapD rd rs2 rs1 aq rl) s .illegalInstruction (encode (.amoswapD rd rs2 rs1 aq rl)) ∧
  Raises (.amoaddD rd rs2 rs1 aq rl) s .illegalInstruction (encode (.amoaddD rd rs2 rs1 aq rl)) ∧
  Raises (.amoxorD rd rs2 rs1 aq rl) s .illegalInstruction (encode (.amoxorD rd rs2 rs1 aq rl)) ∧
  Raises (.amoandD rd rs2 rs1 aq rl) s .illegalInstruction (encode (.amoandD rd rs2 rs1 aq rl)) ∧
  Raises (.amoorD rd rs2 rs1 aq rl) s .illegalInstruction (encode (.amoorD rd rs2 rs1 aq rl)) ∧
  Raises (.amominD rd rs2 rs1 aq rl) s .illegalInstruction (encode (.amominD rd rs2 rs1 aq rl)) ∧
  Raises (.amomaxD rd rs2 rs1 aq rl) s .illegalInstruction (encode (.amomaxD rd rs2 rs1 aq rl)) ∧
  Raises (.amominuD rd rs2 rs1 aq rl) s .illegalInstruction (encode (.amominuD rd rs2 rs1 aq rl)) ∧
  Raises (.amomaxuD rd rs2 rs1 aq rl) s .illegalInstruction (encode (.amomaxuD rd rs2 rs1 aq rl)) ∧
  Raises (.fmvDX rd rs1) s .illegalInstruction (encode (.fmvDX rd rs1)) ∧
  Raises (.fmvXD rd rs1) s .illegalInstruction (encode (.fmvXD rd rs1)) ∧
  Raises (.fcvtSL rd rs1 rm) s .illegalInstruction (encode (.fcvtSL rd rs1 rm)) ∧
  Raises (.fcvtDL rd rs1 rm) s .illegalInstruction (encode (.fcvtDL rd rs1 rm)) ∧
  Raises (.fcvtSLu rd rs1 rm) s .illegalInstruction (encode (.fcvtSLu rd rs1 rm)) ∧
  Raises (.fcvtDLu rd rs1 rm) s .illegalInstruction (encode (.fcvtDLu rd rs1 rm)) ∧
  Raises (.fcvtLS rd rs1 rm) s .illegalInstruction (encode (.fcvtLS rd rs1 rm)) ∧
  Raises (.fcvtLD rd rs1 rm) s .illegalInstruction (encode (.fcvtLD rd rs1 rm)) ∧
  Raises (.fcvtLuS rd rs1 rm) s .illegalInstruction (encode (.fcvtLuS rd rs1 rm)) ∧
  Raises (.fcvtLuD rd rs1 rm) s .illegalInstruction (encode (.fcvtLuD rd rs1 rm))

/-- The integer register file (spec/10_state.md R20, R21). -/
def Obligations.IntegerRegisterFile : Prop :=
  ∀ (s : State) (r q : Reg) (v : Word),
  (s.setX r v).getX q = (if q = r ∧ r ≠ 0#5 then v else s.getX q) ∧ s.getX 0#5 = 0#32 ∧ s.setX 0#5 v = s

/-- Singles in f registers (spec/10_state.md R29; spec/45_fd_extension.md R240). -/
def Obligations.FloatRegisterBoxing : Prop :=
  ∀ (s : State) (r q : Reg) (v : Single) (d : Double),
  (s.wrS r v).rdS r = v ∧ (s.wrS r v).lowF r = v ∧ (s.wrD r d).rdD r = d ∧
  (s.cfg.hasD = true → ((s.wrS r v).getF r).extractLsb' 32 32 = 0xFFFFFFFF#32) ∧
  (s.cfg.hasD = true → (s.getF r).extractLsb' 32 32 ≠ 0xFFFFFFFF#32 → s.rdS r = 0x7FC00000#32) ∧
  s.lowF r = (s.getF r).extractLsb' 0 32 ∧
  (q ≠ r → (s.wrS r v).getF q = s.getF q ∧ (s.wrD r d).getF q = s.getF q)

/-- The state after reset, as far as the spec gives it (spec/10_state.md R37). The values of x1 to x31, of the f
registers, of fcsr and of unloaded memory are the choice of the model (log entries 3 and 4) and are not stated. -/
def Obligations.ResetValues : Prop :=
  State.reset.pc = 0x00400000#32 ∧ State.reset.getX 0#5 = 0#32 ∧ State.reset.reservation = none ∧
  State.reset.dirty = [] ∧ State.reset.trap = none

/-- The invariant that `StepKeepsWellFormed` keeps holds at reset. -/
def Obligations.ResetStateIsWellFormed : Prop :=
  State.reset.wf = true

/-- The invariant over every state, not only those of a run: pc stays a multiple of 4 (spec/10_state.md R25), x0
stays 0 (R21), memory and dirty stay canonical and inside MEM_VALID (R33, R35), the reservation stays the base of a
block (R34). -/
def Obligations.StepKeepsWellFormed : Prop :=
  ∀ s t : State, s.wf = true → step s = .next t → t.wf = true

/-- The parameters of spec/00_scope.md R15 and the input of spec/46_a_extension.md R356. That no step changes the
first nor moves back in the second, the hand-over to the environment included, is the choice of the model (log
entries 2, 6 and 8), not a rule of the spec. -/
def Obligations.StepKeepsParameters : Prop :=
  ∀ s t : State, step s = .next t → t.cfg = s.cfg ∧ s.scIndex ≤ t.scIndex ∧ t.scIndex ≤ s.scIndex + 1

/-- Exceptions are precise (spec/60_exceptions.md R415). -/
def Obligations.ExceptionsArePrecise : Prop :=
  ∀ (s t : State) (o : Trap), s.trap = none → step s = .next t → t.trap = some o →
  t = { s with trap := some o } ∧ o.pc = s.pc

/-- What changes the reservation (spec/46_a_extension.md R333). -/
def Obligations.ReservationChangedOnlyByLrAndSc : Prop :=
  ∀ (i : Instr) (s t : State), s.trap = none → exec i s = .next t →
  (t.reservation ≠ s.reservation →
    (∃ rd rs1 aq rl, i = .lrW rd rs1 aq rl) ∨ ∃ rd rs2 rs1 aq rl, i = .scW rd rs2 rs1 aq rl) ∧
  (t.trap ≠ none → t.reservation = s.reservation) ∧
  (∀ rd rs2 rs1 aq rl, i = .scW rd rs2 rs1 aq rl → t.trap = none → t.reservation = none)

/-- Memory and the set dirty (spec/10_state.md R33, R35; spec/20_memory.md R66). -/
def Obligations.MemoryChangesOnlyByStores : Prop :=
  ∀ (i : Instr) (s t : State), s.trap = none → exec i s = .next t →
  (isStoring i = false ∨ t.trap ≠ none → ∀ a : Nat, t.byteAt a = s.byteAt a) ∧
  (isStoring i = false → (∀ rd rs1 imm, i ≠ .fenceI rd rs1 imm) → t.dirty = s.dirty) ∧
  (isStoring i = true → ∀ a ∈ s.dirty, a ∈ t.dirty) ∧
  (∀ rd rs1 imm, i = .fenceI rd rs1 imm → t.dirty = [])

/-- Flags stay set until software clears them (spec/45_fd_extension.md R243; spec/10_state.md R32). -/
def Obligations.FlagsAreSticky : Prop :=
  ∀ (i : Instr) (s t : State), isCsrAccess i = false → exec i s = .next t →
  s.fflags &&& t.fflags = s.fflags ∧ t.frm = s.frm

/-- The next instruction (spec/00_scope.md R14). -/
def Obligations.PcAdvancesByFour : Prop :=
  ∀ (i : Instr) (s t : State), s.trap = none → exec i s = .next t → t.trap = none →
  isControlTransfer i = false ∨ (∃ offset, branchOf s i = some (false, offset)) → t.pc = s.pc + 4#32

/-- The hart is total: every instruction has an outcome (spec/30_encoding.md R100; spec/60_exceptions.md R400), and
a step stops only at a fetch of stored bytes (spec/20_memory.md R66; log entry 10) and at the environment
(spec/60_exceptions.md R411; log entry 8). -/
def Obligations.EveryInstructionAnswersANextState : Prop :=
  (∀ (i : Instr) (s : State), ∃ t, exec i s = .next t) ∧
  ∀ s : State,
    (∃ t, step s = .next t) ∨
    (s.trap = none ∧ step s = .refused (.staleFetch s.pc)) ∨
    ∃ o, s.trap = some o ∧
      (step s = .fault (.halted o.cause o.pc o.tval) ∨ step s = .refused .envNotHartState)

/-- The table of exceptions is complete (spec/60_exceptions.md R400). -/
def Obligations.ExceptionsByInstruction : Prop :=
  ∀ (i : Instr) (s t : State) (o : Trap), s.trap = none → exec i s = .next t → t.trap = some o →
  match o.cause with
  | .instructionAddressMisaligned => transferTarget s i = some o.tval ∧ o.tval.toNat % 4 ≠ 0
  | .instructionAccessFault => False
  | .illegalInstruction => o.tval = encode i ∧ IsIllegal s i
  | .breakpoint => i = .ebreak ∧ o.tval = s.pc
  | .loadAddressMisaligned => ∃ n, dataLoad s i = some (o.tval, n) ∧ o.tval.toNat % n ≠ 0
  | .loadAccessFault => ∃ n, dataLoad s i = some (o.tval, n) ∧ o.tval.toNat % n = 0 ∧
      ∃ k, k < n ∧ (o.tval.toNat + k) % 2 ^ 32 < 0x00400000
  | .storeAmoAddressMisaligned => ∃ n, dataStore s i = some (o.tval, n) ∧ o.tval.toNat % n ≠ 0
  | .storeAmoAccessFault => ∃ n, dataStore s i = some (o.tval, n) ∧ o.tval.toNat % n = 0 ∧
      ∃ k, k < n ∧ (o.tval.toNat + k) % 2 ^ 32 < 0x00400000
  | .environmentCall => i = .ecall ∧ o.tval = 0#32

/-- One step (spec/00_scope.md R12; spec/20_memory.md R58). -/
def Obligations.StepRunsTheDecodedInstruction : Prop :=
  ∀ (s : State) (i : Instr), s.trap = none → AlignedTo s.pc 4 → InMemory s.pc →
  (∀ a ∈ s.dirty, a < s.pc.toNat ∨ s.pc.toNat + 4 ≤ a) → decode (s.wordAt s.pc.toNat) = .ok i →
  step s = exec i s

/-- Fetch, in its order of checks (spec/20_memory.md R58, R66; spec/60_exceptions.md R402, R414). The refusal is the
rule of R66. -/
def Obligations.FetchOutcomes : Prop :=
  causeCode .instructionAccessFault = 1 ∧ ∀ s : State, s.trap = none →
  (¬AlignedTo s.pc 4 →
    step s = .next { s with trap := some { cause := .instructionAddressMisaligned, pc := s.pc, tval := s.pc } }) ∧
  (AlignedTo s.pc 4 → ¬InMemory s.pc →
    step s = .next { s with trap := some { cause := .instructionAccessFault, pc := s.pc, tval := s.pc } }) ∧
  (AlignedTo s.pc 4 → InMemory s.pc → (∃ a ∈ s.dirty, s.pc.toNat ≤ a ∧ a < s.pc.toNat + 4) →
    step s = .refused (.staleFetch s.pc)) ∧
  (AlignedTo s.pc 4 → InMemory s.pc → (∀ a ∈ s.dirty, a < s.pc.toNat ∨ s.pc.toNat + 4 ≤ a) →
    (∃ e, decode (s.wordAt s.pc.toNat) = .error e) →
    step s = .next { s with
      trap := some { cause := .illegalInstruction, pc := s.pc, tval := s.wordAt s.pc.toNat } })

/-- The environment (spec/60_exceptions.md R410, R411). That a resumed state keeps the parameters and the position
in the input, and that anything which is no state of the hart is refused, is the choice of the model (log entries 1,
2, 6 and 8). -/
def Obligations.PendingTrapGoesToTheEnvironment : Prop :=
  ∀ (s : State) (o : Trap), s.trap = some o →
  step s =
    match environment { trap := o, state := { s with trap := none } } with
    | .halt => .fault (.halted o.cause o.pc o.tval)
    | .resume r =>
      if State.wf { r with cfg := s.cfg, trap := none, scIndex := s.scIndex } = true then
        .next { r with cfg := s.cfg, trap := none, scIndex := s.scIndex }
      else .refused .envNotHartState

/-- Loading from outside the hart (spec/70_reset_and_hazards.md R441). The form of the load is the choice of the
model (log entry 9). -/
def Obligations.PlacedWordRunsNext : Prop :=
  ∀ (s : State) (nbits w : Nat) (i : Instr), Memory.wf s.mem = true → decode (tableWord nbits w) = .ok i →
  step (s.withFetchWord nbits w) = exec i (s.withFetchWord nbits w)

/-- The access primitives (spec/20_memory.md R52, R53). -/
def Obligations.ReadAfterWrite : Prop :=
  ∀ (s : State) (a : Word) (n : Nat) (v : BitVec (8 * n)) (k : Access), n ∈ [1, 2, 4, 8] →
  Memory.wf s.mem = true → AlignedTo a n → InMemory a →
  ∃ t, s.memWrite a n v = .ok t ∧ t.memRead k a n = .ok v ∧
    (∀ b : Nat, b < a.toNat ∨ a.toNat + n ≤ b → t.byteAt b = s.byteAt b) ∧
    (∀ b : Nat, b ∈ t.dirty ↔ b ∈ s.dirty ∨ (a.toNat ≤ b ∧ b < a.toNat + n))

/-- Byte order (spec/20_memory.md R51). -/
def Obligations.ByteOrderIsLittleEndian : Prop :=
  ∀ (s : State) (a : Word) (n k : Nat), n ∈ [1, 2, 4, 8] → k < n →
  (∀ (c : Access) (v : BitVec (8 * n)), s.memRead c a n = .ok v →
    v.extractLsb' (8 * k) 8 = s.byteAt (a.toNat + k)) ∧
  (∀ (v : BitVec (8 * n)) (t : State), Memory.wf s.mem = true → s.memWrite a n v = .ok t →
    t.byteAt (a.toNat + k) = v.extractLsb' (8 * k) 8) ∧
  (∀ w : Word, k < 4 → s.fetch = .word w → w.extractLsb' (8 * k) 8 = s.byteAt (s.pc.toNat + k))

/-- Narrower accesses (spec/20_memory.md R56): the primitives for every value, then the instructions of its worked
example for every word and byte, then its numbers. -/
def Obligations.NarrowAccessesSeeTheirBytes : Prop :=
  (∀ (s : State) (a : Word) (n m k : Nat) (v : BitVec (8 * n)) (c : Access), n ∈ [1, 2, 4, 8] → m ∈ [1, 2, 4, 8] →
    k + m ≤ n → k % m = 0 → AlignedTo a n → InMemory a → Memory.wf s.mem = true →
    ∃ t, s.memWrite a n v = .ok t ∧
      t.memRead c (a + BitVec.ofNat 32 k) m = .ok (v.extractLsb' (8 * k) (8 * m)) ∧
      ∀ new : BitVec (8 * m), ∃ u whole, t.memWrite (a + BitVec.ofNat 32 k) m new = .ok u ∧
        u.memRead c a n = .ok whole ∧ whole.extractLsb' (8 * k) (8 * m) = new ∧
        ∀ j : Nat, j < n → j < k ∨ k + m ≤ j → whole.extractLsb' (8 * j) 8 = v.extractLsb' (8 * j) 8) ∧
  (∀ (s : State) (a w : Word) (b : Byte) (base word byte rd : Reg), Memory.wf s.mem = true → AlignedTo a 4 →
    InMemory a → s.getX base = a → s.getX word = w → (s.getX byte).extractLsb' 0 8 = b →
    ∃ t, exec (.sw word base 0) s = .next t ∧
      CompletesWithX (.lbu rd base 0) t rd ((w.extractLsb' 0 8).setWidth 32) ∧
      CompletesWithX (.lbu rd base 1) t rd ((w.extractLsb' 8 8).setWidth 32) ∧
      CompletesWithX (.lbu rd base 2) t rd ((w.extractLsb' 16 8).setWidth 32) ∧
      CompletesWithX (.lbu rd base 3) t rd ((w.extractLsb' 24 8).setWidth 32) ∧
      CompletesWithX (.lhu rd base 0) t rd ((w.extractLsb' 0 16).setWidth 32) ∧
      CompletesWithX (.lhu rd base 2) t rd ((w.extractLsb' 16 16).setWidth 32) ∧
      CompletesWithX (.lb rd base 0) t rd ((w.extractLsb' 0 8).signExtend 32) ∧
      ∃ u, exec (.sb byte base 1) t = .next u ∧
        CompletesWithX (.lw rd base 0) u rd (w.extractLsb' 16 16 ++ b ++ w.extractLsb' 0 8)) ∧
  ∀ w : Word, w = 0xAABBCCDD#32 →
    (w.extractLsb' 0 8).setWidth 32 = 0xDD#32 ∧ (w.extractLsb' 8 8).setWidth 32 = 0xCC#32 ∧
    (w.extractLsb' 16 8).setWidth 32 = 0xBB#32 ∧ (w.extractLsb' 24 8).setWidth 32 = 0xAA#32 ∧
    (w.extractLsb' 0 16).setWidth 32 = 0xCCDD#32 ∧ (w.extractLsb' 16 16).setWidth 32 = 0xAABB#32 ∧
    (w.extractLsb' 0 8).signExtend 32 = 0xFFFFFFDD#32 ∧
    w.extractLsb' 16 16 ++ 0x11#8 ++ w.extractLsb' 0 8 = 0xAABB11DD#32

/-- Register-register instructions (spec/40_integer_computational.md R121 to R130, R142, R143); the values are
stated over integers. -/
def Obligations.RegisterArithmeticCompletes : Prop :=
  ∀ (s : State) (rd rs1 rs2 : Reg) (a b : Word), s.getX rs1 = a → s.getX rs2 = b →
  CompletesWithX (.add rd rs1 rs2) s rd (BitVec.ofNat 32 (a.toNat + b.toNat)) ∧
  CompletesWithX (.sub rd rs1 rs2) s rd (BitVec.ofInt 32 ((a.toNat : Int) - (b.toNat : Int))) ∧
  CompletesWithX (.sll rd rs1 rs2) s rd (BitVec.ofNat 32 (a.toNat * 2 ^ (b.toNat % 32))) ∧
  CompletesWithX (.slt rd rs1 rs2) s rd (if a.toInt < b.toInt then 1#32 else 0#32) ∧
  CompletesWithX (.sltu rd rs1 rs2) s rd (if a.toNat < b.toNat then 1#32 else 0#32) ∧
  CompletesWithX (.xor rd rs1 rs2) s rd (a ^^^ b) ∧
  CompletesWithX (.srl rd rs1 rs2) s rd (BitVec.ofNat 32 (a.toNat / 2 ^ (b.toNat % 32))) ∧
  CompletesWithX (.sra rd rs1 rs2) s rd (BitVec.ofInt 32 (a.toInt / 2 ^ (b.toNat % 32))) ∧
  CompletesWithX (.or rd rs1 rs2) s rd (a ||| b) ∧
  CompletesWithX (.and rd rs1 rs2) s rd (a &&& b)

/-- Register-immediate and upper-immediate instructions (spec/40_integer_computational.md R131 to R141). -/
def Obligations.ImmediateArithmeticCompletes : Prop :=
  ∀ (s : State) (rd rs1 : Reg) (a : Word) (imm : BitVec 12) (shamt : BitVec 5) (upper : BitVec 20),
  s.getX rs1 = a →
  CompletesWithX (.addi rd rs1 imm) s rd (BitVec.ofInt 32 ((a.toNat : Int) + imm.toInt)) ∧
  CompletesWithX (.slti rd rs1 imm) s rd (if a.toInt < imm.toInt then 1#32 else 0#32) ∧
  CompletesWithX (.sltiu rd rs1 imm) s rd (if a.toNat < (imm.signExtend 32).toNat then 1#32 else 0#32) ∧
  CompletesWithX (.xori rd rs1 imm) s rd (a ^^^ imm.signExtend 32) ∧
  CompletesWithX (.ori rd rs1 imm) s rd (a ||| imm.signExtend 32) ∧
  CompletesWithX (.andi rd rs1 imm) s rd (a &&& imm.signExtend 32) ∧
  CompletesWithX (.slli rd rs1 shamt) s rd (BitVec.ofNat 32 (a.toNat * 2 ^ shamt.toNat)) ∧
  CompletesWithX (.srli rd rs1 shamt) s rd (BitVec.ofNat 32 (a.toNat / 2 ^ shamt.toNat)) ∧
  CompletesWithX (.srai rd rs1 shamt) s rd (BitVec.ofInt 32 (a.toInt / 2 ^ shamt.toNat)) ∧
  CompletesWithX (.lui rd upper) s rd (BitVec.ofNat 32 (upper.toNat * 4096)) ∧
  CompletesWithX (.auipc rd upper) s rd (BitVec.ofNat 32 (s.pc.toNat + upper.toNat * 4096))

/-- Jumps with link (spec/41_control_transfer.md R152, R153). -/
def Obligations.JumpsComplete : Prop :=
  ∀ (s : State) (rd rs1 : Reg) (offset : BitVec 21) (imm : BitVec 12),
  (AlignedTo (s.pc + offset.signExtend 32) 4 →
    CompletesWithJump (.jal rd offset) s (s.pc + offset.signExtend 32) rd (s.pc + 4#32)) ∧
  ((s.getX rs1 + imm.signExtend 32).getLsbD 1 = false →
    CompletesWithJump (.jalr rd rs1 imm) s ((s.getX rs1 + imm.signExtend 32) &&& 0xFFFFFFFE#32) rd (s.pc + 4#32))

/-- Conditional branches (spec/41_control_transfer.md R154 to R159, R151). -/
def Obligations.BranchesComplete : Prop :=
  ∀ (s : State) (rs1 rs2 : Reg) (offset : BitVec 13) (cond : Bool) (i : Instr),
  i ∈ [.beq rs1 rs2 offset, .bne rs1 rs2 offset, .blt rs1 rs2 offset, .bge rs1 rs2 offset, .bltu rs1 rs2 offset,
    .bgeu rs1 rs2 offset] →
  branchOf s i = some (cond, offset) → (cond = true → AlignedTo (s.pc + offset.signExtend 32) 4) →
  CompletesWithPc i s (if cond then s.pc + offset.signExtend 32 else s.pc + 4#32)

/-- InstructionAddressMisaligned (spec/60_exceptions.md R401). -/
def Obligations.MisalignedTargetsRaise : Prop :=
  causeCode .instructionAddressMisaligned = 0 ∧
  ∀ (s : State) (rd rs1 : Reg) (jump : BitVec 21) (imm : BitVec 12),
    (¬AlignedTo (s.pc + jump.signExtend 32) 4 →
      Raises (.jal rd jump) s .instructionAddressMisaligned (s.pc + jump.signExtend 32)) ∧
    (¬AlignedTo ((s.getX rs1 + imm.signExtend 32) &&& 0xFFFFFFFE#32) 4 →
      Raises (.jalr rd rs1 imm) s .instructionAddressMisaligned
        ((s.getX rs1 + imm.signExtend 32) &&& 0xFFFFFFFE#32)) ∧
    (∀ (i : Instr) (offset : BitVec 13), branchOf s i = some (true, offset) →
      ¬AlignedTo (s.pc + offset.signExtend 32) 4 →
      Raises i s .instructionAddressMisaligned (s.pc + offset.signExtend 32)) ∧
    (∀ (i : Instr) (offset : BitVec 13), branchOf s i = some (false, offset) →
      ∃ t, exec i s = .next t ∧ t.trap = s.trap) ∧
    (s.wf = true → s.fetch ≠ .trap .instructionAddressMisaligned)

/-- The branch conditions as a table (spec/41_control_transfer.md R162). -/
def Obligations.BranchConditionTable : Prop :=
  (∀ (w : Word) (s : State), w.extractLsb' 0 7 = 0b1100011#7 → w.extractLsb' 12 3 ∈ [0b010#3, 0b011#3] →
    RaisesIllegal w s) ∧
  ∀ (s : State) (rs1 rs2 : Reg) (offset : BitVec 13) (a b : Word) (eq ne lt ge ltu geu : Bool),
    (a, b, eq, ne, lt, ge, ltu, geu) ∈
      [(0x00000005#32, 0x00000005#32, true, false, false, true, false, true),
       (0x00000001#32, 0x00000002#32, false, true, true, false, true, false),
       (0xFFFFFFFF#32, 0x00000000#32, false, true, true, false, false, true),
       (0x00000000#32, 0xFFFFFFFF#32, false, true, false, true, true, false),
       (0x80000000#32, 0x7FFFFFFF#32, false, true, true, false, false, true),
       (0x7FFFFFFF#32, 0x80000000#32, false, true, false, true, true, false)] →
    s.getX rs1 = a → s.getX rs2 = b → AlignedTo (s.pc + offset.signExtend 32) 4 →
    CompletesWithPc (.beq rs1 rs2 offset) s (if eq then s.pc + offset.signExtend 32 else s.pc + 4#32) ∧
    CompletesWithPc (.bne rs1 rs2 offset) s (if ne then s.pc + offset.signExtend 32 else s.pc + 4#32) ∧
    CompletesWithPc (.blt rs1 rs2 offset) s (if lt then s.pc + offset.signExtend 32 else s.pc + 4#32) ∧
    CompletesWithPc (.bge rs1 rs2 offset) s (if ge then s.pc + offset.signExtend 32 else s.pc + 4#32) ∧
    CompletesWithPc (.bltu rs1 rs2 offset) s (if ltu then s.pc + offset.signExtend 32 else s.pc + 4#32) ∧
    CompletesWithPc (.bgeu rs1 rs2 offset) s (if geu then s.pc + offset.signExtend 32 else s.pc + 4#32)

/-- Integer loads (spec/42_load_store.md R170 to R176, R180, R181). -/
def Obligations.LoadsComplete : Prop :=
  ∀ (s : State) (rd rs1 : Reg) (imm : BitVec 12) (a : Word), a = s.getX rs1 + imm.signExtend 32 → InMemory a →
  CompletesWithX (.lb rd rs1 imm) s rd ((s.byteAt a.toNat).signExtend 32) ∧
  CompletesWithX (.lbu rd rs1 imm) s rd ((s.byteAt a.toNat).setWidth 32) ∧
  (AlignedTo a 2 → CompletesWithX (.lh rd rs1 imm) s rd ((s.halfAt a.toNat).signExtend 32)) ∧
  (AlignedTo a 2 → CompletesWithX (.lhu rd rs1 imm) s rd ((s.halfAt a.toNat).setWidth 32)) ∧
  (AlignedTo a 4 → CompletesWithX (.lw rd rs1 imm) s rd (s.wordAt a.toNat))

/-- Integer stores (spec/42_load_store.md R170, R171, R177 to R181). -/
def Obligations.StoresComplete : Prop :=
  ∀ (s : State) (rs2 rs1 : Reg) (imm : BitVec 12) (a : Word), a = s.getX rs1 + imm.signExtend 32 → InMemory a →
  Memory.wf s.mem = true →
  CompletesWithStore (.sb rs2 rs1 imm) s a.toNat 1 ((s.getX rs2).toNat % 2 ^ 8) ∧
  (AlignedTo a 2 → CompletesWithStore (.sh rs2 rs1 imm) s a.toNat 2 ((s.getX rs2).toNat % 2 ^ 16)) ∧
  (AlignedTo a 4 → CompletesWithStore (.sw rs2 rs1 imm) s a.toNat 4 (s.getX rs2).toNat)

/-- Load exceptions (spec/60_exceptions.md R405, R406). -/
def Obligations.LoadsRaise : Prop :=
  causeCode .loadAddressMisaligned = 4 ∧ causeCode .loadAccessFault = 5 ∧
  ∀ (i : Instr) (s : State) (a : Word) (n : Nat), dataLoad s i = some (a, n) →
    groupEnabled s.cfg (groupOf i) = true →
    (a.toNat % n ≠ 0 → Raises i s .loadAddressMisaligned a) ∧
    (a.toNat % n = 0 → (∃ k, k < n ∧ memValid ((a.toNat + k) % 2 ^ 32) = false) → Raises i s .loadAccessFault a) ∧
    (n = 1 → ∀ (t : State) (o : Trap), s.trap = none → exec i s = .next t → t.trap = some o →
      o.cause ≠ .loadAddressMisaligned)

/-- Store and atomic exceptions (spec/60_exceptions.md R407, R408). -/
def Obligations.StoresAndAtomicsRaise : Prop :=
  causeCode .storeAmoAddressMisaligned = 6 ∧ causeCode .storeAmoAccessFault = 7 ∧
  ∀ (i : Instr) (s : State) (a : Word) (n : Nat), dataStore s i = some (a, n) →
    groupEnabled s.cfg (groupOf i) = true →
    (a.toNat % n ≠ 0 → Raises i s .storeAmoAddressMisaligned a) ∧
    (a.toNat % n = 0 → (∃ k, k < n ∧ memValid ((a.toNat + k) % 2 ^ 32) = false) →
      Raises i s .storeAmoAccessFault a)

/-- CSR instructions (spec/43_system_csr_fence.md R190, R192 to R197; spec/10_state.md R32). -/
def Obligations.CsrInstructionsComplete : Prop :=
  ∀ (s : State) (rd rs1 : Reg) (uimm : BitVec 5) (csr : BitVec 12) (c : Csr) (old : Word),
  s.cfg.hasF = true → (csr, c) ∈ [(0x001#12, .fflags), (0x002#12, .frm), (0x003#12, .fcsr)] →
  old = BitVec.ofNat 32 (csrValue s.fcsr c) →
  CompletesWithCsr (.csrrw rd csr rs1) s rd old (csrWritten s.fcsr c (s.getX rs1)) ∧
  CompletesWithCsr (.csrrs rd csr rs1) s rd old
    (if rs1 = 0#5 then s.fcsr.toNat else csrWritten s.fcsr c (old ||| s.getX rs1)) ∧
  CompletesWithCsr (.csrrc rd csr rs1) s rd old
    (if rs1 = 0#5 then s.fcsr.toNat else csrWritten s.fcsr c (old &&& ~~~(s.getX rs1))) ∧
  CompletesWithCsr (.csrrwi rd csr uimm) s rd old (csrWritten s.fcsr c (BitVec.ofNat 32 uimm.toNat)) ∧
  CompletesWithCsr (.csrrsi rd csr uimm) s rd old
    (if uimm = 0#5 then s.fcsr.toNat else csrWritten s.fcsr c (old ||| BitVec.ofNat 32 uimm.toNat)) ∧
  CompletesWithCsr (.csrrci rd csr uimm) s rd old
    (if uimm = 0#5 then s.fcsr.toNat else csrWritten s.fcsr c (old &&& ~~~(BitVec.ofNat 32 uimm.toNat)))

/-- Breakpoint and EnvironmentCall (spec/60_exceptions.md R404, R409). -/
def Obligations.EcallAndEbreakRaise : Prop :=
  causeCode .breakpoint = 3 ∧ causeCode .environmentCall = 8 ∧
  (∀ s : State, Raises .ebreak s .breakpoint s.pc ∧ Raises .ecall s .environmentCall 0#32) ∧
  ∀ (s t : State) (o : Trap), s.trap = none → step s = .next t → t.trap = some o →
    (o.cause = .breakpoint → s.fetch = .word 0x00100073#32) ∧
    (o.cause = .environmentCall → s.fetch = .word 0x00000073#32)

/-- Fences (spec/43_system_csr_fence.md R200, R201; spec/30_encoding.md R94). -/
def Obligations.FencesComplete : Prop :=
  ∀ (s : State) (rd rs1 : Reg) (imm : BitVec 12),
  CompletesWithPc (.fence rd rs1 imm) s (s.pc + 4#32) ∧
  ∃ t, exec (.fenceI rd rs1 imm) s = .next t ∧ t.dirty = [] ∧ t.pc = s.pc + 4#32 ∧ KeepsX s t ∧ KeepsFloat s t ∧
    (∀ a : Nat, t.byteAt a = s.byteAt a) ∧ t.reservation = s.reservation ∧ KeepsModelFields s t

/-- Multiplies (spec/44_m_extension.md R221 to R224, R230); the high halves are quotients by 2^32 rounded down. -/
def Obligations.MultipliesComplete : Prop :=
  ∀ (s : State) (rd rs1 rs2 : Reg) (a b : Word), s.cfg.hasM = true → s.getX rs1 = a → s.getX rs2 = b →
  CompletesWithX (.mul rd rs1 rs2) s rd (BitVec.ofInt 32 (a.toInt * b.toInt)) ∧
  CompletesWithX (.mulh rd rs1 rs2) s rd (BitVec.ofInt 32 (a.toInt * b.toInt / 2 ^ 32)) ∧
  CompletesWithX (.mulhsu rd rs1 rs2) s rd (BitVec.ofInt 32 (a.toInt * (b.toNat : Int) / 2 ^ 32)) ∧
  CompletesWithX (.mulhu rd rs1 rs2) s rd (BitVec.ofNat 32 (a.toNat * b.toNat / 2 ^ 32))

/-- Divisions (spec/44_m_extension.md R225 to R228). -/
def Obligations.DivisionsComplete : Prop :=
  ∀ (s : State) (rd rs1 rs2 : Reg) (a b : Word), s.cfg.hasM = true → s.getX rs1 = a → s.getX rs2 = b →
  CompletesWithX (.div rd rs1 rs2) s rd
    (if b.toNat = 0 then 0xFFFFFFFF#32 else BitVec.ofInt 32 (a.toInt.tdiv b.toInt)) ∧
  CompletesWithX (.divu rd rs1 rs2) s rd
    (if b.toNat = 0 then 0xFFFFFFFF#32 else BitVec.ofNat 32 (a.toNat / b.toNat)) ∧
  CompletesWithX (.rem rd rs1 rs2) s rd (if b.toNat = 0 then a else BitVec.ofInt 32 (a.toInt.tmod b.toInt)) ∧
  CompletesWithX (.remu rd rs1 rs2) s rd (if b.toNat = 0 then a else BitVec.ofNat 32 (a.toNat % b.toNat))

/-- Division corner cases (spec/44_m_extension.md R229). -/
def Obligations.DivisionCornerCases : Prop :=
  ∀ (s : State) (rd rs1 rs2 : Reg) (a b : Word), s.cfg.hasM = true → s.getX rs1 = a → s.getX rs2 = b →
  ∃ q r qu ru : Word,
    CompletesWithX (.div rd rs1 rs2) s rd q ∧ CompletesWithX (.rem rd rs1 rs2) s rd r ∧
    CompletesWithX (.divu rd rs1 rs2) s rd qu ∧ CompletesWithX (.remu rd rs1 rs2) s rd ru ∧
    a = b * q + r ∧ a = b * qu + ru ∧
    (b ≠ 0#32 → r.toInt.natAbs < b.toInt.natAbs ∧ 0 ≤ a.toInt * r.toInt) ∧
    (b = 0#32 → q = 0xFFFFFFFF#32 ∧ r = a ∧ qu = 0xFFFFFFFF#32 ∧ ru = a) ∧
    ∀ row ∈ [(0x80000000#32, 0xFFFFFFFF#32, 0x80000000#32, 0#32, 0#32, 0x80000000#32),
        (7#32, 2#32, 3#32, 1#32, 3#32, 1#32),
        (0xFFFFFFF9#32, 2#32, 0xFFFFFFFD#32, 0xFFFFFFFF#32, 0x7FFFFFFC#32, 1#32),
        (7#32, 0xFFFFFFFE#32, 0xFFFFFFFD#32, 1#32, 0#32, 7#32),
        (0xFFFFFFF9#32, 0xFFFFFFFE#32, 3#32, 0xFFFFFFFF#32, 0#32, 0xFFFFFFF9#32),
        (0#32, 5#32, 0#32, 0#32, 0#32, 0#32)],
      row.1 = a → row.2.1 = b → (q, r, qu, ru) = row.2.2

/-- Load reserved and store conditional (spec/46_a_extension.md R332 to R335, R356). -/
def Obligations.LoadReservedAndStoreConditionalComplete : Prop :=
  ∀ (s : State) (rd rs2 rs1 : Reg) (aq rl : BitVec 1) (a block : Word), s.cfg.hasA = true → s.getX rs1 = a →
  AlignedTo a 4 → InMemory a → Memory.wf s.mem = true →
  block = BitVec.ofNat 32 (a.toNat / s.cfg.resGranule * s.cfg.resGranule) →
  (∃ t, exec (.lrW rd rs1 aq rl) s = .next t ∧ WritesX s t rd (s.wordAt a.toNat) ∧ t.reservation = some block ∧
    t.pc = s.pc + 4#32 ∧ KeepsFloat s t ∧ KeepsMemory s t ∧ KeepsModelFields s t) ∧
  ∃ t, exec (.scW rd rs2 rs1 aq rl) s = .next t ∧
    (if s.reservation = some block ∧ Config.scMaySucceed s.scIndex = true then
      WritesX s t rd 0#32 ∧ StoresBytes s t a.toNat 4 (s.getX rs2).toNat
    else WritesX s t rd 1#32 ∧ KeepsMemory s t) ∧
    t.reservation = none ∧ t.pc = s.pc + 4#32 ∧ KeepsFloat s t ∧ t.cfg = s.cfg ∧ t.scIndex = s.scIndex + 1 ∧
    t.trap = s.trap

/-- Atomic memory operations (spec/46_a_extension.md R331, R333, R338 to R346). -/
def Obligations.AtomicUpdatesComplete : Prop :=
  ∀ (s : State) (rd rs2 rs1 : Reg) (aq rl : BitVec 1) (a b v : Word), s.cfg.hasA = true → s.getX rs1 = a →
  s.getX rs2 = b → v = s.wordAt a.toNat → AlignedTo a 4 → InMemory a → Memory.wf s.mem = true →
  CompletesWithAtomic (.amoswapW rd rs2 rs1 aq rl) s rd a b ∧
  CompletesWithAtomic (.amoaddW rd rs2 rs1 aq rl) s rd a (BitVec.ofNat 32 (v.toNat + b.toNat)) ∧
  CompletesWithAtomic (.amoxorW rd rs2 rs1 aq rl) s rd a (v ^^^ b) ∧
  CompletesWithAtomic (.amoandW rd rs2 rs1 aq rl) s rd a (v &&& b) ∧
  CompletesWithAtomic (.amoorW rd rs2 rs1 aq rl) s rd a (v ||| b) ∧
  CompletesWithAtomic (.amominW rd rs2 rs1 aq rl) s rd a (BitVec.ofInt 32 (min v.toInt b.toInt)) ∧
  CompletesWithAtomic (.amomaxW rd rs2 rs1 aq rl) s rd a (BitVec.ofInt 32 (max v.toInt b.toInt)) ∧
  CompletesWithAtomic (.amominuW rd rs2 rs1 aq rl) s rd a (BitVec.ofNat 32 (min v.toNat b.toNat)) ∧
  CompletesWithAtomic (.amomaxuW rd rs2 rs1 aq rl) s rd a (BitVec.ofNat 32 (max v.toNat b.toNat))

/-- Floating-point loads and stores (spec/45_fd_extension.md R246, R250 to R253). -/
def Obligations.FloatLoadsAndStoresComplete : Prop :=
  ∀ (s : State) (rd rs2 rs1 : Reg) (imm : BitVec 12) (a : Word), a = s.getX rs1 + imm.signExtend 32 → InMemory a →
  Memory.wf s.mem = true →
  (s.cfg.hasF = true → AlignedTo a 4 →
    CompletesWithF (.flw rd rs1 imm) s rd (boxedSingle s (s.wordAt a.toNat)) flagNone ∧
    CompletesWithStore (.fsw rs2 rs1 imm) s a.toNat 4 ((s.getF rs2).toNat % 2 ^ 32)) ∧
  (s.cfg.hasD = true → AlignedTo a 8 →
    CompletesWithF (.fld rd rs1 imm) s rd (s.doubleAt a.toNat) flagNone ∧
    CompletesWithStore (.fsd rs2 rs1 imm) s a.toNat 8 (s.getF rs2).toNat)

/-- Sign injection and moves (spec/45_fd_extension.md R272 to R277; spec/48_fd_compare_convert.md R290, R292). -/
def Obligations.SignInjectionAndMovesComplete : Prop :=
  ∀ (s : State) (rd rs1 rs2 : Reg) (a b : Single) (x y : Double), s.rdS rs1 = a → s.rdS rs2 = b →
  s.getF rs1 = x → s.getF rs2 = y →
  (s.cfg.hasF = true →
    CompletesWithF (.fsgnjS rd rs1 rs2) s rd
      (boxedSingle s ((b &&& 0x80000000#32) ||| (a &&& 0x7FFFFFFF#32))) flagNone ∧
    CompletesWithF (.fsgnjnS rd rs1 rs2) s rd
      (boxedSingle s ((~~~b &&& 0x80000000#32) ||| (a &&& 0x7FFFFFFF#32))) flagNone ∧
    CompletesWithF (.fsgnjxS rd rs1 rs2) s rd (boxedSingle s (a ^^^ (b &&& 0x80000000#32))) flagNone ∧
    CompletesWithF (.fmvSX rd rs1) s rd (boxedSingle s (s.getX rs1)) flagNone ∧
    CompletesWithX (.fmvXS rd rs1) s rd (BitVec.ofNat 32 x.toNat)) ∧
  (s.cfg.hasD = true →
    CompletesWithF (.fsgnjD rd rs1 rs2) s rd
      ((y &&& 0x8000000000000000#64) ||| (x &&& 0x7FFFFFFFFFFFFFFF#64)) flagNone ∧
    CompletesWithF (.fsgnjnD rd rs1 rs2) s rd
      ((~~~y &&& 0x8000000000000000#64) ||| (x &&& 0x7FFFFFFFFFFFFFFF#64)) flagNone ∧
    CompletesWithF (.fsgnjxD rd rs1 rs2) s rd (x ^^^ (y &&& 0x8000000000000000#64)) flagNone)

/-- Floating-point arithmetic (spec/45_fd_extension.md R254 to R263). What the functions deliver is stated in
RoundingDeliversTheNearestNumber (finite operands), NaNAndInfinityOperands (the others) and FlagRules. -/
def Obligations.FloatArithmeticCompletes : Prop :=
  ∀ (s : State) (rd rs1 rs2 : Reg) (rm : BitVec 3) (mode : RoundingMode) (a b : Single) (x y : Double),
  s.effectiveRm rm = some mode → s.rdS rs1 = a → s.rdS rs2 = b → s.getF rs1 = x → s.getF rs2 = y →
  (s.cfg.hasF = true →
    CompletesWithF (.faddS rd rs1 rs2 rm) s rd (boxedSingle s (fpAdd .single mode a b).1) (fpAdd .single mode a b).2 ∧
    CompletesWithF (.fsubS rd rs1 rs2 rm) s rd (boxedSingle s (fpSub .single mode a b).1) (fpSub .single mode a b).2 ∧
    CompletesWithF (.fmulS rd rs1 rs2 rm) s rd (boxedSingle s (fpMul .single mode a b).1) (fpMul .single mode a b).2 ∧
    CompletesWithF (.fdivS rd rs1 rs2 rm) s rd (boxedSingle s (fpDiv .single mode a b).1) (fpDiv .single mode a b).2 ∧
    CompletesWithF (.fsqrtS rd rs1 rm) s rd (boxedSingle s (fpSqrt .single mode a).1) (fpSqrt .single mode a).2) ∧
  (s.cfg.hasD = true →
    CompletesWithF (.faddD rd rs1 rs2 rm) s rd (fpAdd .double mode x y).1 (fpAdd .double mode x y).2 ∧
    CompletesWithF (.fsubD rd rs1 rs2 rm) s rd (fpSub .double mode x y).1 (fpSub .double mode x y).2 ∧
    CompletesWithF (.fmulD rd rs1 rs2 rm) s rd (fpMul .double mode x y).1 (fpMul .double mode x y).2 ∧
    CompletesWithF (.fdivD rd rs1 rs2 rm) s rd (fpDiv .double mode x y).1 (fpDiv .double mode x y).2 ∧
    CompletesWithF (.fsqrtD rd rs1 rm) s rd (fpSqrt .double mode x).1 (fpSqrt .double mode x).2)

/-- Fused multiply-add: the negation is of an operand, before the one rounding (spec/45_fd_extension.md R264 to
R271). What the function delivers is stated in RoundingDeliversTheNearestNumber (finite operands) and
NaNAndInfinityOperands (the others). -/
def Obligations.FusedMultiplyAddCompletes : Prop :=
  ∀ (s : State) (rd rs1 rs2 rs3 : Reg) (rm : BitVec 3) (mode : RoundingMode) (a b c : Single) (x y z : Double),
  s.effectiveRm rm = some mode → s.rdS rs1 = a → s.rdS rs2 = b → s.rdS rs3 = c → s.getF rs1 = x → s.getF rs2 = y →
  s.getF rs3 = z →
  (s.cfg.hasF = true →
    (∀ r, r = fpFma .single mode a b c →
      CompletesWithF (.fmaddS rd rs1 rs2 rs3 rm) s rd (boxedSingle s r.1) r.2) ∧
    (∀ r, r = fpFma .single mode a b (c ^^^ 0x80000000#32) →
      CompletesWithF (.fmsubS rd rs1 rs2 rs3 rm) s rd (boxedSingle s r.1) r.2) ∧
    (∀ r, r = fpFma .single mode (a ^^^ 0x80000000#32) b c →
      CompletesWithF (.fnmsubS rd rs1 rs2 rs3 rm) s rd (boxedSingle s r.1) r.2) ∧
    (∀ r, r = fpFma .single mode (a ^^^ 0x80000000#32) b (c ^^^ 0x80000000#32) →
      CompletesWithF (.fnmaddS rd rs1 rs2 rs3 rm) s rd (boxedSingle s r.1) r.2)) ∧
  (s.cfg.hasD = true →
    (∀ r, r = fpFma .double mode x y z →
      CompletesWithF (.fmaddD rd rs1 rs2 rs3 rm) s rd r.1 r.2) ∧
    (∀ r, r = fpFma .double mode x y (z ^^^ 0x8000000000000000#64) →
      CompletesWithF (.fmsubD rd rs1 rs2 rs3 rm) s rd r.1 r.2) ∧
    (∀ r, r = fpFma .double mode (x ^^^ 0x8000000000000000#64) y z →
      CompletesWithF (.fnmsubD rd rs1 rs2 rs3 rm) s rd r.1 r.2) ∧
    (∀ r, r = fpFma .double mode (x ^^^ 0x8000000000000000#64) y (z ^^^ 0x8000000000000000#64) →
      CompletesWithF (.fnmaddD rd rs1 rs2 rs3 rm) s rd r.1 r.2))

/-- Minimum, maximum, comparisons (spec/45_fd_extension.md R278 to R281; spec/48_fd_compare_convert.md R282 to
R287). Operands with equal numbers are one pattern but for the two zeros, so that the sign of the first tells which
one is -0. -/
def Obligations.MinMaxAndComparisonsComplete : Prop :=
  (∀ (s : State) (rd rs1 rs2 : Reg) (a b : Single) (x y : Double), s.rdS rs1 = a → s.rdS rs2 = b →
    s.getF rs1 = x → s.getF rs2 = y →
    (s.cfg.hasF = true →
      CompletesWithF (.fminS rd rs1 rs2) s rd (boxedSingle s (fpMin .single a b).1) (fpMin .single a b).2 ∧
      CompletesWithF (.fmaxS rd rs1 rs2) s rd (boxedSingle s (fpMax .single a b).1) (fpMax .single a b).2 ∧
      CompletesWithXFlags (.feqS rd rs1 rs2) s rd (if (fpEq .single a b).1 then 1#32 else 0#32) (fpEq .single a b).2 ∧
      CompletesWithXFlags (.fltS rd rs1 rs2) s rd (if (fpLt .single a b).1 then 1#32 else 0#32) (fpLt .single a b).2 ∧
      CompletesWithXFlags (.fleS rd rs1 rs2) s rd (if (fpLe .single a b).1 then 1#32 else 0#32) (fpLe .single a b).2) ∧
    (s.cfg.hasD = true →
      CompletesWithF (.fminD rd rs1 rs2) s rd (fpMin .double x y).1 (fpMin .double x y).2 ∧
      CompletesWithF (.fmaxD rd rs1 rs2) s rd (fpMax .double x y).1 (fpMax .double x y).2 ∧
      CompletesWithXFlags (.feqD rd rs1 rs2) s rd (if (fpEq .double x y).1 then 1#32 else 0#32) (fpEq .double x y).2 ∧
      CompletesWithXFlags (.fltD rd rs1 rs2) s rd (if (fpLt .double x y).1 then 1#32 else 0#32) (fpLt .double x y).2 ∧
      CompletesWithXFlags (.fleD rd rs1 rs2) s rd (if (fpLe .double x y).1 then 1#32 else 0#32) (fpLe .double x y).2)) ∧
  ∀ (fmt : FloatFormat) (a b : BitVec fmt.width), fmt = .single ∨ fmt = .double →
    (∀ x y : EReal, HasNumber (unpack fmt a) x → HasNumber (unpack fmt b) y →
      ((fpEq fmt a b).1 = true ↔ x = y) ∧ ((fpLt fmt a b).1 = true ↔ x < y) ∧ ((fpLe fmt a b).1 = true ↔ x ≤ y) ∧
      (x < y → (fpMin fmt a b).1 = a ∧ (fpMax fmt a b).1 = b) ∧
      (y < x → (fpMin fmt a b).1 = b ∧ (fpMax fmt a b).1 = a) ∧
      (x = y → (fpMin fmt a b).1 = (if a.msb then a else b) ∧ (fpMax fmt a b).1 = (if a.msb then b else a))) ∧
    (AnyNaN fmt a ∨ AnyNaN fmt b →
      (fpEq fmt a b).1 = false ∧ (fpLt fmt a b).1 = false ∧ (fpLe fmt a b).1 = false ∧
      (fpMin fmt a b).1 = (if AnyNaN fmt a then if AnyNaN fmt b then canonicalNaN fmt else b else a) ∧
      (fpMax fmt a b).1 = (if AnyNaN fmt a then if AnyNaN fmt b then canonicalNaN fmt else b else a)) ∧
    (∀ fl ∈ [(fpEq fmt a b).2, (fpMin fmt a b).2, (fpMax fmt a b).2],
      fl = if SignalingNaN fmt a ∨ SignalingNaN fmt b then flagNV else flagNone) ∧
    ∀ fl ∈ [(fpLt fmt a b).2, (fpLe fmt a b).2], fl = if AnyNaN fmt a ∨ AnyNaN fmt b then flagNV else flagNone

/-- Classification (spec/48_fd_compare_convert.md R313). -/
def Obligations.ClassificationCompletes : Prop :=
  ∀ (s : State) (rd rs1 : Reg),
  (s.cfg.hasF = true →
    CompletesWithX (.fclassS rd rs1) s rd (BitVec.ofNat 32 (2 ^ classOfSingle (s.rdS rs1)))) ∧
  (s.cfg.hasD = true →
    CompletesWithX (.fclassD rd rs1) s rd (BitVec.ofNat 32 (2 ^ classOfDouble (s.getF rs1)))) ∧
  (s.cfg.hasD = true → (s.getF rs1).extractLsb' 32 32 ≠ 0xFFFFFFFF#32 →
    CompletesWithX (.fclassS rd rs1) s rd 0x200#32)

/-- Conversions (spec/48_fd_compare_convert.md R294 to R297, R300, R301, R304, R305, R308, R309). What the functions
deliver is stated in ConversionsDeliver, NaNAndInfinityOperands and IntegerConversionTable. -/
def Obligations.ConversionsComplete : Prop :=
  ∀ (s : State) (rd rs1 : Reg) (rm : BitVec 3) (mode : RoundingMode) (a : Single) (x : Double) (v : Word),
  s.effectiveRm rm = some mode → s.rdS rs1 = a → s.getF rs1 = x → s.getX rs1 = v →
  (s.cfg.hasF = true →
    (∀ r, r = fpOfInt .single mode v.toInt → CompletesWithF (.fcvtSW rd rs1 rm) s rd (boxedSingle s r.1) r.2) ∧
    (∀ r, r = fpOfInt .single mode (v.toNat : Int) →
      CompletesWithF (.fcvtSWu rd rs1 rm) s rd (boxedSingle s r.1) r.2) ∧
    (∀ r, r = fpToWord .single mode a → CompletesWithXFlags (.fcvtWS rd rs1 rm) s rd r.1 r.2) ∧
    (∀ r, r = fpToWordUnsigned .single mode a → CompletesWithXFlags (.fcvtWuS rd rs1 rm) s rd r.1 r.2)) ∧
  (s.cfg.hasD = true →
    (∀ r, r = fpConvert .single .double .rne a → CompletesWithF (.fcvtDS rd rs1 rm) s rd r.1 r.2) ∧
    (∀ r, r = fpConvert .double .single mode x →
      CompletesWithF (.fcvtSD rd rs1 rm) s rd (boxedSingle s r.1) r.2) ∧
    (∀ r, r = fpOfInt .double .rne v.toInt → CompletesWithF (.fcvtDW rd rs1 rm) s rd r.1 r.2) ∧
    (∀ r, r = fpOfInt .double .rne (v.toNat : Int) → CompletesWithF (.fcvtDWu rd rs1 rm) s rd r.1 r.2) ∧
    (∀ r, r = fpToWord .double mode x → CompletesWithXFlags (.fcvtWD rd rs1 rm) s rd r.1 r.2) ∧
    (∀ r, r = fpToWordUnsigned .double mode x → CompletesWithXFlags (.fcvtWuD rd rs1 rm) s rd r.1 r.2))

/-- Conversion to integers, with rounding stated over the rational numbers (spec/48_fd_compare_convert.md R312). -/
def Obligations.IntegerConversionTable : Prop :=
  ∀ (fmt : FloatFormat) (mode : RoundingMode) (p : BitVec fmt.width),
  fmt = .single ∨ fmt = .double →
  match unpack fmt p with
  | .nan _ =>
    fpToWord fmt mode p = (0x7FFFFFFF#32, flagNV) ∧ fpToWordUnsigned fmt mode p = (0xFFFFFFFF#32, flagNV)
  | .infinity neg =>
    fpToWord fmt mode p = (if neg then 0x80000000#32 else 0x7FFFFFFF#32, flagNV) ∧
    fpToWordUnsigned fmt mode p = (if neg then 0x00000000#32 else 0xFFFFFFFF#32, flagNV)
  | .finite neg m e =>
    ∃ r : Int, RoundsToInteger mode (rationalOf neg m e) r ∧
      fpToWord fmt mode p =
        (if r < -(2 ^ 31) then (0x80000000#32, flagNV)
         else if 2 ^ 31 - 1 < r then (0x7FFFFFFF#32, flagNV)
         else (BitVec.ofInt 32 r, if (r : ℚ) = rationalOf neg m e then flagNone else flagNX)) ∧
      fpToWordUnsigned fmt mode p =
        (if r < 0 then (0x00000000#32, flagNV)
         else if 2 ^ 32 - 1 < r then (0xFFFFFFFF#32, flagNV)
         else (BitVec.ofInt 32 r, if (r : ℚ) = rationalOf neg m e then flagNone else flagNX))

/-- Formats, rounding and the flags of rounding (spec/45_fd_extension.md R241 to R243, R247), and what the
arithmetic functions deliver on finite operands (R245, R254 to R271), over the real numbers. -/
def Obligations.RoundingDeliversTheNearestNumber : Prop :=
  floatBias .single = 127 ∧ floatBias .double = 1023 ∧
  (∀ p : Single, StandsFor .single 127 p (unpack .single p)) ∧
  (∀ p : Double, StandsFor .double 1023 p (unpack .double p)) ∧
  ∀ (fmt : FloatFormat) (mode : RoundingMode), fmt = .single ∨ fmt = .double →
  (∀ (neg : Bool) (m : Nat) (e : Int),
    DeliversRounded fmt mode neg (rationalOf neg m e : ℝ) (roundAndPack fmt mode neg m e)) ∧
  ∀ (a b c : BitVec fmt.width) (na nb nc : Bool) (ma mb mc : Nat) (ea eb ec : Int) (x y z : ℝ),
    unpack fmt a = .finite na ma ea → unpack fmt b = .finite nb mb eb → unpack fmt c = .finite nc mc ec →
    x = rationalOf na ma ea → y = rationalOf nb mb eb → z = rationalOf nc mc ec →
    DeliversRounded fmt mode (zeroSumSign mode na nb) (x + y) (fpAdd fmt mode a b) ∧
    DeliversRounded fmt mode (zeroSumSign mode na (!nb)) (x - y) (fpSub fmt mode a b) ∧
    DeliversRounded fmt mode (na != nb) (x * y) (fpMul fmt mode a b) ∧
    DeliversRounded fmt mode (zeroSumSign mode (na != nb) nc) (x * y + z) (fpFma fmt mode a b c) ∧
    (y ≠ 0 → DeliversRounded fmt mode (na != nb) (x / y) (fpDiv fmt mode a b)) ∧
    (y = 0 → x ≠ 0 → unpack fmt (fpDiv fmt mode a b).1 = .infinity (na != nb) ∧ (fpDiv fmt mode a b).2 = flagDZ) ∧
    (y = 0 → x = 0 → DeliversInvalid fmt (fpDiv fmt mode a b)) ∧
    (0 ≤ x → DeliversRounded fmt mode na (√x) (fpSqrt fmt mode a)) ∧
    (x < 0 → DeliversInvalid fmt (fpSqrt fmt mode a))

/-- NaN results and operands, infinities (spec/45_fd_extension.md R243, R244, R254 to R271;
spec/48_fd_compare_convert.md R294, R295). -/
def Obligations.NaNAndInfinityOperands : Prop :=
  canonicalNaN .single = 0x7FC00000#32 ∧ canonicalNaN .double = 0x7FF8000000000000#64 ∧
  ∀ (fmt target : FloatFormat) (mode : RoundingMode) (a b c : BitVec fmt.width),
    fmt = .single ∨ fmt = .double → target = .single ∨ target = .double →
    (AnyNaN fmt a ∨ AnyNaN fmt b →
      ∀ r ∈ [fpAdd fmt mode a b, fpSub fmt mode a b, fpMul fmt mode a b, fpDiv fmt mode a b],
        r = (canonicalNaN fmt, if SignalingNaN fmt a ∨ SignalingNaN fmt b then flagNV else flagNone)) ∧
    (AnyNaN fmt a → fpSqrt fmt mode a = (canonicalNaN fmt, if SignalingNaN fmt a then flagNV else flagNone)) ∧
    (AnyNaN fmt a ∨ AnyNaN fmt b ∨ AnyNaN fmt c → ¬ZeroTimesInfinity fmt a b →
      fpFma fmt mode a b c = (canonicalNaN fmt,
        if SignalingNaN fmt a ∨ SignalingNaN fmt b ∨ SignalingNaN fmt c then flagNV else flagNone)) ∧
    (AnyNaN fmt a →
      fpConvert fmt target mode a = (canonicalNaN target, if SignalingNaN fmt a then flagNV else flagNone)) ∧
    (ZeroTimesInfinity fmt a b →
      DeliversInvalid fmt (fpMul fmt mode a b) ∧ DeliversInvalid fmt (fpFma fmt mode a b c)) ∧
    (∀ na nb, unpack fmt a = .infinity na → unpack fmt b = .infinity nb →
      (if na = nb then DeliversInfinity fmt na (fpAdd fmt mode a b) else DeliversInvalid fmt (fpAdd fmt mode a b)) ∧
      (if na = nb then DeliversInvalid fmt (fpSub fmt mode a b) else DeliversInfinity fmt na (fpSub fmt mode a b)) ∧
      DeliversInvalid fmt (fpDiv fmt mode a b)) ∧
    (∀ na nb m e, unpack fmt a = .infinity na → unpack fmt b = .finite nb m e →
      DeliversInfinity fmt na (fpAdd fmt mode a b) ∧ DeliversInfinity fmt na (fpSub fmt mode a b) ∧
      DeliversInfinity fmt (na != nb) (fpDiv fmt mode a b)) ∧
    (∀ na nb m e, unpack fmt a = .finite na m e → unpack fmt b = .infinity nb →
      DeliversInfinity fmt nb (fpAdd fmt mode a b) ∧ DeliversInfinity fmt (!nb) (fpSub fmt mode a b) ∧
      DeliversZero fmt (na != nb) (fpDiv fmt mode a b)) ∧
    (∀ neg, InfiniteProduct fmt a b neg →
      DeliversInfinity fmt neg (fpMul fmt mode a b) ∧
      (∀ nc m e, unpack fmt c = .finite nc m e → DeliversInfinity fmt neg (fpFma fmt mode a b c)) ∧
      (unpack fmt c = .infinity neg → DeliversInfinity fmt neg (fpFma fmt mode a b c)) ∧
      (unpack fmt c = .infinity (!neg) → DeliversInvalid fmt (fpFma fmt mode a b c))) ∧
    (∀ na nb nc ma mb ea eb, unpack fmt a = .finite na ma ea → unpack fmt b = .finite nb mb eb →
      unpack fmt c = .infinity nc → DeliversInfinity fmt nc (fpFma fmt mode a b c)) ∧
    (unpack fmt a = .infinity false → DeliversInfinity fmt false (fpSqrt fmt mode a)) ∧
    (unpack fmt a = .infinity true → DeliversInvalid fmt (fpSqrt fmt mode a)) ∧
    (∀ r ∈ [fpAdd fmt mode a b, fpSub fmt mode a b, fpMul fmt mode a b, fpDiv fmt mode a b, fpSqrt fmt mode a,
        fpFma fmt mode a b c], AnyNaN fmt r.1 → r.1 = canonicalNaN fmt) ∧
    (AnyNaN target (fpConvert fmt target mode a).1 → (fpConvert fmt target mode a).1 = canonicalNaN target)

/-- Exception flags (spec/45_fd_extension.md R243, R260). -/
def Obligations.FlagRules : Prop :=
  flagNone = 0b00000#5 ∧ flagNV = 0b10000#5 ∧ flagDZ = 0b01000#5 ∧ flagOF = 0b00100#5 ∧ flagUF = 0b00010#5 ∧
  flagNX = 0b00001#5 ∧
  ∀ (fmt target : FloatFormat) (mode : RoundingMode) (a b c : BitVec fmt.width) (i : Int),
    fmt = .single ∨ fmt = .double → target = .single ∨ target = .double →
    (∀ fl ∈ [(fpAdd fmt mode a b).2, (fpSub fmt mode a b).2, (fpMul fmt mode a b).2, (fpSqrt fmt mode a).2,
        (fpFma fmt mode a b c).2, (fpMin fmt a b).2, (fpMax fmt a b).2, (fpEq fmt a b).2, (fpLt fmt a b).2,
        (fpLe fmt a b).2, (fpConvert fmt target mode a).2, (fpOfInt fmt mode i).2, (fpToWord fmt mode a).2,
        (fpToWordUnsigned fmt mode a).2],
      fl &&& flagDZ = flagNone ∧ (fl &&& flagOF ≠ flagNone → fl &&& flagNX = flagNX) ∧
      (fl &&& flagUF ≠ flagNone → fl &&& flagNX = flagNX)) ∧
    ((fpDiv fmt mode a b).2 &&& flagOF ≠ flagNone → (fpDiv fmt mode a b).2 &&& flagNX = flagNX) ∧
    ((fpDiv fmt mode a b).2 &&& flagUF ≠ flagNone → (fpDiv fmt mode a b).2 &&& flagNX = flagNX) ∧
    ((fpDiv fmt mode a b).2 &&& flagDZ ≠ flagNone ↔
      isZero (unpack fmt b) = true ∧ ∃ neg m e, unpack fmt a = .finite neg m e ∧ m ≠ 0) ∧
    (∀ na m e nb eb, unpack fmt a = .finite na m e → m ≠ 0 → unpack fmt b = .finite nb 0 eb →
      unpack fmt (fpDiv fmt mode a b).1 = .infinity (na != nb))

/-- Conversions (spec/48_fd_compare_convert.md R294 to R297, R300, R301; spec/45_fd_extension.md R243). A conversion
of a NaN is in NaNAndInfinityOperands. -/
def Obligations.ConversionsDeliver : Prop :=
  (∀ (fmt : FloatFormat) (mode : RoundingMode) (v : Int), fmt = .single ∨ fmt = .double →
    DeliversRounded fmt mode false (v : ℝ) (fpOfInt fmt mode v)) ∧
  (∀ (source target : FloatFormat) (mode : RoundingMode) (p : BitVec source.width) (neg : Bool),
    source = .single ∨ source = .double → target = .single ∨ target = .double →
    (unpack source p = .infinity neg → DeliversInfinity target neg (fpConvert source target mode p)) ∧
    ∀ (m : Nat) (e : Int), unpack source p = .finite neg m e →
      DeliversRounded target mode neg (rationalOf neg m e : ℝ) (fpConvert source target mode p)) ∧
  (∀ (mode : RoundingMode) (v : Int), v.natAbs ≤ 2 ^ 32 →
    (fpOfInt .double mode v).2 = flagNone ∧
    ∃ neg m e, unpack .double (fpOfInt .double mode v).1 = .finite neg m e ∧ rationalOf neg m e = v ∧
      neg = decide (v < 0)) ∧
  ∀ (mode : RoundingMode) (p : Single) (neg : Bool) (m : Nat) (e : Int), unpack .single p = .finite neg m e →
    (fpConvert .single .double mode p).2 = flagNone ∧
    ∃ m' e', unpack .double (fpConvert .single .double mode p).1 = .finite neg m' e' ∧
      rationalOf neg m' e' = rationalOf neg m e

/-- Pseudo-instructions (spec/47_pseudo_instructions.md R378 to R381, R383, R385, R386). -/
def Obligations.PseudoInstructionsDeliver : Prop :=
  ∀ (s : State) (rd rs : Reg) (v : Word) (p : Pseudo) (result : Word), s.trap = none →
  (p, result) ∈ [(.li rd v, v), (.la rd v, v), (.mv rd rs, s.getX rs), (.neg rd rs, 0#32 - s.getX rs),
    (.not rd rs, ~~~(s.getX rs)), (.seqz rd rs, if s.getX rs = 0#32 then 1#32 else 0#32),
    (.snez rd rs, if s.getX rs = 0#32 then 0#32 else 1#32)] →
  ∃ t, execList (expandPseudo s.pc p) s = .next t ∧ WritesX s t rd result ∧
    t.pc = s.pc + BitVec.ofNat 32 (4 * (expandPseudo s.pc p).length) ∧ KeepsFloat s t ∧ KeepsMemory s t ∧
    t.reservation = s.reservation ∧ KeepsModelFields s t

/-- Rounding modes (spec/45_fd_extension.md R242). -/
def Obligations.RoundingModeTable : Prop :=
  ∀ s : State,
  s.effectiveRm 0b000#3 = some .rne ∧ s.effectiveRm 0b001#3 = some .rtz ∧ s.effectiveRm 0b010#3 = some .rdn ∧
  s.effectiveRm 0b011#3 = some .rup ∧ s.effectiveRm 0b100#3 = some .rmm ∧ s.effectiveRm 0b101#3 = none ∧
  s.effectiveRm 0b110#3 = none ∧
  (s.frm ≠ 0b111#3 → s.effectiveRm 0b111#3 = s.effectiveRm s.frm) ∧
  (s.frm = 0b111#3 → s.effectiveRm 0b111#3 = none)

end
end

