-- ==== Sys2Proof/Laws/Encoding.lean ====
section
/-! SUPPORT. The fields of a word that a format was encoded in, and the word that its fields make up again
(spec/30_encoding.md R80 to R91, R96). -/

namespace Sys2Proof

/-! ## The fields of an encoded word -/

/-! Format R. -/

@[simp] theorem fieldOpcode_encodeR (f7 : BitVec 7) (rs2 : Reg) (rs1 : Reg) (f3 : BitVec 3) (rd : Reg) (op : BitVec 7) :
    fieldOpcode (encodeR f7 rs2 rs1 f3 rd op) = op := by
  simp (disch := omega) only [fieldOpcode, encodeR, BitVec.extractLsb'_append_eq_of_add_le, BitVec.extractLsb'_eq_self]

@[simp] theorem fieldRd_encodeR (f7 : BitVec 7) (rs2 : Reg) (rs1 : Reg) (f3 : BitVec 3) (rd : Reg) (op : BitVec 7) :
    fieldRd (encodeR f7 rs2 rs1 f3 rd op) = rd := by
  simp (disch := omega) only [fieldRd, encodeR, BitVec.extractLsb'_append_eq_of_le, BitVec.extractLsb'_append_eq_of_add_le, BitVec.extractLsb'_eq_self, Nat.sub_self]

@[simp] theorem fieldFunct3_encodeR (f7 : BitVec 7) (rs2 : Reg) (rs1 : Reg) (f3 : BitVec 3) (rd : Reg) (op : BitVec 7) :
    fieldFunct3 (encodeR f7 rs2 rs1 f3 rd op) = f3 := by
  simp (disch := omega) only [fieldFunct3, encodeR, BitVec.extractLsb'_append_eq_of_le, BitVec.extractLsb'_append_eq_of_add_le, BitVec.extractLsb'_eq_self, Nat.reduceSub, Nat.sub_self]

@[simp] theorem fieldRs1_encodeR (f7 : BitVec 7) (rs2 : Reg) (rs1 : Reg) (f3 : BitVec 3) (rd : Reg) (op : BitVec 7) :
    fieldRs1 (encodeR f7 rs2 rs1 f3 rd op) = rs1 := by
  simp (disch := omega) only [fieldRs1, encodeR, BitVec.extractLsb'_append_eq_of_le, BitVec.extractLsb'_append_eq_of_add_le, BitVec.extractLsb'_eq_self, Nat.reduceSub, Nat.sub_self]

@[simp] theorem fieldRs2_encodeR (f7 : BitVec 7) (rs2 : Reg) (rs1 : Reg) (f3 : BitVec 3) (rd : Reg) (op : BitVec 7) :
    fieldRs2 (encodeR f7 rs2 rs1 f3 rd op) = rs2 := by
  simp (disch := omega) only [fieldRs2, encodeR, BitVec.extractLsb'_append_eq_of_le, BitVec.extractLsb'_append_eq_of_add_le, BitVec.extractLsb'_eq_self, Nat.reduceSub, Nat.sub_self]

@[simp] theorem fieldFunct7_encodeR (f7 : BitVec 7) (rs2 : Reg) (rs1 : Reg) (f3 : BitVec 3) (rd : Reg) (op : BitVec 7) :
    fieldFunct7 (encodeR f7 rs2 rs1 f3 rd op) = f7 := by
  simp (disch := omega) only [fieldFunct7, encodeR, BitVec.extractLsb'_append_eq_of_le, BitVec.extractLsb'_eq_self, Nat.reduceSub, Nat.sub_self]

/-! Format I. -/

@[simp] theorem fieldOpcode_encodeI (imm : BitVec 12) (rs1 : Reg) (f3 : BitVec 3) (rd : Reg) (op : BitVec 7) :
    fieldOpcode (encodeI imm rs1 f3 rd op) = op := by
  simp (disch := omega) only [fieldOpcode, encodeI, BitVec.extractLsb'_append_eq_of_add_le, BitVec.extractLsb'_eq_self]

@[simp] theorem fieldRd_encodeI (imm : BitVec 12) (rs1 : Reg) (f3 : BitVec 3) (rd : Reg) (op : BitVec 7) :
    fieldRd (encodeI imm rs1 f3 rd op) = rd := by
  simp (disch := omega) only [fieldRd, encodeI, BitVec.extractLsb'_append_eq_of_le, BitVec.extractLsb'_append_eq_of_add_le, BitVec.extractLsb'_eq_self, Nat.sub_self]

@[simp] theorem fieldFunct3_encodeI (imm : BitVec 12) (rs1 : Reg) (f3 : BitVec 3) (rd : Reg) (op : BitVec 7) :
    fieldFunct3 (encodeI imm rs1 f3 rd op) = f3 := by
  simp (disch := omega) only [fieldFunct3, encodeI, BitVec.extractLsb'_append_eq_of_le, BitVec.extractLsb'_append_eq_of_add_le, BitVec.extractLsb'_eq_self, Nat.reduceSub, Nat.sub_self]

@[simp] theorem fieldRs1_encodeI (imm : BitVec 12) (rs1 : Reg) (f3 : BitVec 3) (rd : Reg) (op : BitVec 7) :
    fieldRs1 (encodeI imm rs1 f3 rd op) = rs1 := by
  simp (disch := omega) only [fieldRs1, encodeI, BitVec.extractLsb'_append_eq_of_le, BitVec.extractLsb'_append_eq_of_add_le, BitVec.extractLsb'_eq_self, Nat.reduceSub, Nat.sub_self]

@[simp] theorem fieldImmI_encodeI (imm : BitVec 12) (rs1 : Reg) (f3 : BitVec 3) (rd : Reg) (op : BitVec 7) :
    fieldImmI (encodeI imm rs1 f3 rd op) = imm := by
  simp (disch := omega) only [fieldImmI, encodeI, BitVec.extractLsb'_append_eq_of_le, BitVec.extractLsb'_eq_self, Nat.reduceSub, Nat.sub_self]

/-! Format S. -/

@[simp] theorem fieldOpcode_encodeS (imm : BitVec 12) (rs2 : Reg) (rs1 : Reg) (f3 : BitVec 3) (op : BitVec 7) :
    fieldOpcode (encodeS imm rs2 rs1 f3 op) = op := by
  simp (disch := omega) only [fieldOpcode, encodeS, BitVec.extractLsb'_append_eq_of_add_le, BitVec.extractLsb'_eq_self]

@[simp] theorem fieldFunct3_encodeS (imm : BitVec 12) (rs2 : Reg) (rs1 : Reg) (f3 : BitVec 3) (op : BitVec 7) :
    fieldFunct3 (encodeS imm rs2 rs1 f3 op) = f3 := by
  simp (disch := omega) only [fieldFunct3, encodeS, BitVec.extractLsb'_append_eq_of_le, BitVec.extractLsb'_append_eq_of_add_le, BitVec.extractLsb'_eq_self, Nat.reduceSub, Nat.sub_self]

@[simp] theorem fieldRs1_encodeS (imm : BitVec 12) (rs2 : Reg) (rs1 : Reg) (f3 : BitVec 3) (op : BitVec 7) :
    fieldRs1 (encodeS imm rs2 rs1 f3 op) = rs1 := by
  simp (disch := omega) only [fieldRs1, encodeS, BitVec.extractLsb'_append_eq_of_le, BitVec.extractLsb'_append_eq_of_add_le, BitVec.extractLsb'_eq_self, Nat.reduceSub, Nat.sub_self]

@[simp] theorem fieldRs2_encodeS (imm : BitVec 12) (rs2 : Reg) (rs1 : Reg) (f3 : BitVec 3) (op : BitVec 7) :
    fieldRs2 (encodeS imm rs2 rs1 f3 op) = rs2 := by
  simp (disch := omega) only [fieldRs2, encodeS, BitVec.extractLsb'_append_eq_of_le, BitVec.extractLsb'_append_eq_of_add_le, BitVec.extractLsb'_eq_self, Nat.reduceSub, Nat.sub_self]

@[simp] theorem fieldImmS_encodeS (imm : BitVec 12) (rs2 : Reg) (rs1 : Reg) (f3 : BitVec 3) (op : BitVec 7) :
    fieldImmS (encodeS imm rs2 rs1 f3 op) = imm := by
  simp (disch := omega) only [fieldImmS, encodeS, BitVec.extractLsb'_append_eq_of_le, BitVec.extractLsb'_append_eq_of_add_le, BitVec.extractLsb'_eq_self, Nat.reduceSub, Nat.sub_self]
  rw [BitVec.extractLsb'_append_extractLsb'_eq_extractLsb' (by rfl), BitVec.extractLsb'_eq_self]

/-! Format B. -/

@[simp] theorem fieldOpcode_encodeB (offset : BitVec 13) (rs2 : Reg) (rs1 : Reg) (f3 : BitVec 3) (op : BitVec 7) :
    fieldOpcode (encodeB offset rs2 rs1 f3 op) = op := by
  simp (disch := omega) only [fieldOpcode, encodeB, BitVec.extractLsb'_append_eq_of_add_le, BitVec.extractLsb'_eq_self]

@[simp] theorem fieldFunct3_encodeB (offset : BitVec 13) (rs2 : Reg) (rs1 : Reg) (f3 : BitVec 3) (op : BitVec 7) :
    fieldFunct3 (encodeB offset rs2 rs1 f3 op) = f3 := by
  simp (disch := omega) only [fieldFunct3, encodeB, BitVec.extractLsb'_append_eq_of_le, BitVec.extractLsb'_append_eq_of_add_le, BitVec.extractLsb'_eq_self, Nat.reduceSub, Nat.sub_self]

@[simp] theorem fieldRs1_encodeB (offset : BitVec 13) (rs2 : Reg) (rs1 : Reg) (f3 : BitVec 3) (op : BitVec 7) :
    fieldRs1 (encodeB offset rs2 rs1 f3 op) = rs1 := by
  simp (disch := omega) only [fieldRs1, encodeB, BitVec.extractLsb'_append_eq_of_le, BitVec.extractLsb'_append_eq_of_add_le, BitVec.extractLsb'_eq_self, Nat.reduceSub, Nat.sub_self]

@[simp] theorem fieldRs2_encodeB (offset : BitVec 13) (rs2 : Reg) (rs1 : Reg) (f3 : BitVec 3) (op : BitVec 7) :
    fieldRs2 (encodeB offset rs2 rs1 f3 op) = rs2 := by
  simp (disch := omega) only [fieldRs2, encodeB, BitVec.extractLsb'_append_eq_of_le, BitVec.extractLsb'_append_eq_of_add_le, BitVec.extractLsb'_eq_self, Nat.reduceSub, Nat.sub_self]

/-! Format U. -/

@[simp] theorem fieldOpcode_encodeU (imm : BitVec 20) (rd : Reg) (op : BitVec 7) :
    fieldOpcode (encodeU imm rd op) = op := by
  simp (disch := omega) only [fieldOpcode, encodeU, BitVec.extractLsb'_append_eq_of_add_le, BitVec.extractLsb'_eq_self]

@[simp] theorem fieldRd_encodeU (imm : BitVec 20) (rd : Reg) (op : BitVec 7) :
    fieldRd (encodeU imm rd op) = rd := by
  simp (disch := omega) only [fieldRd, encodeU, BitVec.extractLsb'_append_eq_of_le, BitVec.extractLsb'_append_eq_of_add_le, BitVec.extractLsb'_eq_self, Nat.sub_self]

@[simp] theorem fieldImmU_encodeU (imm : BitVec 20) (rd : Reg) (op : BitVec 7) :
    fieldImmU (encodeU imm rd op) = imm := by
  simp (disch := omega) only [fieldImmU, encodeU, BitVec.extractLsb'_append_eq_of_le, BitVec.extractLsb'_eq_self, Nat.reduceSub, Nat.sub_self]

/-! Format J. -/

@[simp] theorem fieldOpcode_encodeJ (offset : BitVec 21) (rd : Reg) (op : BitVec 7) :
    fieldOpcode (encodeJ offset rd op) = op := by
  simp (disch := omega) only [fieldOpcode, encodeJ, BitVec.extractLsb'_append_eq_of_add_le, BitVec.extractLsb'_eq_self]

@[simp] theorem fieldRd_encodeJ (offset : BitVec 21) (rd : Reg) (op : BitVec 7) :
    fieldRd (encodeJ offset rd op) = rd := by
  simp (disch := omega) only [fieldRd, encodeJ, BitVec.extractLsb'_append_eq_of_le, BitVec.extractLsb'_append_eq_of_add_le, BitVec.extractLsb'_eq_self, Nat.sub_self]

/-! Format R4. -/

@[simp] theorem fieldOpcode_encodeR4 (rs3 : Reg) (fmt : BitVec 2) (rs2 : Reg) (rs1 : Reg) (rm : BitVec 3) (rd : Reg) (op : BitVec 7) :
    fieldOpcode (encodeR4 rs3 fmt rs2 rs1 rm rd op) = op := by
  simp (disch := omega) only [fieldOpcode, encodeR4, BitVec.extractLsb'_append_eq_of_add_le, BitVec.extractLsb'_eq_self]

@[simp] theorem fieldRd_encodeR4 (rs3 : Reg) (fmt : BitVec 2) (rs2 : Reg) (rs1 : Reg) (rm : BitVec 3) (rd : Reg) (op : BitVec 7) :
    fieldRd (encodeR4 rs3 fmt rs2 rs1 rm rd op) = rd := by
  simp (disch := omega) only [fieldRd, encodeR4, BitVec.extractLsb'_append_eq_of_le, BitVec.extractLsb'_append_eq_of_add_le, BitVec.extractLsb'_eq_self, Nat.sub_self]

@[simp] theorem fieldFunct3_encodeR4 (rs3 : Reg) (fmt : BitVec 2) (rs2 : Reg) (rs1 : Reg) (rm : BitVec 3) (rd : Reg) (op : BitVec 7) :
    fieldFunct3 (encodeR4 rs3 fmt rs2 rs1 rm rd op) = rm := by
  simp (disch := omega) only [fieldFunct3, encodeR4, BitVec.extractLsb'_append_eq_of_le, BitVec.extractLsb'_append_eq_of_add_le, BitVec.extractLsb'_eq_self, Nat.reduceSub, Nat.sub_self]

@[simp] theorem fieldRs1_encodeR4 (rs3 : Reg) (fmt : BitVec 2) (rs2 : Reg) (rs1 : Reg) (rm : BitVec 3) (rd : Reg) (op : BitVec 7) :
    fieldRs1 (encodeR4 rs3 fmt rs2 rs1 rm rd op) = rs1 := by
  simp (disch := omega) only [fieldRs1, encodeR4, BitVec.extractLsb'_append_eq_of_le, BitVec.extractLsb'_append_eq_of_add_le, BitVec.extractLsb'_eq_self, Nat.reduceSub, Nat.sub_self]

@[simp] theorem fieldRs2_encodeR4 (rs3 : Reg) (fmt : BitVec 2) (rs2 : Reg) (rs1 : Reg) (rm : BitVec 3) (rd : Reg) (op : BitVec 7) :
    fieldRs2 (encodeR4 rs3 fmt rs2 rs1 rm rd op) = rs2 := by
  simp (disch := omega) only [fieldRs2, encodeR4, BitVec.extractLsb'_append_eq_of_le, BitVec.extractLsb'_append_eq_of_add_le, BitVec.extractLsb'_eq_self, Nat.reduceSub, Nat.sub_self]

@[simp] theorem fieldFmt_encodeR4 (rs3 : Reg) (fmt : BitVec 2) (rs2 : Reg) (rs1 : Reg) (rm : BitVec 3) (rd : Reg) (op : BitVec 7) :
    fieldFmt (encodeR4 rs3 fmt rs2 rs1 rm rd op) = fmt := by
  simp (disch := omega) only [fieldFmt, encodeR4, BitVec.extractLsb'_append_eq_of_le, BitVec.extractLsb'_append_eq_of_add_le, BitVec.extractLsb'_eq_self, Nat.reduceSub, Nat.sub_self]

@[simp] theorem fieldRs3_encodeR4 (rs3 : Reg) (fmt : BitVec 2) (rs2 : Reg) (rs1 : Reg) (rm : BitVec 3) (rd : Reg) (op : BitVec 7) :
    fieldRs3 (encodeR4 rs3 fmt rs2 rs1 rm rd op) = rs3 := by
  simp (disch := omega) only [fieldRs3, encodeR4, BitVec.extractLsb'_append_eq_of_le, BitVec.extractLsb'_eq_self, Nat.reduceSub, Nat.sub_self]

/-! Format A. -/

@[simp] theorem fieldOpcode_encodeA (f5 : BitVec 5) (aq : BitVec 1) (rl : BitVec 1) (rs2 : Reg) (rs1 : Reg) (f3 : BitVec 3) (rd : Reg) :
    fieldOpcode (encodeA f5 aq rl rs2 rs1 f3 rd) = 0b0101111#7 := by
  simp (disch := omega) only [fieldOpcode, encodeA, BitVec.extractLsb'_append_eq_of_add_le, BitVec.extractLsb'_eq_self]

@[simp] theorem fieldRd_encodeA (f5 : BitVec 5) (aq : BitVec 1) (rl : BitVec 1) (rs2 : Reg) (rs1 : Reg) (f3 : BitVec 3) (rd : Reg) :
    fieldRd (encodeA f5 aq rl rs2 rs1 f3 rd) = rd := by
  simp (disch := omega) only [fieldRd, encodeA, BitVec.extractLsb'_append_eq_of_le, BitVec.extractLsb'_append_eq_of_add_le, BitVec.extractLsb'_eq_self, Nat.sub_self]

@[simp] theorem fieldFunct3_encodeA (f5 : BitVec 5) (aq : BitVec 1) (rl : BitVec 1) (rs2 : Reg) (rs1 : Reg) (f3 : BitVec 3) (rd : Reg) :
    fieldFunct3 (encodeA f5 aq rl rs2 rs1 f3 rd) = f3 := by
  simp (disch := omega) only [fieldFunct3, encodeA, BitVec.extractLsb'_append_eq_of_le, BitVec.extractLsb'_append_eq_of_add_le, BitVec.extractLsb'_eq_self, Nat.reduceSub, Nat.sub_self]

@[simp] theorem fieldRs1_encodeA (f5 : BitVec 5) (aq : BitVec 1) (rl : BitVec 1) (rs2 : Reg) (rs1 : Reg) (f3 : BitVec 3) (rd : Reg) :
    fieldRs1 (encodeA f5 aq rl rs2 rs1 f3 rd) = rs1 := by
  simp (disch := omega) only [fieldRs1, encodeA, BitVec.extractLsb'_append_eq_of_le, BitVec.extractLsb'_append_eq_of_add_le, BitVec.extractLsb'_eq_self, Nat.reduceSub, Nat.sub_self]

@[simp] theorem fieldRs2_encodeA (f5 : BitVec 5) (aq : BitVec 1) (rl : BitVec 1) (rs2 : Reg) (rs1 : Reg) (f3 : BitVec 3) (rd : Reg) :
    fieldRs2 (encodeA f5 aq rl rs2 rs1 f3 rd) = rs2 := by
  simp (disch := omega) only [fieldRs2, encodeA, BitVec.extractLsb'_append_eq_of_le, BitVec.extractLsb'_append_eq_of_add_le, BitVec.extractLsb'_eq_self, Nat.reduceSub, Nat.sub_self]

@[simp] theorem fieldRl_encodeA (f5 : BitVec 5) (aq : BitVec 1) (rl : BitVec 1) (rs2 : Reg) (rs1 : Reg) (f3 : BitVec 3) (rd : Reg) :
    fieldRl (encodeA f5 aq rl rs2 rs1 f3 rd) = rl := by
  simp (disch := omega) only [fieldRl, encodeA, BitVec.extractLsb'_append_eq_of_le, BitVec.extractLsb'_append_eq_of_add_le, BitVec.extractLsb'_eq_self, Nat.reduceSub, Nat.sub_self]

@[simp] theorem fieldAq_encodeA (f5 : BitVec 5) (aq : BitVec 1) (rl : BitVec 1) (rs2 : Reg) (rs1 : Reg) (f3 : BitVec 3) (rd : Reg) :
    fieldAq (encodeA f5 aq rl rs2 rs1 f3 rd) = aq := by
  simp (disch := omega) only [fieldAq, encodeA, BitVec.extractLsb'_append_eq_of_le, BitVec.extractLsb'_append_eq_of_add_le, BitVec.extractLsb'_eq_self, Nat.reduceSub, Nat.sub_self]

@[simp] theorem fieldRs3_encodeA (f5 : BitVec 5) (aq : BitVec 1) (rl : BitVec 1) (rs2 : Reg) (rs1 : Reg) (f3 : BitVec 3) (rd : Reg) :
    fieldRs3 (encodeA f5 aq rl rs2 rs1 f3 rd) = f5 := by
  simp (disch := omega) only [fieldRs3, encodeA, BitVec.extractLsb'_append_eq_of_le, BitVec.extractLsb'_eq_self, Nat.reduceSub, Nat.sub_self]

/-! The operation and precision parts of funct7 (spec/30_encoding.md R91, R96). -/

@[simp] theorem fieldRs3_encodeR (f7 : BitVec 7) (rs2 rs1 : Reg) (f3 : BitVec 3) (rd : Reg) (op : BitVec 7) :
    fieldRs3 (encodeR f7 rs2 rs1 f3 rd op) = f7.extractLsb' 2 5 := by
  simp (disch := omega) only [fieldRs3, encodeR, BitVec.extractLsb'_append_eq_of_le, Nat.reduceSub]

@[simp] theorem fieldFmt_encodeR (f7 : BitVec 7) (rs2 rs1 : Reg) (f3 : BitVec 3) (rd : Reg) (op : BitVec 7) :
    fieldFmt (encodeR f7 rs2 rs1 f3 rd op) = f7.extractLsb' 0 2 := by
  simp (disch := omega) only [fieldFmt, encodeR, BitVec.extractLsb'_append_eq_of_le, Nat.reduceSub, Nat.sub_self]

/-! The offsets: the bits of the word and a zero. -/

theorem fieldOffsetB_encodeB (offset : BitVec 13) (rs2 rs1 : Reg) (f3 : BitVec 3) (op : BitVec 7)
    (h : branchOffsetEven offset = true) : fieldOffsetB (encodeB offset rs2 rs1 f3 op) = offset := by
  have h0 : offset.extractLsb' 0 1 = 0#1 := by simpa [branchOffsetEven] using h
  simp (disch := omega) only [fieldOffsetB, encodeB, BitVec.extractLsb'_append_eq_of_le, BitVec.extractLsb'_append_eq_of_add_le, BitVec.extractLsb'_eq_self, Nat.reduceSub, Nat.sub_self]
  rw [← h0]
  repeat rw [BitVec.extractLsb'_append_extractLsb'_eq_extractLsb' (by rfl)]
  exact BitVec.extractLsb'_eq_self

theorem fieldOffsetJ_encodeJ (offset : BitVec 21) (rd : Reg) (op : BitVec 7)
    (h : jumpOffsetEven offset = true) : fieldOffsetJ (encodeJ offset rd op) = offset := by
  have h0 : offset.extractLsb' 0 1 = 0#1 := by simpa [jumpOffsetEven] using h
  simp (disch := omega) only [fieldOffsetJ, encodeJ, BitVec.extractLsb'_append_eq_of_le, BitVec.extractLsb'_append_eq_of_add_le, BitVec.extractLsb'_eq_self, Nat.reduceSub, Nat.sub_self]
  rw [← h0]
  repeat rw [BitVec.extractLsb'_append_extractLsb'_eq_extractLsb' (by rfl)]
  exact BitVec.extractLsb'_eq_self

/-- The offset of a branch word is even. -/
theorem branchOffsetEven_fieldOffsetB (w : Word) : branchOffsetEven (fieldOffsetB w) = true := by
  simp (disch := omega) only [branchOffsetEven, fieldOffsetB, BitVec.extractLsb'_append_eq_of_add_le, BitVec.extractLsb'_eq_self]
  rfl

/-- The offset of a `jal` word is even. -/
theorem jumpOffsetEven_fieldOffsetJ (w : Word) : jumpOffsetEven (fieldOffsetJ w) = true := by
  simp (disch := omega) only [jumpOffsetEven, fieldOffsetJ, BitVec.extractLsb'_append_eq_of_add_le, BitVec.extractLsb'_eq_self]
  rfl

/-! ## The word that its fields make up -/

theorem encodeR_fields (w : Word) :
    encodeR (fieldFunct7 w) (fieldRs2 w) (fieldRs1 w) (fieldFunct3 w) (fieldRd w) (fieldOpcode w) = w := by
  simp only [encodeR, fieldFunct7, fieldRs2, fieldRs1, fieldFunct3, fieldRd, fieldOpcode]
  repeat rw [BitVec.extractLsb'_append_extractLsb'_eq_extractLsb' (by rfl)]
  exact BitVec.extractLsb'_eq_self

theorem encodeI_fields (w : Word) :
    encodeI (fieldImmI w) (fieldRs1 w) (fieldFunct3 w) (fieldRd w) (fieldOpcode w) = w := by
  simp only [encodeI, fieldImmI, fieldRs1, fieldFunct3, fieldRd, fieldOpcode]
  repeat rw [BitVec.extractLsb'_append_extractLsb'_eq_extractLsb' (by rfl)]
  exact BitVec.extractLsb'_eq_self

theorem encodeU_fields (w : Word) : encodeU (fieldImmU w) (fieldRd w) (fieldOpcode w) = w := by
  simp only [encodeU, fieldImmU, fieldRd, fieldOpcode]
  repeat rw [BitVec.extractLsb'_append_extractLsb'_eq_extractLsb' (by rfl)]
  exact BitVec.extractLsb'_eq_self

theorem encodeR4_fields (w : Word) : encodeR4 (fieldRs3 w) (fieldFmt w) (fieldRs2 w) (fieldRs1 w) (fieldFunct3 w)
    (fieldRd w) (fieldOpcode w) = w := by
  simp only [encodeR4, fieldRs3, fieldFmt, fieldRs2, fieldRs1, fieldFunct3, fieldRd, fieldOpcode]
  repeat rw [BitVec.extractLsb'_append_extractLsb'_eq_extractLsb' (by rfl)]
  exact BitVec.extractLsb'_eq_self

theorem encodeA_fields (w : Word) (h : fieldOpcode w = 0b0101111#7) : encodeA (fieldRs3 w) (fieldAq w)
    (fieldRl w) (fieldRs2 w) (fieldRs1 w) (fieldFunct3 w) (fieldRd w) = w := by
  rw [encodeA, ← h]
  simp only [fieldRs3, fieldAq, fieldRl, fieldRs2, fieldRs1, fieldFunct3, fieldRd, fieldOpcode]
  repeat rw [BitVec.extractLsb'_append_extractLsb'_eq_extractLsb' (by rfl)]
  exact BitVec.extractLsb'_eq_self

theorem encodeS_fields (w : Word) :
    encodeS (fieldImmS w) (fieldRs2 w) (fieldRs1 w) (fieldFunct3 w) (fieldOpcode w) = w := by
  simp (disch := omega) only [encodeS, fieldImmS, BitVec.extractLsb'_append_eq_of_le, BitVec.extractLsb'_append_eq_of_add_le, BitVec.extractLsb'_eq_self, Nat.sub_self]
  simp only [fieldRs2, fieldRs1, fieldFunct3, fieldOpcode]
  repeat rw [BitVec.extractLsb'_append_extractLsb'_eq_extractLsb' (by rfl)]
  exact BitVec.extractLsb'_eq_self

theorem encodeB_fields (w : Word) :
    encodeB (fieldOffsetB w) (fieldRs2 w) (fieldRs1 w) (fieldFunct3 w) (fieldOpcode w) = w := by
  simp (disch := omega) only [encodeB, fieldOffsetB, BitVec.extractLsb'_append_eq_of_le, BitVec.extractLsb'_append_eq_of_add_le, BitVec.extractLsb'_eq_self, Nat.reduceSub, Nat.sub_self]
  simp only [fieldRs2, fieldRs1, fieldFunct3, fieldOpcode]
  repeat rw [BitVec.extractLsb'_append_extractLsb'_eq_extractLsb' (by rfl)]
  exact BitVec.extractLsb'_eq_self

theorem encodeJ_fields (w : Word) : encodeJ (fieldOffsetJ w) (fieldRd w) (fieldOpcode w) = w := by
  simp (disch := omega) only [encodeJ, fieldOffsetJ, BitVec.extractLsb'_append_eq_of_le, BitVec.extractLsb'_append_eq_of_add_le, BitVec.extractLsb'_eq_self, Nat.reduceSub, Nat.sub_self]
  simp only [fieldRd, fieldOpcode]
  repeat rw [BitVec.extractLsb'_append_extractLsb'_eq_extractLsb' (by rfl)]
  exact BitVec.extractLsb'_eq_self

/-- The precision field and `rs3` are the two parts of funct7 (spec/30_encoding.md R91). -/
theorem fieldFunct7_eq (w : Word) : fieldRs3 w ++ fieldFmt w = fieldFunct7 w :=
  BitVec.extractLsb'_append_extractLsb'_eq_extractLsb' (by rfl)

end Sys2Proof
end

