-- ==== Sys2Proof/Laws/State.lean ====
section
/-! SUPPORT. One lemma per field per update of the state, so that no later proof unfolds a record update. -/

namespace Sys2Proof.Machine

/-! ## `setX` -/

@[simp] theorem State.setX_cfg (s : State) (r : Reg) (v : Word) : (s.setX r v).cfg = s.cfg := by unfold State.setX; split <;> rfl
@[simp] theorem State.setX_pc (s : State) (r : Reg) (v : Word) : (s.setX r v).pc = s.pc := by unfold State.setX; split <;> rfl
@[simp] theorem State.setX_f (s : State) (r : Reg) (v : Word) : (s.setX r v).f = s.f := by unfold State.setX; split <;> rfl
@[simp] theorem State.setX_fcsr (s : State) (r : Reg) (v : Word) : (s.setX r v).fcsr = s.fcsr := by unfold State.setX; split <;> rfl
@[simp] theorem State.setX_reservation (s : State) (r : Reg) (v : Word) : (s.setX r v).reservation = s.reservation := by unfold State.setX; split <;> rfl
@[simp] theorem State.setX_mem (s : State) (r : Reg) (v : Word) : (s.setX r v).mem = s.mem := by unfold State.setX; split <;> rfl
@[simp] theorem State.setX_dirty (s : State) (r : Reg) (v : Word) : (s.setX r v).dirty = s.dirty := by unfold State.setX; split <;> rfl
@[simp] theorem State.setX_trap (s : State) (r : Reg) (v : Word) : (s.setX r v).trap = s.trap := by unfold State.setX; split <;> rfl
@[simp] theorem State.setX_scIndex (s : State) (r : Reg) (v : Word) : (s.setX r v).scIndex = s.scIndex := by unfold State.setX; split <;> rfl

/-! ## `advance` -/

@[simp] theorem State.advance_cfg (s : State) : (s.advance).cfg = s.cfg := rfl
@[simp] theorem State.advance_x (s : State) : (s.advance).x = s.x := rfl
@[simp] theorem State.advance_f (s : State) : (s.advance).f = s.f := rfl
@[simp] theorem State.advance_fcsr (s : State) : (s.advance).fcsr = s.fcsr := rfl
@[simp] theorem State.advance_reservation (s : State) : (s.advance).reservation = s.reservation := rfl
@[simp] theorem State.advance_mem (s : State) : (s.advance).mem = s.mem := rfl
@[simp] theorem State.advance_dirty (s : State) : (s.advance).dirty = s.dirty := rfl
@[simp] theorem State.advance_trap (s : State) : (s.advance).trap = s.trap := rfl
@[simp] theorem State.advance_scIndex (s : State) : (s.advance).scIndex = s.scIndex := rfl

@[simp] theorem State.advance_pc (s : State) : s.advance.pc = s.pc + 4#32 := rfl

/-! ## `setF` -/

@[simp] theorem State.setF_cfg (s : State) (r : Reg) (v : Double) : (s.setF r v).cfg = s.cfg := rfl
@[simp] theorem State.setF_x (s : State) (r : Reg) (v : Double) : (s.setF r v).x = s.x := rfl
@[simp] theorem State.setF_pc (s : State) (r : Reg) (v : Double) : (s.setF r v).pc = s.pc := rfl
@[simp] theorem State.setF_fcsr (s : State) (r : Reg) (v : Double) : (s.setF r v).fcsr = s.fcsr := rfl
@[simp] theorem State.setF_reservation (s : State) (r : Reg) (v : Double) : (s.setF r v).reservation = s.reservation := rfl
@[simp] theorem State.setF_mem (s : State) (r : Reg) (v : Double) : (s.setF r v).mem = s.mem := rfl
@[simp] theorem State.setF_dirty (s : State) (r : Reg) (v : Double) : (s.setF r v).dirty = s.dirty := rfl
@[simp] theorem State.setF_trap (s : State) (r : Reg) (v : Double) : (s.setF r v).trap = s.trap := rfl
@[simp] theorem State.setF_scIndex (s : State) (r : Reg) (v : Double) : (s.setF r v).scIndex = s.scIndex := rfl

/-! ## `wrD` -/

@[simp] theorem State.wrD_cfg (s : State) (r : Reg) (v : Double) : (s.wrD r v).cfg = s.cfg := rfl
@[simp] theorem State.wrD_x (s : State) (r : Reg) (v : Double) : (s.wrD r v).x = s.x := rfl
@[simp] theorem State.wrD_pc (s : State) (r : Reg) (v : Double) : (s.wrD r v).pc = s.pc := rfl
@[simp] theorem State.wrD_fcsr (s : State) (r : Reg) (v : Double) : (s.wrD r v).fcsr = s.fcsr := rfl
@[simp] theorem State.wrD_reservation (s : State) (r : Reg) (v : Double) : (s.wrD r v).reservation = s.reservation := rfl
@[simp] theorem State.wrD_mem (s : State) (r : Reg) (v : Double) : (s.wrD r v).mem = s.mem := rfl
@[simp] theorem State.wrD_dirty (s : State) (r : Reg) (v : Double) : (s.wrD r v).dirty = s.dirty := rfl
@[simp] theorem State.wrD_trap (s : State) (r : Reg) (v : Double) : (s.wrD r v).trap = s.trap := rfl
@[simp] theorem State.wrD_scIndex (s : State) (r : Reg) (v : Double) : (s.wrD r v).scIndex = s.scIndex := rfl

/-! ## `wrS` -/

@[simp] theorem State.wrS_cfg (s : State) (r : Reg) (v : Single) : (s.wrS r v).cfg = s.cfg := by unfold State.wrS; split <;> rfl
@[simp] theorem State.wrS_x (s : State) (r : Reg) (v : Single) : (s.wrS r v).x = s.x := by unfold State.wrS; split <;> rfl
@[simp] theorem State.wrS_pc (s : State) (r : Reg) (v : Single) : (s.wrS r v).pc = s.pc := by unfold State.wrS; split <;> rfl
@[simp] theorem State.wrS_fcsr (s : State) (r : Reg) (v : Single) : (s.wrS r v).fcsr = s.fcsr := by unfold State.wrS; split <;> rfl
@[simp] theorem State.wrS_reservation (s : State) (r : Reg) (v : Single) : (s.wrS r v).reservation = s.reservation := by unfold State.wrS; split <;> rfl
@[simp] theorem State.wrS_mem (s : State) (r : Reg) (v : Single) : (s.wrS r v).mem = s.mem := by unfold State.wrS; split <;> rfl
@[simp] theorem State.wrS_dirty (s : State) (r : Reg) (v : Single) : (s.wrS r v).dirty = s.dirty := by unfold State.wrS; split <;> rfl
@[simp] theorem State.wrS_trap (s : State) (r : Reg) (v : Single) : (s.wrS r v).trap = s.trap := by unfold State.wrS; split <;> rfl
@[simp] theorem State.wrS_scIndex (s : State) (r : Reg) (v : Single) : (s.wrS r v).scIndex = s.scIndex := by unfold State.wrS; split <;> rfl

/-! ## `accrue` -/

@[simp] theorem State.accrue_cfg (s : State) (fl : FpFlags) : (s.accrue fl).cfg = s.cfg := rfl
@[simp] theorem State.accrue_x (s : State) (fl : FpFlags) : (s.accrue fl).x = s.x := rfl
@[simp] theorem State.accrue_pc (s : State) (fl : FpFlags) : (s.accrue fl).pc = s.pc := rfl
@[simp] theorem State.accrue_f (s : State) (fl : FpFlags) : (s.accrue fl).f = s.f := rfl
@[simp] theorem State.accrue_reservation (s : State) (fl : FpFlags) : (s.accrue fl).reservation = s.reservation := rfl
@[simp] theorem State.accrue_mem (s : State) (fl : FpFlags) : (s.accrue fl).mem = s.mem := rfl
@[simp] theorem State.accrue_dirty (s : State) (fl : FpFlags) : (s.accrue fl).dirty = s.dirty := rfl
@[simp] theorem State.accrue_trap (s : State) (fl : FpFlags) : (s.accrue fl).trap = s.trap := rfl
@[simp] theorem State.accrue_scIndex (s : State) (fl : FpFlags) : (s.accrue fl).scIndex = s.scIndex := rfl

/-! ## `store` -/

@[simp] theorem State.store_cfg (s : State) (a : Word) (n : Nat) (v : BitVec (8 * n)) : (s.store a n v).cfg = s.cfg := rfl
@[simp] theorem State.store_x (s : State) (a : Word) (n : Nat) (v : BitVec (8 * n)) : (s.store a n v).x = s.x := rfl
@[simp] theorem State.store_pc (s : State) (a : Word) (n : Nat) (v : BitVec (8 * n)) : (s.store a n v).pc = s.pc := rfl
@[simp] theorem State.store_f (s : State) (a : Word) (n : Nat) (v : BitVec (8 * n)) : (s.store a n v).f = s.f := rfl
@[simp] theorem State.store_fcsr (s : State) (a : Word) (n : Nat) (v : BitVec (8 * n)) : (s.store a n v).fcsr = s.fcsr := rfl
@[simp] theorem State.store_reservation (s : State) (a : Word) (n : Nat) (v : BitVec (8 * n)) : (s.store a n v).reservation = s.reservation := rfl
@[simp] theorem State.store_trap (s : State) (a : Word) (n : Nat) (v : BitVec (8 * n)) : (s.store a n v).trap = s.trap := rfl
@[simp] theorem State.store_scIndex (s : State) (a : Word) (n : Nat) (v : BitVec (8 * n)) : (s.store a n v).scIndex = s.scIndex := rfl

@[simp] theorem State.store_mem (s : State) (a : Word) (n : Nat) (v : BitVec (8 * n)) :
    (s.store a n v).mem = storeBytes s.mem a.toNat n v.toNat := rfl
@[simp] theorem State.store_dirty (s : State) (a : Word) (n : Nat) (v : BitVec (8 * n)) :
    (s.store a n v).dirty = markDirty s.dirty a.toNat n := rfl

/-! ## `writeCsr` -/

@[simp] theorem State.writeCsr_cfg (s : State) (c : Csr) (v : Word) : (s.writeCsr c v).cfg = s.cfg := by cases c <;> rfl
@[simp] theorem State.writeCsr_x (s : State) (c : Csr) (v : Word) : (s.writeCsr c v).x = s.x := by cases c <;> rfl
@[simp] theorem State.writeCsr_pc (s : State) (c : Csr) (v : Word) : (s.writeCsr c v).pc = s.pc := by cases c <;> rfl
@[simp] theorem State.writeCsr_f (s : State) (c : Csr) (v : Word) : (s.writeCsr c v).f = s.f := by cases c <;> rfl
@[simp] theorem State.writeCsr_reservation (s : State) (c : Csr) (v : Word) : (s.writeCsr c v).reservation = s.reservation := by cases c <;> rfl
@[simp] theorem State.writeCsr_mem (s : State) (c : Csr) (v : Word) : (s.writeCsr c v).mem = s.mem := by cases c <;> rfl
@[simp] theorem State.writeCsr_dirty (s : State) (c : Csr) (v : Word) : (s.writeCsr c v).dirty = s.dirty := by cases c <;> rfl
@[simp] theorem State.writeCsr_trap (s : State) (c : Csr) (v : Word) : (s.writeCsr c v).trap = s.trap := by cases c <;> rfl
@[simp] theorem State.writeCsr_scIndex (s : State) (c : Csr) (v : Word) : (s.writeCsr c v).scIndex = s.scIndex := by cases c <;> rfl

/-! ## Views of the state under updates -/

@[simp] theorem State.advance_getX (s : State) (r : Reg) : s.advance.getX r = s.getX r := rfl
@[simp] theorem State.advance_getF (s : State) (r : Reg) : s.advance.getF r = s.getF r := rfl
@[simp] theorem State.advance_fflags (s : State) : s.advance.fflags = s.fflags := rfl
@[simp] theorem State.advance_frm (s : State) : s.advance.frm = s.frm := rfl
@[simp] theorem State.advance_byteAt (s : State) (a : Nat) : s.advance.byteAt a = s.byteAt a := rfl
@[simp] theorem State.setF_getX (s : State) (q r : Reg) (v : Double) : (s.setF q v).getX r = s.getX r := rfl
@[simp] theorem State.accrue_getX (s : State) (fl : FpFlags) (r : Reg) : (s.accrue fl).getX r = s.getX r := rfl
@[simp] theorem State.accrue_getF (s : State) (fl : FpFlags) (r : Reg) : (s.accrue fl).getF r = s.getF r := rfl
@[simp] theorem State.accrue_byteAt (s : State) (fl : FpFlags) (a : Nat) :
    (s.accrue fl).byteAt a = s.byteAt a := rfl
@[simp] theorem State.store_getX (s : State) (a : Word) (n : Nat) (v : BitVec (8 * n)) (r : Reg) :
    (s.store a n v).getX r = s.getX r := rfl
@[simp] theorem State.store_getF (s : State) (a : Word) (n : Nat) (v : BitVec (8 * n)) (r : Reg) :
    (s.store a n v).getF r = s.getF r := rfl
@[simp] theorem State.writeCsr_getX (s : State) (c : Csr) (v : Word) (r : Reg) :
    (s.writeCsr c v).getX r = s.getX r := by cases c <;> rfl
@[simp] theorem State.writeCsr_getF (s : State) (c : Csr) (v : Word) (r : Reg) :
    (s.writeCsr c v).getF r = s.getF r := by cases c <;> rfl
@[simp] theorem State.writeCsr_byteAt (s : State) (c : Csr) (v : Word) (a : Nat) :
    (s.writeCsr c v).byteAt a = s.byteAt a := by cases c <;> rfl
@[simp] theorem State.setX_getF (s : State) (q r : Reg) (v : Word) : (s.setX q v).getF r = s.getF r := by
  simp [State.getF]
@[simp] theorem State.setX_fflags (s : State) (q : Reg) (v : Word) : (s.setX q v).fflags = s.fflags := by
  simp [State.fflags]
@[simp] theorem State.setX_frm (s : State) (q : Reg) (v : Word) : (s.setX q v).frm = s.frm := by
  simp [State.frm]
@[simp] theorem State.setX_byteAt (s : State) (q : Reg) (v : Word) (a : Nat) :
    (s.setX q v).byteAt a = s.byteAt a := by simp [State.byteAt]
@[simp] theorem State.wrS_getX (s : State) (q r : Reg) (v : Single) : (s.wrS q v).getX r = s.getX r := by
  simp [State.getX]
@[simp] theorem State.wrD_getX (s : State) (q r : Reg) (v : Double) : (s.wrD q v).getX r = s.getX r := rfl
@[simp] theorem State.wrS_fflags (s : State) (q : Reg) (v : Single) : (s.wrS q v).fflags = s.fflags := by
  simp [State.fflags]
@[simp] theorem State.wrD_fflags (s : State) (q : Reg) (v : Double) : (s.wrD q v).fflags = s.fflags := rfl
@[simp] theorem State.wrS_frm (s : State) (q : Reg) (v : Single) : (s.wrS q v).frm = s.frm := by
  simp [State.frm]
@[simp] theorem State.wrD_frm (s : State) (q : Reg) (v : Double) : (s.wrD q v).frm = s.frm := rfl
@[simp] theorem State.wrS_byteAt (s : State) (q : Reg) (v : Single) (a : Nat) :
    (s.wrS q v).byteAt a = s.byteAt a := by simp [State.byteAt]
@[simp] theorem State.wrD_byteAt (s : State) (q : Reg) (v : Double) (a : Nat) :
    (s.wrD q v).byteAt a = s.byteAt a := rfl

/-! ## Reading a register after writing one -/

@[simp] theorem State.getX_zero (s : State) : s.getX 0#5 = 0#32 := by simp [State.getX]

theorem State.getX_setX_same (s : State) (r : Reg) (v : Word) (h : r ≠ 0#5) : (s.setX r v).getX r = v := by
  simp [State.getX, State.setX, h]

theorem reg_toNat_ne {q r : Reg} (h : r ≠ q) : q.toNat ≠ r.toNat := fun e => h (BitVec.eq_of_toNat_eq e.symm)

theorem State.getX_setX_other (s : State) (q r : Reg) (v : Word) (h : r ≠ q) :
    (s.setX q v).getX r = s.getX r := by
  unfold State.setX
  split
  · rfl
  · simp [State.getX, Vector.getElem_set_ne, reg_toNat_ne h]

@[simp] theorem State.getF_setF_same (s : State) (r : Reg) (v : Double) : (s.setF r v).getF r = v := by
  simp [State.getF, State.setF]

theorem State.getF_setF_other (s : State) (q r : Reg) (v : Double) (h : r ≠ q) :
    (s.setF q v).getF r = s.getF r := by
  simp [State.getF, State.setF, Vector.getElem_set_ne, reg_toNat_ne h]

/-! ## The control register after flags are added -/

@[simp] theorem State.accrue_fflags (s : State) (fl : FpFlags) : (s.accrue fl).fflags = s.fflags ||| fl :=
  BitVec.extractLsb'_append_eq_right

@[simp] theorem State.accrue_frm (s : State) (fl : FpFlags) : (s.accrue fl).frm = s.frm :=
  BitVec.extractLsb'_append_eq_left

/-- The control register is its two fields. -/
theorem State.fcsr_eq_append (s : State) : s.frm ++ s.fflags = s.fcsr := by
  unfold State.frm State.fflags
  rw [BitVec.extractLsb'_append_extractLsb'_eq_extractLsb' (by rfl)]
  simp

end Sys2Proof.Machine
end

