-- ==== Sys2Proof/Laws/Memory.lean ====
section
/-! SUPPORT. Memory: its canonical form, which every operation keeps; a read after a write; the bytes of a wider
access; the set `dirty`. -/

namespace Sys2Proof.Machine

/-! ## The canonical form -/

/-- Addresses strictly rising. -/
def Memory.Rising (m : Memory) : Prop := m.Pairwise (fun c d => c.1 < d.1)

theorem Memory.wf_iff (m : Memory) :
    Memory.wf m = true ↔ Memory.Rising m ∧ ∀ c ∈ m, memValid c.1 = true ∧ c.2 ≠ Config.unwrittenByte := by
  simp [Memory.wf, Memory.Rising, List.all_eq_true]

theorem Memory.wf_nil : Memory.wf [] = true := by decide

theorem Memory.wf_reset : Memory.wf State.reset.mem = true := Memory.wf_nil

/-- The entries of memory after a write are old entries or the new one. -/
theorem Memory.mem_write {m : Memory} {a : Nat} {b : Byte} {c : Host.Cell} (h : c ∈ Memory.write m a b) :
    c ∈ m ∨ (c = (a, b) ∧ b ≠ Config.unwrittenByte) := by
  induction m with
  | nil =>
    simp only [Memory.write] at h
    split at h
    · simp at h
    · exact .inr ⟨by simpa using h, ‹_›⟩
  | cons d m ih =>
    obtain ⟨k, e⟩ := d
    simp only [Memory.write] at h
    split at h
    · rcases List.mem_cons.1 h with rfl | h
      · exact .inl (by simp)
      · exact (ih h).imp (fun h => List.mem_cons_of_mem _ h) id
    · split at h
      · split at h
        · exact .inl (List.mem_cons_of_mem _ h)
        · rcases List.mem_cons.1 h with rfl | h
          · exact .inr ⟨rfl, ‹_›⟩
          · exact .inl (List.mem_cons_of_mem _ h)
      · split at h
        · exact .inl h
        · rcases List.mem_cons.1 h with rfl | h
          · exact .inr ⟨rfl, ‹_›⟩
          · exact .inl h

theorem Memory.rising_write {m : Memory} (a : Nat) (b : Byte) (h : Memory.Rising m) :
    Memory.Rising (Memory.write m a b) := by
  induction m with
  | nil =>
    simp only [Memory.write]
    split <;> simp [Memory.Rising]
  | cons d m ih =>
    obtain ⟨k, e⟩ := d
    obtain ⟨hk, hm⟩ := List.pairwise_cons.1 h
    simp only [Memory.write]
    split
    · refine List.pairwise_cons.2 ⟨fun c hc => ?_, ih hm⟩
      rcases Memory.mem_write hc with hc | ⟨rfl, -⟩
      · exact hk c hc
      · assumption
    · split
      · subst k
        split
        · exact hm
        · exact List.pairwise_cons.2 ⟨hk, hm⟩
      · split
        · exact h
        · refine List.pairwise_cons.2 ⟨fun c hc => ?_, h⟩
          rcases List.mem_cons.1 hc with rfl | hc
          · show a < k
            omega
          · have := hk c hc
            show a < c.1
            simp only at this
            omega

theorem Memory.wf_write {m : Memory} {a : Nat} (b : Byte) (h : Memory.wf m = true) (ha : memValid a = true) :
    Memory.wf (Memory.write m a b) = true := by
  rw [Memory.wf_iff] at h ⊢
  refine ⟨Memory.rising_write a b h.1, fun c hc => ?_⟩
  rcases Memory.mem_write hc with hc | ⟨rfl, hb⟩
  · exact h.2 c hc
  · exact ⟨ha, hb⟩

theorem Memory.wf_storeBytes {m : Memory} {a : Nat} (n v : Nat) (h : Memory.wf m = true)
    (ha : ∀ k, k < n → memValid (a + k) = true) : Memory.wf (storeBytes m a n v) = true := by
  induction n generalizing m a v with
  | zero => exact h
  | succ n ih =>
    refine ih _ (Memory.wf_write _ h (ha 0 (by omega))) fun k hk => ?_
    have := ha (k + 1) (by omega)
    rwa [show a + (k + 1) = a + 1 + k by omega] at this

/-! ## Reading after writing -/

theorem Memory.read_of_not_listed {m : Memory} {a : Nat} (h : ∀ c ∈ m, a < c.1) :
    Memory.read m a = Config.unwrittenByte := by
  induction m with
  | nil => rfl
  | cons d m ih =>
    obtain ⟨k, e⟩ := d
    have : a < k := h (k, e) (by simp)
    rw [Memory.read, if_neg (by omega)]
    exact ih fun c hc => h c (List.mem_cons_of_mem _ hc)

/-- The memory law: the written byte reads as written, every other byte as before. -/
theorem Memory.read_write {m : Memory} (a : Nat) (b : Byte) (c : Nat) (h : Memory.Rising m) :
    Memory.read (Memory.write m a b) c = if c = a then b else Memory.read m c := by
  induction m with
  | nil =>
    simp only [Memory.write]
    split
    · subst b
      simp [Memory.read]
    · simp only [Memory.read]
      split <;> split <;> simp_all
  | cons d m ih =>
    obtain ⟨k, e⟩ := d
    obtain ⟨hk, hm⟩ := List.pairwise_cons.1 h
    have hnot : ∀ j, j ≤ k → Memory.read m j = Config.unwrittenByte := fun j hj =>
      Memory.read_of_not_listed fun c hc => by have := hk c hc; simp only at this; omega
    simp only [Memory.write]
    split
    · simp only [Memory.read, ih hm]
      split
      · rw [if_neg (by omega)]
      · rfl
    · split
      · subst k
        split
        · subst b
          simp only [Memory.read]
          split
          · subst c
            exact hnot a (Nat.le_refl a)
          · rw [if_neg (by omega)]
        · simp only [Memory.read]
          split <;> split <;> first | rfl | omega
      · split
        · subst b
          split
          · subst c
            rw [Memory.read, if_neg (by omega), hnot a (by omega)]
          · rfl
        · rw [Memory.read]
          split <;> split <;> first | rfl | omega

theorem Memory.rising_storeBytes {m : Memory} (a n v : Nat) (h : Memory.Rising m) :
    Memory.Rising (storeBytes m a n v) := by
  induction n generalizing m a v with
  | zero => exact h
  | succ n ih => exact ih _ _ (Memory.rising_write _ _ h)

/-- A byte outside the stored ones reads as before. -/
theorem Memory.read_storeBytes_outside {m : Memory} (a n v b : Nat) (h : Memory.Rising m)
    (hb : b < a ∨ a + n ≤ b) : Memory.read (storeBytes m a n v) b = Memory.read m b := by
  induction n generalizing m a v with
  | zero => rfl
  | succ n ih =>
    rw [storeBytes, ih _ _ (Memory.rising_write _ _ h) (by omega), Memory.read_write _ _ _ h, if_neg (by omega)]

/-- A stored byte reads as its part of the value. -/
theorem Memory.read_storeBytes_inside {m : Memory} (a n v k : Nat) (h : Memory.Rising m) (hk : k < n) :
    Memory.read (storeBytes m a n v) (a + k) = BitVec.ofNat 8 (v / 256 ^ k) := by
  induction n generalizing m a v k with
  | zero => omega
  | succ n ih =>
    rw [storeBytes]
    cases k with
    | zero =>
      rw [Memory.read_storeBytes_outside _ _ _ _ (Memory.rising_write _ _ h) (by omega),
        Memory.read_write _ _ _ h]
      simp
    | succ k =>
      rw [show a + (k + 1) = a + 1 + k by omega, ih _ _ _ (Memory.rising_write _ _ h) (by omega),
        Nat.pow_succ, Nat.mul_comm, Nat.div_div_eq_div_mul]

/-! ## Two memories that read alike are equal -/

theorem Memory.ext {m n : Memory} (hm : Memory.wf m = true) (hn : Memory.wf n = true)
    (h : ∀ a, Memory.read m a = Memory.read n a) : m = n := by
  rw [Memory.wf_iff] at hm hn
  induction m generalizing n with
  | nil =>
    cases n with
    | nil => rfl
    | cons d n =>
      have := h d.1
      simp only [Memory.read, if_pos] at this
      exact absurd this.symm (hn.2 d (by simp)).2
  | cons c m ih =>
    obtain ⟨k, e⟩ := c
    obtain ⟨hk, hmm⟩ := List.pairwise_cons.1 hm.1
    have below : ∀ j, j ≤ k → Memory.read m j = Config.unwrittenByte := fun j hj =>
      Memory.read_of_not_listed fun c hc => by have := hk c hc; simp only at this; omega
    cases n with
    | nil =>
      have := h k
      simp only [Memory.read, if_pos] at this
      exact absurd this (hm.2 (k, e) (by simp)).2
    | cons d n =>
      obtain ⟨l, f⟩ := d
      obtain ⟨hl, hnn⟩ := List.pairwise_cons.1 hn.1
      have below' : ∀ j, j ≤ l → Memory.read n j = Config.unwrittenByte := fun j hj =>
        Memory.read_of_not_listed fun c hc => by have := hl c hc; simp only at this; omega
      have he : e ≠ Config.unwrittenByte := (hm.2 (k, e) (by simp)).2
      have hf : f ≠ Config.unwrittenByte := (hn.2 (l, f) (by simp)).2
      have hkl : k = l := by
        rcases Nat.lt_trichotomy k l with hlt | heq | hgt
        · have := h k
          simp only [Memory.read, if_pos] at this
          rw [if_neg (by omega), below' k (by omega)] at this
          exact absurd this he
        · exact heq
        · have := h l
          simp only [Memory.read, if_pos] at this
          rw [if_neg (by omega), below l (by omega)] at this
          exact absurd this.symm hf
      subst l
      have hef : e = f := by simpa [Memory.read] using h k
      subst f
      rw [ih (n := n) ⟨hmm, fun c hc => hm.2 c (List.mem_cons_of_mem _ hc)⟩
        ⟨hnn, fun c hc => hn.2 c (List.mem_cons_of_mem _ hc)⟩ ?_]
      intro a
      by_cases ha : k = a
      · subst a
        rw [below k (Nat.le_refl k), below' k (Nat.le_refl k)]
      · simpa [Memory.read, ha] using h a

/-! ## Wider reads -/

theorem loadBytes_lt (m : Memory) (a n : Nat) : loadBytes m a n < 256 ^ n := by
  induction n generalizing a with
  | zero => simp [loadBytes]
  | succ n ih =>
    have h1 := ih (a + 1)
    have h2 : (Memory.read m a).toNat < 256 := (Memory.read m a).isLt
    simp only [loadBytes, Nat.pow_succ]
    omega

theorem loadBytes_congr {m m' : Memory} (a n : Nat)
    (h : ∀ k, k < n → Memory.read m' (a + k) = Memory.read m (a + k)) : loadBytes m' a n = loadBytes m a n := by
  induction n generalizing a with
  | zero => rfl
  | succ n ih =>
    rw [loadBytes, loadBytes, show Memory.read m' a = Memory.read m a from h 0 (by omega), ih]
    intro k hk
    have := h (k + 1) (by omega)
    rwa [show a + (k + 1) = a + 1 + k by omega] at this

/-- What was stored is what is loaded. -/
theorem loadBytes_storeBytes {m : Memory} (a n v : Nat) (h : Memory.Rising m) :
    loadBytes (storeBytes m a n v) a n = v % 256 ^ n := by
  induction n generalizing m a v with
  | zero => simp [loadBytes, Nat.mod_one]
  | succ n ih =>
    have h0 := Memory.read_storeBytes_inside a (n + 1) v 0 h (by omega)
    simp only [Nat.add_zero, Nat.pow_zero, Nat.div_one] at h0
    rw [loadBytes, h0, storeBytes, ih _ _ (Memory.rising_write _ _ h), BitVec.toNat_ofNat,
      show 256 ^ (n + 1) = 256 * 256 ^ n from Nat.pow_succ', Nat.mod_mul]

/-- What is loaded from within stored bytes is that part of the value (spec/20_memory.md R56). -/
theorem loadBytes_storeBytes_within {mem : Memory} (a n v k m : Nat) (h : Memory.Rising mem) (hk : k + m ≤ n) :
    loadBytes (storeBytes mem a n v) (a + k) m = v / 256 ^ k % 256 ^ m := by
  induction m generalizing k with
  | zero => simp [loadBytes, Nat.mod_one]
  | succ m ih =>
    rw [loadBytes, Memory.read_storeBytes_inside a n v k h (by omega), show a + k + 1 = a + (k + 1) by omega,
      ih (k + 1) (by omega), BitVec.toNat_ofNat, pow_succ' 256 m, pow_succ 256 k, ← Nat.div_div_eq_div_mul]
    exact (Nat.mod_mul (x := v / 256 ^ k) (a := 256) (b := 256 ^ m)).symm

/-- A byte of what is loaded is the byte at its address. -/
theorem loadBytes_byte (mem : Memory) (a n j : Nat) (hj : j < n) :
    loadBytes mem a n / 256 ^ j % 256 = (Memory.read mem (a + j)).toNat := by
  induction n generalizing a j with
  | zero => omega
  | succ n ih =>
    have hlt := (Memory.read mem a).isLt
    rw [loadBytes]
    cases j with
    | zero => rw [pow_zero, Nat.div_one, Nat.add_mul_mod_self_left, Nat.mod_eq_of_lt hlt, Nat.add_zero]
    | succ j =>
      rw [pow_succ', ← Nat.div_div_eq_div_mul, Nat.add_mul_div_left _ _ (by norm_num), Nat.div_eq_of_lt hlt,
        Nat.zero_add, ih _ _ (by omega), show a + 1 + j = a + (j + 1) by omega]

/-- A byte of a value, as a number. -/
theorem extractLsb'_byte {w : Nat} (v : BitVec w) (j : Nat) :
    v.extractLsb' (8 * j) 8 = BitVec.ofNat 8 (v.toNat / 256 ^ j) := by
  rw [BitVec.extractLsb', Nat.shiftRight_eq_div_pow, pow_mul]
  norm_num

/-- A byte of a loaded value is the byte at its address. -/
theorem extractLsb'_loadBytes (mem : Memory) (a n j : Nat) (hj : j < n) :
    (BitVec.ofNat (8 * n) (loadBytes mem a n)).extractLsb' (8 * j) 8 = Memory.read mem (a + j) := by
  apply BitVec.eq_of_toNat_eq
  have h : loadBytes mem a n < 2 ^ (8 * n) := by
    rw [pow_mul]
    exact loadBytes_lt mem a n
  rw [extractLsb'_byte, BitVec.toNat_ofNat, BitVec.toNat_ofNat, Nat.mod_eq_of_lt h]
  exact loadBytes_byte mem a n j hj

/-- One byte below others, as a number. -/
theorem toNat_append_byte {w : Nat} (v : BitVec w) (b : Byte) : (v ++ b).toNat = v.toNat * 256 + b.toNat := by
  rw [BitVec.toNat_append, ← Nat.shiftLeft_add_eq_or_of_lt b.isLt, Nat.shiftLeft_eq]

/-- The byte a load of a byte reads. -/
theorem ofNat_loadBytes_one (m : Memory) (a : Nat) : BitVec.ofNat 8 (loadBytes m a 1) = Memory.read m a := by
  simp [loadBytes]

/-- The two bytes a load of a halfword reads, as a halfword. -/
theorem ofNat_loadBytes_two (m : Memory) (a : Nat) :
    BitVec.ofNat 16 (loadBytes m a 2) = Memory.read m (a + 1) ++ Memory.read m a := by
  apply BitVec.eq_of_toNat_eq
  have h0 := (Memory.read m a).isLt
  have h1 := (Memory.read m (a + 1)).isLt
  simp only [loadBytes, BitVec.toNat_ofNat, toNat_append_byte]
  omega

/-- The four bytes a load of a word reads, as a word. -/
theorem ofNat_loadBytes_four (m : Memory) (a : Nat) :
    BitVec.ofNat 32 (loadBytes m a 4) =
      Memory.read m (a + 3) ++ Memory.read m (a + 2) ++ Memory.read m (a + 1) ++ Memory.read m a := by
  apply BitVec.eq_of_toNat_eq
  have h0 := (Memory.read m a).isLt
  have h1 := (Memory.read m (a + 1)).isLt
  have h2 := (Memory.read m (a + 2)).isLt
  have h3 := (Memory.read m (a + 3)).isLt
  simp only [loadBytes, BitVec.toNat_ofNat, toNat_append_byte, Nat.add_assoc, Nat.reduceAdd]
  omega

/-- A load of eight bytes is two loads of four. -/
theorem ofNat_loadBytes_eight (m : Memory) (a : Nat) :
    BitVec.ofNat 64 (loadBytes m a 8) =
      BitVec.ofNat 32 (loadBytes m (a + 4) 4) ++ BitVec.ofNat 32 (loadBytes m a 4) := by
  apply BitVec.eq_of_toNat_eq
  have h0 := loadBytes_lt m a 4
  have h1 := loadBytes_lt m (a + 4) 4
  have h2 : loadBytes m a 8 = loadBytes m a 4 + 2 ^ 32 * loadBytes m (a + 4) 4 := by
    simp only [loadBytes, Nat.add_assoc, Nat.reduceAdd]
    omega
  rw [BitVec.toNat_append, ← Nat.shiftLeft_add_eq_or_of_lt (BitVec.isLt _), Nat.shiftLeft_eq]
  simp only [BitVec.toNat_ofNat]
  omega

/-! ## The addresses an access touches -/

theorem memValid_iff (a : Nat) : memValid a = true ↔ Config.memLow ≤ a ∧ a < Config.memTop := by
  simp [memValid]

theorem aligned_iff (a : Word) (n : Nat) : aligned a n = true ↔ a.toNat % n = 0 := by simp [aligned]

/-- An aligned access of 1, 2, 4 or 8 bytes does not pass the top of the address space. -/
theorem aligned_no_wrap {a : Word} {n : Nat} (hn : n ∣ 2 ^ 32) (h : aligned a n = true) :
    a.toNat + n ≤ 2 ^ 32 := by
  rw [aligned_iff] at h
  obtain ⟨q, hq⟩ := hn
  obtain ⟨p, hp⟩ := Nat.dvd_of_mod_eq_zero h
  have hlt := a.isLt
  rw [hp, hq] at hlt
  rw [hp, hq]
  have : p < q := Nat.lt_of_mul_lt_mul_left hlt
  calc n * p + n = n * (p + 1) := by ring
    _ ≤ n * q := Nat.mul_le_mul_left n this

theorem bytesValid_iff (a : Word) (n : Nat) :
    bytesValid a n = true ↔ ∀ k, k < n → memValid ((a.toNat + k) % Config.memTop) = true := by
  simp [bytesValid, List.all_eq_true]

/-- The bytes of an aligned access exist exactly when its lowest byte does. -/
theorem bytesValid_aligned_iff {a : Word} {n : Nat} (hpos : 0 < n) (hn : n ∣ 2 ^ 32) (h : aligned a n = true) :
    bytesValid a n = true ↔ Config.memLow ≤ a.toNat := by
  have hw := aligned_no_wrap hn h
  rw [bytesValid_iff]
  constructor
  · intro hv
    have := (memValid_iff _).1 (hv 0 hpos)
    rw [Nat.add_zero, Nat.mod_eq_of_lt (show a.toNat < Config.memTop from a.isLt)] at this
    exact this.1
  · intro ha k hk
    have hlt : a.toNat + k < Config.memTop := by unfold Config.memTop; omega
    rw [Nat.mod_eq_of_lt hlt, memValid_iff]
    omega

/-- The bytes of an aligned access that exist, without the reduction modulo 2^32. -/
theorem memValid_of_bytesValid {a : Word} {n : Nat} (hn : n ∣ 2 ^ 32) (h : aligned a n = true)
    (hv : bytesValid a n = true) (k : Nat) (hk : k < n) : memValid (a.toNat + k) = true := by
  have hw := aligned_no_wrap hn h
  have := (bytesValid_iff a n).1 hv k hk
  rwa [Nat.mod_eq_of_lt (by unfold Config.memTop; omega)] at this

/-! ## `dirty` -/

theorem mem_addAddress (d : List Nat) (a b : Nat) : b ∈ addAddress d a ↔ b = a ∨ b ∈ d := by
  induction d with
  | nil => simp [addAddress]
  | cons k d ih =>
    simp only [addAddress]
    split
    · simp only [List.mem_cons, ih]
      tauto
    · split
      · subst k
        simp
      · simp

theorem rising_addAddress {d : List Nat} (a : Nat) (h : d.Pairwise (· < ·)) :
    (addAddress d a).Pairwise (· < ·) := by
  induction d with
  | nil => simp [addAddress]
  | cons k d ih =>
    obtain ⟨hk, hd⟩ := List.pairwise_cons.1 h
    simp only [addAddress]
    split
    · refine List.pairwise_cons.2 ⟨fun b hb => ?_, ih hd⟩
      rcases (mem_addAddress d a b).1 hb with rfl | hb
      · assumption
      · exact hk b hb
    · split
      · exact h
      · refine List.pairwise_cons.2 ⟨fun b hb => ?_, h⟩
        rcases List.mem_cons.1 hb with rfl | hb
        · omega
        · have := hk b hb
          omega

theorem mem_markDirty (d : List Nat) (a n b : Nat) :
    b ∈ markDirty d a n ↔ b ∈ d ∨ (a ≤ b ∧ b < a + n) := by
  induction n generalizing d a with
  | zero =>
    simp only [markDirty]
    constructor
    · exact .inl
    · rintro (h | h)
      · exact h
      · omega
  | succ n ih =>
    rw [markDirty, ih, mem_addAddress]
    constructor
    · rintro ((rfl | h) | h)
      · exact .inr (by omega)
      · exact .inl h
      · exact .inr (by omega)
    · rintro (h | h)
      · exact .inl (.inr h)
      · by_cases hb : b = a
        · exact .inl (.inl hb)
        · exact .inr (by omega)

theorem rising_markDirty {d : List Nat} (a n : Nat) (h : d.Pairwise (· < ·)) :
    (markDirty d a n).Pairwise (· < ·) := by
  induction n generalizing d a with
  | zero => exact h
  | succ n ih => exact ih _ (rising_addAddress a h)

/-! ## `withFetchWord` -/

theorem Memory.wf_withFetchWord (s : State) (nbits w : Nat) (h : Memory.wf s.mem = true) :
    Memory.wf (s.withFetchWord nbits w).mem = true := by
  refine Memory.wf_storeBytes _ _ h fun k hk => ?_
  split
  · rename_i hf
    simp only [fetchable, Bool.and_eq_true] at hf
    exact memValid_of_bytesValid (by norm_num) hf.1 hf.2 k hk
  · rw [memValid_iff]
    simp [Config.pcReset, Config.memLow, Config.memTop]
    omega

end Sys2Proof.Machine
end

