-- ==== Sys2Proof/Laws/Ops.lean ====
section
/-! SUPPORT. For each shared operation, once, everything it can do. -/

namespace Sys2Proof.Machine

/-! ## Accesses -/

/-- An access of a size the hart has, aligned and inside `MEM_VALID`, raises nothing. -/
theorem accessCause_eq_none {k : Access} {a : Word} {n : Nat} (hpos : 0 < n) (hn : n ∣ 2 ^ 32)
    (ha : a.toNat % n = 0) (hm : Config.memLow ≤ a.toNat) : accessCause k a n = none := by
  have hal := (aligned_iff a n).2 ha
  rw [accessCause, if_pos hal, if_pos ((bytesValid_aligned_iff hpos hn hal).2 hm)]

/-- A misaligned access raises the misaligned exception of its class, whatever the address. -/
theorem accessCause_misaligned {k : Access} {a : Word} {n : Nat} (ha : a.toNat % n ≠ 0) :
    accessCause k a n = some (misalignedCause k) := by
  rw [accessCause, if_neg]
  rw [aligned_iff]
  exact ha

/-- An aligned access of which a byte does not exist raises the access fault of its class. -/
theorem accessCause_fault {k : Access} {a : Word} {n : Nat} (ha : a.toNat % n = 0) (hv : bytesValid a n = false) :
    accessCause k a n = some (accessFaultCause k) := by
  rw [accessCause, if_pos ((aligned_iff a n).2 ha), hv]
  rfl

/-- What an access that raises nothing says of its address. -/
theorem accessCause_none_inv {k : Access} {a : Word} {n : Nat} (h : accessCause k a n = none) :
    aligned a n = true ∧ bytesValid a n = true := by
  unfold accessCause at h
  split at h
  · split at h
    · exact ⟨‹_›, ‹_›⟩
    · cases h
  · cases h

/-- The exceptions an access can raise. -/
theorem accessCause_some_inv {k : Access} {a : Word} {n : Nat} {c : Cause} (h : accessCause k a n = some c) :
    (aligned a n = false ∧ c = misalignedCause k) ∨
      (aligned a n = true ∧ bytesValid a n = false ∧ c = accessFaultCause k) := by
  unfold accessCause at h
  split at h
  · split at h
    · cases h
    · exact .inr ⟨‹_›, by simp_all, (Option.some.inj h).symm⟩
  · exact .inl ⟨by simp_all, (Option.some.inj h).symm⟩

/-- What a read delivers when it raises nothing. -/
theorem State.memRead_eq_ok {s : State} {k : Access} {a : Word} {n : Nat} (h : accessCause k a n = none) :
    s.memRead k a n = .ok (BitVec.ofNat (8 * n) (loadBytes s.mem a.toNat n)) := by
  rw [State.memRead, h]

/-- A read that raises. -/
theorem State.memRead_eq_error {s : State} {k : Access} {a : Word} {n : Nat} {c : Cause}
    (h : accessCause k a n = some c) : s.memRead k a n = .error c := by
  rw [State.memRead, h]

/-- Everything a read can do. -/
theorem State.memRead_cases (s : State) (k : Access) (a : Word) (n : Nat) :
    (∃ c, accessCause k a n = some c ∧ s.memRead k a n = .error c) ∨
      (accessCause k a n = none ∧
        s.memRead k a n = .ok (BitVec.ofNat (8 * n) (loadBytes s.mem a.toNat n))) := by
  cases h : accessCause k a n with
  | none => exact .inr ⟨rfl, State.memRead_eq_ok h⟩
  | some c => exact .inl ⟨c, rfl, State.memRead_eq_error h⟩

/-- What a write leaves when it raises nothing. -/
theorem State.memWrite_eq_ok {s : State} {a : Word} {n : Nat} {v : BitVec (8 * n)}
    (h : accessCause .storeAmo a n = none) : s.memWrite a n v = .ok (s.store a n v) := by
  rw [State.memWrite, h]

/-- A write that raises. -/
theorem State.memWrite_eq_error {s : State} {a : Word} {n : Nat} {v : BitVec (8 * n)} {c : Cause}
    (h : accessCause .storeAmo a n = some c) : s.memWrite a n v = .error c := by
  rw [State.memWrite, h]

/-- The bytes of memory and `dirty` after a store, in canonical memory. -/
theorem State.store_storesBytes (s : State) (a : Word) (n : Nat) (v : BitVec (8 * n)) (h : Memory.Rising s.mem) :
    StoresBytes s (s.store a n v) a.toNat n v.toNat :=
  ⟨fun _ hk => Memory.read_storeBytes_inside _ _ _ _ h hk,
    fun _ hb => Memory.read_storeBytes_outside _ _ _ _ h hb, fun _ => mem_markDirty _ _ _ _⟩

/-! ## Everything an operation that ends an instruction can do -/

theorem State.finishX_next {s t : State} {r : Reg} {v : Word} (h : s.finishX r v = .next t) :
    t = (s.setX r v).advance := by
  cases h
  rfl

theorem raise_next {s t : State} {c : Cause} {v : Word} (h : raise c v s = .next t) :
    t = { s with trap := some { cause := c, pc := s.pc, tval := v } } := by
  cases h
  rfl

theorem whenPresent_next {s t : State} {p : Bool} {i : Instr} {k : Result} (h : whenPresent p i s k = .next t) :
    (p = true ∧ k = .next t) ∨ (p = false ∧ raiseIllegal i s = .next t) := by
  unfold whenPresent at h
  cases p
  · exact .inr ⟨rfl, h⟩
  · exact .inl ⟨rfl, h⟩

theorem State.withRm_next {s t : State} {i : Instr} {rm : BitVec 3} {k : RoundingMode → Result}
    (h : s.withRm i rm k = .next t) :
    (∃ mode, s.effectiveRm rm = some mode ∧ k mode = .next t) ∨
      (s.effectiveRm rm = none ∧ raiseIllegal i s = .next t) := by
  unfold State.withRm at h
  cases hm : s.effectiveRm rm with
  | none => exact .inr ⟨rfl, by rwa [hm] at h⟩
  | some mode => exact .inl ⟨mode, rfl, by rwa [hm] at h⟩

theorem State.loadThen_next {s t : State} {a : Word} {n : Nat} {k : BitVec (8 * n) → Result}
    (h : s.loadThen a n k = .next t) :
    (∃ c, accessCause .load a n = some c ∧ raise c a s = .next t) ∨
      (accessCause .load a n = none ∧ k (BitVec.ofNat (8 * n) (loadBytes s.mem a.toNat n)) = .next t) := by
  unfold State.loadThen at h
  rcases s.memRead_cases .load a n with ⟨c, hc, he⟩ | ⟨hc, he⟩
  · exact .inl ⟨c, hc, by rwa [he] at h⟩
  · exact .inr ⟨hc, by rwa [he] at h⟩

theorem State.storeThenAdvance_next {s t : State} {a : Word} {n : Nat} {v : BitVec (8 * n)}
    (h : s.storeThenAdvance a n v = .next t) :
    (∃ c, accessCause .storeAmo a n = some c ∧ raise c a s = .next t) ∨
      (accessCause .storeAmo a n = none ∧ t = (s.store a n v).advance) := by
  unfold State.storeThenAdvance at h
  cases hc : accessCause .storeAmo a n with
  | none =>
    rw [State.memWrite_eq_ok hc] at h
    cases h
    exact .inr ⟨rfl, rfl⟩
  | some c =>
    rw [State.memWrite_eq_error hc] at h
    exact .inl ⟨c, rfl, h⟩

theorem State.jumpAndLink_next {s t : State} {rd : Reg} {a : Word} (h : s.jumpAndLink rd a = .next t) :
    (aligned a 4 = true ∧ t = { s.setX rd (s.pc + 4#32) with pc := a }) ∨
      (aligned a 4 = false ∧ raise .instructionAddressMisaligned a s = .next t) := by
  unfold State.jumpAndLink at h
  split at h
  · cases h
    exact .inl ⟨‹_›, rfl⟩
  · exact .inr ⟨by simp_all, h⟩

theorem State.branchIf_next {s t : State} {cond : Bool} {offset : BitVec 13}
    (h : s.branchIf cond offset = .next t) :
    (cond = false ∧ t = s.advance) ∨
      (cond = true ∧ aligned (s.branchTarget offset) 4 = true ∧ t = { s with pc := s.branchTarget offset }) ∨
      (cond = true ∧ aligned (s.branchTarget offset) 4 = false ∧
        raise .instructionAddressMisaligned (s.branchTarget offset) s = .next t) := by
  unfold State.branchIf at h
  split at h
  · split at h
    · cases h
      exact .inr (.inl ⟨‹_›, ‹_›, rfl⟩)
    · exact .inr (.inr ⟨‹_›, by simp_all, h⟩)
  · cases h
    exact .inl ⟨by simp_all, rfl⟩

theorem csrAt_some_inv {c : Config} {a : BitVec 12} {r : Csr} (h : csrAt c a = some r) :
    c.hasF = true ∧ ((a = 1#12 ∧ r = .fflags) ∨ (a = 2#12 ∧ r = .frm) ∨ (a = 3#12 ∧ r = .fcsr)) := by
  unfold csrAt at h
  split at h
  · refine ⟨‹_›, ?_⟩
    split at h
    · exact .inl ⟨‹_›, (Option.some.inj h).symm⟩
    · split at h
      · exact .inr (.inl ⟨‹_›, (Option.some.inj h).symm⟩)
      · split at h
        · exact .inr (.inr ⟨‹_›, (Option.some.inj h).symm⟩)
        · cases h
  · cases h

/-- No control register of this hart is read-only. -/
theorem csrAt_none_inv {c : Config} {a : BitVec 12} (h : csrAt c a = none) :
    ¬(c.hasF = true ∧ (a = 0x001#12 ∨ a = 0x002#12 ∨ a = 0x003#12)) := by
  unfold csrAt at h
  split at h
  · split_ifs at h with h1 h2 h3
    rintro ⟨-, h | h | h⟩ <;> contradiction
  · rename_i hf
    exact fun hc => hf hc.1

/-- The modes that raise are those that name no mode. -/
theorem effectiveRm_eq_none_iff {s : State} (rm : BitVec 3) : s.effectiveRm rm = none ↔ reservedRounding s rm := by
  have key : ∀ b : BitVec 3, roundingModeOfBits b = none ↔ b = 0b101#3 ∨ b = 0b110#3 ∨ b = 0b111#3 := by decide
  unfold State.effectiveRm reservedRounding
  split
  · rw [key]
    simp_all
  · rw [key]
    simp_all

theorem csrReadOnly_eq_false (r : Csr) : csrReadOnly r = false := by cases r <;> rfl

theorem State.csrAccess_next {s t : State} {i : Instr} {rd : Reg} {csr : BitVec 12} {writes : Bool}
    {new : Word → Word} (h : s.csrAccess i rd csr writes new = .next t) :
    (csrAt s.cfg csr = none ∧ raiseIllegal i s = .next t) ∨
      (∃ c, csrAt s.cfg csr = some c ∧
        t = ((if writes then s.writeCsr c (new (s.readCsr c)) else s).setX rd (s.readCsr c)).advance) := by
  unfold State.csrAccess at h
  cases hc : csrAt s.cfg csr with
  | none =>
    rw [hc] at h
    exact .inl ⟨rfl, h⟩
  | some c =>
    rw [hc] at h
    simp only [csrReadOnly_eq_false, Bool.and_false, Bool.false_eq_true, if_false] at h
    exact .inr ⟨c, rfl, State.finishX_next h⟩

theorem State.loadReserved_next {s t : State} {rd : Reg} {a : Word} (h : s.loadReserved rd a = .next t) :
    (∃ c, accessCause .load a 4 = some c ∧ raise c a s = .next t) ∨
      (accessCause .load a 4 = none ∧
        t = ({ s with reservation := some (granule s.cfg a) }.setX rd
          (BitVec.ofNat 32 (loadBytes s.mem a.toNat 4))).advance) := by
  unfold State.loadReserved at h
  rcases s.memRead_cases .load a 4 with ⟨c, hc, he⟩ | ⟨hc, he⟩
  · exact .inl ⟨c, hc, by rwa [he] at h⟩
  · rw [he] at h
    exact .inr ⟨hc, State.finishX_next h⟩

/-- The state after the reservation is cleared and one value of `sc_may_succeed` is consumed. -/
abbrev State.released (s : State) : State := { s with reservation := none, scIndex := s.scIndex + 1 }

theorem State.storeConditional_next {s t : State} {rd : Reg} {a v : Word}
    (h : s.storeConditional rd a v = .next t) :
    (∃ c, accessCause .storeAmo a 4 = some c ∧ raise c a s = .next t) ∨
      (accessCause .storeAmo a 4 = none ∧
        (((s.reservation = some (granule s.cfg a) ∧ Config.scMaySucceed s.scIndex = true) ∧
            t = ((s.released.store a 4 v).setX rd 0#32).advance) ∨
          (¬(s.reservation = some (granule s.cfg a) ∧ Config.scMaySucceed s.scIndex = true) ∧
            t = (s.released.setX rd 1#32).advance))) := by
  unfold State.storeConditional at h
  cases hc : accessCause .storeAmo a 4 with
  | some c =>
    rw [hc] at h
    exact .inl ⟨c, rfl, h⟩
  | none =>
    rw [hc] at h
    refine .inr ⟨rfl, ?_⟩
    simp only at h
    split at h
    · refine .inl ⟨by simp_all, State.finishX_next h⟩
    · refine .inr ⟨by simp_all, State.finishX_next h⟩

theorem State.atomicUpdate_next {s t : State} {rd : Reg} {a : Word} {op : Word → Word}
    (h : s.atomicUpdate rd a op = .next t) :
    (∃ c, accessCause .storeAmo a 4 = some c ∧ raise c a s = .next t) ∨
      (accessCause .storeAmo a 4 = none ∧
        t = ((s.store a 4 (op (BitVec.ofNat 32 (loadBytes s.mem a.toNat 4)))).setX rd
          (BitVec.ofNat 32 (loadBytes s.mem a.toNat 4))).advance) := by
  unfold State.atomicUpdate at h
  rcases s.memRead_cases .storeAmo a 4 with ⟨c, hc, he⟩ | ⟨hc, he⟩
  · exact .inl ⟨c, hc, by rwa [he] at h⟩
  · rw [he] at h
    exact .inr ⟨hc, State.finishX_next h⟩

theorem State.finishInteger_next {s t : State} {rd : Reg} {r : Word × FpFlags}
    (h : s.finishInteger rd r = .next t) : t = ((s.accrue r.2).setX rd r.1).advance := State.finishX_next h

/-- Writing a single is writing the pattern it is held as. -/
theorem State.wrS_eq_setF (s : State) (rd : Reg) (v : Single) : s.wrS rd v = s.setF rd (boxedSingle s v) := by
  have hb : (0xFFFFFFFF#32 ++ v) = BitVec.ofNat 64 (0xFFFFFFFF * 2 ^ 32 + v.toNat) := by
    apply BitVec.eq_of_toNat_eq
    rw [BitVec.toNat_append, ← Nat.shiftLeft_add_eq_or_of_lt v.isLt, Nat.shiftLeft_eq, BitVec.toNat_ofNat]
    have := v.isLt
    simp only [BitVec.toNat_ofNat]
    omega
  have hz : v.setWidth 64 = BitVec.ofNat 64 v.toNat := by
    apply BitVec.eq_of_toNat_eq
    simp
  unfold State.wrS boxedSingle
  split
  · rw [hb]
  · rw [hz]

/-- A pattern that a single is held as fits the f registers. -/
theorem boxedSingle_lt (s : State) (v : Single) (h : s.cfg.hasF = true) :
    (boxedSingle s v).toNat < 2 ^ s.cfg.flen := by
  have := v.isLt
  unfold boxedSingle
  cases hf : s.cfg.fp <;> simp [Config.hasF, Config.hasD, Config.flen, hf] at h ⊢ <;> omega

/-- A pattern of 64 bits fits the f registers where the hart has doubles. -/
theorem double_lt (s : State) (v : Double) (h : s.cfg.hasD = true) : v.toNat < 2 ^ s.cfg.flen := by
  have := v.isLt
  cases hf : s.cfg.fp <;> simp [Config.hasD, Config.flen, hf] at h ⊢
  omega

/-- `HAS_D` requires `HAS_F`. -/
theorem Config.hasF_of_hasD {c : Config} (h : c.hasD = true) : c.hasF = true := by
  cases hf : c.fp <;> simp [Config.hasD, Config.hasF, hf] at h ⊢

/-- Adding no flag changes nothing. -/
@[simp] theorem State.accrue_none (s : State) : s.accrue flagNone = s := by
  have h : s.fflags ||| flagNone = s.fflags := by
    unfold flagNone
    exact BitVec.or_zero
  unfold State.accrue
  rw [h, State.fcsr_eq_append]

/-- The block of an address is its own block. -/
theorem granule_granule (c : Config) (a : Word) : granule c (granule c a) = granule c a := by
  have h : (granule c a).toNat = a.toNat - a.toNat % c.resGranule := by
    have := a.isLt
    rw [granule, BitVec.toNat_ofNat, Nat.mod_eq_of_lt (by omega)]
  have hz : (a.toNat - a.toNat % c.resGranule) % c.resGranule = 0 :=
    Nat.mod_eq_zero_of_dvd (Nat.dvd_sub_mod a.toNat)
  rw [show granule c (granule c a) = BitVec.ofNat 32 ((granule c a).toNat - (granule c a).toNat % c.resGranule)
    from rfl, h, hz, Nat.sub_zero]
  rfl

end Sys2Proof.Machine
end

