-- ==== Sys2Proof/Laws/Exec.lean ====
section
/-! SUPPORT. Once, everything an instruction that answers a next state can have done: a raised exception that leaves
all else as it was, or one of twelve ways of completing. Rules over all instructions follow from `exec_result` by its
cases, without a case for each instruction. -/

namespace Sys2Proof.Machine

/-- The exceptions an instruction can raise, with their trap values. -/
inductive MayRaise (i : Instr) (s : State) : Cause → Word → Prop where
  /-- The instruction word. -/
  | illegal (h : IsIllegal s i) : MayRaise i s .illegalInstruction (encode i)
  /-- Its own address. -/
  | breakpoint (h : i = .ebreak) : MayRaise i s .breakpoint s.pc
  /-- No value. -/
  | call (h : i = .ecall) : MayRaise i s .environmentCall 0#32
  /-- The target. -/
  | target (t : Word) (h : transferTarget s i = some t) (ht : aligned t 4 = false) :
      MayRaise i s .instructionAddressMisaligned t
  /-- The address of a load. -/
  | load (a : Word) (n : Nat) (c : Cause) (h : dataLoad s i = some (a, n))
      (hc : accessCause .load a n = some c) : MayRaise i s c a
  /-- The address of a store. -/
  | store (a : Word) (n : Nat) (c : Cause) (h : dataStore s i = some (a, n))
      (hc : accessCause .storeAmo a n = some c) : MayRaise i s c a

/-- The states an instruction can leave. -/
inductive ExecResult (i : Instr) (s : State) : State → Prop where
  /-- An exception: only the trap outcome is recorded. -/
  | raised (c : Cause) (v : Word) (h : MayRaise i s c v) :
      ExecResult i s { s with trap := some { cause := c, pc := s.pc, tval := v } }
  /-- An integer result. -/
  | wroteX (rd : Reg) (v : Word) (h : isControlTransfer i = false) (hs : isStoring i = false) :
      ExecResult i s (s.setX rd v).advance
  /-- An integer result with floating-point flags. -/
  | wroteXFlags (rd : Reg) (v : Word) (fl : FpFlags) (h : isControlTransfer i = false)
      (hs : isStoring i = false) (hf : s.cfg.hasF = true) : ExecResult i s ((s.accrue fl).setX rd v).advance
  /-- A floating-point result with flags. -/
  | wroteF (rd : Reg) (v : Double) (fl : FpFlags) (h : isControlTransfer i = false)
      (hs : isStoring i = false) (hf : s.cfg.hasF = true) (hv : v.toNat < 2 ^ s.cfg.flen) :
      ExecResult i s ((s.setF rd v).accrue fl).advance
  /-- A store. -/
  | stored (a : Word) (n : Nat) (v : BitVec (8 * n)) (h : isControlTransfer i = false) (hs : isStoring i = true)
      (hn : n ∣ 2 ^ 32) (ha : accessCause .storeAmo a n = none) : ExecResult i s (s.store a n v).advance
  /-- Nothing but the program counter: `fence`, a branch not taken. -/
  | advanced (hs : isStoring i = false) : ExecResult i s s.advance
  /-- `fence.i`. -/
  | fenced (rd rs1 : Reg) (imm : BitVec 12) (h : i = .fenceI rd rs1 imm) :
      ExecResult i s { s.advance with dirty := [] }
  /-- A jump with link. -/
  | jumped (rd : Reg) (t : Word) (h : isControlTransfer i = true) (hs : isStoring i = false)
      (ht : aligned t 4 = true) : ExecResult i s { s.setX rd (s.pc + 4#32) with pc := t }
  /-- A taken branch. -/
  | branched (t : Word) (h : isControlTransfer i = true) (hs : isStoring i = false) (ht : aligned t 4 = true) :
      ExecResult i s { s with pc := t }
  /-- A CSR instruction that writes. -/
  | wroteCsr (rd : Reg) (c : Csr) (v : Word) (h : isCsrAccess i = true) (hf : s.cfg.hasF = true) :
      ExecResult i s ((s.writeCsr c v).setX rd (s.readCsr c)).advance
  /-- `lr.w`. -/
  | reserved (rd rs1 : Reg) (aq rl : BitVec 1) (a v : Word) (h : i = .lrW rd rs1 aq rl) (hA : s.cfg.hasA = true) :
      ExecResult i s ({ s with reservation := some (granule s.cfg a) }.setX rd v).advance
  /-- `sc.w`, stored. -/
  | conditional (rd rs2 rs1 : Reg) (aq rl : BitVec 1) (a v : Word) (h : i = .scW rd rs2 rs1 aq rl)
      (ha : accessCause .storeAmo a 4 = none) :
      ExecResult i s ((s.released.store a 4 v).setX rd 0#32).advance
  /-- `sc.w`, not stored. -/
  | failed (rd rs2 rs1 : Reg) (aq rl : BitVec 1) (h : i = .scW rd rs2 rs1 aq rl) :
      ExecResult i s (s.released.setX rd 1#32).advance
  /-- An atomic memory operation. -/
  | updated (rd : Reg) (a v w : Word) (h : isAtomicUpdate i = true) (ha : accessCause .storeAmo a 4 = none) :
      ExecResult i s ((s.store a 4 w).setX rd v).advance

variable {i : Instr} {s t : State}

theorem execResult_raise {c : Cause} {v : Word} (h : raise c v s = .next t) (hc : MayRaise i s c v) :
    ExecResult i s t := by
  rw [raise_next h]
  exact .raised c v hc

theorem execResult_illegal (h : raiseIllegal i s = .next t) (hi : IsIllegal s i) : ExecResult i s t :=
  execResult_raise h (.illegal hi)

theorem execResult_notAdmitted (h : raiseIllegal i s = .next t) (hi : admitted i = false) : ExecResult i s t :=
  execResult_illegal h (.inr (.inl hi))

theorem execResult_finishX {rd : Reg} {v : Word} (hc : isControlTransfer i = false) (hs : isStoring i = false)
    (h : s.finishX rd v = .next t) : ExecResult i s t := by
  rw [State.finishX_next h]
  exact .wroteX rd v hc hs

theorem execResult_present {p : Bool} {k : Result} (h : whenPresent p i s k = .next t)
    (hp : p = groupEnabled s.cfg (groupOf i)) (hk : p = true → k = .next t → ExecResult i s t) :
    ExecResult i s t := by
  rcases whenPresent_next h with ⟨ht, h⟩ | ⟨hf, h⟩
  · exact hk ht h
  · exact execResult_illegal h (.inl (hp.symm.trans hf))

theorem execResult_withRm {rm : BitVec 3} {k : RoundingMode → Result} (h : s.withRm i rm k = .next t)
    (hr : roundingField i = some rm) (hk : ∀ mode, k mode = .next t → ExecResult i s t) : ExecResult i s t := by
  rcases State.withRm_next h with ⟨mode, -, h⟩ | ⟨hn, h⟩
  · exact hk mode h
  · exact execResult_illegal h (.inr (.inr (.inr ⟨rm, hr, (effectiveRm_eq_none_iff rm).1 hn⟩)))

theorem execResult_load {a : Word} {n : Nat} {k : BitVec (8 * n) → Result} (h : s.loadThen a n k = .next t)
    (ha : dataLoad s i = some (a, n)) (hk : ∀ v, k v = .next t → ExecResult i s t) : ExecResult i s t := by
  rcases State.loadThen_next h with ⟨c, hc, h⟩ | ⟨-, h⟩
  · exact execResult_raise h (.load a n c ha hc)
  · exact hk _ h

theorem execResult_store {a : Word} {n : Nat} {v : BitVec (8 * n)} (h : s.storeThenAdvance a n v = .next t)
    (ha : dataStore s i = some (a, n)) (hn : n ∣ 2 ^ 32) (hc : isControlTransfer i = false)
    (hs : isStoring i = true) : ExecResult i s t := by
  rcases State.storeThenAdvance_next h with ⟨c, hr, h⟩ | ⟨hr, rfl⟩
  · exact execResult_raise h (.store a n c ha hr)
  · exact .stored a n v hc hs hn hr

theorem execResult_jump {rd : Reg} {a : Word} (hc : isControlTransfer i = true) (hs : isStoring i = false)
    (hi : transferTarget s i = some a) (h : s.jumpAndLink rd a = .next t) : ExecResult i s t := by
  rcases State.jumpAndLink_next h with ⟨ha, rfl⟩ | ⟨ha, h⟩
  · exact .jumped rd a hc hs ha
  · exact execResult_raise h (.target a hi ha)

/-- A branch is the shared operation on its condition and offset. -/
theorem exec_branch {cond : Bool} {offset : BitVec 13} (h : branchOf s i = some (cond, offset)) :
    exec i s = s.branchIf cond offset := by
  cases i <;> simp only [branchOf, Option.some.injEq, Prod.mk.injEq, reduceCtorEq] at h <;> obtain ⟨rfl, rfl⟩ := h
  · exact congrArg (s.branchIf · _) (Bool.eq_iff_iff.2 (by simp [BitVec.toNat_inj]))
  · exact congrArg (s.branchIf · _) (Bool.eq_iff_iff.2 (by simp [BitVec.toNat_inj]))
  · exact congrArg (s.branchIf · _) (Bool.eq_iff_iff.2 (by simp [BitVec.slt]))
  · exact congrArg (s.branchIf · _) (Bool.eq_iff_iff.2 (by simp [BitVec.slt]))
  · exact congrArg (s.branchIf · _) (Bool.eq_iff_iff.2 (by simp [BitVec.ult]))
  · exact congrArg (s.branchIf · _) (Bool.eq_iff_iff.2 (by simp [BitVec.ult]))

theorem transferTarget_of_branch {offset : BitVec 13} (h : branchOf s i = some (true, offset)) :
    transferTarget s i = some (s.branchTarget offset) := by
  delta transferTarget
  rw [h]
  cases i <;> first | rfl | cases h

theorem execResult_branch {cond : Bool} {offset : BitVec 13} (hc : isControlTransfer i = true)
    (hs : isStoring i = false) (hb : branchOf s i = some (cond, offset)) (h : exec i s = .next t) :
    ExecResult i s t := by
  rw [exec_branch hb] at h
  rcases State.branchIf_next h with ⟨-, rfl⟩ | ⟨-, ha, rfl⟩ | ⟨rfl, ha, h⟩
  · exact .advanced hs
  · exact .branched _ hc hs ha
  · exact execResult_raise h (.target _ (transferTarget_of_branch hb) ha)

theorem execResult_csr {rd : Reg} {csr : BitVec 12} {w : Bool} {new : Word → Word}
    (hc : isControlTransfer i = false) (hs : isStoring i = false) (hi : isCsrAccess i = true)
    (hf : csrField i = some csr) (h : s.csrAccess i rd csr w new = .next t) : ExecResult i s t := by
  rcases State.csrAccess_next h with ⟨hn, h⟩ | ⟨c, hr, rfl⟩
  · exact execResult_illegal h (.inr (.inr (.inl ⟨csr, hf, csrAt_none_inv hn⟩)))
  · cases w
    · exact .wroteX rd _ hc hs
    · exact .wroteCsr rd c _ hi (csrAt_some_inv hr).1

theorem execResult_single {rd : Reg} {r : Single × FpFlags} (hc : isControlTransfer i = false)
    (hs : isStoring i = false) (hf : s.cfg.hasF = true) (h : s.finishS rd r = .next t) : ExecResult i s t := by
  have : t = ((s.wrS rd r.1).accrue r.2).advance := by
    cases h
    rfl
  rw [this, State.wrS_eq_setF]
  exact .wroteF rd _ _ hc hs hf (boxedSingle_lt s _ hf)

theorem execResult_double {rd : Reg} {r : Double × FpFlags} (hc : isControlTransfer i = false)
    (hs : isStoring i = false) (hd : s.cfg.hasD = true) (h : s.finishD rd r = .next t) : ExecResult i s t := by
  have : t = ((s.setF rd r.1).accrue r.2).advance := by
    cases h
    rfl
  rw [this]
  exact .wroteF rd _ _ hc hs (Config.hasF_of_hasD hd) (double_lt s _ hd)

/-- A single written with no flag is one written with no flag added. -/
theorem next_wrS_eq_finishS (s : State) (rd : Reg) (v : Single) :
    (.next (s.wrS rd v).advance : Result) = s.finishS rd (v, flagNone) := by
  rw [State.finishS, State.accrue_none]

/-- A double written with no flag is one written with no flag added. -/
theorem next_wrD_eq_finishD (s : State) (rd : Reg) (v : Double) :
    (.next (s.wrD rd v).advance : Result) = s.finishD rd (v, flagNone) := by
  rw [State.finishD, State.accrue_none]

theorem execResult_integer {rd : Reg} {r : Word × FpFlags} (hc : isControlTransfer i = false)
    (hs : isStoring i = false) (hf : s.cfg.hasF = true) (h : s.finishInteger rd r = .next t) :
    ExecResult i s t := by
  rw [State.finishInteger_next h]
  exact .wroteXFlags rd _ _ hc hs hf

theorem execResult_atomic {rd : Reg} {a : Word} {op : Word → Word} (hi : isAtomicUpdate i = true)
    (ha : dataStore s i = some (a, 4)) (h : s.atomicUpdate rd a op = .next t) : ExecResult i s t := by
  rcases State.atomicUpdate_next h with ⟨c, hc, h⟩ | ⟨hc, rfl⟩
  · exact execResult_raise h (.store a 4 c ha hc)
  · exact .updated rd a _ _ hi hc

/-- Everything an instruction that answers a next state can have done. -/
theorem exec_result (h : exec i s = .next t) : ExecResult i s t := by
  cases i with
  | lb rd rs1 imm => exact execResult_load h rfl fun _ hk => execResult_finishX rfl rfl hk
  | lh rd rs1 imm => exact execResult_load h rfl fun _ hk => execResult_finishX rfl rfl hk
  | lw rd rs1 imm => exact execResult_load h rfl fun _ hk => execResult_finishX rfl rfl hk
  | lbu rd rs1 imm => exact execResult_load h rfl fun _ hk => execResult_finishX rfl rfl hk
  | lhu rd rs1 imm => exact execResult_load h rfl fun _ hk => execResult_finishX rfl rfl hk
  | fence rd rs1 imm => cases h; exact .advanced rfl
  | fenceI rd rs1 imm => cases h; exact .fenced rd rs1 imm rfl
  | addi rd rs1 imm => exact execResult_finishX rfl rfl h
  | slli rd rs1 shamt => exact execResult_finishX rfl rfl h
  | slti rd rs1 imm => exact execResult_finishX rfl rfl h
  | sltiu rd rs1 imm => exact execResult_finishX rfl rfl h
  | xori rd rs1 imm => exact execResult_finishX rfl rfl h
  | srli rd rs1 shamt => exact execResult_finishX rfl rfl h
  | srai rd rs1 shamt => exact execResult_finishX rfl rfl h
  | ori rd rs1 imm => exact execResult_finishX rfl rfl h
  | andi rd rs1 imm => exact execResult_finishX rfl rfl h
  | auipc rd imm => exact execResult_finishX rfl rfl h
  | sb rs2 rs1 imm => exact execResult_store h rfl (by norm_num) rfl rfl
  | sh rs2 rs1 imm => exact execResult_store h rfl (by norm_num) rfl rfl
  | sw rs2 rs1 imm => exact execResult_store h rfl (by norm_num) rfl rfl
  | add rd rs1 rs2 => exact execResult_finishX rfl rfl h
  | sub rd rs1 rs2 => exact execResult_finishX rfl rfl h
  | sll rd rs1 rs2 => exact execResult_finishX rfl rfl h
  | slt rd rs1 rs2 => exact execResult_finishX rfl rfl h
  | sltu rd rs1 rs2 => exact execResult_finishX rfl rfl h
  | xor rd rs1 rs2 => exact execResult_finishX rfl rfl h
  | srl rd rs1 rs2 => exact execResult_finishX rfl rfl h
  | sra rd rs1 rs2 => exact execResult_finishX rfl rfl h
  | or rd rs1 rs2 => exact execResult_finishX rfl rfl h
  | and rd rs1 rs2 => exact execResult_finishX rfl rfl h
  | lui rd imm => exact execResult_finishX rfl rfl h
  | beq rs1 rs2 offset => exact execResult_branch rfl rfl rfl h
  | bne rs1 rs2 offset => exact execResult_branch rfl rfl rfl h
  | blt rs1 rs2 offset => exact execResult_branch rfl rfl rfl h
  | bge rs1 rs2 offset => exact execResult_branch rfl rfl rfl h
  | bltu rs1 rs2 offset => exact execResult_branch rfl rfl rfl h
  | bgeu rs1 rs2 offset => exact execResult_branch rfl rfl rfl h
  | jalr rd rs1 imm => exact execResult_jump rfl rfl rfl h
  | jal rd offset => exact execResult_jump rfl rfl rfl h
  | ecall => exact execResult_raise h (.call rfl)
  | ebreak => exact execResult_raise h (.breakpoint rfl)
  | csrrw rd csr rs1 =>
    have h : execCsrrw rd csr rs1 s = .next t := h
    unfold execCsrrw at h
    exact execResult_csr rfl rfl rfl rfl h
  | csrrs rd csr rs1 =>
    have h : execCsrrs rd csr rs1 s = .next t := h
    unfold execCsrrs at h
    exact execResult_csr rfl rfl rfl rfl h
  | csrrc rd csr rs1 =>
    have h : execCsrrc rd csr rs1 s = .next t := h
    unfold execCsrrc at h
    exact execResult_csr rfl rfl rfl rfl h
  | csrrwi rd csr uimm =>
    have h : execCsrrwi rd csr uimm s = .next t := h
    unfold execCsrrwi at h
    exact execResult_csr rfl rfl rfl rfl h
  | csrrsi rd csr uimm =>
    have h : execCsrrsi rd csr uimm s = .next t := h
    unfold execCsrrsi at h
    exact execResult_csr rfl rfl rfl rfl h
  | csrrci rd csr uimm =>
    have h : execCsrrci rd csr uimm s = .next t := h
    unfold execCsrrci at h
    exact execResult_csr rfl rfl rfl rfl h
  | mul rd rs1 rs2 => exact execResult_present h rfl fun _ hk => execResult_finishX rfl rfl hk
  | mulh rd rs1 rs2 => exact execResult_present h rfl fun _ hk => execResult_finishX rfl rfl hk
  | mulhsu rd rs1 rs2 => exact execResult_present h rfl fun _ hk => execResult_finishX rfl rfl hk
  | mulhu rd rs1 rs2 => exact execResult_present h rfl fun _ hk => execResult_finishX rfl rfl hk
  | div rd rs1 rs2 => exact execResult_present h rfl fun _ hk => execResult_finishX rfl rfl hk
  | divu rd rs1 rs2 => exact execResult_present h rfl fun _ hk => execResult_finishX rfl rfl hk
  | rem rd rs1 rs2 => exact execResult_present h rfl fun _ hk => execResult_finishX rfl rfl hk
  | remu rd rs1 rs2 => exact execResult_present h rfl fun _ hk => execResult_finishX rfl rfl hk
  | lrW rd rs1 aq rl =>
    refine execResult_present h rfl fun hA hk => ?_
    rcases State.loadReserved_next hk with ⟨c, hc, hr⟩ | ⟨-, rfl⟩
    · exact execResult_raise hr (.load _ 4 c rfl hc)
    · exact .reserved rd rs1 aq rl _ _ rfl hA
  | lrD rd rs1 aq rl => exact execResult_notAdmitted h rfl
  | scW rd rs2 rs1 aq rl =>
    refine execResult_present h rfl fun _ hk => ?_
    rcases State.storeConditional_next hk with ⟨c, hc, hr⟩ | ⟨hc, ⟨-, rfl⟩ | ⟨-, rfl⟩⟩
    · exact execResult_raise hr (.store _ 4 c rfl hc)
    · exact .conditional rd rs2 rs1 aq rl _ _ rfl hc
    · exact .failed rd rs2 rs1 aq rl rfl
  | scD rd rs2 rs1 aq rl => exact execResult_notAdmitted h rfl
  | amoswapW rd rs2 rs1 aq rl => exact execResult_present h rfl fun _ hk => execResult_atomic rfl rfl hk
  | amoswapD rd rs2 rs1 aq rl => exact execResult_notAdmitted h rfl
  | amoaddW rd rs2 rs1 aq rl => exact execResult_present h rfl fun _ hk => execResult_atomic rfl rfl hk
  | amoaddD rd rs2 rs1 aq rl => exact execResult_notAdmitted h rfl
  | amoxorW rd rs2 rs1 aq rl => exact execResult_present h rfl fun _ hk => execResult_atomic rfl rfl hk
  | amoxorD rd rs2 rs1 aq rl => exact execResult_notAdmitted h rfl
  | amoandW rd rs2 rs1 aq rl => exact execResult_present h rfl fun _ hk => execResult_atomic rfl rfl hk
  | amoandD rd rs2 rs1 aq rl => exact execResult_notAdmitted h rfl
  | amoorW rd rs2 rs1 aq rl => exact execResult_present h rfl fun _ hk => execResult_atomic rfl rfl hk
  | amoorD rd rs2 rs1 aq rl => exact execResult_notAdmitted h rfl
  | amominW rd rs2 rs1 aq rl => exact execResult_present h rfl fun _ hk => execResult_atomic rfl rfl hk
  | amominD rd rs2 rs1 aq rl => exact execResult_notAdmitted h rfl
  | amomaxW rd rs2 rs1 aq rl => exact execResult_present h rfl fun _ hk => execResult_atomic rfl rfl hk
  | amomaxD rd rs2 rs1 aq rl => exact execResult_notAdmitted h rfl
  | amominuW rd rs2 rs1 aq rl => exact execResult_present h rfl fun _ hk => execResult_atomic rfl rfl hk
  | amominuD rd rs2 rs1 aq rl => exact execResult_notAdmitted h rfl
  | amomaxuW rd rs2 rs1 aq rl => exact execResult_present h rfl fun _ hk => execResult_atomic rfl rfl hk
  | amomaxuD rd rs2 rs1 aq rl => exact execResult_notAdmitted h rfl
  | flw rd rs1 imm =>
    refine execResult_present h rfl fun hf hk => execResult_load hk rfl fun v hv => ?_
    exact execResult_single rfl rfl hf ((next_wrS_eq_finishS s rd v).symm.trans hv)
  | fld rd rs1 imm =>
    refine execResult_present h rfl fun hd hk => execResult_load hk rfl fun v hv => ?_
    exact execResult_double rfl rfl hd ((next_wrD_eq_finishD s rd v).symm.trans hv)
  | fsw rs2 rs1 imm => exact execResult_present h rfl fun _ hk => execResult_store hk rfl (by norm_num) rfl rfl
  | fsd rs2 rs1 imm => exact execResult_present h rfl fun _ hk => execResult_store hk rfl (by norm_num) rfl rfl
  | faddS rd rs1 rs2 rm =>
    exact execResult_present h rfl fun hf hk => execResult_withRm hk rfl fun _ hm =>
      execResult_single rfl rfl hf hm
  | faddD rd rs1 rs2 rm =>
    exact execResult_present h rfl fun hf hk => execResult_withRm hk rfl fun _ hm =>
      execResult_double rfl rfl hf hm
  | fsubS rd rs1 rs2 rm =>
    exact execResult_present h rfl fun hf hk => execResult_withRm hk rfl fun _ hm =>
      execResult_single rfl rfl hf hm
  | fsubD rd rs1 rs2 rm =>
    exact execResult_present h rfl fun hf hk => execResult_withRm hk rfl fun _ hm =>
      execResult_double rfl rfl hf hm
  | fmulS rd rs1 rs2 rm =>
    exact execResult_present h rfl fun hf hk => execResult_withRm hk rfl fun _ hm =>
      execResult_single rfl rfl hf hm
  | fmulD rd rs1 rs2 rm =>
    exact execResult_present h rfl fun hf hk => execResult_withRm hk rfl fun _ hm =>
      execResult_double rfl rfl hf hm
  | fdivS rd rs1 rs2 rm =>
    exact execResult_present h rfl fun hf hk => execResult_withRm hk rfl fun _ hm =>
      execResult_single rfl rfl hf hm
  | fdivD rd rs1 rs2 rm =>
    exact execResult_present h rfl fun hf hk => execResult_withRm hk rfl fun _ hm =>
      execResult_double rfl rfl hf hm
  | fsqrtS rd rs1 rm =>
    exact execResult_present h rfl fun hf hk => execResult_withRm hk rfl fun _ hm =>
      execResult_single rfl rfl hf hm
  | fsqrtD rd rs1 rm =>
    exact execResult_present h rfl fun hf hk => execResult_withRm hk rfl fun _ hm =>
      execResult_double rfl rfl hf hm
  | fmaddS rd rs1 rs2 rs3 rm =>
    exact execResult_present h rfl fun hf hk => execResult_withRm hk rfl fun _ hm =>
      execResult_single rfl rfl hf hm
  | fmaddD rd rs1 rs2 rs3 rm =>
    exact execResult_present h rfl fun hf hk => execResult_withRm hk rfl fun _ hm =>
      execResult_double rfl rfl hf hm
  | fmsubS rd rs1 rs2 rs3 rm =>
    exact execResult_present h rfl fun hf hk => execResult_withRm hk rfl fun _ hm =>
      execResult_single rfl rfl hf hm
  | fmsubD rd rs1 rs2 rs3 rm =>
    exact execResult_present h rfl fun hf hk => execResult_withRm hk rfl fun _ hm =>
      execResult_double rfl rfl hf hm
  | fnmsubS rd rs1 rs2 rs3 rm =>
    exact execResult_present h rfl fun hf hk => execResult_withRm hk rfl fun _ hm =>
      execResult_single rfl rfl hf hm
  | fnmsubD rd rs1 rs2 rs3 rm =>
    exact execResult_present h rfl fun hf hk => execResult_withRm hk rfl fun _ hm =>
      execResult_double rfl rfl hf hm
  | fnmaddS rd rs1 rs2 rs3 rm =>
    exact execResult_present h rfl fun hf hk => execResult_withRm hk rfl fun _ hm =>
      execResult_single rfl rfl hf hm
  | fnmaddD rd rs1 rs2 rs3 rm =>
    exact execResult_present h rfl fun hf hk => execResult_withRm hk rfl fun _ hm =>
      execResult_double rfl rfl hf hm
  | fsgnjS rd rs1 rs2 =>
    exact execResult_present h rfl fun hf hk =>
      execResult_single rfl rfl hf ((next_wrS_eq_finishS s rd _).symm.trans hk)
  | fsgnjD rd rs1 rs2 =>
    exact execResult_present h rfl fun hd hk =>
      execResult_double rfl rfl hd ((next_wrD_eq_finishD s rd _).symm.trans hk)
  | fsgnjnS rd rs1 rs2 =>
    exact execResult_present h rfl fun hf hk =>
      execResult_single rfl rfl hf ((next_wrS_eq_finishS s rd _).symm.trans hk)
  | fsgnjnD rd rs1 rs2 =>
    exact execResult_present h rfl fun hd hk =>
      execResult_double rfl rfl hd ((next_wrD_eq_finishD s rd _).symm.trans hk)
  | fsgnjxS rd rs1 rs2 =>
    exact execResult_present h rfl fun hf hk =>
      execResult_single rfl rfl hf ((next_wrS_eq_finishS s rd _).symm.trans hk)
  | fsgnjxD rd rs1 rs2 =>
    exact execResult_present h rfl fun hd hk =>
      execResult_double rfl rfl hd ((next_wrD_eq_finishD s rd _).symm.trans hk)
  | fminS rd rs1 rs2 => exact execResult_present h rfl fun hf hk => execResult_single rfl rfl hf hk
  | fminD rd rs1 rs2 => exact execResult_present h rfl fun hf hk => execResult_double rfl rfl hf hk
  | fmaxS rd rs1 rs2 => exact execResult_present h rfl fun hf hk => execResult_single rfl rfl hf hk
  | fmaxD rd rs1 rs2 => exact execResult_present h rfl fun hf hk => execResult_double rfl rfl hf hk
  | feqS rd rs1 rs2 => exact execResult_present h rfl fun hf hk => execResult_integer rfl rfl hf hk
  | feqD rd rs1 rs2 => exact execResult_present h rfl fun hf hk => execResult_integer rfl rfl (Config.hasF_of_hasD hf) hk
  | fltS rd rs1 rs2 => exact execResult_present h rfl fun hf hk => execResult_integer rfl rfl hf hk
  | fltD rd rs1 rs2 => exact execResult_present h rfl fun hf hk => execResult_integer rfl rfl (Config.hasF_of_hasD hf) hk
  | fleS rd rs1 rs2 => exact execResult_present h rfl fun hf hk => execResult_integer rfl rfl hf hk
  | fleD rd rs1 rs2 => exact execResult_present h rfl fun hf hk => execResult_integer rfl rfl (Config.hasF_of_hasD hf) hk
  | fclassS rd rs1 => exact execResult_present h rfl fun _ hk => execResult_finishX rfl rfl hk
  | fclassD rd rs1 => exact execResult_present h rfl fun _ hk => execResult_finishX rfl rfl hk
  | fmvSX rd rs1 =>
    exact execResult_present h rfl fun hf hk =>
      execResult_single rfl rfl hf ((next_wrS_eq_finishS s rd _).symm.trans hk)
  | fmvDX rd rs1 => exact execResult_notAdmitted h rfl
  | fmvXS rd rs1 => exact execResult_present h rfl fun _ hk => execResult_finishX rfl rfl hk
  | fmvXD rd rs1 => exact execResult_notAdmitted h rfl
  | fcvtDS rd rs1 rm =>
    exact execResult_present h rfl fun hf hk => execResult_withRm hk rfl fun _ hm =>
      execResult_double rfl rfl hf hm
  | fcvtSD rd rs1 rm =>
    exact execResult_present h rfl fun hf hk => execResult_withRm hk rfl fun _ hm =>
      execResult_single rfl rfl (Config.hasF_of_hasD hf) hm
  | fcvtSW rd rs1 rm =>
    exact execResult_present h rfl fun hf hk => execResult_withRm hk rfl fun _ hm =>
      execResult_single rfl rfl hf hm
  | fcvtDW rd rs1 rm =>
    exact execResult_present h rfl fun hf hk => execResult_withRm hk rfl fun _ hm =>
      execResult_double rfl rfl hf hm
  | fcvtSL rd rs1 rm => exact execResult_notAdmitted h rfl
  | fcvtDL rd rs1 rm => exact execResult_notAdmitted h rfl
  | fcvtSWu rd rs1 rm =>
    exact execResult_present h rfl fun hf hk => execResult_withRm hk rfl fun _ hm =>
      execResult_single rfl rfl hf hm
  | fcvtDWu rd rs1 rm =>
    exact execResult_present h rfl fun hf hk => execResult_withRm hk rfl fun _ hm =>
      execResult_double rfl rfl hf hm
  | fcvtSLu rd rs1 rm => exact execResult_notAdmitted h rfl
  | fcvtDLu rd rs1 rm => exact execResult_notAdmitted h rfl
  | fcvtWS rd rs1 rm =>
    exact execResult_present h rfl fun hf hk => execResult_withRm hk rfl fun _ hm =>
      execResult_integer rfl rfl hf hm
  | fcvtWD rd rs1 rm =>
    exact execResult_present h rfl fun hf hk => execResult_withRm hk rfl fun _ hm =>
      execResult_integer rfl rfl (Config.hasF_of_hasD hf) hm
  | fcvtLS rd rs1 rm => exact execResult_notAdmitted h rfl
  | fcvtLD rd rs1 rm => exact execResult_notAdmitted h rfl
  | fcvtWuS rd rs1 rm =>
    exact execResult_present h rfl fun hf hk => execResult_withRm hk rfl fun _ hm =>
      execResult_integer rfl rfl hf hm
  | fcvtWuD rd rs1 rm =>
    exact execResult_present h rfl fun hf hk => execResult_withRm hk rfl fun _ hm =>
      execResult_integer rfl rfl (Config.hasF_of_hasD hf) hm
  | fcvtLuS rd rs1 rm => exact execResult_notAdmitted h rfl
  | fcvtLuD rd rs1 rm => exact execResult_notAdmitted h rfl

end Sys2Proof.Machine
end

