-- ==== Sys2Proof/Laws/Formats.lean ====
section
/-! SUPPORT. Patterns of a floating-point format: the number of each, and the pattern of each number
(spec/45_fd_extension.md R241). -/

namespace Sys2Proof.Machine

variable {fmt : FloatFormat}

/-! ## Signs -/

/-- The real number of a sign and a magnitude. -/
def signedReal (neg : Bool) (x : ℝ) : ℝ := if neg then -x else x

@[simp] theorem signedReal_true (x : ℝ) : signedReal true x = -x := rfl

@[simp] theorem signedReal_false (x : ℝ) : signedReal false x = x := rfl

/-- The sign does not change the magnitude. -/
theorem abs_signedReal (neg : Bool) (x : ℝ) : |signedReal neg x| = |x| := by
  cases neg <;> simp

/-- A sign keeps different numbers apart. -/
theorem signedReal_inj {neg : Bool} {x y : ℝ} : signedReal neg x = signedReal neg y ↔ x = y := by
  cases neg <;> simp

/-- A sign twice is no sign. -/
theorem signedReal_involutive (neg : Bool) (x : ℝ) : signedReal neg (signedReal neg x) = x := by
  cases neg <;> simp

/-- A sign moves across a distance. -/
theorem abs_signedReal_sub (neg : Bool) (x w : ℝ) : |signedReal neg x - w| = |x - signedReal neg w| := by
  cases neg
  · rfl
  · simp only [signedReal_true]
    rw [← abs_neg]
    congr 1
    ring

/-- The number of a sign, a significand and an exponent, as a real number. -/
theorem rationalOf_cast (neg : Bool) (m : Nat) (e : Int) :
    ((rationalOf neg m e : ℚ) : ℝ) = signedReal neg (m * 2 ^ e) := by
  cases neg <;> simp [rationalOf, signedReal]

/-- A number is zero exactly when its significand is. -/
theorem rationalOf_eq_zero {neg : Bool} {m : Nat} {e : Int} : ((rationalOf neg m e : ℚ) : ℝ) = 0 ↔ m = 0 := by
  rw [rationalOf_cast, ← abs_eq_zero, abs_signedReal, abs_eq_zero, mul_eq_zero,
    or_iff_left (by positivity : (2 : ℝ) ^ e ≠ 0), Nat.cast_eq_zero]

/-- The product of two numbers. -/
theorem rationalOf_mul (na nb : Bool) (ma mb : Nat) (ea eb : Int) :
    ((rationalOf na ma ea : ℚ) : ℝ) * (rationalOf nb mb eb : ℚ) =
      (rationalOf (na != nb) (ma * mb) (ea + eb) : ℚ) := by
  rw [rationalOf_cast, rationalOf_cast, rationalOf_cast, zpow_add₀ two_ne_zero]
  cases na <;> cases nb <;> simp <;> ring

/-- A signed natural number, as a real number. -/
theorem signedNat_cast (neg : Bool) (m : Nat) : ((signedNat neg m : Int) : ℝ) = signedReal neg m := by
  cases neg <;> simp [signedNat]

/-- A number in units of a smaller power of two. -/
theorem rationalOf_align (neg : Bool) (m : Nat) {e e' : Int} (h : e' ≤ e) :
    ((rationalOf neg m e : ℚ) : ℝ) = (signedNat neg (m * 2 ^ (e - e').toNat) : ℝ) * 2 ^ e' := by
  have : (2 : ℝ) ^ e = 2 ^ (e - e').toNat * 2 ^ e' := by
    rw [← zpow_natCast, ← zpow_add₀ two_ne_zero]
    congr 1
    omega
  rw [rationalOf_cast, signedNat_cast, this]
  push_cast
  cases neg <;> simp <;> ring

/-! ## Magnitudes -/

/-- The significand a magnitude (a pattern without its sign bit) unpacks to. -/
def significandOf (fmt : FloatFormat) (M : Nat) : Nat :=
  if M / 2 ^ fmt.fracBits = 0 then M % 2 ^ fmt.fracBits else 2 ^ fmt.fracBits + M % 2 ^ fmt.fracBits

/-- The exponent a magnitude unpacks to. -/
def exponentOf (fmt : FloatFormat) (M : Nat) : Int :=
  if M / 2 ^ fmt.fracBits = 0 then floatMinExp fmt else floatMinExp fmt + (M / 2 ^ fmt.fracBits : Nat) - 1

/-- The number a magnitude stands for, read also past the magnitude of infinity as if the exponent went on. -/
noncomputable def magnitudeValue (fmt : FloatFormat) (M : Nat) : ℝ :=
  (significandOf fmt M : ℝ) * 2 ^ exponentOf fmt M

/-- The number of a magnitude with exponent field `t + 1` and fraction `F`. -/
theorem magnitudeValue_normal (t : Nat) {F : Nat} (hF : F < 2 ^ fmt.fracBits) :
    magnitudeValue fmt ((t + 1) * 2 ^ fmt.fracBits + F) =
      ((2 ^ fmt.fracBits + F : Nat) : ℝ) * 2 ^ (floatMinExp fmt + t) := by
  have h1 : ((t + 1) * 2 ^ fmt.fracBits + F) / 2 ^ fmt.fracBits = t + 1 := by
    rw [Nat.add_comm, Nat.add_mul_div_right _ _ (Nat.two_pow_pos _), Nat.div_eq_of_lt hF, zero_add]
  have h2 : ((t + 1) * 2 ^ fmt.fracBits + F) % 2 ^ fmt.fracBits = F := by
    rw [Nat.mul_add_mod_self_right, Nat.mod_eq_of_lt hF]
  rw [magnitudeValue, significandOf, exponentOf, h1, h2, if_neg t.succ_ne_zero, if_neg t.succ_ne_zero,
    Nat.cast_succ, ← add_assoc, add_sub_cancel_right]

/-- A rounded significand `R`, added to the exponent field, stands for `R` times its last place, also when it
carries into the exponent. -/
theorem magnitudeValue_grid {t R : Nat} (h : t = 0 ∨ 2 ^ fmt.fracBits ≤ R) (hR : R ≤ 2 ^ (fmt.fracBits + 1)) :
    magnitudeValue fmt (t * 2 ^ fmt.fracBits + R) = R * 2 ^ (floatMinExp fmt + t) := by
  rcases Nat.lt_or_ge R (2 ^ fmt.fracBits) with hlt | hge
  · obtain rfl : t = 0 := h.resolve_right hlt.not_ge
    rw [Nat.zero_mul, Nat.zero_add, magnitudeValue, significandOf, exponentOf, Nat.div_eq_of_lt hlt, if_pos rfl,
      if_pos rfl, Nat.mod_eq_of_lt hlt, Nat.cast_zero, add_zero]
  obtain ⟨F, rfl⟩ := Nat.exists_eq_add_of_le hge
  rcases Nat.lt_or_ge F (2 ^ fmt.fracBits) with hF | hF
  · rw [← magnitudeValue_normal t hF]
    congr 1
    ring
  · obtain rfl : F = 2 ^ fmt.fracBits := by
      rw [pow_succ] at hR
      omega
    have := magnitudeValue_normal (fmt := fmt) (t + 1) (Nat.two_pow_pos _)
    rw [show t * 2 ^ fmt.fracBits + (2 ^ fmt.fracBits + 2 ^ fmt.fracBits) = (t + 1 + 1) * 2 ^ fmt.fracBits + 0 by ring,
      this, Nat.cast_succ, ← add_assoc, zpow_add_one₀ two_ne_zero]
    push_cast
    ring

/-- Every magnitude is a number of steps `t` of the exponent and a significand `R` in the range of its binade. -/
theorem grid_of_magnitude (fmt : FloatFormat) (M : Nat) :
    ∃ t R : Nat, M = t * 2 ^ fmt.fracBits + R ∧ (t = 0 ∨ 2 ^ fmt.fracBits ≤ R) ∧ R < 2 ^ (fmt.fracBits + 1) := by
  have hp : 0 < 2 ^ fmt.fracBits := Nat.two_pow_pos _
  have hs : 2 ^ (fmt.fracBits + 1) = 2 * 2 ^ fmt.fracBits := by rw [pow_succ, mul_comm]
  have hm := Nat.mod_lt M hp
  have hd := Nat.div_add_mod' M (2 ^ fmt.fracBits)
  rcases Nat.eq_zero_or_pos (M / 2 ^ fmt.fracBits) with h | h
  · exact ⟨0, M % 2 ^ fmt.fracBits, by rw [h] at hd; omega, .inl rfl, by omega⟩
  · obtain ⟨k, hk⟩ := Nat.exists_eq_succ_of_ne_zero h.ne'
    refine ⟨k, 2 ^ fmt.fracBits + M % 2 ^ fmt.fracBits, ?_, .inr (Nat.le_add_right _ _), by omega⟩
    rw [hk, Nat.succ_mul] at hd
    omega

/-- A greater magnitude stands for a greater number. -/
theorem magnitudeValue_strictMono (fmt : FloatFormat) : StrictMono (magnitudeValue fmt) := by
  refine strictMono_nat_of_lt_succ fun M => ?_
  obtain ⟨t, R, rfl, h, hR⟩ := grid_of_magnitude fmt M
  rw [magnitudeValue_grid h hR.le, add_assoc, magnitudeValue_grid (h.imp id fun h => h.trans (Nat.le_succ R)) hR]
  have : (0 : ℝ) < 2 ^ (floatMinExp fmt + t) := by positivity
  push_cast
  nlinarith

/-- The magnitude 0 stands for zero. -/
@[simp] theorem magnitudeValue_zero (fmt : FloatFormat) : magnitudeValue fmt 0 = 0 := by
  have := magnitudeValue_grid (fmt := fmt) (t := 0) (R := 0) (.inl rfl) (Nat.zero_le _)
  simpa using this

/-- A magnitude stands for no negative number. -/
theorem magnitudeValue_nonneg (fmt : FloatFormat) (M : Nat) : 0 ≤ magnitudeValue fmt M := by
  rw [← magnitudeValue_zero fmt]
  exact (magnitudeValue_strictMono fmt).monotone (Nat.zero_le M)

/-! ## Patterns -/

/-- The pattern of a sign and a magnitude, as a number. -/
theorem packMagnitude_toNat (neg : Bool) {M : Nat} (hM : M < 2 ^ (fmt.expBits + fmt.fracBits)) :
    (packMagnitude fmt neg M).toNat = neg.toNat * 2 ^ (fmt.expBits + fmt.fracBits) + M := by
  have hp : 0 < 2 ^ fmt.fracBits := Nat.two_pow_pos _
  have h1 : M / 2 ^ fmt.fracBits < 2 ^ fmt.expBits := by
    rw [Nat.div_lt_iff_lt_mul hp, ← pow_add]; exact hM
  rw [packMagnitude, BitVec.toNat_append, BitVec.toNat_append, BitVec.toNat_ofNat, BitVec.toNat_ofNat,
    BitVec.toNat_ofBool, Nat.mod_eq_of_lt h1, ← Nat.shiftLeft_add_eq_or_of_lt (Nat.mod_lt _ hp),
    ← Nat.shiftLeft_add_eq_or_of_lt h1, Nat.shiftLeft_eq, Nat.shiftLeft_eq, add_mul, mul_assoc, ← pow_add, add_assoc,
    Nat.div_add_mod']

/-- The three fields of the pattern of a sign and a magnitude. -/
theorem fields_packMagnitude (neg : Bool) {M : Nat} (hM : M < 2 ^ (fmt.expBits + fmt.fracBits)) :
    signField fmt (packMagnitude fmt neg M) = neg ∧
    exponentField fmt (packMagnitude fmt neg M) = M / 2 ^ fmt.fracBits ∧
    fractionField fmt (packMagnitude fmt neg M) = M % 2 ^ fmt.fracBits := by
  have hp : 0 < 2 ^ fmt.fracBits := Nat.two_pow_pos _
  have hd : neg.toNat * 2 ^ (fmt.expBits + fmt.fracBits) + M =
      M + (neg.toNat * 2 ^ fmt.expBits) * 2 ^ fmt.fracBits := by rw [pow_add]; ring
  have h1 : M / 2 ^ fmt.fracBits < 2 ^ fmt.expBits := by
    rw [Nat.div_lt_iff_lt_mul hp, ← pow_add]; exact hM
  refine ⟨?_, ?_, ?_⟩
  · rw [signField, BitVec.getLsbD, packMagnitude_toNat neg hM, Nat.testBit_eq_decide_div_mod_eq, Nat.add_comm,
      Nat.add_mul_div_right _ _ (Nat.two_pow_pos _), Nat.div_eq_of_lt hM]
    cases neg <;> rfl
  · rw [exponentField, packMagnitude_toNat neg hM, hd, Nat.add_mul_div_right _ _ hp, Nat.add_mul_mod_self_right,
      Nat.mod_eq_of_lt h1]
  · rw [fractionField, packMagnitude_toNat neg hM, hd, Nat.add_mul_mod_self_right]

/-- The magnitude of infinity fits the fields. -/
theorem infinityMagnitude_lt (fmt : FloatFormat) : infinityMagnitude fmt < 2 ^ (fmt.expBits + fmt.fracBits) := by
  rw [infinityMagnitude, pow_add]
  exact Nat.mul_lt_mul_of_pos_right (Nat.sub_lt (Nat.two_pow_pos _) one_pos) (Nat.two_pow_pos _)

/-- The pattern of a magnitude below that of infinity is finite, with that sign. -/
theorem unpack_packMagnitude (neg : Bool) {M : Nat} (hM : M < infinityMagnitude fmt) :
    unpack fmt (packMagnitude fmt neg M) = .finite neg (significandOf fmt M) (exponentOf fmt M) := by
  obtain ⟨h1, h2, h3⟩ := fields_packMagnitude neg (hM.trans (infinityMagnitude_lt fmt))
  have h4 : M / 2 ^ fmt.fracBits ≠ 2 ^ fmt.expBits - 1 :=
    ((Nat.div_lt_iff_lt_mul (Nat.two_pow_pos _)).2 hM).ne
  rw [unpack, h1, h2, h3, if_neg h4, significandOf, exponentOf]
  split <;> rfl

/-- The pattern of infinity unpacks to infinity. -/
theorem unpack_packInfinity (neg : Bool) : unpack fmt (packInfinity fmt neg) = .infinity neg := by
  obtain ⟨h1, h2, h3⟩ := fields_packMagnitude neg (infinityMagnitude_lt fmt)
  rw [packInfinity, unpack, h1, h2, h3, infinityMagnitude, Nat.mul_div_cancel _ (Nat.two_pow_pos _), if_pos rfl,
    Nat.mul_mod_left, if_pos rfl]

/-- A pattern is its sign and its magnitude. -/
theorem packMagnitude_fields (p : BitVec fmt.width) :
    packMagnitude fmt (signField fmt p) (p.toNat % 2 ^ (fmt.expBits + fmt.fracBits)) = p := by
  apply BitVec.eq_of_toNat_eq
  rw [packMagnitude_toNat _ (Nat.mod_lt _ (Nat.two_pow_pos _))]
  have hd := Nat.div_add_mod' p.toNat (2 ^ (fmt.expBits + fmt.fracBits))
  have hb : p.toNat / 2 ^ (fmt.expBits + fmt.fracBits) < 2 := by
    rw [Nat.div_lt_iff_lt_mul (Nat.two_pow_pos _), ← pow_succ']
    exact p.isLt.trans_eq (congrArg (2 ^ ·) (by simp only [FloatFormat.width]; ring))
  rw [signField, BitVec.getLsbD, Nat.testBit_eq_decide_div_mod_eq]
  interval_cases h : p.toNat / 2 ^ (fmt.expBits + fmt.fracBits) <;> simp_all

/-- A finite pattern is a sign and a magnitude below that of infinity. -/
theorem unpack_eq_finite {p : BitVec fmt.width} {neg : Bool} {m : Nat} {e : Int} (h : unpack fmt p = .finite neg m e) :
    ∃ M, M < infinityMagnitude fmt ∧ p = packMagnitude fmt neg M ∧ m = significandOf fmt M ∧ e = exponentOf fmt M := by
  have hp := packMagnitude_fields p
  set M := p.toNat % 2 ^ (fmt.expBits + fmt.fracBits) with hMdef
  have hM : M < 2 ^ (fmt.expBits + fmt.fracBits) := Nat.mod_lt _ (Nat.two_pow_pos _)
  have hlt : M < infinityMagnitude fmt := by
    by_contra hge
    obtain ⟨-, h2, -⟩ := fields_packMagnitude (signField fmt p) hM
    rw [hp] at h2
    have h3 : M / 2 ^ fmt.fracBits = 2 ^ fmt.expBits - 1 := by
      apply le_antisymm
      · have : M / 2 ^ fmt.fracBits < 2 ^ fmt.expBits := by
          rw [Nat.div_lt_iff_lt_mul (Nat.two_pow_pos _), ← pow_add]; exact hM
        omega
      · rw [Nat.le_div_iff_mul_le (Nat.two_pow_pos _)]
        exact Nat.le_of_not_lt hge
    rw [unpack, if_pos (h2.trans h3)] at h
    split at h <;> cases h
  have hu := unpack_packMagnitude (fmt := fmt) (signField fmt p) hlt
  rw [hp, h] at hu
  cases hu
  exact ⟨M, hlt, hp.symm, rfl, rfl⟩

/-- The magnitude of a pattern is its exponent and its fraction. -/
theorem fields_mod (p : BitVec fmt.width) :
    p.toNat % 2 ^ (fmt.expBits + fmt.fracBits) = exponentField fmt p * 2 ^ fmt.fracBits + fractionField fmt p := by
  rw [exponentField, fractionField, Nat.add_comm fmt.expBits, pow_add, Nat.mod_mul, Nat.mul_comm]
  omega

/-- One pattern alone unpacks to the infinity of a sign. -/
theorem unpack_eq_infinity {p : BitVec fmt.width} {neg : Bool} (h : unpack fmt p = .infinity neg) :
    p = packInfinity fmt neg := by
  unfold unpack at h
  split at h
  · rename_i h1
    split at h
    · rename_i h2
      cases h
      rw [packInfinity, infinityMagnitude, ← h1]
      conv_lhs => rw [← packMagnitude_fields p, fields_mod, h2, Nat.add_zero]
    · cases h
  · split at h <;> cases h

/-- The low bit of a pattern is that of its magnitude. -/
theorem packMagnitude_lowBit (hf : 1 ≤ fmt.fracBits) (neg : Bool) {M : Nat} (hM : M < infinityMagnitude fmt) :
    (packMagnitude fmt neg M).getLsbD 0 = decide (M % 2 = 1) := by
  rw [BitVec.getLsbD, packMagnitude_toNat neg (hM.trans (infinityMagnitude_lt fmt)), Nat.testBit_zero]
  obtain ⟨f, hf'⟩ := Nat.exists_eq_add_of_le hf
  have : (neg.toNat * 2 ^ (fmt.expBits + fmt.fracBits) + M) % 2 = M % 2 := by
    rw [hf', show fmt.expBits + (1 + f) = fmt.expBits + f + 1 by ring, pow_succ, ← mul_assoc, Nat.mul_comm _ 2,
      Nat.mul_add_mod]
  rw [this]

/-! ## The greatest and the least numbers -/

/-- The number of exponents in terms of the bias. -/
theorem two_pow_expBits (he : 2 ≤ fmt.expBits) : 2 ^ fmt.expBits = 2 * (floatBias fmt + 1) ∧ 1 ≤ floatBias fmt := by
  obtain ⟨k, hk⟩ := Nat.exists_eq_add_of_le he
  have h1 : 2 ^ fmt.expBits = 4 * 2 ^ k := by rw [hk, pow_add]; rfl
  have h2 : 2 ^ (fmt.expBits - 1) = 2 * 2 ^ k := by rw [hk, show 2 + k - 1 = k + 1 by omega, pow_succ']
  have h3 : 0 < 2 ^ k := Nat.two_pow_pos k
  rw [floatBias, h1, h2]
  omega

/-- The magnitude of infinity as steps of the exponent and a significand. -/
theorem infinityMagnitude_grid (he : 2 ≤ fmt.expBits) :
    infinityMagnitude fmt = (2 ^ fmt.expBits - 3) * 2 ^ fmt.fracBits + 2 ^ (fmt.fracBits + 1) := by
  obtain ⟨h1, h2⟩ := two_pow_expBits he
  rw [infinityMagnitude, pow_succ', ← add_mul]
  congr 1
  omega

/-- The numbers of the last binade and the next power of two. -/
theorem magnitudeValue_top (he : 2 ≤ fmt.expBits) {R : Nat} (h : 2 ^ fmt.fracBits ≤ R)
    (hR : R ≤ 2 ^ (fmt.fracBits + 1)) : magnitudeValue fmt ((2 ^ fmt.expBits - 3) * 2 ^ fmt.fracBits + R) =
      R * 2 ^ ((floatBias fmt : Int) - fmt.fracBits) := by
  obtain ⟨h1, h2⟩ := two_pow_expBits he
  rw [magnitudeValue_grid (.inr h) hR]
  congr 2
  rw [floatMinExp, h1]
  omega

/-- The magnitude of infinity would stand for the power of two after the largest finite number. -/
theorem magnitudeValue_infinityMagnitude (he : 2 ≤ fmt.expBits) :
    magnitudeValue fmt (infinityMagnitude fmt) = overflowThreshold fmt := by
  rw [infinityMagnitude_grid he, magnitudeValue_top he (Nat.pow_le_pow_right two_pos (Nat.le_succ _)) le_rfl,
    overflowThreshold]
  push_cast
  rw [← zpow_natCast, ← zpow_add₀ two_ne_zero]
  congr 1
  push_cast
  ring

/-- The magnitude before that of infinity stands for the largest finite number. -/
theorem magnitudeValue_largest (he : 2 ≤ fmt.expBits) :
    magnitudeValue fmt (infinityMagnitude fmt - 1) = largestFinite fmt := by
  have hp : 0 < 2 ^ fmt.fracBits := Nat.two_pow_pos _
  have hs : 2 ^ (fmt.fracBits + 1) = 2 * 2 ^ fmt.fracBits := pow_succ' 2 _
  rw [infinityMagnitude_grid he, Nat.add_sub_assoc (by omega), magnitudeValue_top he (by omega) (Nat.sub_le _ _),
    largestFinite, Nat.cast_sub (by omega)]
  push_cast
  rfl

/-- The magnitude of infinity is even. -/
theorem infinityMagnitude_even (hf : 1 ≤ fmt.fracBits) : infinityMagnitude fmt % 2 = 0 := by
  obtain ⟨f, hf'⟩ := Nat.exists_eq_add_of_le hf
  rw [infinityMagnitude, hf', pow_add, pow_one, mul_left_comm, Nat.mul_mod_right]

/-- The magnitude of infinity is not 0. -/
theorem infinityMagnitude_pos (he : 2 ≤ fmt.expBits) : 0 < infinityMagnitude fmt := by
  rw [infinityMagnitude_grid he]
  have : 0 < 2 ^ (fmt.fracBits + 1) := Nat.two_pow_pos _
  omega

/-- The least normal number in units of half the last place of the subnormals. -/
theorem leastNormal_eq (fmt : FloatFormat) :
    ((leastNormal fmt : ℚ) : ℝ) = ((2 ^ (fmt.fracBits + 1) : Nat) : ℝ) * 2 ^ (floatMinExp fmt - 1) := by
  rw [leastNormal]
  push_cast
  rw [← zpow_natCast, ← zpow_add₀ two_ne_zero, floatMinExp]
  congr 1
  push_cast
  ring

/-- The pattern of zero unpacks to zero, with its sign. -/
theorem unpack_packZero (he : 2 ≤ fmt.expBits) (neg : Bool) :
    unpack fmt (packZero fmt neg) = .finite neg 0 (floatMinExp fmt) := by
  rw [packZero, unpack_packMagnitude neg (infinityMagnitude_pos he), significandOf, exponentOf, Nat.zero_div,
    if_pos rfl, if_pos rfl, Nat.zero_mod]

/-! ## Numbers of a format -/

/-- The number of an unpacked magnitude. -/
theorem rationalOf_packMagnitude (neg : Bool) (M : Nat) :
    ((rationalOf neg (significandOf fmt M) (exponentOf fmt M) : ℚ) : ℝ) = signedReal neg (magnitudeValue fmt M) :=
  rationalOf_cast ..

/-- The numbers of a format are the signed numbers of the magnitudes below that of infinity. -/
theorem isNumberOf_iff {w : ℝ} :
    IsNumberOf fmt w ↔ ∃ neg M, M < infinityMagnitude fmt ∧ w = signedReal neg (magnitudeValue fmt M) := by
  constructor
  · rintro ⟨p, neg, m, e, h, rfl⟩
    obtain ⟨M, hM, -, rfl, rfl⟩ := unpack_eq_finite h
    exact ⟨neg, M, hM, rationalOf_packMagnitude neg M⟩
  · rintro ⟨neg, M, hM, rfl⟩
    exact ⟨_, _, _, _, unpack_packMagnitude neg hM, (rationalOf_packMagnitude neg M).symm⟩

/-- The numbers of a format are closed under negation. -/
theorem IsNumberOf.signedReal {w : ℝ} (h : IsNumberOf fmt w) (neg : Bool) : IsNumberOf fmt (signedReal neg w) := by
  obtain ⟨neg', M, hM, rfl⟩ := isNumberOf_iff.1 h
  refine isNumberOf_iff.2 ⟨neg != neg', M, hM, ?_⟩
  cases neg <;> cases neg' <;> simp

/-- No number of the format lies between two consecutive magnitudes. -/
theorem IsNumberOf.gap {w : ℝ} (h : IsNumberOf fmt w) (M : Nat) :
    w ≤ magnitudeValue fmt M ∨ magnitudeValue fmt (M + 1) ≤ w := by
  obtain ⟨neg, N, -, rfl⟩ := isNumberOf_iff.1 h
  have h0 := magnitudeValue_nonneg fmt N
  have h1 := magnitudeValue_nonneg fmt M
  cases neg
  · exact (Nat.lt_or_ge M N).elim (fun h => .inr ((magnitudeValue_strictMono fmt).monotone h)) fun h =>
      .inl ((magnitudeValue_strictMono fmt).monotone h)
  · exact .inl (by rw [signedReal_true]; linarith)

/-! ## Negation, NaNs and signs -/

/-- A pattern with its sign bit inverted stands for the negated value (spec/45_fd_extension.md R256). -/
theorem unpack_fpNegate (p : BitVec fmt.width) :
    unpack fmt (fpNegate fmt p) = 
      match unpack fmt p with
      | .nan signaling => .nan signaling
      | .infinity neg => .infinity !neg
      | .finite neg m e => .finite (!neg) m e := by
  have hpt : (fpNegate fmt p).toNat = p.toNat ^^^ 2 ^ (fmt.expBits + fmt.fracBits) := by
    rw [fpNegate, BitVec.toNat_xor, BitVec.toNat_twoPow, Nat.mod_eq_of_lt]
    exact Nat.pow_lt_pow_right one_lt_two (by simp only [FloatFormat.width]; omega)
  have h1 : signField fmt (fpNegate fmt p) = !signField fmt p := by
    rw [signField, signField, BitVec.getLsbD, BitVec.getLsbD, hpt, Nat.testBit_xor, Nat.testBit_two_pow_self,
      Bool.xor_true]
  have hlow : ∀ n i : Nat, i + n ≤ fmt.expBits + fmt.fracBits →
      (fpNegate fmt p).toNat / 2 ^ i % 2 ^ n = p.toNat / 2 ^ i % 2 ^ n := fun n i hi => by
    apply Nat.eq_of_testBit_eq
    intro j
    rw [Nat.testBit_mod_two_pow, Nat.testBit_mod_two_pow, Nat.testBit_div_two_pow, Nat.testBit_div_two_pow, hpt,
      Nat.testBit_xor, Nat.testBit_two_pow]
    by_cases hj : j < n
    · rw [decide_eq_false (by omega : fmt.expBits + fmt.fracBits ≠ j + i), Bool.xor_false]
    · simp [hj]
  have h2 : exponentField fmt (fpNegate fmt p) = exponentField fmt p := hlow _ _ (by omega)
  have h3 : fractionField fmt (fpNegate fmt p) = fractionField fmt p := by
    simpa [fractionField] using hlow fmt.fracBits 0 (by omega)
  rw [unpack, unpack, h1, h2, h3]
  split_ifs <;> rfl

/-- The most significant bit of a pattern is its sign. -/
theorem msb_eq (p : BitVec fmt.width) : p.msb = signField fmt p := by
  rw [BitVec.msb_eq_getLsbD_last, signField]
  congr 1
  simp only [FloatFormat.width]; omega

/-- The sign of a value that is no NaN is that of its pattern. -/
theorem isNegative_unpack {p : BitVec fmt.width} (h : isNaN (unpack fmt p) = false) :
    isNegative (unpack fmt p) = signField fmt p := by
  unfold unpack at *
  split_ifs at * <;> simp_all [isNaN, isNegative]

/-- A value is a NaN exactly when its pattern is one. -/
theorem isNaN_iff (p : BitVec fmt.width) : isNaN (unpack fmt p) = true ↔ AnyNaN fmt p := by
  simp only [AnyNaN]
  cases unpack fmt p with
  | nan s => cases s <;> simp [isNaN]
  | infinity _ => simp [isNaN]
  | finite _ _ _ => simp [isNaN]

/-- A value is a signaling NaN exactly when its pattern is one. -/
theorem isSignaling_iff (p : BitVec fmt.width) : isSignaling (unpack fmt p) = true ↔ SignalingNaN fmt p := by
  simp only [SignalingNaN]
  cases unpack fmt p with
  | nan s => cases s <;> simp [isSignaling]
  | infinity _ => simp [isSignaling]
  | finite _ _ _ => simp [isSignaling]

/-! ## Comparison -/

/-- `valueLess` compares the numbers (spec/48_fd_compare_convert.md R284). -/
theorem valueLess_iff {a b : FloatValue} {x y : EReal} (ha : HasNumber a x) (hb : HasNumber b y) :
    valueLess a b = true ↔ x < y := by
  rcases a with _ | na | ⟨na, ma, ea⟩ <;> rcases b with _ | nb | ⟨nb, mb, eb⟩ <;> simp only [HasNumber] at ha hb
  · subst ha hb
    cases na <;> cases nb <;> simp [valueLess]
  · subst ha hb
    cases na <;> simp [valueLess]
  · subst ha hb
    cases nb <;> simp [valueLess]
  · subst ha hb
    rw [EReal.coe_lt_coe_iff]
    rw [rationalOf_align na ma (min_le_left ea eb), rationalOf_align nb mb (min_le_right ea eb),
      mul_lt_mul_iff_left₀ (by positivity)]
    simp only [valueLess, decide_eq_true_eq, Int.cast_lt]

/-- What has a number is no NaN. -/
theorem hasNumber_not_nan {a : FloatValue} {x : EReal} (h : HasNumber a x) : isNaN a = false := by
  cases a <;> simp_all [HasNumber, isNaN]

/-- The number of a zero. -/
theorem hasNumber_of_isZero {a : FloatValue} {x : EReal} (h : HasNumber a x) (hz : isZero a = true) : x = 0 := by
  rcases a with _ | _ | ⟨n, m, e⟩ <;> simp only [isZero, HasNumber] at h hz
  · cases hz
  · simp at hz
    simp [h, hz, rationalOf]

/-- Two patterns of one sign and one number are one pattern. -/
theorem pattern_inj {a b : BitVec fmt.width} {x : EReal} (ha : HasNumber (unpack fmt a) x)
    (hb : HasNumber (unpack fmt b) x) (hs : isNegative (unpack fmt a) = isNegative (unpack fmt b)) : a = b := by
  obtain ⟨_ | na | ⟨na, ma, ea⟩, ua⟩ : ∃ v, unpack fmt a = v := ⟨_, rfl⟩ <;>
    obtain ⟨_ | nb | ⟨nb, mb, eb⟩, ub⟩ : ∃ v, unpack fmt b = v := ⟨_, rfl⟩ <;>
    rw [ua] at ha hs <;> rw [ub] at hb hs <;> simp only [HasNumber, isNegative] at ha hb hs
  · rw [unpack_eq_infinity ua, unpack_eq_infinity ub, hs]
  · subst hb
    cases na <;> simp at ha
  · subst ha
    cases nb <;> simp at hb
  · obtain ⟨M, -, rfl, rfl, rfl⟩ := unpack_eq_finite ua
    obtain ⟨N, -, rfl, rfl, rfl⟩ := unpack_eq_finite ub
    subst hs
    rw [hb, EReal.coe_eq_coe_iff, rationalOf_packMagnitude, rationalOf_packMagnitude, signedReal_inj] at ha
    rw [(magnitudeValue_strictMono fmt).injective ha]

/-- Equal numbers of different signs are zeros. -/
theorem isZero_of_signs {a b : FloatValue} {x : EReal} (ha : HasNumber a x) (hb : HasNumber b x)
    (hs : isNegative a ≠ isNegative b) : isZero a = true ∧ isZero b = true := by
  rcases a with _ | na | ⟨na, ma, ea⟩ <;> rcases b with _ | nb | ⟨nb, mb, eb⟩ <;>
    simp only [HasNumber, isNegative, isZero] at ha hb hs ⊢
  · subst hb
    cases na <;> cases nb <;> simp_all
  · subst hb
    cases na <;> simp at ha
  · subst ha
    cases nb <;> simp at hb
  · rw [hb, EReal.coe_eq_coe_iff, rationalOf_cast, rationalOf_cast] at ha
    have h1 : (0 : ℝ) ≤ ma * 2 ^ ea := by positivity
    have h2 : (0 : ℝ) ≤ mb * 2 ^ eb := by positivity
    have h3 : (ma : ℝ) * 2 ^ ea = 0 ∧ (mb : ℝ) * 2 ^ eb = 0 := by
      cases na <;> cases nb <;> simp at ha hs <;> constructor <;> linarith
    have p1 : (2 : ℝ) ^ ea ≠ 0 := by positivity
    have p2 : (2 : ℝ) ^ eb ≠ 0 := by positivity
    simpa [p1, p2] using h3

end Sys2Proof.Machine
end

