-- ==== Sys2Proof/Laws/Outcomes.lean ====
section
/-! SUPPORT. The shared operations in the terms of Safety.lean: how an instruction that ends in one completes, with
its frame, and how it raises. -/

namespace Sys2Proof.Machine

variable {i : Instr} {s t : State}

/-! ## Groups and rounding modes -/

theorem whenPresent_true {p : Bool} {k : Result} (h : p = true) : whenPresent p i s k = k := by
  rw [whenPresent, if_pos h]

theorem whenPresent_false {p : Bool} {k : Result} (h : p = false) : whenPresent p i s k = raiseIllegal i s := by
  rw [whenPresent, h]
  rfl

theorem withRm_some {rm : BitVec 3} {mode : RoundingMode} {k : RoundingMode → Result}
    (h : s.effectiveRm rm = some mode) : s.withRm i rm k = k mode := by rw [State.withRm, h]

theorem withRm_none {rm : BitVec 3} {k : RoundingMode → Result} (h : s.effectiveRm rm = none) :
    s.withRm i rm k = raiseIllegal i s := by rw [State.withRm, h]

/-! ## Integer registers -/

theorem writesX_setX (s : State) (rd : Reg) (v : Word) : WritesX s (s.setX rd v) rd v :=
  ⟨fun h => s.getX_setX_same rd v h, State.getX_zero _, fun r h => s.getX_setX_other rd r v h⟩

theorem completesWithX_of_finishX {rd : Reg} {v : Word} (h : exec i s = s.finishX rd v) :
    CompletesWithX i s rd v := by
  refine ⟨(s.setX rd v).advance, h, writesX_setX s rd v, ?_, ⟨fun r => ?_, ?_⟩, ⟨fun a => ?_, ?_⟩, ?_, ?_, ?_, ?_⟩ <;>
    simp

theorem completesWithXFlags_of_finishInteger {rd : Reg} {r : Word × FpFlags}
    (h : exec i s = s.finishInteger rd r) : CompletesWithXFlags i s rd r.1 r.2 := by
  refine ⟨((s.accrue r.2).setX rd r.1).advance, h, writesX_setX (s.accrue r.2) rd r.1, fun q => ?_, ?_, ?_, ?_,
    ⟨fun a => ?_, ?_⟩, ?_, ?_, ?_, ?_⟩ <;> simp

/-! ## Floating-point registers -/

theorem completesWithF_of_setF {rd : Reg} {v : Double} {fl : FpFlags}
    (h : exec i s = .next ((s.setF rd v).accrue fl).advance) : CompletesWithF i s rd v fl := by
  refine ⟨_, h, ⟨?_, fun r hr => ?_, ?_, ?_⟩, ?_, fun r => ?_, ⟨fun a => ?_, ?_⟩, ?_, ?_, ?_, ?_⟩ <;> try simp
  · exact s.getF_setF_other rd r v hr
  · rfl
  · rfl
  · rfl

theorem completesWithF_of_finishS {rd : Reg} {r : Single × FpFlags} (h : exec i s = s.finishS rd r) :
    CompletesWithF i s rd (boxedSingle s r.1) r.2 := by
  refine completesWithF_of_setF (h.trans ?_)
  rw [State.finishS, State.wrS_eq_setF]

theorem completesWithF_of_finishD {rd : Reg} {r : Double × FpFlags} (h : exec i s = s.finishD rd r) :
    CompletesWithF i s rd r.1 r.2 := completesWithF_of_setF h

/-! ## Memory -/

/-- A load that is aligned and inside `MEM_VALID` goes on with the bytes read. -/
theorem loadThen_ok {a : Word} {n : Nat} {k : BitVec (8 * n) → Result} (h : accessCause .load a n = none) :
    s.loadThen a n k = k (BitVec.ofNat (8 * n) (loadBytes s.mem a.toNat n)) := by
  rw [State.loadThen, State.memRead_eq_ok h]

/-- A load that raises. -/
theorem loadThen_raises {a : Word} {n : Nat} {k : BitVec (8 * n) → Result} {c : Cause}
    (h : accessCause .load a n = some c) : s.loadThen a n k = raise c a s := by
  rw [State.loadThen, State.memRead_eq_error h]

/-- A store that raises. -/
theorem storeThenAdvance_raises {a : Word} {n : Nat} {v : BitVec (8 * n)} {c : Cause}
    (h : accessCause .storeAmo a n = some c) : s.storeThenAdvance a n v = raise c a s := by
  rw [State.storeThenAdvance, State.memWrite_eq_error h]

theorem storesBytes_advance {a n v : Nat} (h : StoresBytes s t a n v) : StoresBytes s t.advance a n v := h

theorem completesWithStore_of_store {a : Word} {n : Nat} {v : BitVec (8 * n)}
    (h : exec i s = s.storeThenAdvance a n v) (hc : accessCause .storeAmo a n = none)
    (hm : Memory.Rising s.mem) : CompletesWithStore i s a.toNat n v.toNat := by
  rw [State.storeThenAdvance, State.memWrite_eq_ok hc] at h
  refine ⟨_, h, storesBytes_advance (State.store_storesBytes s a n v hm), ?_, fun r => ?_, ⟨fun r => ?_, ?_⟩, ?_, ?_, ?_,
    ?_⟩ <;> simp

/-- An atomic memory operation that raises. -/
theorem atomicUpdate_raises {rd : Reg} {a : Word} {op : Word → Word} {c : Cause}
    (h : accessCause .storeAmo a 4 = some c) : s.atomicUpdate rd a op = raise c a s := by
  rw [State.atomicUpdate, State.memRead_eq_error h]

/-- A store conditional that raises. -/
theorem storeConditional_raises {rd : Reg} {a v : Word} {c : Cause} (h : accessCause .storeAmo a 4 = some c) :
    s.storeConditional rd a v = raise c a s := by
  rw [State.storeConditional, h]

/-- A load reserved that raises. -/
theorem loadReserved_raises {rd : Reg} {a : Word} {c : Cause} (h : accessCause .load a 4 = some c) :
    s.loadReserved rd a = raise c a s := by
  rw [State.loadReserved, State.memRead_eq_error h]

/-- The word at an address is the four bytes a load of a word reads. -/
theorem wordAt_eq (s : State) (a : Nat) : s.wordAt a = BitVec.ofNat 32 (loadBytes s.mem a 4) :=
  (ofNat_loadBytes_four s.mem a).symm

/-- The halfword at an address is the two bytes a load of a halfword reads. -/
theorem halfAt_eq (s : State) (a : Nat) : s.halfAt a = BitVec.ofNat 16 (loadBytes s.mem a 2) :=
  (ofNat_loadBytes_two s.mem a).symm

/-- The doubleword at an address is the eight bytes a load of a doubleword reads. -/
theorem doubleAt_eq (s : State) (a : Nat) : s.doubleAt a = BitVec.ofNat 64 (loadBytes s.mem a 8) := by
  rw [ofNat_loadBytes_eight, State.doubleAt, wordAt_eq, wordAt_eq]

theorem completesWithAtomic_of_atomicUpdate {rd : Reg} {a : Word} {op : Word → Word}
    (h : exec i s = s.atomicUpdate rd a op) (hc : accessCause .storeAmo a 4 = none)
    (hm : Memory.Rising s.mem) : CompletesWithAtomic i s rd a (op (s.wordAt a.toNat)) := by
  rw [State.atomicUpdate, State.memRead_eq_ok hc] at h
  rw [wordAt_eq]
  refine ⟨((s.store a 4 (op (BitVec.ofNat 32 (loadBytes s.mem a.toNat 4)))).setX rd
    (BitVec.ofNat 32 (loadBytes s.mem a.toNat 4))).advance, h, ?_, ?_, ?_, ⟨fun r => ?_, ?_⟩, ?_, ?_, ?_, ?_⟩ <;>
    try simp
  · rw [wordAt_eq]
    exact writesX_setX (s.store a 4 _) rd _
  · obtain ⟨h1, h2, h3⟩ := State.store_storesBytes s a 4
      (op (BitVec.ofNat 32 (loadBytes s.mem a.toNat 4))) hm
    exact ⟨fun k hk => by simpa using h1 k hk, fun b hb => by simpa using h2 b hb, fun b => by simpa using h3 b⟩

/-! ## Control transfer -/

theorem completesWithJump_of_jumpAndLink {rd : Reg} {a : Word} (h : exec i s = s.jumpAndLink rd a)
    (ha : aligned a 4 = true) : CompletesWithJump i s a rd (s.pc + 4#32) := by
  rw [State.jumpAndLink, if_pos ha] at h
  have hw := writesX_setX s rd (s.pc + 4#32)
  refine ⟨_, h, rfl, hw, ⟨fun r => ?_, ?_⟩, ⟨fun b => ?_, ?_⟩, ?_, ?_, ?_, ?_⟩
  · exact State.setX_getF s rd r _
  · exact State.setX_fcsr s rd _
  · exact State.setX_byteAt s rd _ b
  · exact State.setX_dirty s rd _
  · exact State.setX_reservation s rd _
  · exact State.setX_cfg s rd _
  · exact State.setX_scIndex s rd _
  · exact State.setX_trap s rd _

theorem completesWithPc_of_pc {a : Word} (h : exec i s = .next { s with pc := a }) : CompletesWithPc i s a :=
  ⟨_, h, rfl, fun _ => rfl, ⟨fun _ => rfl, rfl⟩, ⟨fun _ => rfl, rfl⟩, rfl, rfl, rfl, rfl⟩

/-- A branch whose target is aligned, or that is not taken, only sets the program counter. -/
theorem branchIf_ok {cond : Bool} {offset : BitVec 13}
    (h : cond = true → aligned (s.branchTarget offset) 4 = true) :
    s.branchIf cond offset = .next { s with pc := if cond then s.branchTarget offset else s.pc + 4#32 } := by
  cases cond
  · rfl
  · rw [State.branchIf, if_pos rfl, if_pos (h rfl)]
    rfl

end Sys2Proof.Machine
end

