-- ==== Sys2Proof/Laws/PerInstr.lean ====
section
/-! SUPPORT. The statements made for each instruction: `lowBits`, the low two bits of every instruction word are 11
(spec/30_encoding.md R82, R98, R99). -/

namespace Sys2Proof.Laws

/-- The low two bits of the word of an instruction are 11 (spec/30_encoding.md R82). -/
def lowBits.Statement (i : Instr) : Prop := (encode i).extractLsb' 0 2 = 0b11#2

/-- The low two bits of a word are those of its opcode. -/
theorem lowBits_of_opcode {w : Word} {op : BitVec 7} (h : fieldOpcode w = op) (ho : op.extractLsb' 0 2 = 0b11#2) :
    w.extractLsb' 0 2 = 0b11#2 := by
  rw [← ho, ← h]
  ext i hi
  simp [fieldOpcode]

theorem lowBits.lb (rd rs1 : Reg) (imm : BitVec 12) :
    lowBits.Statement (.lb rd rs1 imm) := lowBits_of_opcode (fieldOpcode_encodeI ..) (by decide)
theorem lowBits.lh (rd rs1 : Reg) (imm : BitVec 12) :
    lowBits.Statement (.lh rd rs1 imm) := lowBits_of_opcode (fieldOpcode_encodeI ..) (by decide)
theorem lowBits.lw (rd rs1 : Reg) (imm : BitVec 12) :
    lowBits.Statement (.lw rd rs1 imm) := lowBits_of_opcode (fieldOpcode_encodeI ..) (by decide)
theorem lowBits.lbu (rd rs1 : Reg) (imm : BitVec 12) :
    lowBits.Statement (.lbu rd rs1 imm) := lowBits_of_opcode (fieldOpcode_encodeI ..) (by decide)
theorem lowBits.lhu (rd rs1 : Reg) (imm : BitVec 12) :
    lowBits.Statement (.lhu rd rs1 imm) := lowBits_of_opcode (fieldOpcode_encodeI ..) (by decide)
theorem lowBits.fence (rd rs1 : Reg) (imm : BitVec 12) :
    lowBits.Statement (.fence rd rs1 imm) := lowBits_of_opcode (fieldOpcode_encodeI ..) (by decide)
theorem lowBits.fenceI (rd rs1 : Reg) (imm : BitVec 12) :
    lowBits.Statement (.fenceI rd rs1 imm) := lowBits_of_opcode (fieldOpcode_encodeI ..) (by decide)
theorem lowBits.addi (rd rs1 : Reg) (imm : BitVec 12) :
    lowBits.Statement (.addi rd rs1 imm) := lowBits_of_opcode (fieldOpcode_encodeI ..) (by decide)
theorem lowBits.slli (rd rs1 : Reg) (shamt : BitVec 5) :
    lowBits.Statement (.slli rd rs1 shamt) := lowBits_of_opcode (fieldOpcode_encodeR ..) (by decide)
theorem lowBits.slti (rd rs1 : Reg) (imm : BitVec 12) :
    lowBits.Statement (.slti rd rs1 imm) := lowBits_of_opcode (fieldOpcode_encodeI ..) (by decide)
theorem lowBits.sltiu (rd rs1 : Reg) (imm : BitVec 12) :
    lowBits.Statement (.sltiu rd rs1 imm) := lowBits_of_opcode (fieldOpcode_encodeI ..) (by decide)
theorem lowBits.xori (rd rs1 : Reg) (imm : BitVec 12) :
    lowBits.Statement (.xori rd rs1 imm) := lowBits_of_opcode (fieldOpcode_encodeI ..) (by decide)
theorem lowBits.srli (rd rs1 : Reg) (shamt : BitVec 5) :
    lowBits.Statement (.srli rd rs1 shamt) := lowBits_of_opcode (fieldOpcode_encodeR ..) (by decide)
theorem lowBits.srai (rd rs1 : Reg) (shamt : BitVec 5) :
    lowBits.Statement (.srai rd rs1 shamt) := lowBits_of_opcode (fieldOpcode_encodeR ..) (by decide)
theorem lowBits.ori (rd rs1 : Reg) (imm : BitVec 12) :
    lowBits.Statement (.ori rd rs1 imm) := lowBits_of_opcode (fieldOpcode_encodeI ..) (by decide)
theorem lowBits.andi (rd rs1 : Reg) (imm : BitVec 12) :
    lowBits.Statement (.andi rd rs1 imm) := lowBits_of_opcode (fieldOpcode_encodeI ..) (by decide)
theorem lowBits.auipc (rd : Reg) (imm : BitVec 20) :
    lowBits.Statement (.auipc rd imm) := lowBits_of_opcode (fieldOpcode_encodeU ..) (by decide)
theorem lowBits.sb (rs2 rs1 : Reg) (imm : BitVec 12) :
    lowBits.Statement (.sb rs2 rs1 imm) := lowBits_of_opcode (fieldOpcode_encodeS ..) (by decide)
theorem lowBits.sh (rs2 rs1 : Reg) (imm : BitVec 12) :
    lowBits.Statement (.sh rs2 rs1 imm) := lowBits_of_opcode (fieldOpcode_encodeS ..) (by decide)
theorem lowBits.sw (rs2 rs1 : Reg) (imm : BitVec 12) :
    lowBits.Statement (.sw rs2 rs1 imm) := lowBits_of_opcode (fieldOpcode_encodeS ..) (by decide)
theorem lowBits.add (rd rs1 rs2 : Reg) :
    lowBits.Statement (.add rd rs1 rs2) := lowBits_of_opcode (fieldOpcode_encodeR ..) (by decide)
theorem lowBits.sub (rd rs1 rs2 : Reg) :
    lowBits.Statement (.sub rd rs1 rs2) := lowBits_of_opcode (fieldOpcode_encodeR ..) (by decide)
theorem lowBits.sll (rd rs1 rs2 : Reg) :
    lowBits.Statement (.sll rd rs1 rs2) := lowBits_of_opcode (fieldOpcode_encodeR ..) (by decide)
theorem lowBits.slt (rd rs1 rs2 : Reg) :
    lowBits.Statement (.slt rd rs1 rs2) := lowBits_of_opcode (fieldOpcode_encodeR ..) (by decide)
theorem lowBits.sltu (rd rs1 rs2 : Reg) :
    lowBits.Statement (.sltu rd rs1 rs2) := lowBits_of_opcode (fieldOpcode_encodeR ..) (by decide)
theorem lowBits.xor (rd rs1 rs2 : Reg) :
    lowBits.Statement (.xor rd rs1 rs2) := lowBits_of_opcode (fieldOpcode_encodeR ..) (by decide)
theorem lowBits.srl (rd rs1 rs2 : Reg) :
    lowBits.Statement (.srl rd rs1 rs2) := lowBits_of_opcode (fieldOpcode_encodeR ..) (by decide)
theorem lowBits.sra (rd rs1 rs2 : Reg) :
    lowBits.Statement (.sra rd rs1 rs2) := lowBits_of_opcode (fieldOpcode_encodeR ..) (by decide)
theorem lowBits.or (rd rs1 rs2 : Reg) :
    lowBits.Statement (.or rd rs1 rs2) := lowBits_of_opcode (fieldOpcode_encodeR ..) (by decide)
theorem lowBits.and (rd rs1 rs2 : Reg) :
    lowBits.Statement (.and rd rs1 rs2) := lowBits_of_opcode (fieldOpcode_encodeR ..) (by decide)
theorem lowBits.lui (rd : Reg) (imm : BitVec 20) :
    lowBits.Statement (.lui rd imm) := lowBits_of_opcode (fieldOpcode_encodeU ..) (by decide)
theorem lowBits.beq (rs1 rs2 : Reg) (offset : BitVec 13) :
    lowBits.Statement (.beq rs1 rs2 offset) := lowBits_of_opcode (fieldOpcode_encodeB ..) (by decide)
theorem lowBits.bne (rs1 rs2 : Reg) (offset : BitVec 13) :
    lowBits.Statement (.bne rs1 rs2 offset) := lowBits_of_opcode (fieldOpcode_encodeB ..) (by decide)
theorem lowBits.blt (rs1 rs2 : Reg) (offset : BitVec 13) :
    lowBits.Statement (.blt rs1 rs2 offset) := lowBits_of_opcode (fieldOpcode_encodeB ..) (by decide)
theorem lowBits.bge (rs1 rs2 : Reg) (offset : BitVec 13) :
    lowBits.Statement (.bge rs1 rs2 offset) := lowBits_of_opcode (fieldOpcode_encodeB ..) (by decide)
theorem lowBits.bltu (rs1 rs2 : Reg) (offset : BitVec 13) :
    lowBits.Statement (.bltu rs1 rs2 offset) := lowBits_of_opcode (fieldOpcode_encodeB ..) (by decide)
theorem lowBits.bgeu (rs1 rs2 : Reg) (offset : BitVec 13) :
    lowBits.Statement (.bgeu rs1 rs2 offset) := lowBits_of_opcode (fieldOpcode_encodeB ..) (by decide)
theorem lowBits.jalr (rd rs1 : Reg) (imm : BitVec 12) :
    lowBits.Statement (.jalr rd rs1 imm) := lowBits_of_opcode (fieldOpcode_encodeI ..) (by decide)
theorem lowBits.jal (rd : Reg) (offset : BitVec 21) :
    lowBits.Statement (.jal rd offset) := lowBits_of_opcode (fieldOpcode_encodeJ ..) (by decide)
theorem lowBits.ecall : lowBits.Statement .ecall := by unfold lowBits.Statement; decide
theorem lowBits.ebreak : lowBits.Statement .ebreak := by unfold lowBits.Statement; decide
theorem lowBits.csrrw (rd : Reg) (csr : BitVec 12) (rs1 : Reg) :
    lowBits.Statement (.csrrw rd csr rs1) := lowBits_of_opcode (fieldOpcode_encodeI ..) (by decide)
theorem lowBits.csrrs (rd : Reg) (csr : BitVec 12) (rs1 : Reg) :
    lowBits.Statement (.csrrs rd csr rs1) := lowBits_of_opcode (fieldOpcode_encodeI ..) (by decide)
theorem lowBits.csrrc (rd : Reg) (csr : BitVec 12) (rs1 : Reg) :
    lowBits.Statement (.csrrc rd csr rs1) := lowBits_of_opcode (fieldOpcode_encodeI ..) (by decide)
theorem lowBits.csrrwi (rd : Reg) (csr : BitVec 12) (uimm : BitVec 5) :
    lowBits.Statement (.csrrwi rd csr uimm) := lowBits_of_opcode (fieldOpcode_encodeI ..) (by decide)
theorem lowBits.csrrsi (rd : Reg) (csr : BitVec 12) (uimm : BitVec 5) :
    lowBits.Statement (.csrrsi rd csr uimm) := lowBits_of_opcode (fieldOpcode_encodeI ..) (by decide)
theorem lowBits.csrrci (rd : Reg) (csr : BitVec 12) (uimm : BitVec 5) :
    lowBits.Statement (.csrrci rd csr uimm) := lowBits_of_opcode (fieldOpcode_encodeI ..) (by decide)
theorem lowBits.mul (rd rs1 rs2 : Reg) :
    lowBits.Statement (.mul rd rs1 rs2) := lowBits_of_opcode (fieldOpcode_encodeR ..) (by decide)
theorem lowBits.mulh (rd rs1 rs2 : Reg) :
    lowBits.Statement (.mulh rd rs1 rs2) := lowBits_of_opcode (fieldOpcode_encodeR ..) (by decide)
theorem lowBits.mulhsu (rd rs1 rs2 : Reg) :
    lowBits.Statement (.mulhsu rd rs1 rs2) := lowBits_of_opcode (fieldOpcode_encodeR ..) (by decide)
theorem lowBits.mulhu (rd rs1 rs2 : Reg) :
    lowBits.Statement (.mulhu rd rs1 rs2) := lowBits_of_opcode (fieldOpcode_encodeR ..) (by decide)
theorem lowBits.div (rd rs1 rs2 : Reg) :
    lowBits.Statement (.div rd rs1 rs2) := lowBits_of_opcode (fieldOpcode_encodeR ..) (by decide)
theorem lowBits.divu (rd rs1 rs2 : Reg) :
    lowBits.Statement (.divu rd rs1 rs2) := lowBits_of_opcode (fieldOpcode_encodeR ..) (by decide)
theorem lowBits.rem (rd rs1 rs2 : Reg) :
    lowBits.Statement (.rem rd rs1 rs2) := lowBits_of_opcode (fieldOpcode_encodeR ..) (by decide)
theorem lowBits.remu (rd rs1 rs2 : Reg) :
    lowBits.Statement (.remu rd rs1 rs2) := lowBits_of_opcode (fieldOpcode_encodeR ..) (by decide)
theorem lowBits.lrW (rd rs1 : Reg) (aq rl : BitVec 1) :
    lowBits.Statement (.lrW rd rs1 aq rl) := lowBits_of_opcode (fieldOpcode_encodeA ..) (by decide)
theorem lowBits.lrD (rd rs1 : Reg) (aq rl : BitVec 1) :
    lowBits.Statement (.lrD rd rs1 aq rl) := lowBits_of_opcode (fieldOpcode_encodeA ..) (by decide)
theorem lowBits.scW (rd rs2 rs1 : Reg) (aq rl : BitVec 1) :
    lowBits.Statement (.scW rd rs2 rs1 aq rl) := lowBits_of_opcode (fieldOpcode_encodeA ..) (by decide)
theorem lowBits.scD (rd rs2 rs1 : Reg) (aq rl : BitVec 1) :
    lowBits.Statement (.scD rd rs2 rs1 aq rl) := lowBits_of_opcode (fieldOpcode_encodeA ..) (by decide)
theorem lowBits.amoswapW (rd rs2 rs1 : Reg) (aq rl : BitVec 1) :
    lowBits.Statement (.amoswapW rd rs2 rs1 aq rl) := lowBits_of_opcode (fieldOpcode_encodeA ..) (by decide)
theorem lowBits.amoswapD (rd rs2 rs1 : Reg) (aq rl : BitVec 1) :
    lowBits.Statement (.amoswapD rd rs2 rs1 aq rl) := lowBits_of_opcode (fieldOpcode_encodeA ..) (by decide)
theorem lowBits.amoaddW (rd rs2 rs1 : Reg) (aq rl : BitVec 1) :
    lowBits.Statement (.amoaddW rd rs2 rs1 aq rl) := lowBits_of_opcode (fieldOpcode_encodeA ..) (by decide)
theorem lowBits.amoaddD (rd rs2 rs1 : Reg) (aq rl : BitVec 1) :
    lowBits.Statement (.amoaddD rd rs2 rs1 aq rl) := lowBits_of_opcode (fieldOpcode_encodeA ..) (by decide)
theorem lowBits.amoxorW (rd rs2 rs1 : Reg) (aq rl : BitVec 1) :
    lowBits.Statement (.amoxorW rd rs2 rs1 aq rl) := lowBits_of_opcode (fieldOpcode_encodeA ..) (by decide)
theorem lowBits.amoxorD (rd rs2 rs1 : Reg) (aq rl : BitVec 1) :
    lowBits.Statement (.amoxorD rd rs2 rs1 aq rl) := lowBits_of_opcode (fieldOpcode_encodeA ..) (by decide)
theorem lowBits.amoandW (rd rs2 rs1 : Reg) (aq rl : BitVec 1) :
    lowBits.Statement (.amoandW rd rs2 rs1 aq rl) := lowBits_of_opcode (fieldOpcode_encodeA ..) (by decide)
theorem lowBits.amoandD (rd rs2 rs1 : Reg) (aq rl : BitVec 1) :
    lowBits.Statement (.amoandD rd rs2 rs1 aq rl) := lowBits_of_opcode (fieldOpcode_encodeA ..) (by decide)
theorem lowBits.amoorW (rd rs2 rs1 : Reg) (aq rl : BitVec 1) :
    lowBits.Statement (.amoorW rd rs2 rs1 aq rl) := lowBits_of_opcode (fieldOpcode_encodeA ..) (by decide)
theorem lowBits.amoorD (rd rs2 rs1 : Reg) (aq rl : BitVec 1) :
    lowBits.Statement (.amoorD rd rs2 rs1 aq rl) := lowBits_of_opcode (fieldOpcode_encodeA ..) (by decide)
theorem lowBits.amominW (rd rs2 rs1 : Reg) (aq rl : BitVec 1) :
    lowBits.Statement (.amominW rd rs2 rs1 aq rl) := lowBits_of_opcode (fieldOpcode_encodeA ..) (by decide)
theorem lowBits.amominD (rd rs2 rs1 : Reg) (aq rl : BitVec 1) :
    lowBits.Statement (.amominD rd rs2 rs1 aq rl) := lowBits_of_opcode (fieldOpcode_encodeA ..) (by decide)
theorem lowBits.amomaxW (rd rs2 rs1 : Reg) (aq rl : BitVec 1) :
    lowBits.Statement (.amomaxW rd rs2 rs1 aq rl) := lowBits_of_opcode (fieldOpcode_encodeA ..) (by decide)
theorem lowBits.amomaxD (rd rs2 rs1 : Reg) (aq rl : BitVec 1) :
    lowBits.Statement (.amomaxD rd rs2 rs1 aq rl) := lowBits_of_opcode (fieldOpcode_encodeA ..) (by decide)
theorem lowBits.amominuW (rd rs2 rs1 : Reg) (aq rl : BitVec 1) :
    lowBits.Statement (.amominuW rd rs2 rs1 aq rl) := lowBits_of_opcode (fieldOpcode_encodeA ..) (by decide)
theorem lowBits.amominuD (rd rs2 rs1 : Reg) (aq rl : BitVec 1) :
    lowBits.Statement (.amominuD rd rs2 rs1 aq rl) := lowBits_of_opcode (fieldOpcode_encodeA ..) (by decide)
theorem lowBits.amomaxuW (rd rs2 rs1 : Reg) (aq rl : BitVec 1) :
    lowBits.Statement (.amomaxuW rd rs2 rs1 aq rl) := lowBits_of_opcode (fieldOpcode_encodeA ..) (by decide)
theorem lowBits.amomaxuD (rd rs2 rs1 : Reg) (aq rl : BitVec 1) :
    lowBits.Statement (.amomaxuD rd rs2 rs1 aq rl) := lowBits_of_opcode (fieldOpcode_encodeA ..) (by decide)
theorem lowBits.flw (rd rs1 : Reg) (imm : BitVec 12) :
    lowBits.Statement (.flw rd rs1 imm) := lowBits_of_opcode (fieldOpcode_encodeI ..) (by decide)
theorem lowBits.fld (rd rs1 : Reg) (imm : BitVec 12) :
    lowBits.Statement (.fld rd rs1 imm) := lowBits_of_opcode (fieldOpcode_encodeI ..) (by decide)
theorem lowBits.fsw (rs2 rs1 : Reg) (imm : BitVec 12) :
    lowBits.Statement (.fsw rs2 rs1 imm) := lowBits_of_opcode (fieldOpcode_encodeS ..) (by decide)
theorem lowBits.fsd (rs2 rs1 : Reg) (imm : BitVec 12) :
    lowBits.Statement (.fsd rs2 rs1 imm) := lowBits_of_opcode (fieldOpcode_encodeS ..) (by decide)
theorem lowBits.faddS (rd rs1 rs2 : Reg) (rm : BitVec 3) :
    lowBits.Statement (.faddS rd rs1 rs2 rm) := lowBits_of_opcode (fieldOpcode_encodeR ..) (by decide)
theorem lowBits.faddD (rd rs1 rs2 : Reg) (rm : BitVec 3) :
    lowBits.Statement (.faddD rd rs1 rs2 rm) := lowBits_of_opcode (fieldOpcode_encodeR ..) (by decide)
theorem lowBits.fsubS (rd rs1 rs2 : Reg) (rm : BitVec 3) :
    lowBits.Statement (.fsubS rd rs1 rs2 rm) := lowBits_of_opcode (fieldOpcode_encodeR ..) (by decide)
theorem lowBits.fsubD (rd rs1 rs2 : Reg) (rm : BitVec 3) :
    lowBits.Statement (.fsubD rd rs1 rs2 rm) := lowBits_of_opcode (fieldOpcode_encodeR ..) (by decide)
theorem lowBits.fmulS (rd rs1 rs2 : Reg) (rm : BitVec 3) :
    lowBits.Statement (.fmulS rd rs1 rs2 rm) := lowBits_of_opcode (fieldOpcode_encodeR ..) (by decide)
theorem lowBits.fmulD (rd rs1 rs2 : Reg) (rm : BitVec 3) :
    lowBits.Statement (.fmulD rd rs1 rs2 rm) := lowBits_of_opcode (fieldOpcode_encodeR ..) (by decide)
theorem lowBits.fdivS (rd rs1 rs2 : Reg) (rm : BitVec 3) :
    lowBits.Statement (.fdivS rd rs1 rs2 rm) := lowBits_of_opcode (fieldOpcode_encodeR ..) (by decide)
theorem lowBits.fdivD (rd rs1 rs2 : Reg) (rm : BitVec 3) :
    lowBits.Statement (.fdivD rd rs1 rs2 rm) := lowBits_of_opcode (fieldOpcode_encodeR ..) (by decide)
theorem lowBits.fsqrtS (rd rs1 : Reg) (rm : BitVec 3) :
    lowBits.Statement (.fsqrtS rd rs1 rm) := lowBits_of_opcode (fieldOpcode_encodeR ..) (by decide)
theorem lowBits.fsqrtD (rd rs1 : Reg) (rm : BitVec 3) :
    lowBits.Statement (.fsqrtD rd rs1 rm) := lowBits_of_opcode (fieldOpcode_encodeR ..) (by decide)
theorem lowBits.fmaddS (rd rs1 rs2 rs3 : Reg) (rm : BitVec 3) :
    lowBits.Statement (.fmaddS rd rs1 rs2 rs3 rm) := lowBits_of_opcode (fieldOpcode_encodeR4 ..) (by decide)
theorem lowBits.fmaddD (rd rs1 rs2 rs3 : Reg) (rm : BitVec 3) :
    lowBits.Statement (.fmaddD rd rs1 rs2 rs3 rm) := lowBits_of_opcode (fieldOpcode_encodeR4 ..) (by decide)
theorem lowBits.fmsubS (rd rs1 rs2 rs3 : Reg) (rm : BitVec 3) :
    lowBits.Statement (.fmsubS rd rs1 rs2 rs3 rm) := lowBits_of_opcode (fieldOpcode_encodeR4 ..) (by decide)
theorem lowBits.fmsubD (rd rs1 rs2 rs3 : Reg) (rm : BitVec 3) :
    lowBits.Statement (.fmsubD rd rs1 rs2 rs3 rm) := lowBits_of_opcode (fieldOpcode_encodeR4 ..) (by decide)
theorem lowBits.fnmsubS (rd rs1 rs2 rs3 : Reg) (rm : BitVec 3) :
    lowBits.Statement (.fnmsubS rd rs1 rs2 rs3 rm) := lowBits_of_opcode (fieldOpcode_encodeR4 ..) (by decide)
theorem lowBits.fnmsubD (rd rs1 rs2 rs3 : Reg) (rm : BitVec 3) :
    lowBits.Statement (.fnmsubD rd rs1 rs2 rs3 rm) := lowBits_of_opcode (fieldOpcode_encodeR4 ..) (by decide)
theorem lowBits.fnmaddS (rd rs1 rs2 rs3 : Reg) (rm : BitVec 3) :
    lowBits.Statement (.fnmaddS rd rs1 rs2 rs3 rm) := lowBits_of_opcode (fieldOpcode_encodeR4 ..) (by decide)
theorem lowBits.fnmaddD (rd rs1 rs2 rs3 : Reg) (rm : BitVec 3) :
    lowBits.Statement (.fnmaddD rd rs1 rs2 rs3 rm) := lowBits_of_opcode (fieldOpcode_encodeR4 ..) (by decide)
theorem lowBits.fsgnjS (rd rs1 rs2 : Reg) :
    lowBits.Statement (.fsgnjS rd rs1 rs2) := lowBits_of_opcode (fieldOpcode_encodeR ..) (by decide)
theorem lowBits.fsgnjD (rd rs1 rs2 : Reg) :
    lowBits.Statement (.fsgnjD rd rs1 rs2) := lowBits_of_opcode (fieldOpcode_encodeR ..) (by decide)
theorem lowBits.fsgnjnS (rd rs1 rs2 : Reg) :
    lowBits.Statement (.fsgnjnS rd rs1 rs2) := lowBits_of_opcode (fieldOpcode_encodeR ..) (by decide)
theorem lowBits.fsgnjnD (rd rs1 rs2 : Reg) :
    lowBits.Statement (.fsgnjnD rd rs1 rs2) := lowBits_of_opcode (fieldOpcode_encodeR ..) (by decide)
theorem lowBits.fsgnjxS (rd rs1 rs2 : Reg) :
    lowBits.Statement (.fsgnjxS rd rs1 rs2) := lowBits_of_opcode (fieldOpcode_encodeR ..) (by decide)
theorem lowBits.fsgnjxD (rd rs1 rs2 : Reg) :
    lowBits.Statement (.fsgnjxD rd rs1 rs2) := lowBits_of_opcode (fieldOpcode_encodeR ..) (by decide)
theorem lowBits.fminS (rd rs1 rs2 : Reg) :
    lowBits.Statement (.fminS rd rs1 rs2) := lowBits_of_opcode (fieldOpcode_encodeR ..) (by decide)
theorem lowBits.fminD (rd rs1 rs2 : Reg) :
    lowBits.Statement (.fminD rd rs1 rs2) := lowBits_of_opcode (fieldOpcode_encodeR ..) (by decide)
theorem lowBits.fmaxS (rd rs1 rs2 : Reg) :
    lowBits.Statement (.fmaxS rd rs1 rs2) := lowBits_of_opcode (fieldOpcode_encodeR ..) (by decide)
theorem lowBits.fmaxD (rd rs1 rs2 : Reg) :
    lowBits.Statement (.fmaxD rd rs1 rs2) := lowBits_of_opcode (fieldOpcode_encodeR ..) (by decide)
theorem lowBits.feqS (rd rs1 rs2 : Reg) :
    lowBits.Statement (.feqS rd rs1 rs2) := lowBits_of_opcode (fieldOpcode_encodeR ..) (by decide)
theorem lowBits.feqD (rd rs1 rs2 : Reg) :
    lowBits.Statement (.feqD rd rs1 rs2) := lowBits_of_opcode (fieldOpcode_encodeR ..) (by decide)
theorem lowBits.fltS (rd rs1 rs2 : Reg) :
    lowBits.Statement (.fltS rd rs1 rs2) := lowBits_of_opcode (fieldOpcode_encodeR ..) (by decide)
theorem lowBits.fltD (rd rs1 rs2 : Reg) :
    lowBits.Statement (.fltD rd rs1 rs2) := lowBits_of_opcode (fieldOpcode_encodeR ..) (by decide)
theorem lowBits.fleS (rd rs1 rs2 : Reg) :
    lowBits.Statement (.fleS rd rs1 rs2) := lowBits_of_opcode (fieldOpcode_encodeR ..) (by decide)
theorem lowBits.fleD (rd rs1 rs2 : Reg) :
    lowBits.Statement (.fleD rd rs1 rs2) := lowBits_of_opcode (fieldOpcode_encodeR ..) (by decide)
theorem lowBits.fclassS (rd rs1 : Reg) :
    lowBits.Statement (.fclassS rd rs1) := lowBits_of_opcode (fieldOpcode_encodeR ..) (by decide)
theorem lowBits.fclassD (rd rs1 : Reg) :
    lowBits.Statement (.fclassD rd rs1) := lowBits_of_opcode (fieldOpcode_encodeR ..) (by decide)
theorem lowBits.fmvSX (rd rs1 : Reg) :
    lowBits.Statement (.fmvSX rd rs1) := lowBits_of_opcode (fieldOpcode_encodeR ..) (by decide)
theorem lowBits.fmvDX (rd rs1 : Reg) :
    lowBits.Statement (.fmvDX rd rs1) := lowBits_of_opcode (fieldOpcode_encodeR ..) (by decide)
theorem lowBits.fmvXS (rd rs1 : Reg) :
    lowBits.Statement (.fmvXS rd rs1) := lowBits_of_opcode (fieldOpcode_encodeR ..) (by decide)
theorem lowBits.fmvXD (rd rs1 : Reg) :
    lowBits.Statement (.fmvXD rd rs1) := lowBits_of_opcode (fieldOpcode_encodeR ..) (by decide)
theorem lowBits.fcvtDS (rd rs1 : Reg) (rm : BitVec 3) :
    lowBits.Statement (.fcvtDS rd rs1 rm) := lowBits_of_opcode (fieldOpcode_encodeR ..) (by decide)
theorem lowBits.fcvtSD (rd rs1 : Reg) (rm : BitVec 3) :
    lowBits.Statement (.fcvtSD rd rs1 rm) := lowBits_of_opcode (fieldOpcode_encodeR ..) (by decide)
theorem lowBits.fcvtSW (rd rs1 : Reg) (rm : BitVec 3) :
    lowBits.Statement (.fcvtSW rd rs1 rm) := lowBits_of_opcode (fieldOpcode_encodeR ..) (by decide)
theorem lowBits.fcvtDW (rd rs1 : Reg) (rm : BitVec 3) :
    lowBits.Statement (.fcvtDW rd rs1 rm) := lowBits_of_opcode (fieldOpcode_encodeR ..) (by decide)
theorem lowBits.fcvtSL (rd rs1 : Reg) (rm : BitVec 3) :
    lowBits.Statement (.fcvtSL rd rs1 rm) := lowBits_of_opcode (fieldOpcode_encodeR ..) (by decide)
theorem lowBits.fcvtDL (rd rs1 : Reg) (rm : BitVec 3) :
    lowBits.Statement (.fcvtDL rd rs1 rm) := lowBits_of_opcode (fieldOpcode_encodeR ..) (by decide)
theorem lowBits.fcvtSWu (rd rs1 : Reg) (rm : BitVec 3) :
    lowBits.Statement (.fcvtSWu rd rs1 rm) := lowBits_of_opcode (fieldOpcode_encodeR ..) (by decide)
theorem lowBits.fcvtDWu (rd rs1 : Reg) (rm : BitVec 3) :
    lowBits.Statement (.fcvtDWu rd rs1 rm) := lowBits_of_opcode (fieldOpcode_encodeR ..) (by decide)
theorem lowBits.fcvtSLu (rd rs1 : Reg) (rm : BitVec 3) :
    lowBits.Statement (.fcvtSLu rd rs1 rm) := lowBits_of_opcode (fieldOpcode_encodeR ..) (by decide)
theorem lowBits.fcvtDLu (rd rs1 : Reg) (rm : BitVec 3) :
    lowBits.Statement (.fcvtDLu rd rs1 rm) := lowBits_of_opcode (fieldOpcode_encodeR ..) (by decide)
theorem lowBits.fcvtWS (rd rs1 : Reg) (rm : BitVec 3) :
    lowBits.Statement (.fcvtWS rd rs1 rm) := lowBits_of_opcode (fieldOpcode_encodeR ..) (by decide)
theorem lowBits.fcvtWD (rd rs1 : Reg) (rm : BitVec 3) :
    lowBits.Statement (.fcvtWD rd rs1 rm) := lowBits_of_opcode (fieldOpcode_encodeR ..) (by decide)
theorem lowBits.fcvtLS (rd rs1 : Reg) (rm : BitVec 3) :
    lowBits.Statement (.fcvtLS rd rs1 rm) := lowBits_of_opcode (fieldOpcode_encodeR ..) (by decide)
theorem lowBits.fcvtLD (rd rs1 : Reg) (rm : BitVec 3) :
    lowBits.Statement (.fcvtLD rd rs1 rm) := lowBits_of_opcode (fieldOpcode_encodeR ..) (by decide)
theorem lowBits.fcvtWuS (rd rs1 : Reg) (rm : BitVec 3) :
    lowBits.Statement (.fcvtWuS rd rs1 rm) := lowBits_of_opcode (fieldOpcode_encodeR ..) (by decide)
theorem lowBits.fcvtWuD (rd rs1 : Reg) (rm : BitVec 3) :
    lowBits.Statement (.fcvtWuD rd rs1 rm) := lowBits_of_opcode (fieldOpcode_encodeR ..) (by decide)
theorem lowBits.fcvtLuS (rd rs1 : Reg) (rm : BitVec 3) :
    lowBits.Statement (.fcvtLuS rd rs1 rm) := lowBits_of_opcode (fieldOpcode_encodeR ..) (by decide)
theorem lowBits.fcvtLuD (rd rs1 : Reg) (rm : BitVec 3) :
    lowBits.Statement (.fcvtLuD rd rs1 rm) := lowBits_of_opcode (fieldOpcode_encodeR ..) (by decide)

end Sys2Proof.Laws
end

