-- ==== Sys2Proof/Laws/Rounding.lean ====
section
/-! SUPPORT. Rounding to a floating-point format: everything `roundToExponent`, `roundAndPack`, `addValues` and the
quotients and roots before them can do (spec/45_fd_extension.md R242, R243, R247). -/

namespace Sys2Proof.Machine

variable {fmt : FloatFormat}

/-! ## Comparisons with a significand -/

/-- `m * 2^e` stands for `x` in every comparison with a multiple of `s * 2^e`: it is `x` itself (`s = 1`), or the
truncation of `x` with a sticky last bit (`s = 2`). -/
def Compares (m : Nat) (e : Int) (x : ℝ) (s : Nat) : Prop :=
  ∀ k : Nat, s ∣ k → ((k : ℝ) * 2 ^ e ≤ x ↔ k ≤ m) ∧ (x ≤ k * 2 ^ e ↔ m ≤ k)

/-- A number stands for itself. -/
theorem compares_exact (m : Nat) (e : Int) : Compares m e (m * 2 ^ e) 1 := fun k _ => by
  have h : (0 : ℝ) < 2 ^ e := by positivity
  exact ⟨by rw [mul_le_mul_iff_left₀ h, Nat.cast_le], by rw [mul_le_mul_iff_left₀ h, Nat.cast_le]⟩

/-- An odd significand stands for every number strictly between its even neighbours. -/
theorem compares_sticky {m : Nat} {e : Int} {x : ℝ} (hm : m % 2 = 1) (h1 : ((m - 1 : Nat) : ℝ) * 2 ^ e < x)
    (h2 : x < ((m + 1 : Nat) : ℝ) * 2 ^ e) : Compares m e x 2 := by
  rintro _ ⟨k, rfl⟩
  have h : (0 : ℝ) < 2 ^ e := by positivity
  have mono : ∀ a b : Nat, a ≤ b → (a : ℝ) * 2 ^ e ≤ b * 2 ^ e := fun a b hab =>
    mul_le_mul_of_nonneg_right (Nat.cast_le.2 hab) h.le
  constructor <;> constructor <;> intro hk
  · by_contra hc
    exact absurd (hk.trans_lt h2) (mono _ _ (by omega : m + 1 ≤ 2 * k)).not_gt
  · exact (mono _ _ (by omega : 2 * k ≤ m - 1)).trans h1.le
  · by_contra hc
    exact absurd (h1.trans_le hk) (mono _ _ (by omega : 2 * k ≤ m - 1)).not_gt
  · exact h2.le.trans (mono _ _ (by omega : m + 1 ≤ 2 * k))

/-! ## Rounding to an integer multiple -/

/-- The number `x` between the consecutive magnitudes `lo`, with the integer `q`, and `hi` goes to `hi`
(spec/45_fd_extension.md R242). -/
def AwayFromZero (mode : RoundingMode) (neg : Bool) (q : Nat) (lo x hi : ℝ) : Prop :=
  match mode with
  | .rne => (lo + hi) / 2 < x ∨ (x = (lo + hi) / 2 ∧ q % 2 = 1)
  | .rtz => False
  | .rdn => neg = true ∧ x ≠ lo
  | .rup => neg = false ∧ x ≠ lo
  | .rmm => (lo + hi) / 2 ≤ x

/-- A number that is a magnitude of the format goes to itself. -/
theorem not_awayFromZero_exact {mode : RoundingMode} {neg : Bool} {q : Nat} {x hi : ℝ} (h : x < hi) :
    ¬AwayFromZero mode neg q x x hi := by
  cases mode <;> simp only [AwayFromZero]
  · rintro (hc | ⟨hc, -⟩) <;> linarith
  · exact not_false
  · exact fun hc => hc.2 rfl
  · exact fun hc => hc.2 rfl
  · intro hc
    linarith

/-- Everything `roundToExponent` can do: `x` lies between two consecutive multiples of the last place, the mode
chooses one, and the result is exact when `x` is the lower one. -/
theorem roundToExponent_spec {m : Nat} {e T : Int} {x : ℝ} {s : Nat} (mode : RoundingMode) (neg : Bool)
    (h : Compares m e x s) (hs : s = 1 ∨ s = 2 ∧ e + 2 ≤ T) :
    ∃ q : Nat, (q : ℝ) * 2 ^ T ≤ x ∧ x < (q + 1 : Nat) * 2 ^ T ∧
      ((roundToExponent mode neg m e T).2 = true ↔ x ≠ q * 2 ^ T) ∧
      ((roundToExponent mode neg m e T).1 = q ∧ ¬AwayFromZero mode neg q (q * 2 ^ T) x ((q + 1 : Nat) * 2 ^ T) ∨
        (roundToExponent mode neg m e T).1 = q + 1 ∧
          AwayFromZero mode neg q (q * 2 ^ T) x ((q + 1 : Nat) * 2 ^ T)) := by
  have h2 : (2 : ℝ) ≠ 0 := two_ne_zero
  rcases le_or_gt T e with hT | hT
  · have hs1 : s = 1 := hs.resolve_right fun hh => by omega
    subst hs1
    obtain ⟨d, rfl⟩ := Int.le.dest hT
    have hx : x = m * 2 ^ (T + d) := by
      obtain ⟨a, b⟩ := h m (one_dvd _)
      exact le_antisymm (b.2 le_rfl) (a.2 le_rfl)
    have hx' : x = (m * 2 ^ d : Nat) * 2 ^ T := by
      rw [hx, zpow_add₀ h2, zpow_natCast]
      push_cast
      ring
    have hpos : (0 : ℝ) < 2 ^ T := by positivity
    have hr : roundToExponent mode neg m (T + d) T = (m * 2 ^ d, false) := by
      rw [roundToExponent, if_pos hT, add_sub_cancel_left, Int.toNat_natCast]
    have hlt : x < (m * 2 ^ d + 1 : Nat) * 2 ^ T := by
      rw [hx']
      push_cast
      nlinarith
    refine ⟨m * 2 ^ d, hx'.ge, hlt, by simp [hr, hx'], ?_⟩
    rw [hr, ← hx']
    exact .inl ⟨rfl, not_awayFromZero_exact hlt⟩
  · obtain ⟨d, rfl⟩ := Int.le.dest hT.le
    have hd : 0 < d := by omega
    obtain ⟨d, rfl⟩ := Nat.exists_eq_succ_of_ne_zero hd.ne'
    have hr : (e + (d.succ : Nat) - e).toNat = d + 1 := by omega
    set q := m / 2 ^ (d + 1)
    set r := m % 2 ^ (d + 1) with hrdef
    have hm : q * 2 ^ (d + 1) + r = m := Nat.div_add_mod' m _
    have hrlt : r < 2 ^ (d + 1) := Nat.mod_lt _ (Nat.two_pow_pos _)
    have hpow : 2 ^ (d + 1) = 2 * 2 ^ d := pow_succ' 2 d
    have hdvd : ∀ k, s ∣ k * 2 ^ (d + 1) := fun k => by
      rcases hs with rfl | ⟨rfl, -⟩
      · exact one_dvd _
      · exact Dvd.dvd.mul_left (Dvd.intro_left _ (pow_succ 2 d).symm) k
    have hdvd' : s ∣ q * 2 ^ (d + 1) + 2 ^ d := by
      refine (Nat.dvd_add_right (hdvd q)).2 ?_
      rcases hs with rfl | ⟨rfl, h'⟩
      · exact one_dvd _
      · exact dvd_pow_self 2 (by omega)
    have scale : ∀ k : Nat, (k : ℝ) * 2 ^ (e + (d.succ : Nat)) = ((k * 2 ^ (d + 1) : Nat) : ℝ) * 2 ^ e := fun k => by
      rw [zpow_add₀ h2, zpow_natCast]
      push_cast [Nat.succ_eq_add_one]
      ring
    have hmid : ((q : ℝ) * 2 ^ (e + (d.succ : Nat)) + ((q + 1 : Nat) : ℝ) * 2 ^ (e + (d.succ : Nat))) / 2 =
        ((q * 2 ^ (d + 1) + 2 ^ d : Nat) : ℝ) * 2 ^ e := by
      rw [scale, scale]
      push_cast
      rw [pow_succ]
      ring
    obtain ⟨a1, a2⟩ := h _ (hdvd q)
    obtain ⟨b1, b2⟩ := h _ (hdvd (q + 1))
    obtain ⟨c1, c2⟩ := h _ hdvd'
    have hlo : x ≠ q * 2 ^ (e + (d.succ : Nat)) ↔ r ≠ 0 := by
      rw [scale, Ne, le_antisymm_iff, a1, a2]
      omega
    refine ⟨q, ?_, ?_, ?_, ?_⟩
    · rw [scale, a1]
      omega
    · rw [scale, ← not_le, b1, add_mul]
      omega
    · rw [roundToExponent, if_neg hT.not_ge, hr, hlo]
      exact bne_iff_ne
    · have hg : (roundToExponent mode neg m e (e + (d.succ : Nat))).1 =
          if roundsAway mode neg q r (2 ^ d) then q + 1 else q := by
        rw [roundToExponent, if_neg hT.not_ge, hr]
        rfl
      have key : roundsAway mode neg q r (2 ^ d) = true ↔
          AwayFromZero mode neg q (q * 2 ^ (e + (d.succ : Nat))) x ((q + 1 : Nat) * 2 ^ (e + (d.succ : Nat))) := by
        cases mode <;> simp only [roundsAway, AwayFromZero, hmid, hlo]
        · simp only [Bool.or_eq_true, decide_eq_true_eq, Bool.and_eq_true, beq_iff_eq]
          rw [← not_le (a := x), c2, le_antisymm_iff (a := x), c1, c2]
          omega
        · simp
        · simp [Nat.pos_iff_ne_zero]
        · simp [Nat.pos_iff_ne_zero]
        · rw [c1]
          simp only [decide_eq_true_eq]
          omega
      rw [hg, ← key]
      split_ifs with hc
      · exact .inr ⟨rfl, hc⟩
      · exact .inl ⟨rfl, hc⟩

/-! ## Rounding to a format -/

/-- `m * 2^e` stands for `x` in a rounding to the format: it is `x` itself, or a truncation with a sticky last bit that
is long enough. -/
def Represents (fmt : FloatFormat) (m : Nat) (e : Int) (x : ℝ) : Prop :=
  Compares m e x 1 ∨ Compares m e x 2 ∧ 2 ^ (fmt.fracBits + 3) ≤ m

/-- The binade of what is represented. -/
theorem Represents.log2_bounds {m : Nat} {e : Int} {x : ℝ} (h : Represents fmt m e x) (hm : m ≠ 0) :
    (2 : ℝ) ^ (e + Nat.log2 m) ≤ x ∧ x < 2 ^ (e + Nat.log2 m + 1) := by
  have h2 : (2 : ℝ) ≠ 0 := two_ne_zero
  have hlo : 2 ^ Nat.log2 m ≤ m := Nat.log2_self_le hm
  have hhi : m < 2 ^ (Nat.log2 m + 1) := Nat.lt_log2_self
  have e1 : (2 : ℝ) ^ (e + Nat.log2 m) = ((2 ^ Nat.log2 m : Nat) : ℝ) * 2 ^ e := by
    rw [zpow_add₀ h2, zpow_natCast, mul_comm]
    push_cast
    rfl
  have e2 : (2 : ℝ) ^ (e + Nat.log2 m + 1) = ((2 ^ (Nat.log2 m + 1) : Nat) : ℝ) * 2 ^ e := by
    rw [add_assoc, zpow_add₀ h2, ← Nat.cast_succ, zpow_natCast, mul_comm]
    push_cast
    rfl
  rw [e1, e2, ← not_le]
  rcases h with h | ⟨h, hbig⟩
  · rw [(h _ (one_dvd _)).1, (h _ (one_dvd _)).1]
    exact ⟨hlo, hhi.not_ge⟩
  · have hL : Nat.log2 m ≠ 0 := fun h0 => by
      rw [h0] at hhi
      have : 2 ^ 3 ≤ 2 ^ (fmt.fracBits + 3) := Nat.pow_le_pow_right two_pos (Nat.le_add_left _ _)
      omega
    rw [(h _ (dvd_pow_self 2 hL)).1, (h _ (dvd_pow_self 2 (Nat.succ_ne_zero _))).1]
    exact ⟨hlo, hhi.not_ge⟩

/-- What stands for a positive number is not 0. -/
theorem Represents.ne_zero {m : Nat} {e : Int} {x : ℝ} (h : Represents fmt m e x) (hx : 0 < x) : m ≠ 0 := by
  rintro rfl
  rcases h with h | ⟨-, hbig⟩
  · have := (h 0 (dvd_zero _)).2.2 le_rfl
    rw [Nat.cast_zero, zero_mul] at this
    exact absurd hx this.not_gt
  · exact absurd hbig (Nat.two_pow_pos _).not_ge

/-- `roundToExponent_spec` at an exponent that leaves out the last bits of a significand with a sticky bit. -/
theorem Represents.round {m : Nat} {e T : Int} {x : ℝ} (h : Represents fmt m e x) (mode : RoundingMode) (neg : Bool)
    (hT : e + Nat.log2 m - fmt.fracBits - 1 ≤ T) :
    ∃ q : Nat, (q : ℝ) * 2 ^ T ≤ x ∧ x < (q + 1 : Nat) * 2 ^ T ∧
      ((roundToExponent mode neg m e T).2 = true ↔ x ≠ q * 2 ^ T) ∧
      ((roundToExponent mode neg m e T).1 = q ∧ ¬AwayFromZero mode neg q (q * 2 ^ T) x ((q + 1 : Nat) * 2 ^ T) ∨
        (roundToExponent mode neg m e T).1 = q + 1 ∧
          AwayFromZero mode neg q (q * 2 ^ T) x ((q + 1 : Nat) * 2 ^ T)) := by
  rcases h with h | ⟨h, hbig⟩
  · exact roundToExponent_spec mode neg h (.inl rfl)
  · refine roundToExponent_spec mode neg h (.inr ⟨rfl, ?_⟩)
    have : fmt.fracBits + 3 ≤ Nat.log2 m :=
      (Nat.le_log2 (ne_of_gt (lt_of_lt_of_le (Nat.two_pow_pos _) hbig))).2 hbig
    omega

/-- Everything `roundAndPack` can do, in magnitudes: `x` lies between two consecutive ones, the mode chooses one, and
from the magnitude of infinity on the result overflows. -/
theorem roundAndPack_magnitude (hf : 1 ≤ fmt.fracBits) {m : Nat} {e : Int} {x : ℝ} (mode : RoundingMode) (neg : Bool)
    (h : Represents fmt m e x) (hm : m ≠ 0) :
    ∃ M₀ M : Nat, magnitudeValue fmt M₀ ≤ x ∧ x < magnitudeValue fmt (M₀ + 1) ∧
      (M = M₀ ∧ ¬AwayFromZero mode neg M₀ (magnitudeValue fmt M₀) x (magnitudeValue fmt (M₀ + 1)) ∨
        M = M₀ + 1 ∧ AwayFromZero mode neg M₀ (magnitudeValue fmt M₀) x (magnitudeValue fmt (M₀ + 1))) ∧
      (infinityMagnitude fmt ≤ M → roundAndPack fmt mode neg m e =
        (if overflowsToInfinity mode neg then packInfinity fmt neg
          else packMagnitude fmt neg (infinityMagnitude fmt - 1), flagOF ||| flagNX)) ∧
      (M < infinityMagnitude fmt → (roundAndPack fmt mode neg m e).1 = packMagnitude fmt neg M ∧
        (x = magnitudeValue fmt M₀ → (roundAndPack fmt mode neg m e).2 = flagNone) ∧
        (x ≠ magnitudeValue fmt M₀ → (roundAndPack fmt mode neg m e).2 =
          if tinyAfterRounding fmt mode neg m e then flagUF ||| flagNX else flagNX)) := by
  have h2 : (2 : ℝ) ≠ 0 := two_ne_zero
  obtain ⟨hlo, hhi⟩ := h.log2_bounds hm
  have hTdef : max (e + (Nat.log2 m : Int) - (fmt.fracBits : Int)) (floatMinExp fmt) =
      floatMinExp fmt + ((max (e + (Nat.log2 m : Int) - (fmt.fracBits : Int)) (floatMinExp fmt) -
        floatMinExp fmt).toNat : Int) := by omega
  set T := max (e + (Nat.log2 m : Int) - (fmt.fracBits : Int)) (floatMinExp fmt) with hT
  set t := (T - floatMinExp fmt).toNat with ht
  obtain ⟨q, h1, h3, hinexact, hround⟩ := h.round mode neg (T := T) (by omega)
  have hpos : (0 : ℝ) < 2 ^ T := by positivity
  have hq : q < 2 ^ (fmt.fracBits + 1) := by
    have : (q : ℝ) * 2 ^ T < (2 ^ (fmt.fracBits + 1) : Nat) * 2 ^ T := by
      refine (h1.trans_lt hhi).trans_le ?_
      push_cast
      rw [← zpow_natCast, ← zpow_add₀ h2]
      exact zpow_le_zpow_right₀ one_le_two (by push_cast; omega)
    exact_mod_cast lt_of_mul_lt_mul_right this hpos.le
  have hq' : t = 0 ∨ 2 ^ fmt.fracBits ≤ q := by
    rw [or_iff_not_imp_left]
    intro ht0
    have : ((2 ^ fmt.fracBits : Nat) : ℝ) * 2 ^ T < (q + 1 : Nat) * 2 ^ T := by
      refine lt_of_le_of_lt (le_trans ?_ hlo) h3
      push_cast
      rw [← zpow_natCast, ← zpow_add₀ h2]
      exact zpow_le_zpow_right₀ one_le_two (by omega)
    have := lt_of_mul_lt_mul_right this hpos.le
    exact Nat.lt_succ_iff.1 (by exact_mod_cast this)
  have v0 : magnitudeValue fmt (t * 2 ^ fmt.fracBits + q) = q * 2 ^ T := by
    rw [magnitudeValue_grid hq' hq.le, ← hTdef]
  have v1 : magnitudeValue fmt (t * 2 ^ fmt.fracBits + q + 1) = (q + 1 : Nat) * 2 ^ T := by
    rw [add_assoc, magnitudeValue_grid (hq'.imp id fun h => h.trans (Nat.le_succ q)) hq, ← hTdef]
  have hpar : (t * 2 ^ fmt.fracBits + q) % 2 = q % 2 := by
    obtain ⟨f, hf'⟩ := Nat.exists_eq_add_of_le hf
    rw [hf', pow_add, pow_one, mul_left_comm, Nat.mul_add_mod]
  have haway : AwayFromZero mode neg (t * 2 ^ fmt.fracBits + q) (q * 2 ^ T) x ((q + 1 : Nat) * 2 ^ T) ↔
      AwayFromZero mode neg q (q * 2 ^ T) x ((q + 1 : Nat) * 2 ^ T) := by
    cases mode <;> simp only [AwayFromZero, hpar]
  refine ⟨t * 2 ^ fmt.fracBits + q, t * 2 ^ fmt.fracBits + (roundToExponent mode neg m e T).1, v0 ▸ h1, v1 ▸ h3, ?_,
    fun hM => ?_, fun hM => ?_⟩
  · rw [v0, v1, haway]
    exact hround.imp (fun ⟨a, b⟩ => ⟨by rw [a], b⟩) fun ⟨a, b⟩ => ⟨by rw [a, add_assoc], b⟩
  · rw [roundAndPack, if_neg hm]
    exact if_pos hM
  · have hr : roundAndPack fmt mode neg m e =
        (packMagnitude fmt neg (t * 2 ^ fmt.fracBits + (roundToExponent mode neg m e T).1),
        flagIf (roundToExponent mode neg m e T).2 flagNX |||
          flagIf ((roundToExponent mode neg m e T).2 && tinyAfterRounding fmt mode neg m e) flagUF) := by
      rw [roundAndPack, if_neg hm]
      exact if_neg hM.not_ge
    rw [hr, v0]
    refine ⟨rfl, fun hx => ?_, fun hx => ?_⟩
    · have : (roundToExponent mode neg m e T).2 = false := by
        rw [← Bool.not_eq_true, hinexact]
        exact not_not.2 hx
      rw [this]
      cases tinyAfterRounding fmt mode neg m e <;> rfl
    · rw [hinexact.2 hx]
      cases tinyAfterRounding fmt mode neg m e <;> rfl

/-- The patterns and the flags `roundAndPack` can give. -/
theorem roundAndPack_cases {fmt : FloatFormat} (mode : RoundingMode) (neg : Bool) (m : Nat) (e : Int) :
    (∃ M, M ≤ infinityMagnitude fmt ∧ (roundAndPack fmt mode neg m e).1 = packMagnitude fmt neg M) ∧
    (roundAndPack fmt mode neg m e).2 ∈ [flagNone, flagNX, flagUF ||| flagNX, flagOF ||| flagNX] := by
  unfold roundAndPack
  split
  · exact ⟨⟨0, Nat.zero_le _, rfl⟩, by simp⟩
  dsimp only
  split
  · refine ⟨?_, by simp⟩
    cases overflowsToInfinity mode neg
    · exact ⟨_, Nat.sub_le _ _, rfl⟩
    · exact ⟨_, le_rfl, rfl⟩
  · rename_i h
    refine ⟨⟨_, (not_le.1 h).le, rfl⟩, ?_⟩
    dsimp only
    cases (roundToExponent mode neg m e _).2 <;> cases tinyAfterRounding fmt mode neg m e <;> decide

/-! ## Tininess and overflow -/

/-- `Tiny`, in the choice between the two neighbours just below the least normal number. -/
theorem tiny_iff {mode : RoundingMode} {neg : Bool} {x : ℝ} {q : Nat} (hx : 0 < x) (hq : q % 2 = 1) :
    Tiny fmt mode (signedReal neg x) ↔
      x < leastNormal fmt ∧ ((leastNormal fmt : ℝ) - 2 ^ (floatMinExp fmt - 1) < x →
        ¬AwayFromZero mode neg q (leastNormal fmt - 2 ^ (floatMinExp fmt - 1)) x (leastNormal fmt)) := by
  have hu : (0 : ℝ) < 2 ^ (floatMinExp fmt - 1) := by positivity
  have hl : ((2 : ℝ) ^ (floatMinExp fmt - 1)) < leastNormal fmt := by
    rw [leastNormal_eq]
    have : 2 ^ 1 ≤ 2 ^ (fmt.fracBits + 1) := Nat.pow_le_pow_right two_pos (by omega)
    have : (2 : ℝ) ≤ (2 ^ (fmt.fracBits + 1) : Nat) := by exact_mod_cast this
    nlinarith
  generalize hU : (2 : ℝ) ^ (floatMinExp fmt - 1) = u at *
  generalize hL : ((leastNormal fmt : ℚ) : ℝ) = L at *
  have mid : (L - u + L) / 2 = L - u / 2 := by ring
  cases mode
  · simp only [Tiny, AwayFromZero, abs_signedReal, abs_of_pos hx, hU, hL, hq, and_true, mid, ← le_iff_lt_or_eq,
      eq_comm (a := x), not_le]
    constructor
    · exact fun h => ⟨by linarith, fun _ => h⟩
    · rintro ⟨-, h⟩
      by_contra hc
      exact hc (h (by linarith))
  · simp only [Tiny, AwayFromZero, abs_signedReal, abs_of_pos hx, hL, not_false_eq_true, implies_true, and_true]
  · cases neg <;> simp only [Tiny, AwayFromZero, signedReal_true, signedReal_false, hU, hL, Bool.false_eq_true,
      false_and, not_false_eq_true, implies_true, and_true, true_and, not_not]
    · exact ⟨fun h => h.2, fun h => ⟨by linarith, h⟩⟩
    · constructor
      · rintro ⟨h, -⟩
        exact ⟨by linarith, fun h' => by linarith⟩
      · rintro ⟨-, h⟩
        refine ⟨?_, by linarith⟩
        by_contra hc
        have := h (by linarith)
        linarith
  · cases neg <;> simp only [Tiny, AwayFromZero, signedReal_true, signedReal_false, hU, hL, Bool.true_eq_false,
      false_and, not_false_eq_true, implies_true, and_true, true_and, not_not]
    · constructor
      · rintro ⟨-, h⟩
        exact ⟨by linarith, fun h' => by linarith⟩
      · rintro ⟨-, h⟩
        refine ⟨by linarith, ?_⟩
        by_contra hc
        have := h (by linarith)
        linarith
    · exact ⟨fun h => by linarith, fun h => ⟨by linarith, by linarith⟩⟩
  · simp only [Tiny, AwayFromZero, abs_signedReal, abs_of_pos hx, hU, hL, mid, not_le]
    constructor
    · exact fun h => ⟨by linarith, fun _ => h⟩
    · rintro ⟨-, h⟩
      by_contra hc
      exact hc (h (by linarith))

/-- `Overflows`, in the choice between the largest finite number and the next power of two. -/
theorem overflows_iff {mode : RoundingMode} {neg : Bool} {x : ℝ} {q : Nat} (hx : 0 < x) (hq : q % 2 = 1)
    (h0 : (0 : ℝ) < largestFinite fmt) (hlt : (largestFinite fmt : ℝ) < overflowThreshold fmt) :
    Overflows fmt mode (signedReal neg x) ↔
      (overflowThreshold fmt : ℝ) ≤ x ∨
        ((largestFinite fmt : ℝ) ≤ x ∧ AwayFromZero mode neg q (largestFinite fmt) x (overflowThreshold fmt)) := by
  generalize hL : ((largestFinite fmt : ℚ) : ℝ) = L at *
  generalize hH : ((overflowThreshold fmt : ℚ) : ℝ) = H at *
  cases mode
  · simp only [Overflows, AwayFromZero, abs_signedReal, abs_of_pos hx, hL, hH, hq, and_true, ← le_iff_lt_or_eq,
      eq_comm (a := x)]
    exact ⟨fun h => .inr ⟨by linarith, h⟩, fun h => h.elim (fun h => by linarith) fun h => h.2⟩
  · simp only [Overflows, AwayFromZero, abs_signedReal, abs_of_pos hx, hH, and_false, or_false]
  · cases neg <;> simp only [Overflows, AwayFromZero, signedReal_true, signedReal_false, hH, hL, Bool.false_eq_true,
      false_and, and_false, or_false, true_and]
    · exact ⟨fun h => h.elim (fun h => by linarith) id, .inr⟩
    · constructor
      · rintro (h | h)
        · exact .inr ⟨by linarith, fun hc => by linarith⟩
        · linarith
      · rintro (h | ⟨h, h'⟩)
        · exact .inl (by linarith)
        · exact .inl (neg_lt_neg (lt_of_le_of_ne h h'.symm))
  · cases neg <;> simp only [Overflows, AwayFromZero, signedReal_true, signedReal_false, hH, hL, Bool.true_eq_false,
      false_and, and_false, or_false, true_and]
    · constructor
      · rintro (h | h)
        · linarith
        · exact .inr ⟨h.le, h.ne'⟩
      · rintro (h | ⟨h, h'⟩)
        · exact .inr (by linarith)
        · exact .inr (lt_of_le_of_ne h h'.symm)
    · exact ⟨fun h => h.elim (fun h => by linarith) fun h => by linarith, fun h => .inl (by linarith)⟩
  · simp only [Overflows, AwayFromZero, abs_signedReal, abs_of_pos hx, hL, hH]
    exact ⟨fun h => .inr ⟨by linarith, h⟩, fun h => h.elim (fun h => by linarith) fun h => h.2⟩

/-- `tinyAfterRounding` decides `Tiny`. -/
theorem tinyAfterRounding_iff {m : Nat} {e : Int} {x : ℝ} (mode : RoundingMode) (neg : Bool)
    (h : Represents fmt m e x) (hm : m ≠ 0) :
    tinyAfterRounding fmt mode neg m e = true ↔ Tiny fmt mode (signedReal neg x) := by
  obtain ⟨hlo, hhi⟩ := h.log2_bounds hm
  have hx : 0 < x := lt_of_lt_of_le (by positivity) hlo
  have hdef : tinyAfterRounding fmt mode neg m e =
      (decide (e + (Nat.log2 m : Int) - (fmt.fracBits : Int) < floatMinExp fmt) &&
        !(e + (Nat.log2 m : Int) - (fmt.fracBits : Int) == floatMinExp fmt - 1 &&
          (roundToExponent mode neg m e (e + (Nat.log2 m : Int) - (fmt.fracBits : Int))).1 ==
            2 ^ (fmt.fracBits + 1))) := rfl
  have hz : ((2 ^ (fmt.fracBits + 1) : Nat) : ℝ) * 2 ^ (floatMinExp fmt - 1) =
      2 ^ (floatMinExp fmt + fmt.fracBits) := by
    push_cast
    rw [← zpow_natCast, ← zpow_add₀ two_ne_zero]
    congr 1
    push_cast
    ring
  have hLN := leastNormal_eq fmt
  have hu : (0 : ℝ) < 2 ^ (floatMinExp fmt - 1) := by positivity
  have hN : 2 ≤ 2 ^ (fmt.fracBits + 1) := by
    have : 2 ^ 1 ≤ 2 ^ (fmt.fracBits + 1) := Nat.pow_le_pow_right two_pos (by omega)
    exact this
  have hodd : (2 ^ (fmt.fracBits + 1) - 1) % 2 = 1 := by
    rw [pow_succ'] at hN ⊢
    omega
  rw [tiny_iff hx hodd, hdef]
  generalize hT : e + (Nat.log2 m : Int) - (fmt.fracBits : Int) = T at *
  rcases lt_trichotomy T (floatMinExp fmt - 1) with hlt | rfl | hgt
  · rw [decide_eq_true (by omega), beq_false_of_ne hlt.ne]
    have h1 : x < 2 ^ (floatMinExp fmt + fmt.fracBits - 1) :=
      hhi.trans_le (zpow_le_zpow_right₀ one_le_two (by omega))
    rw [zpow_sub_one₀ two_ne_zero, ← hz, ← hLN] at h1
    have h2 : (2 : ℝ) * 2 ^ (floatMinExp fmt - 1) ≤ leastNormal fmt := by
      rw [hLN]
      exact mul_le_mul_of_nonneg_right (by exact_mod_cast hN) hu.le
    refine iff_of_true rfl ⟨by linarith, fun h' => ?_⟩
    linarith
  · obtain ⟨q, h1, h2, -, hround⟩ := h.round mode neg (T := floatMinExp fmt - 1) (by omega)
    have hxlt : x < leastNormal fmt := by
      rw [hLN, hz]
      exact hhi.trans_le (zpow_le_zpow_right₀ one_le_two (by omega))
    have hq : q + 1 ≤ 2 ^ (fmt.fracBits + 1) := by
      have := lt_of_mul_lt_mul_right (h1.trans_lt (hxlt.trans_eq hLN)) hu.le
      exact_mod_cast this
    rw [decide_eq_true (by omega), beq_self_eq_true, Bool.true_and, Bool.true_and, Bool.not_eq_true',
      beq_eq_false_iff_ne]
    rcases hq.lt_or_eq with hq | hq
    · refine iff_of_true (by omega) ⟨hxlt, fun hc => ?_⟩
      have : ((q + 1 : Nat) : ℝ) ≤ (2 ^ (fmt.fracBits + 1) - 1 : Nat) := by exact_mod_cast Nat.le_pred_of_lt hq
      rw [Nat.cast_sub (by omega), Nat.cast_one] at this
      rw [hLN] at hc
      nlinarith
    · obtain rfl : q = 2 ^ (fmt.fracBits + 1) - 1 := by omega
      have e2 : ((2 ^ (fmt.fracBits + 1) - 1 + 1 : Nat) : ℝ) * 2 ^ (floatMinExp fmt - 1) = leastNormal fmt := by
        rw [hq, hLN]
      have e1 : ((2 ^ (fmt.fracBits + 1) - 1 : Nat) : ℝ) * 2 ^ (floatMinExp fmt - 1) =
          leastNormal fmt - 2 ^ (floatMinExp fmt - 1) := by
        rw [Nat.cast_sub (by omega), hLN]
        push_cast
        ring
      rw [e1, e2] at hround
      rw [e1] at h1
      constructor
      · intro hne
        refine ⟨hxlt, fun _ => ?_⟩
        rcases hround with ⟨-, h'⟩ | ⟨h', -⟩
        · exact h'
        · omega
      · rintro ⟨-, h'⟩
        rcases hround with ⟨h'', -⟩ | ⟨-, haway⟩
        · omega
        · rcases h1.lt_or_eq with hlt | heq
          · exact absurd haway (h' hlt)
          · rw [← heq] at haway hxlt
            exact absurd haway (not_awayFromZero_exact hxlt)
  · rw [decide_eq_false (by omega)]
    refine iff_of_false Bool.false_ne_true fun hc => ?_
    refine absurd hc.1 (not_lt.2 ?_)
    rw [hLN, hz]
    exact le_trans (zpow_le_zpow_right₀ one_le_two (by omega)) hlo

/-! ## The nearest number -/

/-- The one of two neighbours that a mode chooses is nearest among all numbers that are not between them. -/
theorem nearestInFormat_of_neighbours {mode : RoundingMode} {neg : Bool} {q : Nat} {lo x hi v : ℝ} (h0 : 0 ≤ lo)
    (h1 : lo ≤ x) (h2 : x < hi) (hgap : ∀ w, IsNumberOf fmt w → w ≤ lo ∨ hi ≤ w)
    (hv : v = lo ∧ ¬AwayFromZero mode neg q lo x hi ∨ v = hi ∧ AwayFromZero mode neg q lo x hi) :
    NearestInFormat fmt mode (signedReal neg x) (signedReal neg v) := by
  have hx : 0 ≤ x := h0.trans h1
  have hgap' : ∀ w, IsNumberOf fmt w → signedReal neg w ≤ lo ∨ hi ≤ signedReal neg w :=
    fun w hw => hgap _ (hw.signedReal neg)
  have habs : ∀ w : ℝ, |signedReal neg x - signedReal neg w| = |x - w| := fun w => by
    rw [abs_signedReal_sub, signedReal_involutive]
  have hx' : |x| = x := abs_of_nonneg hx
  cases mode
  · intro w hw
    rw [habs, abs_signedReal_sub]
    simp only [AwayFromZero, not_or, not_lt] at hv
    rcases hv with ⟨rfl, hv, -⟩ | ⟨rfl, hv⟩
    · rw [abs_of_nonneg (sub_nonneg.2 h1)]
      rcases hgap' w hw with hw | hw
      · exact (by linarith : x - v ≤ x - signedReal neg w).trans (le_abs_self _)
      · exact (by linarith : x - v ≤ -(x - signedReal neg w)).trans (neg_le_abs _)
    · have hv : (lo + v) / 2 ≤ x := hv.elim le_of_lt fun h => h.1.ge
      rw [abs_sub_comm, abs_of_nonneg (sub_nonneg.2 h2.le)]
      rcases hgap' w hw with hw | hw
      · exact (by linarith : v - x ≤ x - signedReal neg w).trans (le_abs_self _)
      · exact (by linarith : v - x ≤ -(x - signedReal neg w)).trans (neg_le_abs _)
  · simp only [AwayFromZero, not_false_eq_true, and_true, and_false, or_false] at hv
    subst hv
    refine ⟨?_, ?_, fun w hw hle => ?_⟩
    · rw [abs_signedReal, abs_signedReal, abs_of_nonneg h0, hx']
      exact h1
    · cases neg <;> simp only [signedReal_true, signedReal_false] <;> nlinarith
    · rw [abs_signedReal, hx'] at hle
      rw [abs_signedReal, abs_of_nonneg h0]
      rw [abs_le] at hle ⊢
      constructor
      · rcases hgap _ (hw.signedReal true) with h | h <;> rw [signedReal_true] at h <;> linarith
      · rcases hgap _ hw with h | h <;> linarith
  · cases neg
    · simp only [AwayFromZero, Bool.false_eq_true, false_and, not_false_eq_true, and_true, and_false, or_false] at hv
      subst hv
      exact ⟨h1, fun w hw hle => (hgap w hw).resolve_right fun h => by
        rw [signedReal_false] at hle
        linarith⟩
    · simp only [AwayFromZero, true_and, not_not] at hv
      rcases hv with ⟨rfl, rfl⟩ | ⟨rfl, hv⟩
      · exact ⟨le_rfl, fun w _ hle => hle⟩
      · refine ⟨neg_le_neg h2.le, fun w hw hle => ?_⟩
        rcases hgap' w hw with h | h <;> simp only [signedReal_true] at h hle ⊢
        · exact absurd (le_antisymm (by linarith) h1) hv
        · linarith
  · cases neg
    · simp only [AwayFromZero, true_and, not_not] at hv
      rcases hv with ⟨rfl, rfl⟩ | ⟨rfl, hv⟩
      · exact ⟨le_rfl, fun w _ hle => hle⟩
      · refine ⟨h2.le, fun w hw hle => ?_⟩
        rw [signedReal_false] at hle
        exact (hgap w hw).resolve_left fun h => hv (le_antisymm (by linarith) h1)
    · simp only [AwayFromZero, Bool.true_eq_false, false_and, not_false_eq_true, and_true, and_false, or_false] at hv
      subst hv
      refine ⟨neg_le_neg h1, fun w hw hle => ?_⟩
      rcases hgap' w hw with h | h <;> simp only [signedReal_true] at h hle ⊢ <;> linarith
  · intro w hw
    have hwabs : |w| = |signedReal neg w| := (abs_signedReal neg w).symm
    rw [habs, abs_signedReal_sub, abs_signedReal, hwabs]
    generalize hw' : signedReal neg w = w' at *
    have hgw := hgap' w hw
    rw [hw'] at hgw
    have hgw2 : -w' ≤ lo ∨ hi ≤ -w' := by
      rw [← hw']
      exact hgap _ ((hw.signedReal neg).signedReal true)
    simp only [AwayFromZero, not_le] at hv
    rcases hv with ⟨rfl, hv⟩ | ⟨rfl, hv⟩
    · rw [abs_of_nonneg (sub_nonneg.2 h1), abs_of_nonneg h0]
      rcases hgw with h | h
      · rw [abs_of_nonneg (by linarith : 0 ≤ x - w')]
        refine ⟨by linarith, fun he => ?_⟩
        rw [show w' = v by linarith, abs_of_nonneg h0]
      · rw [abs_of_nonpos (by linarith : x - w' ≤ 0)]
        exact ⟨by linarith, fun he => by linarith⟩
    · rw [abs_sub_comm x v, abs_of_nonneg (sub_nonneg.2 h2.le), abs_of_nonneg (hx.trans h2.le)]
      rcases hgw with h | h
      · rw [abs_of_nonneg (by linarith : 0 ≤ x - w')]
        refine ⟨by linarith, fun he => ?_⟩
        rw [abs_le]
        constructor <;> linarith
      · rw [abs_of_nonpos (by linarith : x - w' ≤ 0)]
        refine ⟨by linarith, fun he => ?_⟩
        rw [show w' = v by linarith, abs_of_nonneg (hx.trans h2.le)]

/-- Everything `roundAndPack` can do (spec/45_fd_extension.md R242, R243, R247): a significand and an exponent that
stand for a positive number are rounded as `DeliversRounded` says. -/
theorem roundAndPack_deliversRounded (he : 2 ≤ fmt.expBits) (hf : 1 ≤ fmt.fracBits) {m : Nat} {e : Int} {x : ℝ}
    (mode : RoundingMode) (neg zeroNeg : Bool) (h : Represents fmt m e x) (hx : 0 < x) :
    DeliversRounded fmt mode zeroNeg (signedReal neg x) (roundAndPack fmt mode neg m e) := by
  have hm : m ≠ 0 := h.ne_zero hx
  have hsign : neg = true ↔ signedReal neg x < 0 := by cases neg <;> simp [hx, hx.le]
  have hsign' : decide (signedReal neg x < 0) = neg := by
    rw [decide_eq_decide.2 hsign.symm]
    cases neg <;> rfl
  obtain ⟨M₀, M, hlo, hhi, hM, hover, hpack⟩ := roundAndPack_magnitude hf mode neg h hm
  have mono := magnitudeValue_strictMono fmt
  have hB := infinityMagnitude_pos he
  have hH := magnitudeValue_infinityMagnitude he
  have hL := magnitudeValue_largest he
  have hLH : ((largestFinite fmt : ℚ) : ℝ) < overflowThreshold fmt := by
    rw [← hH, ← hL]
    exact mono (by omega)
  have hL0 : (0 : ℝ) < largestFinite fmt := by
    rw [← hL, ← magnitudeValue_zero fmt]
    have := infinityMagnitude_even (fmt := fmt) hf
    exact mono (by omega)
  have hodd : (infinityMagnitude fmt - 1) % 2 = 1 := by
    have := infinityMagnitude_even (fmt := fmt) hf
    omega
  have hoverflow : Overflows fmt mode (signedReal neg x) ↔ infinityMagnitude fmt ≤ M := by
    rw [overflows_iff hx hodd hL0 hLH]
    rcases lt_trichotomy (M₀ + 1) (infinityMagnitude fmt) with hlt | heq | hgt
    · have hxL : x < largestFinite fmt := hhi.trans_le (hL ▸ mono.monotone (by omega))
      exact iff_of_false (fun hc => hc.elim (fun h => by linarith) fun h => by linarith [h.1]) (by omega)
    · obtain rfl : M₀ = infinityMagnitude fmt - 1 := by omega
      rw [heq, hH, hL] at hM
      rw [heq, hH] at hhi
      rw [hL] at hlo
      rw [or_iff_right (not_le.2 hhi), and_iff_right hlo]
      rcases hM with ⟨rfl, h'⟩ | ⟨rfl, h'⟩
      · exact iff_of_false h' (by omega)
      · exact iff_of_true h' (by omega)
    · have hxH : (overflowThreshold fmt : ℝ) ≤ x := hH ▸ (mono.monotone (by omega)).trans hlo
      exact iff_of_true (.inl hxH) (by omega)
  refine ⟨fun h0 => ?_, fun _ ho => ?_, fun _ ho => ?_⟩
  · rw [← abs_eq_zero, abs_signedReal, abs_eq_zero] at h0
    exact absurd h0 hx.ne'
  · rw [hover (hoverflow.1 ho), hsign']
    refine ⟨rfl, ?_⟩
    have hfin := unpack_packMagnitude (fmt := fmt) neg (M := infinityMagnitude fmt - 1) (by omega)
    have hval : rationalOf false (significandOf fmt (infinityMagnitude fmt - 1))
        (exponentOf fmt (infinityMagnitude fmt - 1)) = largestFinite fmt := by
      have := rationalOf_packMagnitude (fmt := fmt) false (infinityMagnitude fmt - 1)
      rw [signedReal_false, hL] at this
      exact_mod_cast this
    cases mode <;> cases neg <;> simp [overflowsToInfinity, unpack_packInfinity] <;> exact ⟨_, _, hfin, hval⟩
  · rw [hoverflow, not_le] at ho
    obtain ⟨hp, hexact, hinexact⟩ := hpack ho
    have hgap : ∀ w, IsNumberOf fmt w → w ≤ magnitudeValue fmt M₀ ∨ magnitudeValue fmt (M₀ + 1) ≤ w :=
      fun w hw => hw.gap M₀
    have hveq : magnitudeValue fmt M = x ↔ x = magnitudeValue fmt M₀ := by
      rcases hM with ⟨rfl, -⟩ | ⟨rfl, h'⟩
      · exact eq_comm
      · refine iff_of_false hhi.ne' fun hc => ?_
        rw [← hc] at h'
        exact not_awayFromZero_exact hhi h'
    refine ⟨neg, _, _, signedReal neg (magnitudeValue fmt M), ?_, (rationalOf_packMagnitude neg M).symm, hsign, ?_,
      fun hmode => ?_, fun hv => ?_, fun hv => ?_, fun hv => ?_⟩
    · rw [hp, unpack_packMagnitude neg ho]
    · refine nearestInFormat_of_neighbours (q := M₀) (magnitudeValue_nonneg fmt M₀) hlo hhi hgap ?_
      exact hM.imp (fun h => ⟨by rw [h.1], h.2⟩) fun h => ⟨by rw [h.1], h.2⟩
    · rintro ⟨w, hw, hne, heq⟩
      subst hmode
      rw [hp, packMagnitude_lowBit hf neg ho, decide_eq_false_iff_not]
      rw [abs_signedReal_sub, abs_signedReal_sub, signedReal_involutive] at heq
      have hne' : signedReal neg w ≠ magnitudeValue fmt M := fun hc => hne (by rw [← hc, signedReal_involutive])
      have hgw := hgap _ (hw.signedReal neg)
      rcases hM with ⟨rfl, h'⟩ | ⟨rfl, h'⟩ <;> simp only [AwayFromZero, not_or, not_lt, not_and] at h'
      · rw [abs_of_nonneg (sub_nonneg.2 hlo)] at heq
        rcases hgw with hc | hc
        · rw [abs_of_nonneg (by linarith)] at heq
          exact absurd (by linarith) hne'
        · rw [abs_of_nonpos (by linarith)] at heq
          exact h'.2 (le_antisymm h'.1 (by linarith))
      · rw [abs_sub_comm x (magnitudeValue fmt (M₀ + 1)), abs_of_nonneg (sub_nonneg.2 hhi.le)] at heq
        rcases hgw with hc | hc
        · rw [abs_of_nonneg (by linarith)] at heq
          rcases h' with h' | ⟨-, h'⟩
          · linarith
          · omega
        · rw [abs_of_nonpos (by linarith)] at heq
          exact absurd (by linarith) hne'
    · rw [signedReal_inj, hveq] at hv
      exact hexact hv
    · rw [Ne, signedReal_inj, hveq] at hv
      rw [← tinyAfterRounding_iff mode neg h hm]
      intro ht
      rw [hinexact hv, if_pos ht]
    · rw [Ne, signedReal_inj, hveq] at hv
      rw [← tinyAfterRounding_iff mode neg h hm]
      intro ht
      rw [hinexact hv, if_neg ht]

/-! ## Results -/

/-- A packed zero without a flag. -/
theorem deliversZero_packZero (he : 2 ≤ fmt.expBits) (neg : Bool) : DeliversZero fmt neg (packZero fmt neg, flagNone) :=
  ⟨⟨_, unpack_packZero he neg⟩, rfl⟩

/-- An exact zero result. -/
theorem deliversRounded_zero {mode : RoundingMode} {neg : Bool} {r : BitVec fmt.width × FpFlags}
    (h : DeliversZero fmt neg r) : DeliversRounded fmt mode neg 0 r :=
  ⟨fun _ => h, fun h => absurd rfl h, fun h => absurd rfl h⟩

/-- The sign of a zero says nothing of another result. -/
theorem DeliversRounded.zeroNeg {mode : RoundingMode} {a b : Bool} {q : ℝ} {r : BitVec fmt.width × FpFlags}
    (h : DeliversRounded fmt mode a q r) (hq : q ≠ 0) : DeliversRounded fmt mode b q r :=
  ⟨fun h0 => absurd h0 hq, h.2⟩

/-- Rounding a number given exactly. -/
theorem roundAndPack_exact (he : 2 ≤ fmt.expBits) (hf : 1 ≤ fmt.fracBits) (mode : RoundingMode) (neg : Bool) (m : Nat)
    (e : Int) : DeliversRounded fmt mode neg (rationalOf neg m e : ℝ) (roundAndPack fmt mode neg m e) := by
  rw [rationalOf_cast]
  rcases eq_or_ne m 0 with rfl | hm
  · rw [roundAndPack, if_pos rfl, Nat.cast_zero, zero_mul,
      show signedReal neg 0 = 0 by cases neg <;> simp]
    exact deliversRounded_zero (deliversZero_packZero he neg)
  · have hx : (0 : ℝ) < m * 2 ^ e := mul_pos (Nat.cast_pos.2 (Nat.pos_of_ne_zero hm)) (by positivity)
    exact roundAndPack_deliversRounded he hf mode neg neg (.inl (compares_exact m e)) hx

/-- Everything `addValues` does with two finite values (spec/45_fd_extension.md R254). -/
theorem addValues_finite (he : 2 ≤ fmt.expBits) (hf : 1 ≤ fmt.fracBits) (mode : RoundingMode) (na nb : Bool)
    (ma mb : Nat) (ea eb : Int) :
    DeliversRounded fmt mode (zeroSumSign mode na nb) (rationalOf na ma ea + rationalOf nb mb eb : ℝ)
      (addValues fmt mode (.finite na ma ea) (.finite nb mb eb)) := by
  rw [rationalOf_align na ma (min_le_left ea eb), rationalOf_align nb mb (min_le_right ea eb), ← add_mul,
    ← Int.cast_add]
  simp only [addValues]
  generalize signedNat na (ma * 2 ^ (ea - min ea eb).toNat) + signedNat nb (mb * 2 ^ (eb - min ea eb).toNat) = sum
  generalize min ea eb = e
  rcases eq_or_ne sum 0 with h | h
  · rw [if_pos h, h, Int.cast_zero, zero_mul]
    exact deliversRounded_zero (deliversZero_packZero he _)
  · rw [if_neg h]
    have hval : ((sum : Int) : ℝ) * 2 ^ e = (rationalOf (decide (sum < 0)) sum.natAbs e : ℚ) := by
      rw [rationalOf_cast]
      rcases lt_or_ge sum 0 with hs | hs
      · rw [decide_eq_true hs, signedReal_true, ← neg_mul, ← Int.cast_natCast, Int.ofNat_natAbs_of_nonpos hs.le]
        push_cast
        ring
      · rw [decide_eq_false hs.not_gt, signedReal_false, ← Int.cast_natCast, Int.natAbs_of_nonneg hs]
    rw [hval]
    refine (roundAndPack_exact he hf mode _ _ _).zeroNeg ?_
    rw [← hval]
    positivity

/-- The quotient `fpDiv` rounds, with the remainder as a sticky last bit, stands for the exact one. -/
theorem represents_quotient {ma mb : Nat} (hma : ma ≠ 0) (hmb : mb ≠ 0) (ea eb : Int) :
    Represents fmt
      (2 * (ma * 2 ^ (fmt.fracBits + 4 + Nat.log2 mb) / mb) +
        if ma * 2 ^ (fmt.fracBits + 4 + Nat.log2 mb) % mb = 0 then 0 else 1)
      (ea - eb - ((fmt.fracBits + 4 + Nat.log2 mb : Nat) : Int) - 1)
      ((ma : ℝ) * 2 ^ ea / (mb * 2 ^ eb)) := by
  generalize hS : fmt.fracBits + 4 + Nat.log2 mb = S
  set N := ma * 2 ^ S with hN
  set Q := N / mb
  set r := N % mb
  have hdiv : Q * mb + r = N := Nat.div_add_mod' N mb
  have hr : r < mb := Nat.mod_lt _ (Nat.pos_of_ne_zero hmb)
  have hmb0 : (0 : ℝ) < mb := by exact_mod_cast Nat.pos_of_ne_zero hmb
  set E : Int := ea - eb - (S : Int) - 1 with hE
  have hE0 : (0 : ℝ) < 2 ^ E := by positivity
  have hval : (ma : ℝ) * 2 ^ ea / (mb * 2 ^ eb) = 2 * ((Q : ℝ) + r / mb) * 2 ^ E := by
    have h1 : (2 : ℝ) ^ ea = 2 ^ E * 2 * 2 ^ S * 2 ^ eb := by
      rw [← zpow_natCast, ← zpow_add_one₀ two_ne_zero, ← zpow_add₀ two_ne_zero, ← zpow_add₀ two_ne_zero]
      congr 1
      omega
    have h2 : (ma : ℝ) * 2 ^ S = Q * mb + r := by exact_mod_cast hdiv.symm
    have h3 : (2 : ℝ) ^ eb ≠ 0 := by positivity
    rw [h1, div_eq_iff (mul_ne_zero hmb0.ne' h3)]
    field_simp
    rw [← h2]
  have hQ : 2 ^ (fmt.fracBits + 3) ≤ Q := by
    rw [Nat.le_div_iff_mul_le (Nat.pos_of_ne_zero hmb), hN, ← hS]
    have h1 : mb < 2 ^ (Nat.log2 mb + 1) := Nat.lt_log2_self
    calc 2 ^ (fmt.fracBits + 3) * mb ≤ 2 ^ (fmt.fracBits + 3) * 2 ^ (Nat.log2 mb + 1) := Nat.mul_le_mul_left _ h1.le
      _ = 1 * 2 ^ (fmt.fracBits + 4 + Nat.log2 mb) := by rw [← pow_add, one_mul]; congr 1; omega
      _ ≤ _ := Nat.mul_le_mul_right _ (Nat.pos_of_ne_zero hma)
  rw [hval]
  split_ifs with h0
  · left
    rw [show 2 * ((Q : ℝ) + r / mb) = ((2 * Q + 0 : Nat) : ℝ) by rw [h0]; push_cast; ring]
    exact compares_exact _ _
  · right
    have hr1 : (0 : ℝ) < r / mb := div_pos (by exact_mod_cast Nat.pos_of_ne_zero h0) hmb0
    have hr2 : (r : ℝ) / mb < 1 := (div_lt_one hmb0).2 (by exact_mod_cast hr)
    refine ⟨compares_sticky (by omega) ?_ ?_, by omega⟩
    · rw [Nat.add_sub_cancel]
      refine mul_lt_mul_of_pos_right ?_ hE0
      push_cast
      linarith
    · refine mul_lt_mul_of_pos_right ?_ hE0
      push_cast
      linarith

/-- The integer square root. -/
theorem integerSqrt_spec : ∀ bits n : Nat, n < 4 ^ bits →
    integerSqrt bits n * integerSqrt bits n ≤ n ∧ n < (integerSqrt bits n + 1) * (integerSqrt bits n + 1)
  | 0, n, h => by
    rw [pow_zero] at h
    simp [integerSqrt]
    omega
  | bits + 1, n, h => by
    have ih := integerSqrt_spec bits (n / 4) (by rw [pow_succ] at h; omega)
    simp only [integerSqrt]
    generalize integerSqrt bits (n / 4) = r at *
    have h4 := Nat.div_add_mod n 4
    have h4' := Nat.mod_lt n (by norm_num : 4 > 0)
    split_ifs with hc
    · exact ⟨hc, by nlinarith [ih.2]⟩
    · exact ⟨by rw [show 2 * r * (2 * r) = 4 * (r * r) by ring]; omega, by omega⟩

/-- The root `fpSqrt` rounds, with the remainder as a sticky last bit, stands for the exact one. -/
theorem represents_sqrt {m : Nat} (hm : m ≠ 0) (e : Int) :
    Represents fmt
      (2 * integerSqrt ((Nat.log2 m + (2 * (fmt.fracBits + 4) + (e % 2).toNat)) / 2 + 1)
          (m * 2 ^ (2 * (fmt.fracBits + 4) + (e % 2).toNat)) +
        if integerSqrt ((Nat.log2 m + (2 * (fmt.fracBits + 4) + (e % 2).toNat)) / 2 + 1)
            (m * 2 ^ (2 * (fmt.fracBits + 4) + (e % 2).toNat)) *
          integerSqrt ((Nat.log2 m + (2 * (fmt.fracBits + 4) + (e % 2).toNat)) / 2 + 1)
            (m * 2 ^ (2 * (fmt.fracBits + 4) + (e % 2).toNat)) =
          m * 2 ^ (2 * (fmt.fracBits + 4) + (e % 2).toNat) then 0 else 1)
      ((e - ((2 * (fmt.fracBits + 4) + (e % 2).toNat : Nat) : Int)) / 2 - 1) (√(m * 2 ^ e)) := by
  generalize hS : 2 * (fmt.fracBits + 4) + (e % 2).toNat = S
  set N := m * 2 ^ S with hN
  have hN4 : N < 4 ^ ((Nat.log2 m + S) / 2 + 1) := by
    have h1 : m < 2 ^ (Nat.log2 m + 1) := Nat.lt_log2_self
    calc N < 2 ^ (Nat.log2 m + 1) * 2 ^ S := Nat.mul_lt_mul_of_pos_right h1 (Nat.two_pow_pos _)
      _ = 2 ^ (Nat.log2 m + 1 + S) := (pow_add ..).symm
      _ ≤ 2 ^ (2 * ((Nat.log2 m + S) / 2 + 1)) := Nat.pow_le_pow_right two_pos (by omega)
      _ = _ := pow_mul 2 2 _
  obtain ⟨h1, h2⟩ := integerSqrt_spec _ _ hN4
  generalize integerSqrt ((Nat.log2 m + S) / 2 + 1) N = r at *
  obtain ⟨E, hE⟩ : ∃ E : Int, e - S = 2 * (E + 1) := ⟨(e - S) / 2 - 1, by omega⟩
  rw [show (e - (S : Int)) / 2 - 1 = E by omega]
  have hE0 : (0 : ℝ) < 2 ^ E := by positivity
  have hval : √((m : ℝ) * 2 ^ e) = 2 * √(N : ℝ) * 2 ^ E := by
    have : (m : ℝ) * 2 ^ e = N * (2 * 2 ^ E) ^ 2 := by
      rw [mul_pow, ← zpow_natCast (2 ^ E : ℝ), ← zpow_mul, hN]
      push_cast
      rw [mul_assoc, ← zpow_natCast (2 : ℝ) S, ← zpow_natCast (2 : ℝ) 2, ← zpow_add₀ two_ne_zero,
        ← zpow_add₀ two_ne_zero]
      congr 2
      push_cast
      omega
    rw [this, Real.sqrt_mul (Nat.cast_nonneg _), Real.sqrt_sq (by positivity)]
    ring
  have hr1 : (r : ℝ) ≤ √(N : ℝ) := Real.le_sqrt_of_sq_le (by rw [sq]; exact_mod_cast h1)
  have hr2 : √(N : ℝ) < r + 1 := by
    rw [Real.sqrt_lt' (by positivity), sq]
    exact_mod_cast h2
  rw [hval]
  split_ifs with h0
  · left
    have hs : √(N : ℝ) = r := by
      rw [← h0]
      push_cast
      exact Real.sqrt_mul_self (Nat.cast_nonneg _)
    rw [hs, show 2 * (r : ℝ) = ((2 * r + 0 : Nat) : ℝ) by push_cast; ring]
    exact compares_exact _ _
  · right
    have hlt : (r : ℝ) < √(N : ℝ) := by
      refine lt_of_le_of_ne hr1 fun hc => h0 ?_
      have := Real.mul_self_sqrt (Nat.cast_nonneg (α := ℝ) N)
      rw [← hc] at this
      exact_mod_cast this
    have hbig : 2 ^ (fmt.fracBits + 4) < r + 1 := by
      by_contra hc
      have h3 : (r + 1) * (r + 1) ≤ 2 ^ (fmt.fracBits + 4) * 2 ^ (fmt.fracBits + 4) :=
        Nat.mul_le_mul (not_lt.1 hc) (not_lt.1 hc)
      rw [← pow_add] at h3
      have h4 : 2 ^ (fmt.fracBits + 4 + (fmt.fracBits + 4)) ≤ 1 * 2 ^ S := by
        rw [one_mul]
        exact Nat.pow_le_pow_right two_pos (by omega)
      have h5 : 1 * 2 ^ S ≤ N := Nat.mul_le_mul_right _ (Nat.pos_of_ne_zero hm)
      omega
    have hp : 2 ^ (fmt.fracBits + 4) = 2 * 2 ^ (fmt.fracBits + 3) := pow_succ' 2 _
    refine ⟨compares_sticky (by omega) ?_ ?_, by omega⟩
    · rw [Nat.add_sub_cancel]
      refine mul_lt_mul_of_pos_right ?_ hE0
      push_cast
      linarith
    · refine mul_lt_mul_of_pos_right ?_ hE0
      push_cast
      linarith

end Sys2Proof.Machine
end

