-- ==== Sys2Proof/Tests/Slice0.lean ====
section
/-! SUPPORT. Tests. The words are written out from the encodings of spec/30_encoding.md; the expected results are those
of the vectors of spec/95_test_vectors.md and spec/96_test_vectors_extensions.md, or follow from the rule by hand. -/

set_option Elab.async false

namespace Sys2Proof.Tests

open Sys2Proof Sys2Proof.Machine

/-! ## Well-formedness refuses an odd offset (spec/30_encoding.md R88, R90) -/

theorem test_beq_odd_offset_is_ill_formed : (Instr.beq 1 2 0x0005).wellFormed = false := by decide
theorem test_bne_odd_offset_is_ill_formed : (Instr.bne 1 2 0x0005).wellFormed = false := by decide
theorem test_blt_odd_offset_is_ill_formed : (Instr.blt 1 2 0x0005).wellFormed = false := by decide
theorem test_bge_odd_offset_is_ill_formed : (Instr.bge 1 2 0x0005).wellFormed = false := by decide
theorem test_bltu_odd_offset_is_ill_formed : (Instr.bltu 1 2 0x0005).wellFormed = false := by decide
theorem test_bgeu_odd_offset_is_ill_formed : (Instr.bgeu 1 2 0x0005).wellFormed = false := by decide
theorem test_jal_odd_offset_is_ill_formed : (Instr.jal 1 0x000005).wellFormed = false := by decide
theorem test_even_offsets_are_well_formed : (Instr.beq 1 2 0x1FFE).wellFormed = true ∧ (Instr.jal 1 0x1FFFFE).wellFormed = true := by
  decide

/-! ## Decoding: every constructor, its word field by field, most significant first -/

/-- Words of load_store written out field by field. -/
def words_load_store : List (Word × Instr) := [
  (0b100000000011_00110_000_00101_0000011, .lb 5 6 0x803),
  (0b100000000011_00110_001_00101_0000011, .lh 5 6 0x803),
  (0b100000000011_00110_010_00101_0000011, .lw 5 6 0x803),
  (0b100000000011_00110_100_00101_0000011, .lbu 5 6 0x803),
  (0b100000000011_00110_101_00101_0000011, .lhu 5 6 0x803),
  (0b1000001_00111_00110_000_00011_0100011, .sb 7 6 0x823),
  (0b1000001_00111_00110_001_00011_0100011, .sh 7 6 0x823),
  (0b1000001_00111_00110_010_00011_0100011, .sw 7 6 0x823)]

theorem test_decode_load_store : words_load_store.all (fun p => decide (decode p.1 = .ok p.2) && encode p.2 == p.1) = true := by
  decide +kernel

/-- Words of system written out field by field. -/
def words_system : List (Word × Instr) := [
  (0b100000000011_00110_000_00101_0001111, .fence 5 6 0x803),
  (0b100000000011_00110_001_00101_0001111, .fenceI 5 6 0x803),
  (0b000000000000_00000_000_00000_1110011, .ecall),
  (0b000000000001_00000_000_00000_1110011, .ebreak),
  (0b000000000011_00110_001_00101_1110011, .csrrw 5 0x3 6),
  (0b000000000011_00110_010_00101_1110011, .csrrs 5 0x3 6),
  (0b000000000011_00110_011_00101_1110011, .csrrc 5 0x3 6),
  (0b000000000011_10110_101_00101_1110011, .csrrwi 5 0x3 22),
  (0b000000000011_10110_110_00101_1110011, .csrrsi 5 0x3 22),
  (0b000000000011_10110_111_00101_1110011, .csrrci 5 0x3 22)]

theorem test_decode_system : words_system.all (fun p => decide (decode p.1 = .ok p.2) && encode p.2 == p.1) = true := by
  decide +kernel

/-- Words of integer written out field by field. -/
def words_integer : List (Word × Instr) := [
  (0b100000000011_00110_000_00101_0010011, .addi 5 6 0x803),
  (0b0000000_10001_00110_001_00101_0010011, .slli 5 6 17),
  (0b100000000011_00110_010_00101_0010011, .slti 5 6 0x803),
  (0b100000000011_00110_011_00101_0010011, .sltiu 5 6 0x803),
  (0b100000000011_00110_100_00101_0010011, .xori 5 6 0x803),
  (0b0000000_10001_00110_101_00101_0010011, .srli 5 6 17),
  (0b0100000_10001_00110_101_00101_0010011, .srai 5 6 17),
  (0b100000000011_00110_110_00101_0010011, .ori 5 6 0x803),
  (0b100000000011_00110_111_00101_0010011, .andi 5 6 0x803),
  (0b10000000000000000011_00101_0010111, .auipc 5 0x80003),
  (0b0000000_00111_00110_000_00101_0110011, .add 5 6 7),
  (0b0100000_00111_00110_000_00101_0110011, .sub 5 6 7),
  (0b0000000_00111_00110_001_00101_0110011, .sll 5 6 7),
  (0b0000000_00111_00110_010_00101_0110011, .slt 5 6 7),
  (0b0000000_00111_00110_011_00101_0110011, .sltu 5 6 7),
  (0b0000000_00111_00110_100_00101_0110011, .xor 5 6 7),
  (0b0000000_00111_00110_101_00101_0110011, .srl 5 6 7),
  (0b0100000_00111_00110_101_00101_0110011, .sra 5 6 7),
  (0b0000000_00111_00110_110_00101_0110011, .or 5 6 7),
  (0b0000000_00111_00110_111_00101_0110011, .and 5 6 7),
  (0b10000000000000000011_00101_0110111, .lui 5 0x80003)]

theorem test_decode_integer : words_integer.all (fun p => decide (decode p.1 = .ok p.2) && encode p.2 == p.1) = true := by
  decide +kernel

/-- Words of control written out field by field. -/
def words_control : List (Word × Instr) := [
  (0b1_000001_00111_00110_000_0110_0_1100011, .beq 6 7 0x102C),
  (0b1_000001_00111_00110_001_0110_0_1100011, .bne 6 7 0x102C),
  (0b1_000001_00111_00110_100_0110_0_1100011, .blt 6 7 0x102C),
  (0b1_000001_00111_00110_101_0110_0_1100011, .bge 6 7 0x102C),
  (0b1_000001_00111_00110_110_0110_0_1100011, .bltu 6 7 0x102C),
  (0b1_000001_00111_00110_111_0110_0_1100011, .bgeu 6 7 0x102C),
  (0b100000000011_00110_000_00101_1100111, .jalr 5 6 0x803),
  (0b1_0000000110_1_00000101_00101_1101111, .jal 5 0x10580C)]

theorem test_decode_control : words_control.all (fun p => decide (decode p.1 = .ok p.2) && encode p.2 == p.1) = true := by
  decide +kernel

/-- Words of multiply written out field by field. -/
def words_multiply : List (Word × Instr) := [
  (0b0000001_00111_00110_000_00101_0110011, .mul 5 6 7),
  (0b0000001_00111_00110_001_00101_0110011, .mulh 5 6 7),
  (0b0000001_00111_00110_010_00101_0110011, .mulhsu 5 6 7),
  (0b0000001_00111_00110_011_00101_0110011, .mulhu 5 6 7),
  (0b0000001_00111_00110_100_00101_0110011, .div 5 6 7),
  (0b0000001_00111_00110_101_00101_0110011, .divu 5 6 7),
  (0b0000001_00111_00110_110_00101_0110011, .rem 5 6 7),
  (0b0000001_00111_00110_111_00101_0110011, .remu 5 6 7)]

theorem test_decode_multiply : words_multiply.all (fun p => decide (decode p.1 = .ok p.2) && encode p.2 == p.1) = true := by
  decide +kernel

/-- Words of atomic written out field by field. -/
def words_atomic : List (Word × Instr) := [
  (0b00010_1_0_00000_00110_010_00101_0101111, .lrW 5 6 1 0),
  (0b00010_1_0_00000_00110_011_00101_0101111, .lrD 5 6 1 0),
  (0b00011_1_0_00111_00110_010_00101_0101111, .scW 5 7 6 1 0),
  (0b00011_1_0_00111_00110_011_00101_0101111, .scD 5 7 6 1 0),
  (0b00001_1_0_00111_00110_010_00101_0101111, .amoswapW 5 7 6 1 0),
  (0b00001_1_0_00111_00110_011_00101_0101111, .amoswapD 5 7 6 1 0),
  (0b00000_1_0_00111_00110_010_00101_0101111, .amoaddW 5 7 6 1 0),
  (0b00000_1_0_00111_00110_011_00101_0101111, .amoaddD 5 7 6 1 0),
  (0b00100_1_0_00111_00110_010_00101_0101111, .amoxorW 5 7 6 1 0),
  (0b00100_1_0_00111_00110_011_00101_0101111, .amoxorD 5 7 6 1 0),
  (0b01100_1_0_00111_00110_010_00101_0101111, .amoandW 5 7 6 1 0),
  (0b01100_1_0_00111_00110_011_00101_0101111, .amoandD 5 7 6 1 0),
  (0b01000_1_0_00111_00110_010_00101_0101111, .amoorW 5 7 6 1 0),
  (0b01000_1_0_00111_00110_011_00101_0101111, .amoorD 5 7 6 1 0),
  (0b10000_1_0_00111_00110_010_00101_0101111, .amominW 5 7 6 1 0),
  (0b10000_1_0_00111_00110_011_00101_0101111, .amominD 5 7 6 1 0),
  (0b10100_1_0_00111_00110_010_00101_0101111, .amomaxW 5 7 6 1 0),
  (0b10100_1_0_00111_00110_011_00101_0101111, .amomaxD 5 7 6 1 0),
  (0b11000_1_0_00111_00110_010_00101_0101111, .amominuW 5 7 6 1 0),
  (0b11000_1_0_00111_00110_011_00101_0101111, .amominuD 5 7 6 1 0),
  (0b11100_1_0_00111_00110_010_00101_0101111, .amomaxuW 5 7 6 1 0),
  (0b11100_1_0_00111_00110_011_00101_0101111, .amomaxuD 5 7 6 1 0)]

theorem test_decode_atomic : words_atomic.all (fun p => decide (decode p.1 = .ok p.2) && encode p.2 == p.1) = true := by
  decide +kernel

/-- Words of float written out field by field. -/
def words_float : List (Word × Instr) := [
  (0b100000000011_00110_010_00101_0000111, .flw 5 6 0x803),
  (0b100000000011_00110_011_00101_0000111, .fld 5 6 0x803),
  (0b1000001_00111_00110_010_00011_0100111, .fsw 7 6 0x823),
  (0b1000001_00111_00110_011_00011_0100111, .fsd 7 6 0x823),
  (0b0000000_00111_00110_010_00101_1010011, .faddS 5 6 7 2),
  (0b0000001_00111_00110_010_00101_1010011, .faddD 5 6 7 2),
  (0b0000100_00111_00110_010_00101_1010011, .fsubS 5 6 7 2),
  (0b0000101_00111_00110_010_00101_1010011, .fsubD 5 6 7 2),
  (0b0001000_00111_00110_010_00101_1010011, .fmulS 5 6 7 2),
  (0b0001001_00111_00110_010_00101_1010011, .fmulD 5 6 7 2),
  (0b0001100_00111_00110_010_00101_1010011, .fdivS 5 6 7 2),
  (0b0001101_00111_00110_010_00101_1010011, .fdivD 5 6 7 2),
  (0b0101100_00000_00110_010_00101_1010011, .fsqrtS 5 6 2),
  (0b0101101_00000_00110_010_00101_1010011, .fsqrtD 5 6 2),
  (0b01001_00_00111_00110_010_00101_1000011, .fmaddS 5 6 7 9 2),
  (0b01001_01_00111_00110_010_00101_1000011, .fmaddD 5 6 7 9 2),
  (0b01001_00_00111_00110_010_00101_1000111, .fmsubS 5 6 7 9 2),
  (0b01001_01_00111_00110_010_00101_1000111, .fmsubD 5 6 7 9 2),
  (0b01001_00_00111_00110_010_00101_1001011, .fnmsubS 5 6 7 9 2),
  (0b01001_01_00111_00110_010_00101_1001011, .fnmsubD 5 6 7 9 2),
  (0b01001_00_00111_00110_010_00101_1001111, .fnmaddS 5 6 7 9 2),
  (0b01001_01_00111_00110_010_00101_1001111, .fnmaddD 5 6 7 9 2),
  (0b0010000_00111_00110_000_00101_1010011, .fsgnjS 5 6 7),
  (0b0010001_00111_00110_000_00101_1010011, .fsgnjD 5 6 7),
  (0b0010000_00111_00110_001_00101_1010011, .fsgnjnS 5 6 7),
  (0b0010001_00111_00110_001_00101_1010011, .fsgnjnD 5 6 7),
  (0b0010000_00111_00110_010_00101_1010011, .fsgnjxS 5 6 7),
  (0b0010001_00111_00110_010_00101_1010011, .fsgnjxD 5 6 7),
  (0b0010100_00111_00110_000_00101_1010011, .fminS 5 6 7),
  (0b0010101_00111_00110_000_00101_1010011, .fminD 5 6 7),
  (0b0010100_00111_00110_001_00101_1010011, .fmaxS 5 6 7),
  (0b0010101_00111_00110_001_00101_1010011, .fmaxD 5 6 7)]

theorem test_decode_float : words_float.all (fun p => decide (decode p.1 = .ok p.2) && encode p.2 == p.1) = true := by
  decide +kernel

/-- Words of convert written out field by field. -/
def words_convert : List (Word × Instr) := [
  (0b1010000_00111_00110_010_00101_1010011, .feqS 5 6 7),
  (0b1010001_00111_00110_010_00101_1010011, .feqD 5 6 7),
  (0b1010000_00111_00110_001_00101_1010011, .fltS 5 6 7),
  (0b1010001_00111_00110_001_00101_1010011, .fltD 5 6 7),
  (0b1010000_00111_00110_000_00101_1010011, .fleS 5 6 7),
  (0b1010001_00111_00110_000_00101_1010011, .fleD 5 6 7),
  (0b1110000_00000_00110_001_00101_1010011, .fclassS 5 6),
  (0b1110001_00000_00110_001_00101_1010011, .fclassD 5 6),
  (0b1111000_00000_00110_000_00101_1010011, .fmvSX 5 6),
  (0b1111001_00000_00110_000_00101_1010011, .fmvDX 5 6),
  (0b1110000_00000_00110_000_00101_1010011, .fmvXS 5 6),
  (0b1110001_00000_00110_000_00101_1010011, .fmvXD 5 6),
  (0b0100001_00000_00110_010_00101_1010011, .fcvtDS 5 6 2),
  (0b0100000_00001_00110_010_00101_1010011, .fcvtSD 5 6 2),
  (0b1101000_00000_00110_010_00101_1010011, .fcvtSW 5 6 2),
  (0b1101001_00000_00110_010_00101_1010011, .fcvtDW 5 6 2),
  (0b1101000_00010_00110_010_00101_1010011, .fcvtSL 5 6 2),
  (0b1101001_00010_00110_010_00101_1010011, .fcvtDL 5 6 2),
  (0b1101000_00001_00110_010_00101_1010011, .fcvtSWu 5 6 2),
  (0b1101001_00001_00110_010_00101_1010011, .fcvtDWu 5 6 2),
  (0b1101000_00011_00110_010_00101_1010011, .fcvtSLu 5 6 2),
  (0b1101001_00011_00110_010_00101_1010011, .fcvtDLu 5 6 2),
  (0b1100000_00000_00110_010_00101_1010011, .fcvtWS 5 6 2),
  (0b1100001_00000_00110_010_00101_1010011, .fcvtWD 5 6 2),
  (0b1100000_00010_00110_010_00101_1010011, .fcvtLS 5 6 2),
  (0b1100001_00010_00110_010_00101_1010011, .fcvtLD 5 6 2),
  (0b1100000_00001_00110_010_00101_1010011, .fcvtWuS 5 6 2),
  (0b1100001_00001_00110_010_00101_1010011, .fcvtWuD 5 6 2),
  (0b1100000_00011_00110_010_00101_1010011, .fcvtLuS 5 6 2),
  (0b1100001_00011_00110_010_00101_1010011, .fcvtLuD 5 6 2)]

theorem test_decode_convert : words_convert.all (fun p => decide (decode p.1 = .ok p.2) && encode p.2 == p.1) = true := by
  decide +kernel

/-! ## One step -/

/-- The hart after reset with registers set, the doubleword 0x12345678AABBCCDD at 0x10000000, and a word at `pc`. -/
def start (w : Word) (xs : List (Reg × Word)) (fs : List (Reg × Double)) (pc : Word) (fcsr : BitVec 8)
    (reservation : Option Word) : State :=
  let s : State := { State.reset with
    pc := pc
    fcsr := fcsr
    reservation := reservation
    mem := storeBytes [] 0x10000000 8 0x12345678AABBCCDD }
  let s := xs.foldl (fun s p => s.setX p.1 p.2) s
  let s := fs.foldl (fun s p => s.setF p.1 p.2) s
  s.withFetchWord 32 w.toNat

/-- An x register, pc and the control register after a step that completes. -/
def xAfter (s : State) (r : Reg) : Option (Word × Word × BitVec 8) :=
  match step s with
  | .next t => if t.trap = none then some (t.getX r, t.pc, t.fcsr) else none
  | .fault _ => none
  | .refused _ => none

/-- An f register, pc and the control register after a step that completes. -/
def fAfter (s : State) (r : Reg) : Option (Double × Word × BitVec 8) :=
  match step s with
  | .next t => if t.trap = none then some (t.getF r, t.pc, t.fcsr) else none
  | .fault _ => none
  | .refused _ => none

/-- The word at 0x10000000 after a step that completes. -/
def wordAfter (s : State) : Option Word :=
  match step s with
  | .next t => if t.trap = none then some (t.wordAt 0x10000000) else none
  | .fault _ => none
  | .refused _ => none

/-- The code, pc and trap value of the outcome a step leaves. -/
def trapAfter (s : State) : Option (Nat × Word × Word) :=
  match step s with
  | .next t => t.trap.map fun o => (causeCode o.cause, o.pc, o.tval)
  | .fault _ => none
  | .refused _ => none

theorem test_add :
    xAfter (start 0x002081B3 [(1, 0x7fffffff), (2, 0x1)] [] 0x00400000 0x00 none) 3 =
      some (0x80000000, 0x00400004, 0x00) := by decide +kernel
theorem test_sub :
    xAfter (start 0x402081B3 [(1, 0x0), (2, 0x1)] [] 0x00400000 0x00 none) 3 =
      some (0xffffffff, 0x00400004, 0x00) := by decide +kernel
theorem test_sll :
    xAfter (start 0x002091B3 [(1, 0xffffffff), (2, 0xffffffe4)] [] 0x00400000 0x00 none) 3 =
      some (0xfffffff0, 0x00400004, 0x00) := by decide +kernel
theorem test_slt :
    xAfter (start 0x0020A1B3 [(1, 0x7fffffff), (2, 0x80000000)] [] 0x00400000 0x00 none) 3 =
      some (0x00000000, 0x00400004, 0x00) := by decide +kernel
theorem test_sltu :
    xAfter (start 0x0020B1B3 [(1, 0x7fffffff), (2, 0x80000000)] [] 0x00400000 0x00 none) 3 =
      some (0x00000001, 0x00400004, 0x00) := by decide +kernel
theorem test_xor :
    xAfter (start 0x0020C1B3 [(1, 0xff00ff00), (2, 0xff00ff0)] [] 0x00400000 0x00 none) 3 =
      some (0xf0f0f0f0, 0x00400004, 0x00) := by decide +kernel
theorem test_srl :
    xAfter (start 0x0020D1B3 [(1, 0x80000000), (2, 0x1f)] [] 0x00400000 0x00 none) 3 =
      some (0x00000001, 0x00400004, 0x00) := by decide +kernel
theorem test_sra :
    xAfter (start 0x4020D1B3 [(1, 0x80000000), (2, 0x1f)] [] 0x00400000 0x00 none) 3 =
      some (0xffffffff, 0x00400004, 0x00) := by decide +kernel
theorem test_or :
    xAfter (start 0x0020E1B3 [(1, 0xff00ff00), (2, 0xff00ff0)] [] 0x00400000 0x00 none) 3 =
      some (0xfff0fff0, 0x00400004, 0x00) := by decide +kernel
theorem test_and :
    xAfter (start 0x0020F1B3 [(1, 0xff00ff00), (2, 0xff00ff0)] [] 0x00400000 0x00 none) 3 =
      some (0x0f000f00, 0x00400004, 0x00) := by decide +kernel
theorem test_addi :
    xAfter (start 0x80030293 [(6, 0x1000)] [] 0x00400000 0x00 none) 5 =
      some (0x00000800, 0x00400004, 0x00) := by decide +kernel
theorem test_slti :
    xAfter (start 0xFFC32293 [(6, 0xfffffffb)] [] 0x00400000 0x00 none) 5 =
      some (0x00000001, 0x00400004, 0x00) := by decide +kernel
theorem test_sltiu :
    xAfter (start 0xFFF33293 [(6, 0x5)] [] 0x00400000 0x00 none) 5 =
      some (0x00000001, 0x00400004, 0x00) := by decide +kernel
theorem test_xori :
    xAfter (start 0x7FF34293 [(6, 0x12345678)] [] 0x00400000 0x00 none) 5 =
      some (0x12345187, 0x00400004, 0x00) := by decide +kernel
theorem test_ori :
    xAfter (start 0x80036293 [(6, 0x0)] [] 0x00400000 0x00 none) 5 =
      some (0xfffff800, 0x00400004, 0x00) := by decide +kernel
theorem test_andi :
    xAfter (start 0xF0037293 [(6, 0x12345678)] [] 0x00400000 0x00 none) 5 =
      some (0x12345600, 0x00400004, 0x00) := by decide +kernel
theorem test_slli :
    xAfter (start 0x00431293 [(6, 0x12345678)] [] 0x00400000 0x00 none) 5 =
      some (0x23456780, 0x00400004, 0x00) := by decide +kernel
theorem test_srli :
    xAfter (start 0x01F35293 [(6, 0xffffffff)] [] 0x00400000 0x00 none) 5 =
      some (0x00000001, 0x00400004, 0x00) := by decide +kernel
theorem test_srai :
    xAfter (start 0x40435293 [(6, 0x80000000)] [] 0x00400000 0x00 none) 5 =
      some (0xf8000000, 0x00400004, 0x00) := by decide +kernel
theorem test_lui :
    xAfter (start 0x000002B7 [(5, 0x123)] [] 0x00400000 0x00 none) 5 =
      some (0x00000000, 0x00400004, 0x00) := by decide +kernel
theorem test_auipc :
    xAfter (start 0xFFFFF297 [] [] 0x00400000 0x00 none) 5 = some (0x003ff000, 0x00400004, 0x00) := by decide +kernel
theorem test_jal :
    xAfter (start 0xFFDFF06F [] [] 0x00400010 0x00 none) 0 = some (0x00000000, 0x0040000c, 0x00) := by decide +kernel
theorem test_jalr :
    xAfter (start 0x000282E7 [(5, 0x400200)] [] 0x00400000 0x00 none) 5 =
      some (0x00400004, 0x00400200, 0x00) := by decide +kernel
theorem test_beq :
    xAfter (start 0x00208863 [(1, 0x5), (2, 0x5)] [] 0x00400000 0x00 none) 0 =
      some (0x00000000, 0x00400010, 0x00) := by decide +kernel
theorem test_beq_raises :
    trapAfter (start 0x00208163 [(1, 0x5), (2, 0x5)] [] 0x00400000 0x00 none) =
      some (0, 0x00400000, 0x00400002) := by decide +kernel
theorem test_bne :
    xAfter (start 0xFE209CE3 [(1, 0x5), (2, 0x6)] [] 0x00400020 0x00 none) 0 =
      some (0x00000000, 0x00400018, 0x00) := by decide +kernel
theorem test_blt :
    xAfter (start 0x0020C663 [(1, 0xffffffff), (2, 0x1)] [] 0x00400000 0x00 none) 0 =
      some (0x00000000, 0x0040000c, 0x00) := by decide +kernel
theorem test_bge :
    xAfter (start 0x0020D663 [(1, 0x3), (2, 0x3)] [] 0x00400000 0x00 none) 0 =
      some (0x00000000, 0x0040000c, 0x00) := by decide +kernel
theorem test_bltu :
    xAfter (start 0x0020E663 [(1, 0xffffffff), (2, 0x1)] [] 0x00400000 0x00 none) 0 =
      some (0x00000000, 0x00400004, 0x00) := by decide +kernel
theorem test_bgeu :
    xAfter (start 0x0020F663 [(1, 0x0), (2, 0xffffffff)] [] 0x00400000 0x00 none) 0 =
      some (0x00000000, 0x00400004, 0x00) := by decide +kernel
theorem test_lw :
    xAfter (start 0x00052283 [(10, 0x10000000)] [] 0x00400000 0x00 none) 5 =
      some (0xaabbccdd, 0x00400004, 0x00) := by decide +kernel
theorem test_lw_raises :
    trapAfter (start 0x00052003 [(10, 0x0)] [] 0x00400000 0x00 none) =
      some (5, 0x00400000, 0x00000000) := by decide +kernel
theorem test_lb :
    xAfter (start 0x00050283 [(10, 0x10000000)] [] 0x00400000 0x00 none) 5 =
      some (0xffffffdd, 0x00400004, 0x00) := by decide +kernel
theorem test_lb_raises :
    trapAfter (start 0x00150283 [(10, 0xffffffff)] [] 0x00400000 0x00 none) =
      some (5, 0x00400000, 0x00000000) := by decide +kernel
theorem test_lbu :
    xAfter (start 0x00054283 [(10, 0x10000000)] [] 0x00400000 0x00 none) 5 =
      some (0x000000dd, 0x00400004, 0x00) := by decide +kernel
theorem test_lh :
    xAfter (start 0x00051283 [(10, 0x10000000)] [] 0x00400000 0x00 none) 5 =
      some (0xffffccdd, 0x00400004, 0x00) := by decide +kernel
theorem test_lh_raises :
    trapAfter (start 0x00151283 [(10, 0x10000000)] [] 0x00400000 0x00 none) =
      some (4, 0x00400000, 0x10000001) := by decide +kernel
theorem test_lhu :
    xAfter (start 0x00055283 [(10, 0x10000000)] [] 0x00400000 0x00 none) 5 =
      some (0x0000ccdd, 0x00400004, 0x00) := by decide +kernel
theorem test_lhu_raises :
    trapAfter (start 0x00355283 [(10, 0x10000000)] [] 0x00400000 0x00 none) =
      some (4, 0x00400000, 0x10000003) := by decide +kernel
theorem test_sw_stores :
    wordAfter (start 0x00B52023 [(10, 0x10000000), (11, 0x11223344)] [] 0x00400000 0x00 none) =
      some 0x11223344 := by decide +kernel
theorem test_sw_raises :
    trapAfter (start 0x00B52023 [(10, 0x3ffffc), (11, 0x1)] [] 0x00400000 0x00 none) =
      some (7, 0x00400000, 0x003ffffc) := by decide +kernel
theorem test_sh_stores :
    wordAfter (start 0x00B51123 [(10, 0x10000000), (11, 0xcafe1234)] [] 0x00400000 0x00 none) =
      some 0x1234ccdd := by decide +kernel
theorem test_sh_raises :
    trapAfter (start 0x00B51023 [(10, 0xffffffff), (11, 0x1)] [] 0x00400000 0x00 none) =
      some (6, 0x00400000, 0xffffffff) := by decide +kernel
theorem test_sb_stores :
    wordAfter (start 0x00B500A3 [(10, 0x10000000), (11, 0xffffff5a)] [] 0x00400000 0x00 none) =
      some 0xaabb5add := by decide +kernel
theorem test_sb_raises :
    trapAfter (start 0x00B50023 [(10, 0x0), (11, 0x1)] [] 0x00400000 0x00 none) =
      some (7, 0x00400000, 0x00000000) := by decide +kernel
theorem test_ecall_raises :
    trapAfter (start 0x00000073 [(10, 0x1), (17, 0x5d)] [] 0x00400000 0x00 none) =
      some (8, 0x00400000, 0x00000000) := by decide +kernel
theorem test_ebreak_raises :
    trapAfter (start 0x00100073 [] [] 0x00400040 0x00 none) = some (3, 0x00400040, 0x00400040) := by decide +kernel
theorem test_fence :
    xAfter (start 0x0FF0000F [] [] 0x00400000 0x00 none) 0 = some (0x00000000, 0x00400004, 0x00) := by decide +kernel
theorem test_fenceI :
    xAfter (start 0x0000100F [] [] 0x00400000 0x00 none) 0 = some (0x00000000, 0x00400004, 0x00) := by decide +kernel
theorem test_csrrw :
    xAfter (start 0x003312F3 [(6, 0xffffffff)] [] 0x00400000 0xa5 none) 5 =
      some (0x000000a5, 0x00400004, 0xff) := by decide +kernel
theorem test_csrrw_raises :
    trapAfter (start 0x300312F3 [(5, 0x55), (6, 0x1)] [] 0x00400000 0x00 none) =
      some (2, 0x00400000, 0x300312f3) := by decide +kernel
theorem test_csrrs :
    xAfter (start 0x0012A2F3 [(5, 0x2)] [] 0x00400000 0xa5 none) 5 =
      some (0x00000005, 0x00400004, 0xa7) := by decide +kernel
theorem test_csrrci :
    xAfter (start 0x001272F3 [] [] 0x00400000 0xa5 none) 5 = some (0x00000005, 0x00400004, 0xa1) := by decide +kernel
theorem test_csrrwi :
    xAfter (start 0x001052F3 [] [] 0x00400000 0xa5 none) 5 = some (0x00000005, 0x00400004, 0xa0) := by decide +kernel
theorem test_csrrsi :
    xAfter (start 0x001862F3 [] [] 0x00400000 0xa5 none) 5 = some (0x00000005, 0x00400004, 0xb5) := by decide +kernel
theorem test_csrrc :
    xAfter (start 0x003332F3 [(6, 0xe0)] [] 0x00400000 0xa5 none) 5 =
      some (0x000000a5, 0x00400004, 0x05) := by decide +kernel
theorem test_mul :
    xAfter (start 0x022081B3 [(1, 0xffffffff), (2, 0xffffffff)] [] 0x00400000 0x00 none) 3 =
      some (0x00000001, 0x00400004, 0x00) := by decide +kernel
theorem test_mulh :
    xAfter (start 0x022091B3 [(1, 0xffffffff), (2, 0xffffffff)] [] 0x00400000 0x00 none) 3 =
      some (0x00000000, 0x00400004, 0x00) := by decide +kernel
theorem test_mulhu :
    xAfter (start 0x0220B1B3 [(1, 0xffffffff), (2, 0xffffffff)] [] 0x00400000 0x00 none) 3 =
      some (0xfffffffe, 0x00400004, 0x00) := by decide +kernel
theorem test_mulhsu :
    xAfter (start 0x0220A1B3 [(1, 0xffffffff), (2, 0xffffffff)] [] 0x00400000 0x00 none) 3 =
      some (0xffffffff, 0x00400004, 0x00) := by decide +kernel
theorem test_div :
    xAfter (start 0x0220C1B3 [(1, 0x7), (2, 0xfffffffe)] [] 0x00400000 0x00 none) 3 =
      some (0xfffffffd, 0x00400004, 0x00) := by decide +kernel
theorem test_divu :
    xAfter (start 0x0220D1B3 [(1, 0x7), (2, 0x2)] [] 0x00400000 0x00 none) 3 =
      some (0x00000003, 0x00400004, 0x00) := by decide +kernel
theorem test_rem :
    xAfter (start 0x0220E1B3 [(1, 0x7), (2, 0xfffffffe)] [] 0x00400000 0x00 none) 3 =
      some (0x00000001, 0x00400004, 0x00) := by decide +kernel
theorem test_remu :
    xAfter (start 0x0220F1B3 [(1, 0x7), (2, 0x2)] [] 0x00400000 0x00 none) 3 =
      some (0x00000001, 0x00400004, 0x00) := by decide +kernel
theorem test_lrW :
    xAfter (start 0x100522AF [(10, 0x10000000)] [] 0x00400000 0x00 none) 5 =
      some (0xaabbccdd, 0x00400004, 0x00) := by decide +kernel
theorem test_lrW_raises :
    trapAfter (start 0x100522AF [(10, 0x0)] [] 0x00400000 0x00 none) =
      some (5, 0x00400000, 0x00000000) := by decide +kernel
theorem test_amoswapW :
    xAfter (start 0x087522AF [(10, 0x10000000), (7, 0x11111111)] [] 0x00400000 0x00 none) 5 =
      some (0xaabbccdd, 0x00400004, 0x00) := by decide +kernel
theorem test_amoswapW_stores :
    wordAfter (start 0x087522AF [(10, 0x10000000), (7, 0x11111111)] [] 0x00400000 0x00 none) =
      some 0x11111111 := by decide +kernel
theorem test_amoaddW :
    xAfter (start 0x007522AF [(10, 0x10000000), (7, 0x55443323)] [] 0x00400000 0x00 none) 5 =
      some (0xaabbccdd, 0x00400004, 0x00) := by decide +kernel
theorem test_amoaddW_stores :
    wordAfter (start 0x007522AF [(10, 0x10000000), (7, 0x55443323)] [] 0x00400000 0x00 none) =
      some 0x00000000 := by decide +kernel
theorem test_amoxorW :
    xAfter (start 0x207522AF [(10, 0x10000000), (7, 0xffffffff)] [] 0x00400000 0x00 none) 5 =
      some (0xaabbccdd, 0x00400004, 0x00) := by decide +kernel
theorem test_amoxorW_stores :
    wordAfter (start 0x207522AF [(10, 0x10000000), (7, 0xffffffff)] [] 0x00400000 0x00 none) =
      some 0x55443322 := by decide +kernel
theorem test_amoandW :
    xAfter (start 0x607522AF [(10, 0x10000000), (7, 0xf0f0f0f)] [] 0x00400000 0x00 none) 5 =
      some (0xaabbccdd, 0x00400004, 0x00) := by decide +kernel
theorem test_amoandW_stores :
    wordAfter (start 0x607522AF [(10, 0x10000000), (7, 0xf0f0f0f)] [] 0x00400000 0x00 none) =
      some 0x0a0b0c0d := by decide +kernel
theorem test_amoorW :
    xAfter (start 0x407522AF [(10, 0x10000000), (7, 0xf0f0f0f)] [] 0x00400000 0x00 none) 5 =
      some (0xaabbccdd, 0x00400004, 0x00) := by decide +kernel
theorem test_amoorW_stores :
    wordAfter (start 0x407522AF [(10, 0x10000000), (7, 0xf0f0f0f)] [] 0x00400000 0x00 none) =
      some 0xafbfcfdf := by decide +kernel
theorem test_amominW :
    xAfter (start 0x807522AF [(10, 0x10000000), (7, 0x1)] [] 0x00400000 0x00 none) 5 =
      some (0xaabbccdd, 0x00400004, 0x00) := by decide +kernel
theorem test_amominW_stores :
    wordAfter (start 0x807522AF [(10, 0x10000000), (7, 0x1)] [] 0x00400000 0x00 none) =
      some 0xaabbccdd := by decide +kernel
theorem test_amomaxW :
    xAfter (start 0xA07522AF [(10, 0x10000000), (7, 0x1)] [] 0x00400000 0x00 none) 5 =
      some (0xaabbccdd, 0x00400004, 0x00) := by decide +kernel
theorem test_amomaxW_stores :
    wordAfter (start 0xA07522AF [(10, 0x10000000), (7, 0x1)] [] 0x00400000 0x00 none) =
      some 0x00000001 := by decide +kernel
theorem test_amominuW :
    xAfter (start 0xC07522AF [(10, 0x10000000), (7, 0x1)] [] 0x00400000 0x00 none) 5 =
      some (0xaabbccdd, 0x00400004, 0x00) := by decide +kernel
theorem test_amominuW_stores :
    wordAfter (start 0xC07522AF [(10, 0x10000000), (7, 0x1)] [] 0x00400000 0x00 none) =
      some 0x00000001 := by decide +kernel
theorem test_amomaxuW :
    xAfter (start 0xE07522AF [(10, 0x10000000), (7, 0x1)] [] 0x00400000 0x00 none) 5 =
      some (0xaabbccdd, 0x00400004, 0x00) := by decide +kernel
theorem test_amomaxuW_stores :
    wordAfter (start 0xE07522AF [(10, 0x10000000), (7, 0x1)] [] 0x00400000 0x00 none) =
      some 0xaabbccdd := by decide +kernel
theorem test_faddS :
    fAfter (start 0x0020F1D3 [] [(1, 0xffffffff7fc12345), (2, 0xffffffff3f800000)] 0x00400000 0x00 none) 3 =
      some (0xFFFFFFFF7FC00000, 0x00400004, 0x00) := by decide +kernel
theorem test_fsubS :
    fAfter (start 0x0820A1D3 [] [(1, 0xffffffff3fc00000), (2, 0xffffffff3fc00000)] 0x00400000 0x00 none) 3 =
      some (0xFFFFFFFF80000000, 0x00400004, 0x00) := by decide +kernel
theorem test_fmulS :
    fAfter (start 0x1020F1D3 [] [(1, 0xffffffff00000001), (2, 0xffffffff3f000000)] 0x00400000 0x00 none) 3 =
      some (0xFFFFFFFF00000000, 0x00400004, 0x03) := by decide +kernel
theorem test_fdivS :
    fAfter (start 0x1820F1D3 [] [(1, 0xffffffffbf800000), (2, 0xffffffff7f800000)] 0x00400000 0x00 none) 3 =
      some (0xFFFFFFFF80000000, 0x00400004, 0x00) := by decide +kernel
theorem test_fsqrtS :
    fAfter (start 0x5800F1D3 [] [(1, 0xffffffff40000000)] 0x00400000 0x00 none) 3 =
      some (0xFFFFFFFF3FB504F3, 0x00400004, 0x01) := by decide +kernel
theorem test_faddD :
    fAfter (start 0x0220F1D3 [] [(1, 0x3fb999999999999a), (2, 0x3fc999999999999a)] 0x00400000 0x00 none) 3 =
      some (0x3FD3333333333334, 0x00400004, 0x01) := by decide +kernel
theorem test_fmulD :
    fAfter (start 0x1220F1D3 [] [(1, 0x6974e718d7d7625a), (2, 0x6974e718d7d7625a)] 0x00400000 0x00 none) 3 =
      some (0x7FF0000000000000, 0x00400004, 0x05) := by decide +kernel
theorem test_fdivD :
    fAfter (start 0x1A20F1D3 [] [(1, 0x3ff0000000000000), (2, 0x4008000000000000)] 0x00400000 0x00 none) 3 =
      some (0x3FD5555555555555, 0x00400004, 0x01) := by decide +kernel
theorem test_fsqrtD :
    fAfter (start 0x5A00F1D3 [] [(1, 0x4000000000000000)] 0x00400000 0x00 none) 3 =
      some (0x3FF6A09E667F3BCD, 0x00400004, 0x01) := by decide +kernel
theorem test_fmaddS :
    fAfter (start 0x1820F243 [] [(1, 0xffffffff7f800000), (2, 0xffffffff00000000), (3, 0xffffffff7fc00000)] 0x00400000 0x00 none) 4 =
      some (0xFFFFFFFF7FC00000, 0x00400004, 0x10) := by decide +kernel
theorem test_fmsubS :
    fAfter (start 0x1820F247 [] [(1, 0xffffffff40000000), (2, 0xffffffff40400000), (3, 0xffffffff40000000)] 0x00400000 0x00 none) 4 =
      some (0xFFFFFFFF40800000, 0x00400004, 0x00) := by decide +kernel
theorem test_fnmsubS :
    fAfter (start 0x1820F24B [] [(1, 0xffffffff3f800000), (2, 0xffffffff3f800000), (3, 0xffffffff3f800000)] 0x00400000 0x00 none) 4 =
      some (0xFFFFFFFF00000000, 0x00400004, 0x00) := by decide +kernel
theorem test_fnmaddS :
    fAfter (start 0x1820F24F [] [(1, 0xffffffff3f800000), (2, 0xffffffff00000000), (3, 0xffffffff00000000)] 0x00400000 0x00 none) 4 =
      some (0xFFFFFFFF80000000, 0x00400004, 0x00) := by decide +kernel
theorem test_fmaddD :
    fAfter (start 0x1A20F243 [] [(1, 0x4000000000000000), (2, 0x4008000000000000), (3, 0x4000000000000000)] 0x00400000 0x00 none) 4 =
      some (0x4020000000000000, 0x00400004, 0x00) := by decide +kernel
theorem test_fmsubD :
    fAfter (start 0x1A20F247 [] [(1, 0x4000000000000000), (2, 0x4008000000000000), (3, 0x4000000000000000)] 0x00400000 0x00 none) 4 =
      some (0x4010000000000000, 0x00400004, 0x00) := by decide +kernel
theorem test_fnmsubD :
    fAfter (start 0x1A20F24B [] [(1, 0x4000000000000000), (2, 0x4008000000000000), (3, 0x4000000000000000)] 0x00400000 0x00 none) 4 =
      some (0xC010000000000000, 0x00400004, 0x00) := by decide +kernel
theorem test_fnmaddD :
    fAfter (start 0x1A20F24F [] [(1, 0x4000000000000000), (2, 0x4008000000000000), (3, 0x4000000000000000)] 0x00400000 0x00 none) 4 =
      some (0xC020000000000000, 0x00400004, 0x00) := by decide +kernel
theorem test_fsgnjS :
    fAfter (start 0x202081D3 [] [(1, 0xffffffff7f800001), (2, 0xffffffffc0000000)] 0x00400000 0x00 none) 3 =
      some (0xFFFFFFFFFF800001, 0x00400004, 0x00) := by decide +kernel
theorem test_fsgnjnS :
    fAfter (start 0x202091D3 [] [(1, 0xffffffff3fc00000), (2, 0xffffffffc0000000)] 0x00400000 0x00 none) 3 =
      some (0xFFFFFFFF3FC00000, 0x00400004, 0x00) := by decide +kernel
theorem test_fsgnjxS :
    fAfter (start 0x2020A1D3 [] [(1, 0xffffffffbfc00000), (2, 0xffffffffc0000000)] 0x00400000 0x00 none) 3 =
      some (0xFFFFFFFF3FC00000, 0x00400004, 0x00) := by decide +kernel
theorem test_fsgnjD :
    fAfter (start 0x222081D3 [] [(1, 0x3ff8000000000000), (2, 0xc000000000000000)] 0x00400000 0x00 none) 3 =
      some (0xBFF8000000000000, 0x00400004, 0x00) := by decide +kernel
theorem test_fsgnjnD :
    fAfter (start 0x222091D3 [] [(1, 0x3ff8000000000000), (2, 0x3ff8000000000000)] 0x00400000 0x00 none) 3 =
      some (0xBFF8000000000000, 0x00400004, 0x00) := by decide +kernel
theorem test_fsgnjxD :
    fAfter (start 0x2220A1D3 [] [(1, 0xbff8000000000000), (2, 0xbff8000000000000)] 0x00400000 0x00 none) 3 =
      some (0x3FF8000000000000, 0x00400004, 0x00) := by decide +kernel
theorem test_fminS :
    fAfter (start 0x282081D3 [] [(1, 0xffffffff7f800001), (2, 0xffffffff3f800000)] 0x00400000 0x00 none) 3 =
      some (0xFFFFFFFF3F800000, 0x00400004, 0x10) := by decide +kernel
theorem test_fmaxS :
    fAfter (start 0x282091D3 [] [(1, 0xffffffff7fc00000), (2, 0xffffffffffc00001)] 0x00400000 0x00 none) 3 =
      some (0xFFFFFFFF7FC00000, 0x00400004, 0x00) := by decide +kernel
theorem test_fmaxD :
    fAfter (start 0x2A2091D3 [] [(1, 0x3ff8000000000000), (2, 0xc000000000000000)] 0x00400000 0x00 none) 3 =
      some (0x3FF8000000000000, 0x00400004, 0x00) := by decide +kernel
theorem test_fminD :
    fAfter (start 0x2A2081D3 [] [(1, 0xfff0000000000000), (2, 0xc000000000000000)] 0x00400000 0x00 none) 3 =
      some (0xFFF0000000000000, 0x00400004, 0x00) := by decide +kernel
theorem test_feqS :
    xAfter (start 0xA020A2D3 [] [(1, 0xffffffff7f800001), (2, 0xffffffff3f800000)] 0x00400000 0x00 none) 5 =
      some (0x00000000, 0x00400004, 0x10) := by decide +kernel
theorem test_fltS :
    xAfter (start 0xA02092D3 [] [(1, 0xffffffff7fc00000), (2, 0xffffffff3f800000)] 0x00400000 0x00 none) 5 =
      some (0x00000000, 0x00400004, 0x10) := by decide +kernel
theorem test_fleS :
    xAfter (start 0xA02082D3 [] [(1, 0xffffffff7f800000), (2, 0xffffffff7fc00000)] 0x00400000 0x00 none) 5 =
      some (0x00000000, 0x00400004, 0x10) := by decide +kernel
theorem test_feqD :
    xAfter (start 0xA220A2D3 [] [(1, 0x3ff8000000000000), (2, 0x3ff8000000000000)] 0x00400000 0x00 none) 5 =
      some (0x00000001, 0x00400004, 0x00) := by decide +kernel
theorem test_fltD :
    xAfter (start 0xA22092D3 [] [(1, 0x3ff8000000000000), (2, 0xc000000000000000)] 0x00400000 0x00 none) 5 =
      some (0x00000000, 0x00400004, 0x00) := by decide +kernel
theorem test_fleD :
    xAfter (start 0xA22082D3 [] [(1, 0xfff0000000000000), (2, 0x7ff0000000000000)] 0x00400000 0x00 none) 5 =
      some (0x00000001, 0x00400004, 0x00) := by decide +kernel
theorem test_fclassS :
    xAfter (start 0xE00092D3 [] [(1, 0x0)] 0x00400000 0x00 none) 5 =
      some (0x00000200, 0x00400004, 0x00) := by decide +kernel
theorem test_fclassD :
    xAfter (start 0xE20092D3 [] [(1, 0xfffffffffffff)] 0x00400000 0x00 none) 5 =
      some (0x00000020, 0x00400004, 0x00) := by decide +kernel
theorem test_fmvSX :
    fAfter (start 0xF00280D3 [(5, 0x7f800001)] [] 0x00400000 0x00 none) 1 =
      some (0xFFFFFFFF7F800001, 0x00400004, 0x00) := by decide +kernel
theorem test_fmvXS :
    xAfter (start 0xE00082D3 [] [(1, 0x3ff8000000000000)] 0x00400000 0x00 none) 5 =
      some (0x00000000, 0x00400004, 0x00) := by decide +kernel
theorem test_fcvtDS :
    fAfter (start 0x42008153 [] [(1, 0xffffffff7f800001)] 0x00400000 0x00 none) 2 =
      some (0x7FF8000000000000, 0x00400004, 0x10) := by decide +kernel
theorem test_fcvtSD :
    fAfter (start 0x4010F153 [] [(1, 0x1a56e1fc2f8f359)] 0x00400000 0x00 none) 2 =
      some (0xFFFFFFFF00000000, 0x00400004, 0x03) := by decide +kernel
theorem test_fcvtSW :
    fAfter (start 0xD002F0D3 [(5, 0x80000000)] [] 0x00400000 0x00 none) 1 =
      some (0xFFFFFFFFCF000000, 0x00400004, 0x00) := by decide +kernel
theorem test_fcvtSWu :
    fAfter (start 0xD01290D3 [(5, 0xffffffff)] [] 0x00400000 0x00 none) 1 =
      some (0xFFFFFFFF4F7FFFFF, 0x00400004, 0x01) := by decide +kernel
theorem test_fcvtDW :
    fAfter (start 0xD20280D3 [(5, 0xffffffff)] [] 0x00400000 0x00 none) 1 =
      some (0xBFF0000000000000, 0x00400004, 0x00) := by decide +kernel
theorem test_fcvtDWu :
    fAfter (start 0xD21280D3 [(5, 0xffffffff)] [] 0x00400000 0x00 none) 1 =
      some (0x41EFFFFFFFE00000, 0x00400004, 0x00) := by decide +kernel
theorem test_fcvtWS :
    xAfter (start 0xC000F2D3 [] [(1, 0xffffffffff800000)] 0x00400000 0x00 none) 5 =
      some (0x80000000, 0x00400004, 0x10) := by decide +kernel
theorem test_fcvtWuS :
    xAfter (start 0xC010F2D3 [] [(1, 0xffffffffffc00000)] 0x00400000 0x00 none) 5 =
      some (0xffffffff, 0x00400004, 0x10) := by decide +kernel
theorem test_fcvtWD :
    xAfter (start 0xC200F2D3 [] [(1, 0xc1e0000000100000)] 0x00400000 0x00 none) 5 =
      some (0x80000000, 0x00400004, 0x01) := by decide +kernel
theorem test_fcvtWuD :
    xAfter (start 0xC210F2D3 [] [(1, 0x8000000000000000)] 0x00400000 0x00 none) 5 =
      some (0x00000000, 0x00400004, 0x00) := by decide +kernel
theorem test_scW_without_reservation :
    xAfter (start 0x1875232F [(10, 0x10000000), (7, 0x11111111)] [] 0x00400000 0x00 none) 6 =
      some (1, 0x00400004, 0x00) := by decide +kernel
theorem test_scW_raises :
    trapAfter (start 0x1875232F [(10, 0x10000002), (7, 1)] [] 0x00400000 0x00 (some 0x10000000)) =
      some (6, 0x00400000, 0x10000002) := by decide +kernel
theorem test_flw :
    fAfter (start 0x00052087 [(10, 0x10000000)] [] 0x00400000 0x00 none) 1 =
      some (0xFFFFFFFFAABBCCDD, 0x00400004, 0x00) := by decide +kernel
theorem test_flw_raises :
    trapAfter (start 0x00252087 [(10, 0x10000000)] [] 0x00400000 0x00 none) =
      some (4, 0x00400000, 0x10000002) := by decide +kernel
theorem test_fld :
    fAfter (start 0x00053087 [(10, 0x10000000)] [] 0x00400000 0x00 none) 1 =
      some (0x12345678AABBCCDD, 0x00400004, 0x00) := by decide +kernel
theorem test_fld_raises :
    trapAfter (start 0x00453087 [(10, 0x10000000)] [] 0x00400000 0x00 none) =
      some (4, 0x00400000, 0x10000004) := by decide +kernel
theorem test_fsw_stores :
    wordAfter (start 0x00252027 [(10, 0x10000000)] [(2, 0x3FF8000000000001)] 0x00400000 0x00 none) =
      some 1 := by decide +kernel
theorem test_fsw_raises :
    trapAfter (start 0x00202027 [] [] 0x00400000 0x00 none) = some (7, 0x00400000, 0) := by decide +kernel
theorem test_fsd_stores :
    wordAfter (start 0x00253027 [(10, 0x10000000)] [(2, 0x3FF8000000000001)] 0x00400000 0x00 none) =
      some 1 := by decide +kernel
theorem test_fsd_raises :
    trapAfter (start 0x00253227 [(10, 0x10000000)] [] 0x00400000 0x00 none) =
      some (6, 0x00400000, 0x10000004) := by decide +kernel
theorem test_fsubD :
    fAfter (start 0x0A20F1D3 [] [(1, 0x3FF8000000000000), (2, 0xC000000000000000)] 0x00400000 0x00 none) 3 =
      some (0x400C000000000000, 0x00400004, 0x00) := by decide +kernel
theorem test_lrD_raises :
    trapAfter (start 0x100532AF [(10, 0x10000000)] [] 0x00400000 0x00 none) =
      some (2, 0x00400000, 0x100532AF) := by decide +kernel
theorem test_fmvXD_raises :
    trapAfter (start 0xE20082D3 [] [] 0x00400000 0x00 none) = some (2, 0x00400000, 0xE20082D3) := by decide +kernel
theorem test_half_precision_raises :
    trapAfter (start 0x04000053 [] [] 0x00400000 0x00 none) = some (2, 0x00400000, 0x04000053) := by decide +kernel
theorem test_reserved_rounding_raises :
    trapAfter (start 0x0020D1D3 [] [] 0x00400000 0x00 none) = some (2, 0x00400000, 0x0020D1D3) := by decide +kernel
theorem test_reserved_frm_raises :
    trapAfter (start 0x0020F1D3 [] [] 0x00400000 0xA0 none) = some (2, 0x00400000, 0x0020F1D3) := by decide +kernel
theorem test_no_csr_without_F :
    trapAfter { start 0x00107073 [] [] 0x00400000 0x00 none with cfg := Config.base } =
      some (2, 0x00400000, 0x00107073) := by decide +kernel
theorem test_compressed_raises :
    trapAfter (start 0x00000001 [] [] 0x00400000 0x00 none) = some (2, 0x00400000, 0x00000001) := by decide +kernel
theorem test_fenceI_empties_dirty : (match step { start 0x0000100F [] [] 0x00400000 0x00 none with dirty := [0x400004] } with
    | .next t => t.dirty.isEmpty
    | .fault _ => false
    | .refused _ => false) = true := by decide +kernel
theorem test_fetch_of_stored_byte_is_refused : step { start 0x00000013 [] [] 0x00400000 0x00 none with dirty := [0x400003] } =
    .refused (.staleFetch 0x00400000) := rfl

/-! ## A store conditional that succeeds: the input is taken as true, as the vectors of spec/96_test_vectors_extensions.md do -/

/-- The hart before `sc.w x6, x7, (x10)` with the block of x10 reserved. -/
def reserved : State :=
  start 0x1875232F [(10, 0x10000000), (7, 0x11111111)] [] 0x00400000 0x00 (some 0x10000000)

theorem reserved_step (h : Config.scMaySucceed reserved.scIndex = true) :
    exec (.scW 6 7 10 0 0) reserved = (reserved.released.store 0x10000000 4 0x11111111#32).finishX 6 0#32 := by
  have hc : accessCause .storeAmo (reserved.getX 10) 4 = none := by decide +kernel
  have hr : reserved.reservation = some (granule reserved.cfg (reserved.getX 10)) := by decide +kernel
  have ha : reserved.getX 10 = 0x10000000 := by decide +kernel
  have hv : reserved.getX 7 = 0x11111111#32 := by decide +kernel
  have hp : reserved.cfg.hasA = true := by decide +kernel
  rw [exec, execScW, whenPresent_true hp, State.storeConditional, hc]
  simp only [← hr, h, beq_self_eq_true, Bool.and_true, if_true]
  rw [ha, hv]

theorem test_scW_success (h : Config.scMaySucceed reserved.scIndex = true) :
    ∃ t, exec (.scW 6 7 10 0 0) reserved = .next t ∧ t.getX 6 = 0 ∧ t.wordAt 0x10000000 = 0x11111111 ∧
      t.reservation = none ∧ t.pc = 0x00400004 :=
  ⟨_, reserved_step h, by decide +kernel⟩

/-! ## Witnesses: for each statement with hypotheses, a state and operands that meet them all -/

/-- Every group present; x1 an address that is a multiple of 8, x2 = 7, x3 and x4 the data of R56, x5 the last address
that an access of 8 bytes can have; f1 a boxed single, f2 a double; frm 001 and the flag NX. -/
def demo : State :=
  start 0x00000013 [(1, 0x10000000), (2, 7), (3, 0xAABBCCDD), (4, 0x11), (5, 0xFFFFFFF8), (6, 0x00400000)]
    [(1, 0xFFFFFFFF3FC00000), (2, 0x4000000000000000)] 0x00400000 0x21 none

/-- The same registers with the base group alone. -/
def demoBase : State := { demo with cfg := Config.base }

/-- The same with a word placed at the last address of the space. -/
def demoLast : State := { demo with pc := 0xFFFFFFFC }.withFetchWord 32 0x00000013

theorem demo_mem_wf : Memory.wf demo.mem = true := by decide +kernel
theorem demo_wf : demo.wf = true := by decide +kernel

theorem witness_DecodeOfEncode : (Instr.beq 31 31 0x1FFE).wellFormed = true := by decide
theorem witness_EncodeOfDecode : decode 0xFE208EE3 = .ok (.beq 1 2 0x1FFC) := by decide +kernel

theorem witness_UnassignedWordsRaise_error : ∃ e, decode 0x00000000 = .error e := ⟨_, rfl⟩
theorem witness_UnassignedWordsRaise_base :
    demoBase.cfg.hasM = false ∧ demoBase.cfg.hasA = false ∧ demoBase.cfg.hasF = false := by decide +kernel
theorem witness_UnassignedWordsRaise_clauses :
    ((0x0000B003 : Word).extractLsb' 0 7 = 0b0000011#7 ∧ (0x0000B003 : Word).extractLsb' 12 3 = 0b011#3) ∧
    ((0x0000200F : Word).extractLsb' 0 7 = 0b0001111#7 ∧ (0x0000200F : Word).extractLsb' 12 3 = 0b010#3) ∧
    ((0x02001013 : Word).extractLsb' 0 7 = 0b0010011#7 ∧ (0x02001013 : Word).extractLsb' 12 3 = 0b001#3 ∧
      (0x02001013 : Word).extractLsb' 25 7 = 0b0000001#7) ∧
    ((0x42005013 : Word).extractLsb' 0 7 = 0b0010011#7 ∧ (0x42005013 : Word).extractLsb' 12 3 = 0b101#3 ∧
      (0x42005013 : Word).extractLsb' 25 7 = 0b0100001#7) ∧
    ((0x00003023 : Word).extractLsb' 0 7 = 0b0100011#7 ∧ (0x00003023 : Word).extractLsb' 12 3 = 0b011#3) ∧
    ((0x02000033 : Word).extractLsb' 0 7 = 0b0110011#7 ∧ (0x02000033 : Word).extractLsb' 25 7 = 0b0000001#7) ∧
    ((0x40001033 : Word).extractLsb' 25 7 = 0b0100000#7 ∧ (0x40001033 : Word).extractLsb' 12 3 = 0b001#3) ∧
    ((0x00002063 : Word).extractLsb' 0 7 = 0b1100011#7 ∧ (0x00002063 : Word).extractLsb' 12 3 = 0b010#3) ∧
    ((0x00001067 : Word).extractLsb' 0 7 = 0b1100111#7 ∧ (0x00001067 : Word).extractLsb' 12 3 = 0b001#3) ∧
    ((0x00004073 : Word).extractLsb' 0 7 = 0b1110011#7 ∧ (0x00004073 : Word).extractLsb' 12 3 = 0b100#3) ∧
    ((0x00200073 : Word).extractLsb' 0 7 = 0b1110011#7 ∧ (0x00200073 : Word).extractLsb' 12 3 = 0b000#3) ∧
    (0x0000000B : Word).extractLsb' 0 7 = 0b0001011#7 := by decide

theorem witness_AtomicOpcodeUnassignedWordsRaise :
    ((0x0000002F : Word).extractLsb' 0 7 = 0b0101111#7 ∧ (0x0000002F : Word).extractLsb' 12 3 ≠ 0b010#3) ∧
    ((0x2800202F : Word).extractLsb' 0 7 = 0b0101111#7 ∧ (0x2800202F : Word).extractLsb' 27 5 = 0b00101#5) ∧
    ((0x1010202F : Word).extractLsb' 0 7 = 0b0101111#7 ∧ (0x1010202F : Word).extractLsb' 27 5 = 0b00010#5 ∧
      (0x1010202F : Word).extractLsb' 20 5 = 0b00001#5) ∧
    ((0x0000202F : Word).extractLsb' 0 7 = 0b0101111#7 ∧ demoBase.cfg.hasA = false) := by decide +kernel

theorem witness_FloatOpcodeUnassignedWordsRaise :
    ((0x00001007 : Word).extractLsb' 0 7 = 0b0000111#7 ∧ (0x00001007 : Word).extractLsb' 12 3 = 0b001#3) ∧
    ((0x04000043 : Word).extractLsb' 0 7 = 0b1000011#7 ∧ (0x04000043 : Word).extractLsb' 25 2 = 0b10#2) ∧
    ((0x30000053 : Word).extractLsb' 0 7 = 0b1010011#7 ∧ (0x30000053 : Word).extractLsb' 27 5 = 0b00110#5) ∧
    ((0x40000053 : Word).extractLsb' 25 7 = 0b0100000#7 ∧ (0x40000053 : Word).extractLsb' 20 5 = 0b00000#5) ∧
    ((0x42100053 : Word).extractLsb' 25 7 = 0b0100001#7 ∧ (0x42100053 : Word).extractLsb' 20 5 = 0b00001#5) ∧
    ((0x58100053 : Word).extractLsb' 27 5 = 0b01011#5 ∧ (0x58100053 : Word).extractLsb' 20 5 = 0b00001#5) ∧
    ((0xC0400053 : Word).extractLsb' 27 5 = 0b11000#5 ∧ (0xC0400053 : Word).extractLsb' 20 5 = 0b00100#5) ∧
    ((0x20003053 : Word).extractLsb' 27 5 = 0b00100#5 ∧ (0x20003053 : Word).extractLsb' 12 3 = 0b011#3) ∧
    ((0x28002053 : Word).extractLsb' 27 5 = 0b00101#5 ∧ (0x28002053 : Word).extractLsb' 12 3 = 0b010#3) ∧
    ((0xF0001053 : Word).extractLsb' 27 5 = 0b11110#5 ∧ (0xF0001053 : Word).extractLsb' 12 3 = 0b001#3) := by decide

theorem witness_IllegalInstructionExactly_absent_group :
    demoBase.trap = none ∧ decode 0x022081B3 = .ok (.mul 3 1 2) ∧
      groupEnabled demoBase.cfg (groupOf (.mul 3 1 2)) = false := by decide +kernel
theorem witness_IllegalInstructionExactly_not_admitted :
    demo.trap = none ∧ decode 0xE20082D3 = .ok (.fmvXD 5 1) ∧ admitted (.fmvXD 5 1) = false := by decide +kernel
theorem witness_IllegalInstructionExactly_no_csr :
    demo.trap = none ∧ decode 0x004312F3 = .ok (.csrrw 5 4 6) ∧ csrField (.csrrw 5 4 6) = some 0x004#12 := by
  decide +kernel
theorem witness_IllegalInstructionExactly_reserved_rounding :
    demo.trap = none ∧ decode 0x0020D1D3 = .ok (.faddS 3 1 2 5) ∧ roundingField (.faddS 3 1 2 5) = some 0b101#3 := by
  decide +kernel
theorem witness_IllegalInstructionExactly_reserved_frm :
    (start 0x0020F1D3 [] [] 0x00400000 0xE0 none).frm = 0b111#3 ∧ roundingField (.faddS 3 1 2 7) = some 0b111#3 := by
  decide +kernel

theorem witness_FloatRegisterBoxing :
    demo.cfg.hasD = true ∧ (demo.getF 2).extractLsb' 32 32 ≠ 0xFFFFFFFF#32 ∧ (1 : Reg) ≠ 2 := by decide +kernel

theorem witness_StepKeepsWellFormed : State.reset.wf = true ∧ ∃ t, step State.reset = .next t :=
  ⟨by decide +kernel, _, rfl⟩
theorem witness_StepKeepsParameters : ∃ t, step State.reset = .next t := ⟨_, rfl⟩
theorem witness_ExceptionsArePrecise :
    State.reset.trap = none ∧ ∃ t o, step State.reset = .next t ∧ t.trap = some o := ⟨rfl, _, _, rfl, rfl⟩

theorem witness_ReservationChangedOnlyByLrAndSc :
    demo.trap = none ∧ ∃ t, exec (.lrW 7 1 0 0) demo = .next t ∧ t.reservation ≠ demo.reservation :=
  ⟨rfl, _, rfl, by decide +kernel⟩
theorem witness_ReservationChangedOnlyByLrAndSc_raises :
    ∃ t, exec (.lrW 7 2 0 0) demo = .next t ∧ t.trap ≠ none := ⟨_, rfl, by decide +kernel⟩
theorem witness_MemoryChangesOnlyByStores :
    demo.trap = none ∧ (∃ t, exec (.add 7 1 2) demo = .next t) ∧ isStoring (.add 7 1 2) = false ∧
      (∃ t, exec (.sb 3 2 0) demo = .next t ∧ t.trap ≠ none) ∧
      (∃ t, exec (.sb 3 1 0) demo = .next t) ∧ isStoring (.sb 3 1 0) = true ∧
      ∃ t, exec (.fenceI 0 0 0) demo = .next t :=
  ⟨rfl, ⟨_, rfl⟩, rfl, ⟨_, rfl, by decide +kernel⟩, ⟨_, rfl⟩, rfl, ⟨_, rfl⟩⟩
theorem witness_FlagsAreSticky :
    isCsrAccess (.fdivS 3 1 0 0) = false ∧ ∃ t, exec (.fdivS 3 1 0 0) demo = .next t := ⟨rfl, _, rfl⟩
theorem witness_PcAdvancesByFour :
    demo.trap = none ∧ (∃ t, exec (.add 7 1 2) demo = .next t ∧ t.trap = none) ∧
      isControlTransfer (.add 7 1 2) = false := ⟨rfl, ⟨_, rfl, rfl⟩, rfl⟩
theorem witness_PcAdvancesByFour_branch :
    (∃ t, exec (.beq 1 2 2) demo = .next t ∧ t.trap = none) ∧ branchOf demo (.beq 1 2 2) = some (false, 2) :=
  ⟨⟨_, rfl, rfl⟩, by decide +kernel⟩

/-- The cause an instruction raises in a state. -/
def causeOf (i : Instr) (s : State) : Option Cause :=
  match exec i s with
  | .next t => t.trap.map fun o => o.cause
  | .fault _ => none
  | .refused _ => none

theorem witness_ExceptionsByInstruction :
    demo.trap = none ∧ causeOf (.jal 1 2) demo = some .instructionAddressMisaligned ∧
      causeOf (.jalr 1 6 2) demo = some .instructionAddressMisaligned ∧
      causeOf (.bge 1 2 2) demo = some .instructionAddressMisaligned ∧
      causeOf (.lrD 7 1 0 0) demo = some .illegalInstruction ∧ causeOf .ebreak demo = some .breakpoint ∧
      causeOf (.csrrw 7 0x300 1) demo = some .illegalInstruction ∧
      causeOf (.faddS 3 1 2 5) demo = some .illegalInstruction ∧
      causeOf (.mul 3 1 2) demoBase = some .illegalInstruction ∧
      causeOf (.lh 7 1 1) demo = some .loadAddressMisaligned ∧ causeOf (.lb 7 6 0xFFF) demo = some .loadAccessFault ∧
      causeOf (.sh 7 1 1) demo = some .storeAmoAddressMisaligned ∧
      causeOf (.amoaddW 7 1 2 0 0) demo = some .storeAmoAddressMisaligned ∧
      causeOf (.sb 7 6 0xFFF) demo = some .storeAmoAccessFault ∧
      causeOf .ecall demo = some .environmentCall := by decide +kernel
theorem witness_ExceptionsByInstruction_target :
    transferTarget demo (.bge 1 2 2) = some 0x00400002#32 ∧ transferTarget demo (.bgeu 2 1 2) = none ∧
      transferTarget demo (.jalr 1 6 3) = some 0x00400002#32 := by decide +kernel
theorem witness_EveryInstructionAnswersANextState :
    (∃ t, step demo = .next t) ∧ { demo with dirty := [0x00400003] }.trap = none ∧
      step { demo with dirty := [0x00400003] } = .refused (.staleFetch 0x00400000#32) := ⟨⟨_, rfl⟩, rfl, rfl⟩
theorem witness_StepRunsTheDecodedInstruction :
    demo.trap = none ∧ AlignedTo demo.pc 4 ∧ InMemory demo.pc ∧
      (∀ a ∈ demo.dirty, a < demo.pc.toNat ∨ demo.pc.toNat + 4 ≤ a) ∧
      decode (demo.wordAt demo.pc.toNat) = .ok (.addi 0 0 0) := by
  unfold AlignedTo InMemory
  decide +kernel
theorem witness_StepRunsTheDecodedInstruction_last_address :
    demoLast.pc = 0xFFFFFFFC#32 ∧ AlignedTo demoLast.pc 4 ∧ InMemory demoLast.pc ∧
      decode (demoLast.wordAt demoLast.pc.toNat) = .ok (.addi 0 0 0) := by
  unfold AlignedTo InMemory
  decide +kernel
theorem witness_FetchOutcomes :
    (¬AlignedTo { demo with pc := 0x00400002 }.pc 4) ∧
    (AlignedTo { demo with pc := 0x003FFFFC }.pc 4 ∧ ¬InMemory { demo with pc := 0x003FFFFC }.pc) ∧
    (∃ a ∈ { demo with dirty := [0x00400003] }.dirty, demo.pc.toNat ≤ a ∧ a < demo.pc.toNat + 4) ∧
    (∀ a ∈ { demo with dirty := [0x003FFFFF, 0x00400004] }.dirty, a < demo.pc.toNat ∨ demo.pc.toNat + 4 ≤ a) ∧
    ∃ e, decode (State.reset.wordAt State.reset.pc.toNat) = .error e := by
  refine ⟨?_, ?_, ?_, ?_, _, rfl⟩
  · unfold AlignedTo
    decide +kernel
  · unfold AlignedTo InMemory
    decide +kernel
  · decide +kernel
  · decide +kernel
theorem witness_PendingTrapGoesToTheEnvironment :
    { demo with trap := some ⟨.breakpoint, 0, 0⟩ }.trap = some ⟨.breakpoint, 0, 0⟩ := rfl
theorem witness_PlacedWordRunsNext :
    Memory.wf State.reset.mem = true ∧ decode (tableWord 32 0x002081B3) = .ok (.add 3 1 2) := by decide +kernel

theorem witness_ReadAfterWrite :
    Memory.wf demo.mem = true ∧ (AlignedTo 0xFFFFFFF8#32 8 ∧ InMemory 0xFFFFFFF8#32) ∧
      (AlignedTo 0x00400000#32 8 ∧ InMemory 0x00400000#32) ∧ AlignedTo 0xFFFFFFFF#32 1 ∧ InMemory 0xFFFFFFFF#32 := by
  unfold AlignedTo InMemory
  decide +kernel
theorem witness_ByteOrderIsLittleEndian :
    demo.memRead .load 0x10000000#32 8 = .ok 0x12345678AABBCCDD#64 ∧ Memory.wf demo.mem = true ∧
      (∃ t, demo.memWrite 0xFFFFFFFF#32 1 0xAB#8 = .ok t) ∧ demo.fetch = .word 0x00000013#32 :=
  ⟨by decide +kernel, by decide +kernel, ⟨_, rfl⟩, by decide +kernel⟩
theorem witness_NarrowAccessesSeeTheirBytes :
    Memory.wf demo.mem = true ∧ AlignedTo 0x10000000#32 4 ∧ InMemory 0x10000000#32 ∧
      demo.getX 1 = 0x10000000#32 ∧ demo.getX 3 = 0xAABBCCDD#32 ∧ (demo.getX 4).extractLsb' 0 8 = 0x11#8 := by
  unfold AlignedTo InMemory
  decide +kernel
/-- The upper half of the last doubleword, and a byte alone at the lowest address. -/
theorem witness_NarrowAccessesSeeTheirBytes_edges :
    (8 ∈ [1, 2, 4, 8] ∧ 4 + 4 ≤ 8 ∧ 4 % 4 = 0 ∧ AlignedTo 0xFFFFFFF8#32 8 ∧ InMemory 0xFFFFFFF8#32) ∧
      1 ∈ [1, 2, 4, 8] ∧ 0 + 1 ≤ 1 ∧ 0 % 1 = 0 ∧ AlignedTo 0x00400000#32 1 ∧ InMemory 0x00400000#32 := by
  unfold AlignedTo InMemory
  decide +kernel
/-- The operands of a register-register instruction, of a branch, multiply or division. -/
theorem witness_two_operands : demo.getX 1 = 0x10000000#32 ∧ demo.getX 2 = 7#32 := by decide +kernel
theorem witness_RegisterArithmeticCompletes : demo.getX 0 = 0#32 ∧ demo.getX 2 = 7#32 := by decide +kernel
theorem witness_ImmediateArithmeticCompletes : demo.getX 2 = 7#32 := by decide +kernel
theorem witness_JumpsComplete :
    AlignedTo (demo.pc + (0x1FFFFC : BitVec 21).signExtend 32) 4 ∧
      (demo.getX 6 + (0x7FD : BitVec 12).signExtend 32).getLsbD 1 = false := by
  unfold AlignedTo
  decide +kernel
theorem witness_BranchesComplete :
    branchOf demo (.beq 0 0 0x1000) = some (true, 0x1000) ∧ AlignedTo (demo.pc + (0x1000 : BitVec 13).signExtend 32) 4 ∧
      branchOf demo (.bne 0 0 0x0002) = some (false, 0x0002) := by
  unfold AlignedTo
  decide +kernel
theorem witness_MisalignedTargetsRaise :
    ¬AlignedTo (demo.pc + (0x000002 : BitVec 21).signExtend 32) 4 ∧
      ¬AlignedTo ((demo.getX 6 + (0x003 : BitVec 12).signExtend 32) &&& 0xFFFFFFFE#32) 4 ∧
      branchOf demo (.bge 1 2 0x0002) = some (true, 0x0002) ∧
      ¬AlignedTo (demo.pc + (0x0002 : BitVec 13).signExtend 32) 4 ∧
      branchOf demo (.bgeu 2 1 0x0002) = some (false, 0x0002) ∧ demo.wf = true := by
  unfold AlignedTo
  decide +kernel
theorem witness_BranchConditionTable :
    (0x00002063 : Word).extractLsb' 0 7 = 0b1100011#7 ∧ (0x00002063 : Word).extractLsb' 12 3 = 0b010#3 ∧
      (start 0x13 [(1, 5), (2, 5)] [] 0x00400000 0 none).getX 1 = 0x00000005#32 ∧
      (start 0x13 [(1, 5), (2, 5)] [] 0x00400000 0 none).getX 2 = 0x00000005#32 ∧
      AlignedTo (demo.pc + (0x1000 : BitVec 13).signExtend 32) 4 := by
  unfold AlignedTo
  decide +kernel
theorem witness_LoadsComplete :
    demo.getX 6 + (0 : BitVec 12).signExtend 32 = 0x00400000#32 ∧ InMemory 0x00400000#32 ∧
      demo.getX 5 + (4 : BitVec 12).signExtend 32 = 0xFFFFFFFC#32 ∧ InMemory 0xFFFFFFFC#32 ∧
      AlignedTo 0x00400000#32 4 ∧ AlignedTo 0xFFFFFFFC#32 4 ∧ AlignedTo 0xFFFFFFFE#32 2 := by
  unfold AlignedTo InMemory
  decide +kernel
theorem witness_StoresComplete :
    demo.getX 5 + (7 : BitVec 12).signExtend 32 = 0xFFFFFFFF#32 ∧ InMemory 0xFFFFFFFF#32 ∧
      Memory.wf demo.mem = true ∧ AlignedTo 0x00400000#32 4 ∧ InMemory 0x00400000#32 := by
  unfold AlignedTo InMemory
  decide +kernel
theorem witness_LoadsRaise :
    dataLoad demo (.lw 7 1 2) = some (0x10000002#32, 4) ∧ dataLoad demo (.flw 7 6 0xFFC) = some (0x003FFFFC#32, 4) ∧
      memValid ((0x003FFFFC + 0) % 2 ^ 32) = false ∧ dataLoad demo (.lb 7 6 0xFFF) = some (0x003FFFFF#32, 1) ∧
      groupEnabled demo.cfg (groupOf (.flw 7 6 0xFFC)) = true := by decide +kernel
theorem witness_LoadsRaise_one_byte :
    demo.trap = none ∧ dataLoad demo (.lbu 7 6 0xFFF) = some (0x003FFFFF#32, 1) ∧
      ∃ t o, exec (.lbu 7 6 0xFFF) demo = .next t ∧ t.trap = some o := ⟨rfl, by decide +kernel, _, _, rfl, rfl⟩
theorem witness_StoresAndAtomicsRaise :
    dataStore demo (.scW 7 2 2 0 0) = some (7#32, 4) ∧ dataStore demo (.fsd 1 6 0xFF8) = some (0x003FFFF8#32, 8) ∧
      memValid ((0x003FFFF8 + 7) % 2 ^ 32) = false ∧ groupEnabled demo.cfg (groupOf (.scW 7 2 2 0 0)) = true := by
  decide +kernel
theorem witness_CsrInstructionsComplete :
    demo.cfg.hasF = true ∧ csrValue demo.fcsr .fflags = 1 ∧ csrValue demo.fcsr .frm = 1 ∧
      csrValue demo.fcsr .fcsr = 0x21 := by decide +kernel
theorem witness_EcallAndEbreakRaise :
    ∃ t o, step (start 0x00100073 [] [] 0x00400000 0 none) = .next t ∧ t.trap = some o ∧ o.cause = .breakpoint :=
  ⟨_, _, rfl, rfl, rfl⟩
theorem witness_EcallAndEbreakRaise_ecall :
    ∃ t o, step (start 0x00000073 [] [] 0x00400000 0 none) = .next t ∧ t.trap = some o ∧ o.cause = .environmentCall :=
  ⟨_, _, rfl, rfl, rfl⟩
theorem witness_MultipliesComplete : demo.cfg.hasM = true ∧ demo.getX 1 = 0x10000000#32 ∧ demo.getX 2 = 7#32 := by
  decide +kernel
theorem witness_DivisionsComplete : demo.cfg.hasM = true ∧ demo.getX 1 = 0x10000000#32 ∧ demo.getX 0 = 0#32 := by
  decide +kernel
theorem witness_DivisionCornerCases :
    demo.cfg.hasM = true ∧ (start 0x13 [(1, 0x80000000), (2, 0xFFFFFFFF)] [] 0 0 none).getX 1 = 0x80000000#32 ∧
      (start 0x13 [(1, 0x80000000), (2, 0xFFFFFFFF)] [] 0 0 none).getX 2 = 0xFFFFFFFF#32 := by decide +kernel
theorem witness_LoadReservedAndStoreConditionalComplete :
    demo.cfg.hasA = true ∧ demo.getX 1 = 0x10000000#32 ∧ AlignedTo 0x10000000#32 4 ∧ InMemory 0x10000000#32 ∧
      Memory.wf demo.mem = true ∧
      BitVec.ofNat 32 (0x10000000 / demo.cfg.resGranule * demo.cfg.resGranule) = 0x10000000#32 := by
  unfold AlignedTo InMemory
  decide +kernel
theorem witness_LoadReservedAndStoreConditionalComplete_reserved :
    { demo with reservation := some 0x10000000#32 }.reservation =
      some (BitVec.ofNat 32 (0x10000000 / demo.cfg.resGranule * demo.cfg.resGranule)) := by decide +kernel
theorem witness_AtomicUpdatesComplete :
    demo.cfg.hasA = true ∧ demo.getX 1 = 0x10000000#32 ∧ demo.getX 2 = 7#32 ∧
      demo.wordAt 0x10000000 = 0xAABBCCDD#32 ∧ AlignedTo 0x10000000#32 4 ∧ InMemory 0x10000000#32 ∧
      Memory.wf demo.mem = true := by
  unfold AlignedTo InMemory
  decide +kernel
theorem witness_FloatLoadsAndStoresComplete :
    demo.getX 5 + (0 : BitVec 12).signExtend 32 = 0xFFFFFFF8#32 ∧ InMemory 0xFFFFFFF8#32 ∧
      Memory.wf demo.mem = true ∧ demo.cfg.hasF = true ∧ demo.cfg.hasD = true ∧ AlignedTo 0xFFFFFFF8#32 8 ∧
      AlignedTo 0x00400000#32 8 ∧ InMemory 0x00400000#32 := by
  unfold AlignedTo InMemory
  decide +kernel
theorem witness_SignInjectionAndMovesComplete :
    demo.rdS 1 = 0x3FC00000#32 ∧ demo.rdS 2 = 0x7FC00000#32 ∧ demo.getF 1 = 0xFFFFFFFF3FC00000#64 ∧
      demo.getF 2 = 0x4000000000000000#64 ∧ demo.cfg.hasF = true ∧ demo.cfg.hasD = true := by decide +kernel
theorem witness_FloatArithmeticCompletes :
    demo.effectiveRm 0 = some .rne ∧ demo.effectiveRm 7 = some .rtz ∧ demo.rdS 1 = 0x3FC00000#32 ∧
      demo.getF 2 = 0x4000000000000000#64 ∧ demo.cfg.hasF = true ∧ demo.cfg.hasD = true := by decide +kernel
theorem witness_FusedMultiplyAddCompletes :
    demo.effectiveRm 4 = some .rmm ∧ demo.rdS 3 = 0x7FC00000#32 ∧ demo.getF 3 = 0#64 ∧ demo.cfg.hasF = true ∧
      demo.cfg.hasD = true := by decide +kernel
theorem witness_MinMaxAndComparisonsComplete :
    demo.rdS 1 = 0x3FC00000#32 ∧ demo.getF 2 = 0x4000000000000000#64 ∧ demo.cfg.hasF = true ∧
      demo.cfg.hasD = true := by decide +kernel
/-- -0 and +0 have the number 0, the infinities are the ends of the line. -/
theorem witness_MinMaxAndComparisonsComplete_numbers :
    HasNumber (unpack .single 0x80000000#32) 0 ∧ HasNumber (unpack .single 0x00000000#32) 0 ∧
      HasNumber (unpack .double 0xFFF0000000000000#64) ⊥ ∧ HasNumber (unpack .double 0x7FF0000000000000#64) ⊤ ∧
      HasNumber (unpack .single 0x3F800000#32) 1 := by
  rw [show unpack .single 0x80000000#32 = .finite true 0 (-149) by decide +kernel,
    show unpack .single 0x00000000#32 = .finite false 0 (-149) by decide +kernel,
    show unpack .double 0xFFF0000000000000#64 = .infinity true by decide +kernel,
    show unpack .double 0x7FF0000000000000#64 = .infinity false by decide +kernel,
    show unpack .single 0x3F800000#32 = .finite false 0x800000 (-23) by decide +kernel]
  refine ⟨by simp [HasNumber, rationalOf], by simp [HasNumber, rationalOf], rfl, rfl, ?_⟩
  simp only [HasNumber, rationalOf]
  norm_num
theorem witness_MinMaxAndComparisonsComplete_NaNs :
    AnyNaN .single 0x7FC00000#32 ∧ ¬SignalingNaN .single 0x7FC00000#32 ∧ SignalingNaN .single 0x7F800001#32 ∧
      SignalingNaN .double 0xFFF7FFFFFFFFFFFF#64 ∧ ¬AnyNaN .double 0x0000000000000000#64 := by decide +kernel
theorem witness_ClassificationCompletes :
    demo.cfg.hasF = true ∧ demo.cfg.hasD = true ∧ (demo.getF 2).extractLsb' 32 32 ≠ 0xFFFFFFFF#32 := by
  decide +kernel
theorem witness_ConversionsComplete :
    demo.effectiveRm 7 = some .rtz ∧ demo.rdS 1 = 0x3FC00000#32 ∧ demo.getF 1 = 0xFFFFFFFF3FC00000#64 ∧
      demo.getX 1 = 0x10000000#32 ∧ demo.cfg.hasF = true ∧ demo.cfg.hasD = true := by decide +kernel
theorem witness_IntegerConversionTable :
    unpack .single 0xCF000000#32 = .finite true 0x800000 8 ∧ unpack .single 0x7FC00000#32 = .nan false ∧
      unpack .double 0x7FF0000000000000#64 = .infinity false ∧ unpack .single 0x80000000#32 = .finite true 0 (-149) := by
  decide +kernel
theorem witness_RoundingDeliversTheNearestNumber :
    unpack .single (roundAndPack .single .rne false 1 (-150)).1 = .finite false 0 (-149) ∧
      unpack .single (roundAndPack .single .rup false 1 (-150)).1 = .finite false 1 (-149) ∧
      unpack .single (roundAndPack .single .rne true 1 128).1 = .infinity true ∧
      unpack .single (roundAndPack .single .rtz true 1 128).1 = .finite true 0xFFFFFF 104 := by decide +kernel
/-- Finite operands of every clause: a zero divisor with a non-zero and with a zero dividend, roots of a positive number,
of -0 and of a negative number. -/
theorem witness_RoundingDeliversTheNearestNumber_operands :
    unpack .single 0x3F800000#32 = .finite false 0x800000 (-23) ∧
      unpack .single 0xBF800000#32 = .finite true 0x800000 (-23) ∧
      unpack .single 0x80000000#32 = .finite true 0 (-149) ∧ unpack .double 0x0010000000000000#64 =
        .finite false 0x10000000000000 (-1074) := by decide +kernel
/-- At the middle of the last gap the modes to nearest overflow and RTZ does not; the largest number itself does not
overflow. -/
theorem witness_RoundingDeliversTheNearestNumber_overflow :
    Overflows .single .rne ((2 ^ 25 - 1) * 2 ^ 103) ∧ ¬Overflows .single .rtz ((2 ^ 25 - 1) * 2 ^ 103) ∧
      ¬Overflows .single .rup ((2 ^ 24 - 1) * 2 ^ 104) ∧
      (roundAndPack .single .rne false 0x1FFFFFF 103).2 = flagOF ||| flagNX ∧
      (roundAndPack .single .rtz false 0x1FFFFFF 103).2 = flagNX := by
  have hb : floatBias .single = 127 := by decide
  have hl : largestFinite .single = (2 ^ 24 - 1) * 2 ^ 104 := by
    rw [largestFinite, hb]
    norm_num [FloatFormat.single]
  have ht : overflowThreshold .single = 2 ^ 128 := by
    rw [overflowThreshold, hb]
    norm_num
  refine ⟨?_, ?_, ?_, by decide +kernel, by decide +kernel⟩ <;> simp only [Overflows, hl, ht] <;> norm_num
/-- Just below the least normal number: what rounds up to it is not tiny, in the mode toward zero it is. -/
theorem witness_RoundingDeliversTheNearestNumber_tiny :
    Tiny .single .rtz ((2 ^ 25 - 1) / 2 ^ 151) ∧ ¬Tiny .single .rne ((2 ^ 25 - 1) / 2 ^ 151) ∧
      (roundAndPack .single .rtz false 0x1FFFFFF (-151)).2 = flagUF ||| flagNX ∧
      (roundAndPack .single .rne false 0x1FFFFFF (-151)).2 = flagNX := by
  have hl : leastNormal .single = 1 / 2 ^ 126 := by
    rw [leastNormal, show floatBias .single = 127 by decide]
    norm_num
  refine ⟨?_, ?_, by decide +kernel, by decide +kernel⟩ <;>
    simp only [Tiny, hl, show floatMinExp .single = -149 by decide] <;> norm_num
theorem witness_NaNAndInfinityOperands :
    isNaN (unpack .single (fpAdd .single .rne 0x7F800000#32 0xFF800000#32).1) = true ∧
      SignalingNaN .single 0x7F800001#32 ∧ AnyNaN .double 0xFFFFFFFFFFFFFFFF#64 ∧
      isNaN (unpack .double (fpConvert .single .double .rne 0x7F800001#32).1) = true ∧
      unpack .single 0x7F800000#32 = .infinity false ∧ unpack .single 0xFF800000#32 = .infinity true ∧
      unpack .single 0x80000000#32 = .finite true 0 (-149) ∧
      unpack .single 0x3F800000#32 = .finite false 0x800000 (-23) := by decide +kernel
theorem witness_NaNAndInfinityOperands_products :
    ZeroTimesInfinity .single 0x80000000#32 0x7F800000#32 ∧ InfiniteProduct .single 0xFF800000#32 0x7F800000#32 true ∧
      InfiniteProduct .single 0x3F800000#32 0x7F800000#32 false ∧ ¬ZeroTimesInfinity .single 0x7F800001#32 0x00000000#32 := by
  refine ⟨⟨true, false, -149, .inr (by decide +kernel)⟩, ⟨true, false, 0, 0, rfl, .inl (by decide +kernel)⟩,
    ⟨false, false, 0x800000, -23, rfl, .inr (.inr (by decide +kernel))⟩, ?_⟩
  rintro ⟨na, nb, e, ⟨h, -⟩ | ⟨h, -⟩⟩ <;>
    rw [show unpack .single 0x7F800001#32 = .nan true by decide +kernel] at h <;> cases h
theorem witness_FlagRules :
    (fpAdd .single .rne 0x7F7FFFFF#32 0x7F7FFFFF#32).2 = flagOF ||| flagNX ∧
      (fpMul .single .rne 0x00000001#32 0x3F000000#32).2 = flagUF ||| flagNX ∧
      unpack .single 0x3F800000#32 = .finite false 0x800000 (-23) ∧
      unpack .single 0x80000000#32 = .finite true 0 (-149) := by decide +kernel
theorem witness_ConversionsDeliver :
    (4294967296 : Int).natAbs ≤ 2 ^ 32 ∧ (-2147483648 : Int).natAbs ≤ 2 ^ 32 ∧
      unpack .single 0x00000001#32 = .finite false 1 (-149) ∧ unpack .double 0xFFF0000000000000#64 = .infinity true ∧
      unpack .double 0x8000000000000000#64 = .finite true 0 (-1074) ∧
      unpack .double 0x7FEFFFFFFFFFFFFF#64 = .finite false 0x1FFFFFFFFFFFFF 971 ∧
      (fpConvert .double .single .rne 0x7FEFFFFFFFFFFFFF#64).2 = flagOF ||| flagNX ∧
      (fpOfInt .single .rne 0x1000001).2 = flagNX := by decide +kernel
theorem witness_PseudoInstructionsDeliver : demo.trap = none := rfl
theorem witness_RoundingModeTable :
    demo.frm = 0b001#3 ∧ (start 0x13 [] [] 0x00400000 0xE0 none).frm = 0b111#3 := by decide +kernel

end Sys2Proof.Tests
end

section
/-! PROOFS. Where the program counter stands after an instruction that is no taken transfer
(spec/00_scope.md R14). -/

namespace Sys2Proof.Machine

section

variable {i : Instr} {s t : State}

/-- Of the ways an instruction can end, only an exception and a taken transfer do not advance `pc`. -/
theorem ExecResult.pc_of_not_transfer (r : ExecResult i s t) (hi : isControlTransfer i = false)
    (ht : t.trap = none) : t.pc = s.pc + 4#32 := by
  cases r with
  | raised c v h => exact absurd ht (Option.some_ne_none _)
  | jumped rd a h hs ha => exact absurd (hi.symm.trans h) Bool.false_ne_true
  | branched a h hs ha => exact absurd (hi.symm.trans h) Bool.false_ne_true
  | advanced hs => rfl
  | fenced rd rs1 imm h => rfl
  | wroteX rd v h hs => simp
  | wroteXFlags rd v fl h hs hf => simp
  | wroteF rd v fl h hs hf hv => simp
  | stored a n v h hs hn ha => simp
  | wroteCsr rd c v h hf => simp
  | reserved rd rs1 aq rl a v h hA => simp
  | conditional rd rs2 rs1 aq rl a v h ha => simp
  | failed rd rs2 rs1 aq rl h => simp
  | updated rd a v w h ha => simp

/-- A branch whose condition is false only advances `pc`. -/
theorem eq_advance_of_branch_not_taken {offset : BitVec 13} (hb : branchOf s i = some (false, offset))
    (h : exec i s = .next t) : t = s.advance := by
  rw [exec_branch hb] at h
  rcases State.branchIf_next h with ⟨-, ht⟩ | ⟨hc, -, -⟩ | ⟨hc, -, -⟩
  · exact ht
  · exact absurd hc Bool.false_ne_true
  · exact absurd hc Bool.false_ne_true

end

/-- Settles O19: by the ways an instruction can end, and for a branch by the shared operation on its condition. -/
theorem pcAdvancesByFour : Obligations.PcAdvancesByFour := by
  rintro i s t - h ht (hi | ⟨offset, hb⟩)
  · exact (exec_result h).pc_of_not_transfer hi ht
  · rw [eq_advance_of_branch_not_taken hb h, State.advance_pc]

end Sys2Proof.Machine
end

section
/-! PROOFS. The order of bytes in memory (spec/20_memory.md R51) and accesses of different widths to the same bytes
(spec/20_memory.md R56). Every value below is taken apart by `extractLsb'` at byte boundaries, and every part of a
read is itself a read of fewer bytes. -/

namespace Sys2Proof.Machine

/-! ## Parts of a value -/

/-- A number of `m` bytes does not see what is above them. -/
theorem ofNat_mod_bytes (m x : Nat) : BitVec.ofNat (8 * m) (x % 256 ^ m) = BitVec.ofNat (8 * m) x := by
  apply BitVec.eq_of_toNat_eq
  rw [BitVec.toNat_ofNat, BitVec.toNat_ofNat, pow_mul]
  exact Nat.mod_mod x _

/-- Some bytes of a value, as a number. -/
theorem extractLsb'_bytes {w : Nat} (v : BitVec w) (k m : Nat) :
    v.extractLsb' (8 * k) (8 * m) = BitVec.ofNat (8 * m) (v.toNat / 256 ^ k) := by
  rw [BitVec.extractLsb', Nat.shiftRight_eq_div_pow, pow_mul]
  norm_num

/-- The upper half of a word is its two upper bytes. -/
theorem extractLsb'_upper_half (w : Word) : w.extractLsb' 16 16 = w.extractLsb' 24 8 ++ w.extractLsb' 16 8 := by
  rw [BitVec.extractLsb'_append_extractLsb'_eq_extractLsb' (by rfl)]

/-- A word is its four bytes, the two upper ones as a half. -/
theorem word_eq_upper_half_append_bytes (w : Word) :
    w = w.extractLsb' 16 16 ++ w.extractLsb' 8 8 ++ w.extractLsb' 0 8 := by
  rw [BitVec.extractLsb'_append_extractLsb'_eq_extractLsb' (by rfl),
    BitVec.extractLsb'_append_extractLsb'_eq_extractLsb' (by rfl)]
  exact BitVec.extractLsb'_eq_self.symm

/-! ## Parts of a read, and reads after stores of another width -/

/-- Some bytes of what is loaded are what is loaded at their address. -/
theorem loadBytes_part (mem : Memory) (a n k m : Nat) (h : k + m ≤ n) :
    loadBytes mem a n / 256 ^ k % 256 ^ m = loadBytes mem (a + k) m := by
  induction m generalizing k with
  | zero => simp [loadBytes, Nat.mod_one]
  | succ m ih =>
    rw [pow_succ' 256 m, Nat.mod_mul, loadBytes_byte mem a n k (by omega), Nat.div_div_eq_div_mul, ← pow_succ,
      ih (k + 1) (by omega), loadBytes, Nat.add_assoc]

theorem extractLsb'_loadBytes_part (mem : Memory) (a n k m : Nat) (h : k + m ≤ n) :
    (BitVec.ofNat (8 * n) (loadBytes mem a n)).extractLsb' (8 * k) (8 * m) =
      BitVec.ofNat (8 * m) (loadBytes mem (a + k) m) := by
  have hlt : loadBytes mem a n < 2 ^ (8 * n) := by
    rw [pow_mul]
    exact loadBytes_lt mem a n
  rw [extractLsb'_bytes, BitVec.toNat_ofNat, Nat.mod_eq_of_lt hlt, ← loadBytes_part mem a n k m h, ofNat_mod_bytes]

/-- A read inside stored bytes gives its part of the value. -/
theorem ofNat_loadBytes_storeBytes_part {mem : Memory} (a n k m : Nat) (v : BitVec (8 * n)) (h : Memory.Rising mem)
    (hk : k + m ≤ n) :
    BitVec.ofNat (8 * m) (loadBytes (storeBytes mem a n v.toNat) (a + k) m) = v.extractLsb' (8 * k) (8 * m) := by
  rw [loadBytes_storeBytes_within a n _ k m h hk, ofNat_mod_bytes, extractLsb'_bytes]

/-- A read of exactly the stored bytes gives the value. -/
theorem ofNat_loadBytes_storeBytes {mem : Memory} (a n : Nat) (v : BitVec (8 * n)) (h : Memory.Rising mem) :
    BitVec.ofNat (8 * n) (loadBytes (storeBytes mem a n v.toNat) a n) = v := by
  rw [loadBytes_storeBytes a n _ h, ofNat_mod_bytes, BitVec.ofNat_toNat, BitVec.setWidth_eq]

/-- A read around stored bytes gives the stored value in its place. -/
theorem extractLsb'_loadBytes_storeBytes_same {mem : Memory} (a n k m : Nat) (v : BitVec (8 * m))
    (h : Memory.Rising mem) (hk : k + m ≤ n) :
    (BitVec.ofNat (8 * n) (loadBytes (storeBytes mem (a + k) m v.toNat) a n)).extractLsb' (8 * k) (8 * m) = v := by
  rw [extractLsb'_loadBytes_part _ a n k m hk, ofNat_loadBytes_storeBytes _ m v h]

/-- A read around stored bytes gives every other byte as before. -/
theorem extractLsb'_loadBytes_storeBytes_other {mem : Memory} (a n k m v j : Nat) (h : Memory.Rising mem)
    (hj : j < n) (hout : j < k ∨ k + m ≤ j) :
    (BitVec.ofNat (8 * n) (loadBytes (storeBytes mem (a + k) m v) a n)).extractLsb' (8 * j) 8 =
      (BitVec.ofNat (8 * n) (loadBytes mem a n)).extractLsb' (8 * j) 8 := by
  rw [extractLsb'_loadBytes _ a n j hj, extractLsb'_loadBytes _ a n j hj,
    Memory.read_storeBytes_outside _ _ _ _ h (by omega)]

/-- A word of which the second byte was stored anew. -/
theorem ofNat_loadBytes_word_with_second_byte {mem : Memory} (a : Nat) (w : Word) (b : Byte)
    (h : Memory.Rising mem) :
    BitVec.ofNat 32 (loadBytes (storeBytes (storeBytes mem a 4 w.toNat) (a + 1) 1 b.toNat) a 4) =
      w.extractLsb' 16 16 ++ b ++ w.extractLsb' 0 8 := by
  have h' := Memory.rising_storeBytes a 4 w.toNat h
  have stored := extractLsb'_loadBytes_storeBytes_same a 4 1 1 b h' (by omega)
  have kept := extractLsb'_loadBytes_storeBytes_other a 4 1 1 b.toNat (h := h')
  rw [ofNat_loadBytes_storeBytes a 4 w h] at kept
  generalize BitVec.ofNat (8 * 4) (loadBytes (storeBytes (storeBytes mem a 4 w.toNat) (a + 1) 1 b.toNat) a 4) = whole
    at stored kept ⊢
  have h0 : whole.extractLsb' 0 8 = w.extractLsb' 0 8 := kept 0 (by omega) (by omega)
  have h1 : whole.extractLsb' 8 8 = b := stored
  have h2 : whole.extractLsb' 16 8 = w.extractLsb' 16 8 := kept 2 (by omega) (by omega)
  have h3 : whole.extractLsb' 24 8 = w.extractLsb' 24 8 := kept 3 (by omega) (by omega)
  rw [word_eq_upper_half_append_bytes whole, extractLsb'_upper_half whole, h3, h2, h1, h0, ← extractLsb'_upper_half]

/-! ## What an access that completes says -/

theorem State.memRead_ok_inv {s : State} {c : Access} {a : Word} {n : Nat} {v : BitVec (8 * n)}
    (h : s.memRead c a n = .ok v) : v = BitVec.ofNat (8 * n) (loadBytes s.mem a.toNat n) := by
  rcases s.memRead_cases c a n with ⟨e, -, he⟩ | ⟨-, he⟩
  · rw [he] at h
    cases h
  · rw [he] at h
    exact (Except.ok.inj h).symm

theorem State.memWrite_ok_inv {s t : State} {a : Word} {n : Nat} {v : BitVec (8 * n)}
    (h : s.memWrite a n v = .ok t) : t = s.store a n v := by
  cases hc : accessCause .storeAmo a n with
  | none =>
    rw [State.memWrite_eq_ok hc] at h
    exact (Except.ok.inj h).symm
  | some e =>
    rw [State.memWrite_eq_error hc] at h
    cases h

/-- A fetch that gives a word gives the word at pc. -/
theorem State.fetch_word_inv {s : State} {w : Word} (h : s.fetch = .word w) : w = s.wordAt s.pc.toNat := by
  unfold State.fetch at h
  split_ifs at h
  exact (Fetched.word.inj h).symm

/-- Settles O27: a byte of a loaded value is the byte at its address, for a read and for a fetch, and a stored byte
reads as its part of the value. -/
theorem byteOrderIsLittleEndian : Obligations.ByteOrderIsLittleEndian := by
  refine fun s a n k _ hk => ⟨fun c v h => ?_, fun v t hm h => ?_, fun w hk4 h => ?_⟩
  · rw [State.memRead_ok_inv h]
    exact extractLsb'_loadBytes s.mem a.toNat n k hk
  · obtain ⟨stored, -, -⟩ := State.store_storesBytes s a n v ((Memory.wf_iff _).1 hm).1
    rw [State.memWrite_ok_inv h, stored k hk, extractLsb'_byte]
  · rw [State.fetch_word_inv h, wordAt_eq]
    exact extractLsb'_loadBytes s.mem s.pc.toNat 4 k hk4

/-! ## Accesses inside an aligned access -/

/-- The sizes of accesses divide the size of the address space. -/
theorem width_pos_and_dvd : ∀ n ∈ [1, 2, 4, 8], 0 < n ∧ n ∣ 2 ^ 32 := by decide

/-- Of two sizes of accesses the smaller divides the larger. -/
theorem width_dvd_width : ∀ n ∈ [1, 2, 4, 8], ∀ m ∈ [1, 2, 4, 8], m ≤ n → m ∣ n := by decide

/-- An aligned access in memory raises nothing. -/
theorem accessCause_of_width {c : Access} {a : Word} {n : Nat} (hn : n ∈ [1, 2, 4, 8]) (ha : AlignedTo a n)
    (hm : InMemory a) : accessCause c a n = none := by
  obtain ⟨hpos, hdvd⟩ := width_pos_and_dvd n hn
  exact accessCause_eq_none hpos hdvd ha hm

/-- The address of a byte inside an aligned access does not wrap. -/
theorem toNat_add_inside {a : Word} {n k : Nat} (hn : n ∈ [1, 2, 4, 8]) (ha : AlignedTo a n) (hk : k < n) :
    (a + BitVec.ofNat 32 k).toNat = a.toNat + k := by
  have hw := aligned_no_wrap (width_pos_and_dvd n hn).2 ((aligned_iff a n).2 ha)
  rw [BitVec.toNat_add, BitVec.toNat_ofNat]
  omega

/-- An access at a multiple of its size inside an aligned access in memory raises nothing. -/
theorem accessCause_inside {c : Access} {a : Word} {n m k : Nat} (hn : n ∈ [1, 2, 4, 8]) (hm : m ∈ [1, 2, 4, 8])
    (hk : k + m ≤ n) (hkm : k % m = 0) (ha : AlignedTo a n) (hmem : InMemory a) :
    accessCause c (a + BitVec.ofNat 32 k) m = none := by
  have hpos := (width_pos_and_dvd m hm).1
  have hadd := toNat_add_inside hn ha (show k < n by omega)
  refine accessCause_of_width hm ?_ ?_
  · have hdvd : m ∣ a.toNat :=
      (width_dvd_width n hn m hm (by omega)).trans (Nat.dvd_of_mod_eq_zero ha)
    rw [AlignedTo, hadd]
    exact Nat.mod_eq_zero_of_dvd (hdvd.add (Nat.dvd_of_mod_eq_zero hkm))
  · rw [InMemory, hadd]
    exact Nat.le_add_right_of_le hmem

/-- The primitives: a narrow read after a wide write, and a wide read after a narrow write. -/
theorem narrow_accesses_see_their_bytes {s : State} {a : Word} {n m k : Nat} (v : BitVec (8 * n)) (c : Access)
    (hn : n ∈ [1, 2, 4, 8]) (hm : m ∈ [1, 2, 4, 8]) (hk : k + m ≤ n) (hkm : k % m = 0) (ha : AlignedTo a n)
    (hmem : InMemory a) (hr : Memory.Rising s.mem) :
    ∃ t, s.memWrite a n v = .ok t ∧
      t.memRead c (a + BitVec.ofNat 32 k) m = .ok (v.extractLsb' (8 * k) (8 * m)) ∧
      ∀ new : BitVec (8 * m), ∃ u whole, t.memWrite (a + BitVec.ofNat 32 k) m new = .ok u ∧
        u.memRead c a n = .ok whole ∧ whole.extractLsb' (8 * k) (8 * m) = new ∧
        ∀ j : Nat, j < n → j < k ∨ k + m ≤ j → whole.extractLsb' (8 * j) 8 = v.extractLsb' (8 * j) 8 := by
  have hpos := (width_pos_and_dvd m hm).1
  have hadd := toNat_add_inside hn ha (show k < n by omega)
  have hwide : ∀ c, accessCause c a n = none := fun _ => accessCause_of_width hn ha hmem
  have hnarrow : ∀ c, accessCause c (a + BitVec.ofNat 32 k) m = none :=
    fun _ => accessCause_inside hn hm hk hkm ha hmem
  have hr' := Memory.rising_storeBytes a.toNat n v.toNat hr
  refine ⟨_, State.memWrite_eq_ok (hwide _), ?_, fun new => ⟨_, _, State.memWrite_eq_ok (hnarrow _),
    State.memRead_eq_ok (hwide _), ?_, fun j hj hout => ?_⟩⟩
  · rw [State.memRead_eq_ok (hnarrow _), State.store_mem, hadd, ofNat_loadBytes_storeBytes_part _ _ _ _ v hr hk]
  · rw [State.store_mem, State.store_mem, hadd, extractLsb'_loadBytes_storeBytes_same _ _ _ _ new hr' hk]
  · rw [State.store_mem, State.store_mem, hadd, extractLsb'_loadBytes_storeBytes_other _ _ _ _ _ _ hr' hj hout,
      ofNat_loadBytes_storeBytes _ _ v hr]

/-! ## The instructions -/

/-- A store that raises nothing. -/
theorem storeThenAdvance_ok {s : State} {a : Word} {n : Nat} {v : BitVec (8 * n)}
    (h : accessCause .storeAmo a n = none) : s.storeThenAdvance a n v = .next (s.store a n v).advance := by
  rw [State.storeThenAdvance, State.memWrite_eq_ok h]

/-- A load into an integer register that raises nothing completes with the bytes read, extended as it says. -/
theorem completesWithX_of_loadThen {i : Instr} {s : State} {a : Word} {n : Nat} {rd : Reg}
    {extend : BitVec (8 * n) → Word} (h : exec i s = s.loadThen a n fun v => s.finishX rd (extend v))
    (hc : accessCause .load a n = none) :
    CompletesWithX i s rd (extend (BitVec.ofNat (8 * n) (loadBytes s.mem a.toNat n))) :=
  completesWithX_of_finishX (h.trans (loadThen_ok hc))

/-- The address of an instruction that adds `k` to its base register. -/
theorem State.effectiveAddress_eq {s : State} {base : Reg} {a : Word} {imm : BitVec 12} {k : Nat}
    (h : s.getX base = a) (himm : immediate imm = BitVec.ofNat 32 k) :
    s.effectiveAddress base imm = a + BitVec.ofNat 32 k := by
  rw [State.effectiveAddress, h, himm]

/-- The address of an instruction with offset 0. -/
theorem State.effectiveAddress_zero {s : State} {base : Reg} {a : Word} (h : s.getX base = a) :
    s.effectiveAddress base 0 = a := by
  rw [State.effectiveAddress_eq (k := 0) h (by decide), BitVec.add_zero]

/-- `sw` with offset 0 to a multiple of 4 in memory stores its word there. -/
theorem exec_sw_of_aligned {s : State} {a w : Word} {base word : Reg} (ha : AlignedTo a 4) (hmem : InMemory a)
    (hbase : s.getX base = a) (hword : s.getX word = w) :
    exec (.sw word base 0) s = .next (s.store a 4 w).advance := by
  have hexec : exec (.sw word base 0) s = s.storeThenAdvance (s.effectiveAddress base 0) 4 (s.getX word) := rfl
  rw [hexec, State.effectiveAddress_zero hbase, hword, storeThenAdvance_ok (accessCause_of_width (by decide) ha hmem)]

section

variable {mem : Memory} {t : State} {a w : Word} {base rd : Reg} {imm : BitVec 12} {k : Nat}
variable (hr : Memory.Rising mem) (ht : t.mem = storeBytes mem a.toNat 4 w.toNat) (ha : AlignedTo a 4)
  (hmem : InMemory a) (hbase : t.getX base = a) (himm : immediate imm = BitVec.ofNat 32 k)

include hr ht ha hmem hbase himm

/-- A load of `m` bytes inside a stored word completes with its part of the word. -/
theorem completesWithX_of_load_inside_word {i : Instr} {m : Nat} {extend : BitVec (8 * m) → Word}
    (hexec : exec i t = t.loadThen (t.effectiveAddress base imm) m fun v => t.finishX rd (extend v))
    (hm : m ∈ [1, 2, 4, 8]) (hk : k + m ≤ 4) (hkm : k % m = 0) :
    CompletesWithX i t rd (extend (w.extractLsb' (8 * k) (8 * m))) := by
  have hpos := (width_pos_and_dvd m hm).1
  rw [State.effectiveAddress_eq hbase himm] at hexec
  have hload := completesWithX_of_loadThen hexec (accessCause_inside (n := 4) (by decide) hm hk hkm ha hmem)
  have hpart := ofNat_loadBytes_storeBytes_part a.toNat 4 k m w hr hk
  rwa [ht, toNat_add_inside (n := 4) (by decide) ha (by omega), hpart] at hload

theorem lbu_inside_word (hk : k < 4) :
    CompletesWithX (.lbu rd base imm) t rd ((w.extractLsb' (8 * k) 8).setWidth 32) :=
  completesWithX_of_load_inside_word (m := 1) (extend := fun v => v.setWidth 32) hr ht ha hmem hbase himm rfl
    (by decide) hk (Nat.mod_one k)

theorem lb_inside_word (hk : k < 4) :
    CompletesWithX (.lb rd base imm) t rd ((w.extractLsb' (8 * k) 8).signExtend 32) :=
  completesWithX_of_load_inside_word (m := 1) (extend := fun v => v.signExtend 32) hr ht ha hmem hbase himm rfl
    (by decide) hk (Nat.mod_one k)

theorem lhu_inside_word (hk : k + 2 ≤ 4) (hk2 : k % 2 = 0) :
    CompletesWithX (.lhu rd base imm) t rd ((w.extractLsb' (8 * k) 16).setWidth 32) :=
  completesWithX_of_load_inside_word (m := 2) (extend := fun v => v.setWidth 32) hr ht ha hmem hbase himm rfl
    (by decide) hk hk2

end

/-- After `sb` at the second address of a stored word, `lw` gives the word with that byte replaced. -/
theorem sb_inside_word_then_lw {mem : Memory} {t : State} {a w : Word} {b : Byte} {base byte : Reg} (rd : Reg)
    (hr : Memory.Rising mem) (ht : t.mem = storeBytes mem a.toNat 4 w.toNat) (ha : AlignedTo a 4)
    (hmem : InMemory a) (hbase : t.getX base = a) (hbyte : (t.getX byte).extractLsb' 0 8 = b) :
    ∃ u, exec (.sb byte base 1) t = .next u ∧
      CompletesWithX (.lw rd base 0) u rd (w.extractLsb' 16 16 ++ b ++ w.extractLsb' 0 8) := by
  have hsb : exec (.sb byte base 1) t =
      t.storeThenAdvance (t.effectiveAddress base 1) 1 ((t.getX byte).extractLsb' 0 8) := rfl
  have hinside : accessCause .storeAmo (a + BitVec.ofNat 32 1) 1 = none :=
    accessCause_inside (n := 4) (by decide) (by decide) (by decide) rfl ha hmem
  rw [State.effectiveAddress_eq (k := 1) hbase (by decide), hbyte, storeThenAdvance_ok hinside] at hsb
  refine ⟨_, hsb, ?_⟩
  generalize hu : (t.store (a + BitVec.ofNat 32 1) 1 b).advance = u
  have humem : u.mem = storeBytes (storeBytes mem a.toNat 4 w.toNat) (a.toNat + 1) 1 b.toNat := by
    rw [← hu, State.advance_mem, State.store_mem, ht, toNat_add_inside (n := 4) (by decide) ha (by decide)]
  have hubase : u.getX base = a := by rw [← hu, State.advance_getX, State.store_getX, hbase]
  have hlw : exec (.lw rd base 0) u = u.loadThen (u.effectiveAddress base 0) 4 fun v => u.finishX rd v := rfl
  rw [State.effectiveAddress_zero hubase] at hlw
  have hwhole := completesWithX_of_loadThen hlw (accessCause_of_width (by decide) ha hmem)
  rwa [humem, ofNat_loadBytes_word_with_second_byte a.toNat w b hr] at hwhole

/-- Settles O28: the primitives by the parts of a read, the instructions by the loads and stores they are, and the
numbers of the worked example by computing them. -/
theorem narrowAccessesSeeTheirBytes : Obligations.NarrowAccessesSeeTheirBytes := by
  refine ⟨fun s a n m k v c hn hm hk hkm ha hmem hwf => ?_,
    fun s a w b base word byte rd hwf ha hmem hbase hword hbyte => ?_, ?_⟩
  · exact narrow_accesses_see_their_bytes v c hn hm hk hkm ha hmem ((Memory.wf_iff _).1 hwf).1
  · have hr := ((Memory.wf_iff _).1 hwf).1
    have ht : (s.store a 4 w).advance.mem = storeBytes s.mem a.toNat 4 w.toNat := rfl
    exact ⟨_, exec_sw_of_aligned ha hmem hbase hword,
      lbu_inside_word (k := 0) hr ht ha hmem hbase (by decide) (by decide),
      lbu_inside_word (k := 1) hr ht ha hmem hbase (by decide) (by decide),
      lbu_inside_word (k := 2) hr ht ha hmem hbase (by decide) (by decide),
      lbu_inside_word (k := 3) hr ht ha hmem hbase (by decide) (by decide),
      lhu_inside_word (k := 0) hr ht ha hmem hbase (by decide) (by decide) (by decide),
      lhu_inside_word (k := 2) hr ht ha hmem hbase (by decide) (by decide) (by decide),
      lb_inside_word (k := 0) hr ht ha hmem hbase (by decide) (by decide),
      sb_inside_word_then_lw rd hr ht ha hmem hbase hbyte⟩
  · rintro w rfl
    decide

end Sys2Proof.Machine
end

section
/-! PROOFS. Words that no row assigns (spec/30_encoding.md R100, R101): a word that decodes is the word of its
instruction, an instruction of an absent group raises with its own word, and the words R101 lists have no row of the
base group. -/

namespace Sys2Proof

variable {w : Word} {i : Instr}

/-! ## The word of a decoded instruction, format by format -/

theorem encodeR_eq {f7 op : BitVec 7} {rs2 : Reg} {f3 : BitVec 3} (ho : fieldOpcode w = op)
    (h7 : fieldFunct7 w = f7) (h2 : fieldRs2 w = rs2) (h3 : fieldFunct3 w = f3) :
    encodeR f7 rs2 (fieldRs1 w) f3 (fieldRd w) op = w := by
  rw [← ho, ← h7, ← h2, ← h3, encodeR_fields]

theorem encodeI_eq {f3 : BitVec 3} {op : BitVec 7} (ho : fieldOpcode w = op) (h3 : fieldFunct3 w = f3) :
    encodeI (fieldImmI w) (fieldRs1 w) f3 (fieldRd w) op = w := by
  rw [← ho, ← h3, encodeI_fields]

theorem encodeS_eq {f3 : BitVec 3} {op : BitVec 7} (ho : fieldOpcode w = op) (h3 : fieldFunct3 w = f3) :
    encodeS (fieldImmS w) (fieldRs2 w) (fieldRs1 w) f3 op = w := by
  rw [← ho, ← h3, encodeS_fields]

theorem encodeB_eq {f3 : BitVec 3} {op : BitVec 7} (ho : fieldOpcode w = op) (h3 : fieldFunct3 w = f3) :
    encodeB (fieldOffsetB w) (fieldRs2 w) (fieldRs1 w) f3 op = w := by
  rw [← ho, ← h3, encodeB_fields]

theorem encodeU_eq {op : BitVec 7} (ho : fieldOpcode w = op) : encodeU (fieldImmU w) (fieldRd w) op = w := by
  rw [← ho, encodeU_fields]

theorem encodeJ_eq {op : BitVec 7} (ho : fieldOpcode w = op) : encodeJ (fieldOffsetJ w) (fieldRd w) op = w := by
  rw [← ho, encodeJ_fields]

theorem encodeR4_eq {fmt : BitVec 2} {op : BitVec 7} (ho : fieldOpcode w = op) (hf : fieldFmt w = fmt) :
    encodeR4 (fieldRs3 w) fmt (fieldRs2 w) (fieldRs1 w) (fieldFunct3 w) (fieldRd w) op = w := by
  rw [← ho, ← hf, encodeR4_fields]

theorem encodeA_eq {f5 : BitVec 5} {rs2 : Reg} {f3 : BitVec 3} (ho : fieldOpcode w = 0b0101111#7)
    (h5 : fieldRs3 w = f5) (h2 : fieldRs2 w = rs2) (h3 : fieldFunct3 w = f3) :
    encodeA f5 (fieldAq w) (fieldRl w) rs2 (fieldRs1 w) f3 (fieldRd w) = w := by
  rw [← h5, ← h2, ← h3, encodeA_fields w ho]

/-! ## The opcodes under which a second field selects among several forms -/

theorem encode_of_decodeOpImm (ho : fieldOpcode w = 0b0010011#7) (h : decodeOpImm w = .ok i) : encode i = w := by
  unfold decodeOpImm at h
  split at h
  case h_2 | h_6 => split at h <;> cases h <;> exact encodeR_eq ho ‹_› rfl ‹_›
  all_goals cases h; exact encodeI_eq ho ‹_›

theorem encode_of_decodeOp (ho : fieldOpcode w = 0b0110011#7) (h : decodeOp w = .ok i) : encode i = w := by
  unfold decodeOp at h
  split at h
  case h_4 => cases h
  all_goals split at h <;> cases h <;> exact encodeR_eq ho ‹_› rfl ‹_›

theorem encode_of_decodeSystem (ho : fieldOpcode w = 0b1110011#7) (h : decodeSystem w = .ok i) :
    encode i = w := by
  unfold decodeSystem at h
  split at h
  case h_1 =>
    split at h
    · cases h; exact Eq.symm ‹_›
    · split at h
      · cases h; exact Eq.symm ‹_›
      · cases h
  case h_8 => cases h
  all_goals cases h; exact encodeI_eq ho ‹_›

theorem encode_of_decodeAtomic (ho : fieldOpcode w = 0b0101111#7) (h : decodeAtomic w = .ok i) :
    encode i = w := by
  unfold decodeAtomic at h
  split at h
  case h_3 => cases h
  all_goals
    split at h
    case h_1 => split at h <;> cases h; exact encodeA_eq ho ‹_› ‹_› ‹_›
    case h_12 => cases h
    all_goals cases h; exact encodeA_eq ho ‹_› rfl ‹_›

/-- Under this opcode funct7 says which further fields are fixed: none in the arithmetic, funct3 in the operations
without rounding on two operands, `rs2` in the conversions and roots, both in the moves and classifications. -/
theorem encode_of_decodeOpFp (ho : fieldOpcode w = 0b1010011#7) (h : decodeOpFp w = .ok i) : encode i = w := by
  unfold decodeOpFp at h
  split at h
  case h_1 | h_2 | h_3 | h_4 | h_5 | h_6 | h_7 | h_8 => cases h; exact encodeR_eq ho ‹_› rfl rfl
  case h_9 | h_10 | h_11 | h_12 | h_17 | h_18 => split at h <;> cases h <;> exact encodeR_eq ho ‹_› rfl ‹_›
  case h_13 | h_14 | h_15 | h_16 | h_19 | h_20 | h_21 | h_22 =>
    split at h <;> cases h <;> exact encodeR_eq ho ‹_› ‹_› rfl
  case h_23 | h_24 | h_25 | h_26 =>
    split at h
    · split at h <;> cases h <;> exact encodeR_eq ho ‹_› ‹_› ‹_›
    · cases h
  case h_27 => cases h

/-! ## All opcodes -/

/-- A word that decodes is the word of the instruction it decodes to: the trap value of an instruction that is not
there is the word fetched (spec/60_exceptions.md R403). -/
theorem encode_of_decode (h : decode w = .ok i) : encode i = w := by
  unfold decode at h
  split at h
  next ho => unfold decodeLoad at h; split at h <;> cases h <;> exact encodeI_eq ho ‹_›
  next ho => unfold decodeFence at h; split at h <;> cases h <;> exact encodeI_eq ho ‹_›
  next ho => exact encode_of_decodeOpImm ho h
  next ho => unfold decodeStore at h; split at h <;> cases h <;> exact encodeS_eq ho ‹_›
  next ho => exact encode_of_decodeOp ho h
  next ho => unfold decodeBranch at h; split at h <;> cases h <;> exact encodeB_eq ho ‹_›
  next ho => unfold decodeJalr at h; split at h <;> cases h; exact encodeI_eq ho ‹_›
  next ho => exact encode_of_decodeSystem ho h
  next ho => exact encode_of_decodeAtomic ho h
  next ho => unfold decodeFpLoad at h; split at h <;> cases h <;> exact encodeI_eq ho ‹_›
  next ho => unfold decodeFpStore at h; split at h <;> cases h <;> exact encodeS_eq ho ‹_›
  next ho => unfold decodeFmadd at h; split at h <;> cases h <;> exact encodeR4_eq ho ‹_›
  next ho => unfold decodeFmsub at h; split at h <;> cases h <;> exact encodeR4_eq ho ‹_›
  next ho => unfold decodeFnmsub at h; split at h <;> cases h <;> exact encodeR4_eq ho ‹_›
  next ho => unfold decodeFnmadd at h; split at h <;> cases h <;> exact encodeR4_eq ho ‹_›
  next ho => exact encode_of_decodeOpFp ho h
  next ho => cases h; exact encodeU_eq ho
  next ho => cases h; exact encodeU_eq ho
  next ho => cases h; exact encodeJ_eq ho
  next => cases h

end Sys2Proof

namespace Sys2Proof.Machine

variable {c : Config} {w : Word} {i : Instr} {s : State}

/-! ## Instructions of an absent group -/

theorem exec_of_absent_group (h : groupEnabled s.cfg (groupOf i) = false) : exec i s = raiseIllegal i s := by
  cases i <;> simp only [groupOf, groupEnabled, reduceCtorEq] at h
  case lrD | scD | amoswapD | amoaddD | amoxorD | amoandD | amoorD | amominD | amomaxD | amominuD | amomaxuD
    | fmvDX | fmvXD | fcvtSL | fcvtDL | fcvtSLu | fcvtDLu | fcvtLS | fcvtLD | fcvtLuS | fcvtLuD => rfl
  all_goals exact whenPresent_false h

/-! ## Rows a hart has -/

/-- Whether what a word decodes to is a row of a group the hart has (spec/30_encoding.md R100). -/
def rowPresent (c : Config) : Except DecodeError Instr → Bool
  | .ok i => groupEnabled c (groupOf i)
  | .error _ => false

/-- A word without a row, or with a row of an absent group, raises IllegalInstruction with itself as trap value. -/
theorem raisesIllegal_of_no_row (h : rowPresent s.cfg (decode w) = false) : RaisesIllegal w s := by
  unfold RaisesIllegal executeWord
  cases hd : decode w with
  | error e => rfl
  | ok i =>
    rw [hd] at h
    calc exec i s = raiseIllegal i s := exec_of_absent_group h
      _ = raise .illegalInstruction w s := by rw [raiseIllegal, encode_of_decode hd]

/-- A hart without the optional groups has the groups of the default configuration, whatever its other parameters. -/
theorem groupEnabled_of_base_only (hM : c.hasM = false) (hA : c.hasA = false) (hF : c.hasF = false) (g : Group) :
    groupEnabled c g = groupEnabled .base g := by
  cases g with
  | base => rfl
  | m => exact hM
  | a => exact hA
  | f => exact hF
  | d => exact Bool.eq_false_iff.2 fun hD => Bool.false_ne_true (hF.symm.trans (Config.hasF_of_hasD hD))

theorem rowPresent_of_base_only (hM : c.hasM = false) (hA : c.hasA = false) (hF : c.hasF = false)
    (r : Except DecodeError Instr) : rowPresent c r = rowPresent .base r := by
  cases r with
  | error e => rfl
  | ok i => exact groupEnabled_of_base_only hM hA hF (groupOf i)

/-! ## The decoder of each opcode that R101 splits further -/

theorem decode_eq_decodeLoad (h : fieldOpcode w = 0b0000011#7) : decode w = decodeLoad w := by
  rw [decode, h]
  rfl

theorem decode_eq_decodeFence (h : fieldOpcode w = 0b0001111#7) : decode w = decodeFence w := by
  rw [decode, h]
  rfl

theorem decode_eq_decodeOpImm (h : fieldOpcode w = 0b0010011#7) : decode w = decodeOpImm w := by
  rw [decode, h]
  rfl

theorem decode_eq_decodeStore (h : fieldOpcode w = 0b0100011#7) : decode w = decodeStore w := by
  rw [decode, h]
  rfl

theorem decode_eq_decodeOp (h : fieldOpcode w = 0b0110011#7) : decode w = decodeOp w := by
  rw [decode, h]
  rfl

theorem decode_eq_decodeBranch (h : fieldOpcode w = 0b1100011#7) : decode w = decodeBranch w := by
  rw [decode, h]
  rfl

theorem decode_eq_decodeJalr (h : fieldOpcode w = 0b1100111#7) : decode w = decodeJalr w := by
  rw [decode, h]
  rfl

theorem decode_eq_decodeSystem (h : fieldOpcode w = 0b1110011#7) : decode w = decodeSystem w := by
  rw [decode, h]
  rfl

/-! ## Words without a row of the base group, opcode by opcode (spec/30_encoding.md R101) -/

theorem decodeLoad_no_base_row (h : fieldFunct3 w ∈ [0b011#3, 0b110#3, 0b111#3]) :
    rowPresent .base (decodeLoad w) = false := by
  unfold decodeLoad
  split
  case h_6 => rfl
  all_goals simp [‹fieldFunct3 w = _›] at h

theorem decodeFence_no_base_row (h : fieldFunct3 w ∉ [0b000#3, 0b001#3]) :
    rowPresent .base (decodeFence w) = false := by
  unfold decodeFence
  split
  case h_3 => rfl
  all_goals simp [‹fieldFunct3 w = _›] at h

theorem decodeOpImm_no_left_shift_row (h3 : fieldFunct3 w = 0b001#3) (h7 : fieldFunct7 w ≠ 0b0000000#7) :
    rowPresent .base (decodeOpImm w) = false := by
  unfold decodeOpImm
  split
  case h_2 =>
    split
    · exact absurd ‹_› h7
    · rfl
  all_goals exact absurd (h3.symm.trans ‹_›) (by decide)

theorem decodeOpImm_no_right_shift_row (h3 : fieldFunct3 w = 0b101#3)
    (h7 : fieldFunct7 w ∉ [0b0000000#7, 0b0100000#7]) : rowPresent .base (decodeOpImm w) = false := by
  unfold decodeOpImm
  split
  case h_6 =>
    split
    case h_3 => rfl
    all_goals simp [‹fieldFunct7 w = _›] at h7
  all_goals exact absurd (h3.symm.trans ‹_›) (by decide)

theorem decodeStore_no_base_row (h : fieldFunct3 w ∉ [0b000#3, 0b001#3, 0b010#3]) :
    rowPresent .base (decodeStore w) = false := by
  unfold decodeStore
  split
  case h_4 => rfl
  all_goals simp [‹fieldFunct3 w = _›] at h

/-- Of the three values of funct7 with a row, the third is that of the M group. -/
theorem decodeOp_no_base_row (h7 : fieldFunct7 w ≠ 0b0000000#7)
    (h : ¬(fieldFunct7 w = 0b0100000#7 ∧ fieldFunct3 w ∈ [0b000#3, 0b101#3])) :
    rowPresent .base (decodeOp w) = false := by
  unfold decodeOp
  split
  · exact absurd ‹_› h7
  · split
    case h_3 => rfl
    all_goals simp [‹fieldFunct7 w = _›, ‹fieldFunct3 w = _›] at h
  · split <;> rfl
  · rfl

theorem decodeBranch_no_base_row (h : fieldFunct3 w ∈ [0b010#3, 0b011#3]) :
    rowPresent .base (decodeBranch w) = false := by
  unfold decodeBranch
  split
  case h_7 => rfl
  all_goals simp [‹fieldFunct3 w = _›] at h

theorem decodeJalr_no_base_row (h : fieldFunct3 w ≠ 0b000#3) : rowPresent .base (decodeJalr w) = false := by
  unfold decodeJalr
  split
  · exact absurd ‹_› h
  · rfl

theorem decodeSystem_no_row_of_funct3_four (h : fieldFunct3 w = 0b100#3) :
    rowPresent .base (decodeSystem w) = false := by
  unfold decodeSystem
  split
  case h_8 => rfl
  all_goals exact absurd (h.symm.trans ‹_›) (by decide)

theorem decodeSystem_no_row_of_funct3_zero (h : fieldFunct3 w = 0b000#3) (hcall : w ≠ 0x00000073#32)
    (hbreak : w ≠ 0x00100073#32) : rowPresent .base (decodeSystem w) = false := by
  unfold decodeSystem
  split
  case h_1 => rw [if_neg hcall, if_neg hbreak]; rfl
  case h_8 => rfl
  all_goals exact absurd (h.symm.trans ‹_›) (by decide)

theorem decodeAtomic_no_base_row (w : Word) : rowPresent .base (decodeAtomic w) = false := by
  unfold decodeAtomic
  split
  case h_3 => rfl
  all_goals
    split
    case h_1 => split <;> rfl
    all_goals rfl

theorem decodeOpFp_no_base_row (w : Word) : rowPresent .base (decodeOpFp w) = false := by
  unfold decodeOpFp
  repeat' split
  all_goals rfl

/-- The opcodes of the base group. -/
def baseOpcodes : List (BitVec 7) :=
  [0b0000011#7, 0b0001111#7, 0b0010011#7, 0b0010111#7, 0b0100011#7, 0b0110011#7, 0b0110111#7, 0b1100011#7,
    0b1100111#7, 0b1101111#7, 0b1110011#7]

theorem decode_no_base_row_of_opcode (h : fieldOpcode w ∉ baseOpcodes) : rowPresent .base (decode w) = false := by
  unfold decode
  split
  case h_9 => exact decodeAtomic_no_base_row w
  case h_10 => unfold decodeFpLoad; split <;> rfl
  case h_11 => unfold decodeFpStore; split <;> rfl
  case h_12 => unfold decodeFmadd; split <;> rfl
  case h_13 => unfold decodeFmsub; split <;> rfl
  case h_14 => unfold decodeFnmsub; split <;> rfl
  case h_15 => unfold decodeFnmadd; split <;> rfl
  case h_16 => exact decodeOpFp_no_base_row w
  case h_20 => rfl
  all_goals simp [‹fieldOpcode w = _›, baseOpcodes] at h

/-- Settles O4: a word without a row the hart has raises, and the words of the list have no row of the base group. -/
theorem unassignedWordsRaise : Obligations.UnassignedWordsRaise := by
  refine fun w s => ⟨fun ⟨e, he⟩ => raisesIllegal_of_no_row (by rw [he]; rfl),
    fun hM hA hF h => raisesIllegal_of_no_row ?_⟩
  rw [rowPresent_of_base_only hM hA hF]
  rcases h with ⟨ho, h⟩ | ⟨ho, h⟩ | ⟨ho, h3, h7⟩ | ⟨ho, h3, h7⟩ | ⟨ho, h⟩ | ⟨ho, h7, h⟩ | ⟨ho, h⟩ | ⟨ho, h⟩ |
    ⟨ho, h⟩ | ⟨ho, h, hcall, hbreak⟩ | ho
  · rw [decode_eq_decodeLoad ho, decodeLoad_no_base_row h]
  · rw [decode_eq_decodeFence ho, decodeFence_no_base_row h]
  · rw [decode_eq_decodeOpImm ho, decodeOpImm_no_left_shift_row h3 h7]
  · rw [decode_eq_decodeOpImm ho, decodeOpImm_no_right_shift_row h3 h7]
  · rw [decode_eq_decodeStore ho, decodeStore_no_base_row h]
  · rw [decode_eq_decodeOp ho, decodeOp_no_base_row h7 h]
  · rw [decode_eq_decodeBranch ho, decodeBranch_no_base_row h]
  · rw [decode_eq_decodeJalr ho, decodeJalr_no_base_row h]
  · rw [decode_eq_decodeSystem ho, decodeSystem_no_row_of_funct3_four h]
  · rw [decode_eq_decodeSystem ho, decodeSystem_no_row_of_funct3_zero h hcall hbreak]
  · exact decode_no_base_row_of_opcode ho

end Sys2Proof.Machine
end

section
/-! PROOFS. The table of the six branch conditions and the branch words without a row
(spec/41_control_transfer.md R162). -/

namespace Sys2Proof.Machine

/-! ## The two unassigned funct3 values of the branch opcode -/

/-- Every row of the branch opcode is of the base group, so that the parameters of the hart do not matter to it. -/
theorem rowPresent_decodeBranch (c : Config) (w : Word) :
    rowPresent c (decodeBranch w) = rowPresent .base (decodeBranch w) := by
  unfold decodeBranch
  split <;> rfl

theorem raisesIllegal_of_unassigned_branch {w : Word} (s : State) (ho : fieldOpcode w = 0b1100011#7)
    (h : fieldFunct3 w ∈ [0b010#3, 0b011#3]) : RaisesIllegal w s := by
  apply raisesIllegal_of_no_row
  rw [decode_eq_decodeBranch ho, rowPresent_decodeBranch, decodeBranch_no_base_row h]

/-! ## A branch with an aligned target -/

theorem completesWithPc_of_branch {i : Instr} {s : State} {cond : Bool} {offset : BitVec 13}
    (hb : branchOf s i = some (cond, offset)) (ha : cond = true → AlignedTo (s.pc + offset.signExtend 32) 4) :
    CompletesWithPc i s (if cond then s.pc + offset.signExtend 32 else s.pc + 4#32) :=
  completesWithPc_of_pc ((exec_branch hb).trans (branchIf_ok fun hc => (aligned_iff _ 4).2 (ha hc)))

/-! ## The table -/

/-- A row of the table: two operands, then the conditions of `beq`, `bne`, `blt`, `bge`, `bltu` and `bgeu` on them. -/
abbrev ConditionRow := Word × Word × Bool × Bool × Bool × Bool × Bool × Bool

/-- The row of two operands as the rules of the six branches give it (R154 to R159). -/
def conditionRow (a b : Word) : ConditionRow :=
  (a, b, decide (a.toNat = b.toNat), decide (a.toNat ≠ b.toNat), decide (a.toInt < b.toInt),
    decide (b.toInt ≤ a.toInt), decide (a.toNat < b.toNat), decide (b.toNat ≤ a.toNat))

/-- The rows of R162. -/
def conditionTable : List ConditionRow :=
  [(0x00000005#32, 0x00000005#32, true, false, false, true, false, true),
   (0x00000001#32, 0x00000002#32, false, true, true, false, true, false),
   (0xFFFFFFFF#32, 0x00000000#32, false, true, true, false, false, true),
   (0x00000000#32, 0xFFFFFFFF#32, false, true, false, true, true, false),
   (0x80000000#32, 0x7FFFFFFF#32, false, true, true, false, false, true),
   (0x7FFFFFFF#32, 0x80000000#32, false, true, false, true, true, false)]

/-- The table agrees with the rules it is derived from. -/
theorem conditionRow_of_mem {row : ConditionRow} (h : row ∈ conditionTable) : conditionRow row.1 row.2.1 = row := by
  simp only [conditionTable, List.mem_cons, List.not_mem_nil, or_false] at h
  rcases h with rfl | rfl | rfl | rfl | rfl | rfl <;> rfl

/-- Settles O34: the two funct3 values have no row on any hart, and a row of the table gives each branch the condition
of its own rule, on which a branch with an aligned target completes. -/
theorem branchConditionTable : Obligations.BranchConditionTable := by
  refine ⟨fun w s => raisesIllegal_of_unassigned_branch s, ?_⟩
  rintro s rs1 rs2 offset a b eq ne lt ge ltu geu hrow rfl rfl ha
  have hconds : conditionRow (s.getX rs1) (s.getX rs2) = _ := conditionRow_of_mem hrow
  simp only [conditionRow, Prod.mk.injEq, true_and] at hconds
  obtain ⟨rfl, rfl, rfl, rfl, rfl, rfl⟩ := hconds
  refine ⟨?_, ?_, ?_, ?_, ?_, ?_⟩ <;> exact completesWithPc_of_branch rfl fun _ => ha

end Sys2Proof.Machine
end

section
/-! PROOFS. The identities of division and its corner cases (spec/44_m_extension.md R229). -/

namespace Sys2Proof.Machine

/-! ## Quotients and remainders as integers -/

/-- The overflowing quotient 2^31 wraps to the value R229 gives it, so that it needs no case of its own. -/
theorem divideSigned_of_ne_zero (a : Word) {b : Word} (hb : b ≠ 0#32) :
    divideSigned a b = BitVec.ofInt 32 (a.toInt.tdiv b.toInt) := by
  rw [divideSigned, if_neg hb]
  split
  next h =>
    obtain ⟨rfl, rfl⟩ := h
    rfl
  next => rfl

/-- Integer division leaves the dividend as the remainder by 0, and 0 as the remainder by -1, as R229 asks. -/
theorem remainderSigned_eq_tmod (a b : Word) : remainderSigned a b = BitVec.ofInt 32 (a.toInt.tmod b.toInt) := by
  unfold remainderSigned
  split
  next h => rw [h, BitVec.toInt_zero, Int.tmod_zero, BitVec.ofInt_toInt]
  next =>
    split
    next h =>
      obtain ⟨rfl, rfl⟩ := h
      rfl
    next => rw [Int.tmod_def]

theorem toInt_remainderSigned (a b : Word) : (remainderSigned a b).toInt = a.toInt.tmod b.toInt := by
  rw [remainderSigned_eq_tmod, ← BitVec.toInt_srem, BitVec.ofInt_toInt]

theorem divideUnsigned_of_ne_zero (a : Word) {b : Word} (hb : b ≠ 0#32) :
    divideUnsigned a b = BitVec.ofNat 32 (a.toNat / b.toNat) := if_neg hb

theorem remainderUnsigned_eq_mod (a b : Word) : remainderUnsigned a b = BitVec.ofNat 32 (a.toNat % b.toNat) := by
  unfold remainderUnsigned
  split
  next h => rw [h, BitVec.toNat_zero, Nat.mod_zero, BitVec.ofNat_toNat, BitVec.setWidth_eq]
  next => rfl

/-! ## Division by zero -/

theorem divideSigned_zero (a : Word) : divideSigned a 0#32 = 0xFFFFFFFF#32 := rfl

theorem remainderSigned_zero (a : Word) : remainderSigned a 0#32 = a := rfl

theorem divideUnsigned_zero (a : Word) : divideUnsigned a 0#32 = 0xFFFFFFFF#32 := rfl

theorem remainderUnsigned_zero (a : Word) : remainderUnsigned a 0#32 = a := rfl

/-! ## The dividend from the quotient and the remainder -/

/-- Modulo 2^32 the identity of integer division holds at the overflow too; by zero the remainder alone is the
dividend. -/
theorem eq_mul_divideSigned_add_remainderSigned (a b : Word) :
    a = b * divideSigned a b + remainderSigned a b := by
  by_cases hb : b = 0#32
  · rw [hb, remainderSigned_zero, BitVec.zero_mul, BitVec.zero_add]
  · calc a = BitVec.ofInt 32 (b.toInt * a.toInt.tdiv b.toInt + a.toInt.tmod b.toInt) := by
          rw [Int.mul_tdiv_add_tmod, BitVec.ofInt_toInt]
      _ = b * divideSigned a b + remainderSigned a b := by
          rw [BitVec.ofInt_add, BitVec.ofInt_mul, BitVec.ofInt_toInt, divideSigned_of_ne_zero a hb,
            remainderSigned_eq_tmod]

theorem eq_mul_divideUnsigned_add_remainderUnsigned (a b : Word) :
    a = b * divideUnsigned a b + remainderUnsigned a b := by
  by_cases hb : b = 0#32
  · rw [hb, remainderUnsigned_zero, BitVec.zero_mul, BitVec.zero_add]
  · calc a = BitVec.ofNat 32 (b.toNat * (a.toNat / b.toNat) + a.toNat % b.toNat) := by
          rw [Nat.div_add_mod, BitVec.ofNat_toNat, BitVec.setWidth_eq]
      _ = b * divideUnsigned a b + remainderUnsigned a b := by
          rw [BitVec.ofNat_add, BitVec.ofNat_mul, BitVec.ofNat_toNat, BitVec.setWidth_eq,
            divideUnsigned_of_ne_zero a hb, remainderUnsigned_eq_mod]

/-! ## The size and the sign of a signed remainder -/

theorem natAbs_remainderSigned_lt (a : Word) {b : Word} (hb : b ≠ 0#32) :
    (remainderSigned a b).toInt.natAbs < b.toInt.natAbs := by
  rw [toInt_remainderSigned, Int.natAbs_tmod]
  exact Nat.mod_lt _ (Int.natAbs_pos.2 (BitVec.toInt_ne.2 hb))

theorem mul_tmod_nonneg (m n : Int) : 0 ≤ m * m.tmod n := by
  rcases Int.le_total 0 m with h | h
  · exact Int.mul_nonneg h (Int.tmod_nonneg n h)
  · have hneg : 0 ≤ (-m).tmod n := Int.tmod_nonneg n (Int.neg_nonneg_of_nonpos h)
    rw [Int.neg_tmod] at hneg
    exact Int.mul_nonneg_of_nonpos_of_nonpos h (Int.nonpos_of_neg_nonneg hneg)

theorem mul_remainderSigned_nonneg (a b : Word) : 0 ≤ a.toInt * (remainderSigned a b).toInt := by
  rw [toInt_remainderSigned]
  exact mul_tmod_nonneg a.toInt b.toInt

/-! ## The table -/

/-- A row of the table: dividend and divisor, then the results of `div`, `rem`, `divu` and `remu`. -/
abbrev DivisionRow := Word × Word × Word × Word × Word × Word

/-- The row of two operands as the rules of the four instructions give it (R225 to R228). -/
def divisionRow (a b : Word) : DivisionRow :=
  (a, b, divideSigned a b, remainderSigned a b, divideUnsigned a b, remainderUnsigned a b)

/-- The rows of R229 with a non-zero divisor. -/
def divisionTable : List DivisionRow :=
  [(0x80000000#32, 0xFFFFFFFF#32, 0x80000000#32, 0#32, 0#32, 0x80000000#32),
   (7#32, 2#32, 3#32, 1#32, 3#32, 1#32),
   (0xFFFFFFF9#32, 2#32, 0xFFFFFFFD#32, 0xFFFFFFFF#32, 0x7FFFFFFC#32, 1#32),
   (7#32, 0xFFFFFFFE#32, 0xFFFFFFFD#32, 1#32, 0#32, 7#32),
   (0xFFFFFFF9#32, 0xFFFFFFFE#32, 3#32, 0xFFFFFFFF#32, 0#32, 0xFFFFFFF9#32),
   (0#32, 5#32, 0#32, 0#32, 0#32, 0#32)]

/-- The table agrees with the rules it is derived from. -/
theorem divisionRow_of_mem {row : DivisionRow} (h : row ∈ divisionTable) : divisionRow row.1 row.2.1 = row := by
  simp only [divisionTable, List.mem_cons, List.not_mem_nil, or_false] at h
  rcases h with rfl | rfl | rfl | rfl | rfl | rfl <;> rfl

/-! ## The instructions -/

theorem completesWithX_of_present {i : Instr} {s : State} {p : Bool} {rd : Reg} {v : Word} (hp : p = true)
    (h : exec i s = whenPresent p i s (s.finishX rd v)) : CompletesWithX i s rd v :=
  completesWithX_of_finishX (h.trans (whenPresent_true hp))

/-- Settles O44: the four instructions complete with the model's quotients and remainders, which have the identities
of integer division, the zero divisor's values by definition, and the rows of the table. -/
theorem divisionCornerCases : Obligations.DivisionCornerCases := by
  rintro s rd rs1 rs2 a b hM rfl rfl
  refine ⟨divideSigned (s.getX rs1) (s.getX rs2), remainderSigned (s.getX rs1) (s.getX rs2),
    divideUnsigned (s.getX rs1) (s.getX rs2), remainderUnsigned (s.getX rs1) (s.getX rs2),
    completesWithX_of_present hM rfl, completesWithX_of_present hM rfl, completesWithX_of_present hM rfl,
    completesWithX_of_present hM rfl, eq_mul_divideSigned_add_remainderSigned _ _,
    eq_mul_divideUnsigned_add_remainderUnsigned _ _,
    fun hb => ⟨natAbs_remainderSigned_lt _ hb, mul_remainderSigned_nonneg _ _⟩, fun hb => ?_,
    fun row hrow ha hb => ?_⟩
  · rw [hb]
    exact ⟨divideSigned_zero _, remainderSigned_zero _, divideUnsigned_zero _, remainderUnsigned_zero _⟩
  · rw [← ha, ← hb]
    exact congrArg (fun r : DivisionRow => r.2.2) (divisionRow_of_mem hrow)

end Sys2Proof.Machine
end

section
/-! PROOFS. Words of the atomic opcode without a row the hardware has (spec/46_a_extension.md R357). -/

namespace Sys2Proof.Machine

variable {w : Word} {i : Instr} {s : State}

/-! ## Rows the hardware does not have -/

theorem exec_of_not_admitted (h : admitted i = false) : exec i s = raiseIllegal i s := by
  cases i
  case lrD | scD | amoswapD | amoaddD | amoxorD | amoandD | amoorD | amominD | amomaxD | amominuD | amomaxuD
    | fmvDX | fmvXD | fcvtSL | fcvtDL | fcvtSLu | fcvtDLu | fcvtLS | fcvtLD | fcvtLuS | fcvtLuD => rfl
  all_goals cases h

/-- A word that stands for no instruction of an enabled group admitted at XLEN = 32 raises
(spec/30_encoding.md R100). -/
theorem raisesIllegal_of_no_admitted_row
    (h : ∀ i, decode w = .ok i → admitted i = true → groupEnabled s.cfg (groupOf i) = false) :
    RaisesIllegal w s := by
  cases hd : decode w with
  | error e => exact raisesIllegal_of_no_row (by rw [hd]; rfl)
  | ok i =>
    cases hi : admitted i with
    | true => exact raisesIllegal_of_no_row (by rw [hd]; exact h i hd hi)
    | false =>
      calc executeWord w s = exec i s := by rw [executeWord, hd]
        _ = raiseIllegal i s := exec_of_not_admitted hi
        _ = raise .illegalInstruction w s := by rw [raiseIllegal, encode_of_decode hd]

/-! ## The rows of the atomic opcode -/

theorem decode_eq_decodeAtomic (h : fieldOpcode w = 0b0101111#7) : decode w = decodeAtomic w := by
  rw [decode, h]
  rfl

/-- The eleven values of `inst[31:27]` with a row, in the order of R357. -/
def atomicOperations : List (BitVec 5) :=
  [0b00010#5, 0b00011#5, 0b00001#5, 0b00000#5, 0b00100#5, 0b01100#5, 0b01000#5, 0b10000#5, 0b10100#5, 0b11000#5,
    0b11100#5]

/-- The fields of a word under the atomic opcode that stands for an instruction with 32-bit registers. -/
structure IsAtomicWordRow (w : Word) : Prop where
  funct3 : fieldFunct3 w = 0b010#3
  operation : fieldRs3 w ∈ atomicOperations
  rs2_of_lr : fieldRs3 w = 0b00010#5 → fieldRs2 w = 0b00000#5

theorem groupOf_of_decodeAtomic (h : decodeAtomic w = .ok i) : groupOf i = .a := by
  unfold decodeAtomic at h
  split at h
  case h_3 => cases h
  all_goals
    split at h
    case h_1 => split at h <;> cases h; rfl
    case h_12 => cases h
    all_goals cases h; rfl

theorem isAtomicWordRow_of_decodeAtomic (h : decodeAtomic w = .ok i) (hi : admitted i = true) :
    IsAtomicWordRow w := by
  unfold decodeAtomic at h
  split at h
  case h_1 h3 =>
    split at h
    case h_1 h5 =>
      split at h
      next h2 => exact ⟨h3, h5 ▸ by decide, fun _ => h2⟩
      next => cases h
    case h_12 => cases h
    all_goals
      next h5 => exact ⟨h3, h5 ▸ by decide, fun hlr => absurd (h5.symm.trans hlr) (by decide)⟩
  case h_2 =>
    split at h
    case h_1 => split at h <;> cases h; cases hi
    case h_12 => cases h
    all_goals cases h; cases hi
  case h_3 => cases h

/-- Settles O5: an admitted row of the opcode belongs to the A group and has the fields that R357 lists. -/
theorem atomicOpcodeUnassignedWordsRaise : Obligations.AtomicOpcodeUnassignedWordsRaise := by
  intro w s ho h
  apply raisesIllegal_of_no_admitted_row
  intro i hd hi
  rw [decode_eq_decodeAtomic ho] at hd
  have hrow : IsAtomicWordRow w := isAtomicWordRow_of_decodeAtomic hd hi
  rw [groupOf_of_decodeAtomic hd]
  rcases h with h3 | h5 | ⟨hlr, h2⟩ | hA
  · exact absurd hrow.funct3 h3
  · exact absurd hrow.operation h5
  · exact absurd (hrow.rs2_of_lr hlr) h2
  · exact hA

end Sys2Proof.Machine
end

section
/-! PROOFS. Words of the floating-point opcodes without a row (spec/48_fd_compare_convert.md R314). -/

namespace Sys2Proof.Machine

variable {w : Word} {i : Instr}

/-! ## The decoder of each opcode -/

theorem decode_eq_decodeFpLoad (h : fieldOpcode w = 0b0000111#7) : decode w = decodeFpLoad w := by
  rw [decode, h]
  rfl

theorem decode_eq_decodeFpStore (h : fieldOpcode w = 0b0100111#7) : decode w = decodeFpStore w := by
  rw [decode, h]
  rfl

theorem decode_eq_decodeFmadd (h : fieldOpcode w = 0b1000011#7) : decode w = decodeFmadd w := by
  rw [decode, h]
  rfl

theorem decode_eq_decodeFmsub (h : fieldOpcode w = 0b1000111#7) : decode w = decodeFmsub w := by
  rw [decode, h]
  rfl

theorem decode_eq_decodeFnmsub (h : fieldOpcode w = 0b1001011#7) : decode w = decodeFnmsub w := by
  rw [decode, h]
  rfl

theorem decode_eq_decodeFnmadd (h : fieldOpcode w = 0b1001111#7) : decode w = decodeFnmadd w := by
  rw [decode, h]
  rfl

theorem decode_eq_decodeOpFp (h : fieldOpcode w = 0b1010011#7) : decode w = decodeOpFp w := by
  rw [decode, h]
  rfl

/-! ## Loads and stores -/

theorem funct3_of_decodeFpLoad (h : decodeFpLoad w = .ok i) : fieldFunct3 w ∈ [0b010#3, 0b011#3] := by
  unfold decodeFpLoad at h
  split at h
  case h_3 => cases h
  all_goals simp [‹fieldFunct3 w = _›]

theorem funct3_of_decodeFpStore (h : decodeFpStore w = .ok i) : fieldFunct3 w ∈ [0b010#3, 0b011#3] := by
  unfold decodeFpStore at h
  split at h
  case h_3 => cases h
  all_goals simp [‹fieldFunct3 w = _›]

theorem funct3_of_decode_load_store (ho : fieldOpcode w ∈ [0b0000111#7, 0b0100111#7]) (h : decode w = .ok i) :
    fieldFunct3 w ∈ [0b010#3, 0b011#3] := by
  simp only [List.mem_cons, List.not_mem_nil, or_false] at ho
  rcases ho with ho | ho
  · exact funct3_of_decodeFpLoad (decode_eq_decodeFpLoad ho ▸ h)
  · exact funct3_of_decodeFpStore (decode_eq_decodeFpStore ho ▸ h)

/-! ## The rows of the computation opcode -/

/-- The values of `inst[31:27]` with a row under the computation opcode, in the order of R314. -/
def opFpOperations : List (BitVec 5) :=
  [0b00000#5, 0b00001#5, 0b00010#5, 0b00011#5, 0b00100#5, 0b00101#5, 0b01000#5, 0b01011#5, 0b10100#5, 0b11000#5,
    0b11010#5, 0b11100#5, 0b11110#5]

/-- The fields of a word under the computation opcode that stands for an instruction. -/
structure IsOpFpRow (w : Word) : Prop where
  precision : fieldFmt w ∉ [0b10#2, 0b11#2]
  operation : fieldRs3 w ∈ opFpOperations
  rs2_of_to_single : fieldFunct7 w = 0b0100000#7 → fieldRs2 w = 0b00001#5
  rs2_of_to_double : fieldFunct7 w = 0b0100001#7 → fieldRs2 w = 0b00000#5
  rs2_of_one_operand : fieldRs3 w ∈ [0b01011#5, 0b11100#5, 0b11110#5] → fieldRs2 w = 0b00000#5
  rs2_of_integer : fieldRs3 w ∈ [0b11000#5, 0b11010#5] → fieldRs2 w ∈ [0b00000#5, 0b00001#5, 0b00010#5, 0b00011#5]
  funct3_of_sign_or_compare : fieldRs3 w ∈ [0b00100#5, 0b10100#5] → fieldFunct3 w ∈ [0b000#3, 0b001#3, 0b010#3]
  funct3_of_minmax_or_class : fieldRs3 w ∈ [0b00101#5, 0b11100#5] → fieldFunct3 w ∈ [0b000#3, 0b001#3]
  funct3_of_move : fieldRs3 w = 0b11110#5 → fieldFunct3 w = 0b000#3

theorem fieldRs3_of_funct7 {f : BitVec 7} (h : fieldFunct7 w = f) : fieldRs3 w = f.extractLsb' 2 5 := by
  rw [← h, ← fieldFunct7_eq]
  exact (BitVec.extractLsb'_append_eq_left ..).symm

theorem fieldFmt_of_funct7 {f : BitVec 7} (h : fieldFunct7 w = f) : fieldFmt w = f.extractLsb' 0 2 := by
  rw [← h, ← fieldFunct7_eq]
  exact (BitVec.extractLsb'_append_eq_right ..).symm

/-- In every row funct7 fixes the operation and the precision, and where a clause of the structure speaks of `rs2` or
funct3, the row fixes that field too. -/
theorem isOpFpRow_of_decodeOpFp (h : decodeOpFp w = .ok i) : IsOpFpRow w := by
  unfold decodeOpFp at h
  split at h
  case h_27 => cases h
  all_goals
    next h7 =>
      have h5 := fieldRs3_of_funct7 h7
      have hf := fieldFmt_of_funct7 h7
      repeat' split at h
      all_goals cases h
      all_goals constructor <;> simp [*, opFpOperations]

/-- All five opcodes with a precision field have rows for singles and doubles alone. -/
theorem precision_of_decode
    (ho : fieldOpcode w ∈ [0b1000011#7, 0b1000111#7, 0b1001011#7, 0b1001111#7, 0b1010011#7])
    (h : decode w = .ok i) : fieldFmt w ∉ [0b10#2, 0b11#2] := by
  simp only [List.mem_cons, List.not_mem_nil, or_false] at ho
  rcases ho with ho | ho | ho | ho | ho
  · rw [decode_eq_decodeFmadd ho, decodeFmadd] at h
    split at h <;> cases h <;> simp [‹fieldFmt w = _›]
  · rw [decode_eq_decodeFmsub ho, decodeFmsub] at h
    split at h <;> cases h <;> simp [‹fieldFmt w = _›]
  · rw [decode_eq_decodeFnmsub ho, decodeFnmsub] at h
    split at h <;> cases h <;> simp [‹fieldFmt w = _›]
  · rw [decode_eq_decodeFnmadd ho, decodeFnmadd] at h
    split at h <;> cases h <;> simp [‹fieldFmt w = _›]
  · exact (isOpFpRow_of_decodeOpFp (decode_eq_decodeOpFp ho ▸ h)).precision

/-- Settles O6: a word under these opcodes that decodes has none of the fields R314 lists. -/
theorem floatOpcodeUnassignedWordsRaise : Obligations.FloatOpcodeUnassignedWordsRaise := by
  intro w s h
  apply raisesIllegal_of_no_admitted_row
  intro i hd _
  exfalso
  rcases h with ⟨ho, h3⟩ | ⟨ho, hf⟩ | ⟨ho, h⟩
  · exact h3 (funct3_of_decode_load_store ho hd)
  · exact precision_of_decode ho hd hf
  · have hrow : IsOpFpRow w := isOpFpRow_of_decodeOpFp (decode_eq_decodeOpFp ho ▸ hd)
    rcases h with h5 | ⟨h7, h2⟩ | ⟨h7, h2⟩ | ⟨h5, h2⟩ | ⟨h5, h2⟩ | ⟨h5, h3⟩ | ⟨h5, h3⟩ | ⟨h5, h3⟩
    · exact h5 hrow.operation
    · exact h2 (hrow.rs2_of_to_single h7)
    · exact h2 (hrow.rs2_of_to_double h7)
    · exact h2 (hrow.rs2_of_one_operand h5)
    · exact h2 (hrow.rs2_of_integer h5)
    · exact h3 (hrow.funct3_of_sign_or_compare h5)
    · exact h3 (hrow.funct3_of_minmax_or_class h5)
    · exact h3 (hrow.funct3_of_move h5)

end Sys2Proof.Machine
end

section
/-! PROOFS. Classification of floating-point patterns (spec/48_fd_compare_convert.md R313): the ranges of patterns in
the table are ranges of the sign, exponent and fraction fields. -/

namespace Sys2Proof.Machine

variable {fmt : FloatFormat}

/-! ## The class by fields -/

/-- The row of the table of classes for a sign, an exponent field and a fraction field. -/
def classOfFields (fmt : FloatFormat) (neg : Bool) (exponent fraction : Nat) : Nat :=
  if exponent = 2 ^ fmt.expBits - 1 then
    if fraction = 0 then if neg then 0 else 7
    else if fraction < 2 ^ (fmt.fracBits - 1) then 8 else 9
  else if exponent = 0 then
    if fraction = 0 then if neg then 3 else 4 else if neg then 2 else 5
  else if neg then 1 else 6

theorem fractionField_lt (p : BitVec fmt.width) : fractionField fmt p < 2 ^ fmt.fracBits :=
  Nat.mod_lt _ (Nat.two_pow_pos _)

theorem classBit_eq_classOfFields (p : BitVec fmt.width) :
    classBit fmt p = classOfFields fmt (signField fmt p) (exponentField fmt p) (fractionField fmt p) := by
  have hfrac := fractionField_lt p
  unfold classBit unpack classOfFields
  by_cases hmax : exponentField fmt p = 2 ^ fmt.expBits - 1
  · rw [if_pos hmax, if_pos hmax]
    by_cases hzero : fractionField fmt p = 0 <;> simp [hzero]
  · rw [if_neg hmax, if_neg hmax]
    by_cases hmin : exponentField fmt p = 0
    · simp [hmin, hfrac]
    · simp [hmin]

theorem classBit_lt (p : BitVec fmt.width) : classBit fmt p < 10 := by
  rw [classBit_eq_classOfFields, classOfFields]
  split_ifs <;> decide

/-! ## The class by ranges of patterns -/

/-- The table of classes by ranges of patterns, for a format with the sign in the place of `sign`, the least normal
number `unit`, and `top` the magnitude of infinity. -/
def classOfPattern (sign unit top n : Nat) (quiet : Bool) : Nat :=
  if n = sign + top then 0
  else if sign + unit ≤ n ∧ n ≤ sign + top - 1 then 1
  else if sign + 1 ≤ n ∧ n ≤ sign + unit - 1 then 2
  else if n = sign then 3
  else if n = 0 then 4
  else if n ≤ unit - 1 then 5
  else if n ≤ top - 1 then 6
  else if n = top then 7
  else if quiet = false then 8
  else 9

theorem classOfSingle_eq (v : Single) :
    classOfSingle v = classOfPattern 0x80000000 0x800000 0x7F800000 v.toNat (v.getLsbD 22) := rfl

theorem classOfDouble_eq (v : Double) :
    classOfDouble v = classOfPattern 0x8000000000000000 0x10000000000000 0x7FF0000000000000 v.toNat (v.getLsbD 51) :=
  rfl

/-- A pattern is its three fields. -/
theorem toNat_eq_fields (p : BitVec fmt.width) :
    p.toNat = (signField fmt p).toNat * 2 ^ (fmt.expBits + fmt.fracBits) +
      (exponentField fmt p * 2 ^ fmt.fracBits + fractionField fmt p) := by
  rw [← fields_mod, ← packMagnitude_toNat _ (Nat.mod_lt _ (Nat.two_pow_pos _)), packMagnitude_fields]

/-- The top fraction bit of a pattern. -/
theorem quietBit_eq (hf : 1 ≤ fmt.fracBits) (p : BitVec fmt.width) :
    p.getLsbD (fmt.fracBits - 1) = decide (2 ^ (fmt.fracBits - 1) ≤ fractionField fmt p) := by
  have hbit : p.getLsbD (fmt.fracBits - 1) = (fractionField fmt p).testBit (fmt.fracBits - 1) := by
    rw [fractionField, Nat.testBit_mod_two_pow, decide_eq_true (by omega), Bool.true_and, BitVec.getLsbD]
  have hlt : fractionField fmt p / 2 ^ (fmt.fracBits - 1) < 2 := by
    rw [Nat.div_lt_iff_lt_mul (Nat.two_pow_pos _), ← pow_succ', Nat.sub_add_cancel hf]
    exact fractionField_lt p
  rw [hbit, Nat.testBit_eq_decide_div_mod_eq, Nat.mod_eq_of_lt hlt, decide_eq_decide,
    ← one_mul (2 ^ _), ← Nat.le_div_iff_mul_le (Nat.two_pow_pos _), one_mul]
  omega

/-- The ranges of the table are the cases of the fields, for a pattern `n` of sign `neg`, whose exponent field
contributes `high` and whose fraction field is `low`. -/
theorem classOfPattern_cases {sign unit top half high low n : Nat} {neg quiet : Bool} (hunit : unit ≤ top)
    (hsign : top + unit = sign) (hlow : low < unit) (hn : n = neg.toNat * sign + (high + low))
    (hquiet : quiet = decide (half ≤ low)) :
    (high = top → low = 0 → classOfPattern sign unit top n quiet = if neg then 0 else 7) ∧
    (high = top → low ≠ 0 → classOfPattern sign unit top n quiet = if low < half then 8 else 9) ∧
    (high = 0 → low = 0 → classOfPattern sign unit top n quiet = if neg then 3 else 4) ∧
    (high = 0 → low ≠ 0 → classOfPattern sign unit top n quiet = if neg then 2 else 5) ∧
    (unit ≤ high → high + unit ≤ top → classOfPattern sign unit top n quiet = if neg then 1 else 6) := by
  subst hquiet
  unfold classOfPattern
  cases neg
  case' false => rw [Bool.toNat_false, zero_mul, zero_add] at hn
  case' true => rw [Bool.toNat_true, one_mul] at hn
  all_goals
    refine ⟨fun h1 h2 => ?_, fun h1 h2 => ?_, fun h1 h2 => ?_, fun h1 h2 => ?_, fun h1 h2 => ?_⟩ <;>
    simp (disch := omega) only [if_pos, if_neg, Bool.false_eq_true, reduceIte, decide_eq_false_iff_not, not_le]

theorem classBit_eq_classOfPattern (he : 1 ≤ fmt.expBits) (hf : 1 ≤ fmt.fracBits) (p : BitVec fmt.width) :
    classBit fmt p = classOfPattern (2 ^ (fmt.expBits + fmt.fracBits)) (2 ^ fmt.fracBits) (infinityMagnitude fmt)
      p.toNat (p.getLsbD (fmt.fracBits - 1)) := by
  have hexp : 2 ≤ 2 ^ fmt.expBits := Nat.pow_le_pow_right two_pos he
  have hunit : 2 ^ fmt.fracBits ≤ infinityMagnitude fmt := Nat.le_mul_of_pos_left _ (by omega)
  have hsign : infinityMagnitude fmt + 2 ^ fmt.fracBits = 2 ^ (fmt.expBits + fmt.fracBits) := by
    rw [infinityMagnitude, ← Nat.succ_mul, pow_add, Nat.succ_eq_add_one, Nat.sub_add_cancel (by omega)]
  have hmagnitude : exponentField fmt p < 2 ^ fmt.expBits := Nat.mod_lt _ (Nat.two_pow_pos _)
  obtain ⟨hinf, hnan, hzero, hsub, hnormal⟩ :=
    classOfPattern_cases hunit hsign (fractionField_lt p) (toNat_eq_fields p) (quietBit_eq hf p)
  rw [classBit_eq_classOfFields, classOfFields]
  by_cases hmax : exponentField fmt p = 2 ^ fmt.expBits - 1
  · have hhigh : exponentField fmt p * 2 ^ fmt.fracBits = infinityMagnitude fmt := by rw [hmax, infinityMagnitude]
    rw [if_pos hmax]
    by_cases hfrac : fractionField fmt p = 0
    · rw [if_pos hfrac, hinf hhigh hfrac]
    · rw [if_neg hfrac, hnan hhigh hfrac]
  · rw [if_neg hmax]
    by_cases hmin : exponentField fmt p = 0
    · have hhigh : exponentField fmt p * 2 ^ fmt.fracBits = 0 := by rw [hmin, zero_mul]
      rw [if_pos hmin]
      by_cases hfrac : fractionField fmt p = 0
      · rw [if_pos hfrac, hzero hhigh hfrac]
      · rw [if_neg hfrac, hsub hhigh hfrac]
    · rw [if_neg hmin, hnormal (Nat.le_mul_of_pos_left _ (Nat.pos_of_ne_zero hmin))]
      rw [← Nat.succ_mul]
      exact Nat.mul_le_mul_right _ (by omega)

theorem classBit_single (v : Single) : classBit .single v = classOfSingle v :=
  classBit_eq_classOfPattern (fmt := .single) (by decide) (by decide) v

theorem classBit_double (v : Double) : classBit .double v = classOfDouble v :=
  classBit_eq_classOfPattern (fmt := .double) (by decide) (by decide) v

/-! ## The mask -/

theorem setWidth_class10 (p : BitVec fmt.width) :
    (class10 fmt p).setWidth 32 = BitVec.ofNat 32 (2 ^ classBit fmt p) := by
  have hpow : 2 ^ classBit fmt p < 2 ^ 10 := Nat.pow_lt_pow_right (by decide) (classBit_lt p)
  apply BitVec.eq_of_toNat_eq
  rw [class10, BitVec.toNat_setWidth, BitVec.toNat_twoPow, Nat.mod_eq_of_lt hpow, BitVec.toNat_ofNat]

theorem rdS_of_not_boxed {s : State} {r : Reg} (hD : s.cfg.hasD = true)
    (h : (s.getF r).extractLsb' 32 32 ≠ 0xFFFFFFFF#32) : s.rdS r = canonicalNaNSingle := by
  rw [State.rdS, if_pos hD, if_neg h]

theorem completesWithX_fclassS {s : State} (rd rs1 : Reg) (hF : s.cfg.hasF = true) :
    CompletesWithX (.fclassS rd rs1) s rd (BitVec.ofNat 32 (2 ^ classOfSingle (s.rdS rs1))) := by
  rw [← classBit_single, ← setWidth_class10 (fmt := .single)]
  exact completesWithX_of_present hF rfl

theorem completesWithX_fclassD {s : State} (rd rs1 : Reg) (hD : s.cfg.hasD = true) :
    CompletesWithX (.fclassD rd rs1) s rd (BitVec.ofNat 32 (2 ^ classOfDouble (s.getF rs1))) := by
  rw [← classBit_double, ← setWidth_class10 (fmt := .double)]
  exact completesWithX_of_present hD rfl

/-- Settles O52: the class of the model is the row of the table, and an unboxed single reads as the canonical NaN,
which is in row 9. -/
theorem classificationCompletes : Obligations.ClassificationCompletes := by
  refine fun s rd rs1 => ⟨completesWithX_fclassS rd rs1, completesWithX_fclassD rd rs1, fun hD hbox => ?_⟩
  have hclass := completesWithX_fclassS rd rs1 (Config.hasF_of_hasD hD)
  rw [rdS_of_not_boxed hD hbox] at hclass
  exact hclass

end Sys2Proof.Machine
end

section
/-! PROOFS. Conversion to 32-bit integers (spec/48_fd_compare_convert.md R312): `roundToExponent` at exponent 0 rounds
a magnitude to one of its two neighbouring integers, the sign turns that into rounding of the number, and what
follows is the range test on the rounded value. -/

namespace Sys2Proof.Machine

variable {mode : RoundingMode} {neg : Bool} {q n : Nat} {x : ℚ}

/-! ## Rounding a magnitude to an integer -/

/-- The mode takes the magnitude `x` of a number of sign `neg` to the integer above it, not to `q` below it:
`AwayFromZero` for consecutive integers, over the rational numbers. -/
def ToNextInteger (mode : RoundingMode) (neg : Bool) (q : Nat) (x : ℚ) : Prop :=
  match mode with
  | .rne => q + 1 / 2 < x ∨ x = q + 1 / 2 ∧ q % 2 = 1
  | .rtz => False
  | .rdn => neg = true ∧ x ≠ q
  | .rup => neg = false ∧ x ≠ q
  | .rmm => q + 1 / 2 ≤ x

theorem awayFromZero_iff : AwayFromZero mode neg q q x (q + 1 : Nat) ↔ ToNextInteger mode neg q x := by
  have hmid : ((q : ℝ) + (q + 1 : Nat)) / 2 = ((q + 1 / 2 : ℚ) : ℝ) := by push_cast; ring
  have hcast : (x : ℝ) = q ↔ x = q := by exact_mod_cast Iff.rfl
  cases mode <;>
    simp only [AwayFromZero, ToNextInteger, hmid, Rat.cast_lt, Rat.cast_le, Rat.cast_inj, ne_eq, hcast]

theorem not_toNextInteger_natCast : ¬ToNextInteger mode neg q q :=
  awayFromZero_iff.not.1 (not_awayFromZero_exact (by simp))

/-- The mode takes the magnitude `x` of a number of sign `neg` to `n`, which is the integer `q` below it or the one
above (spec/45_fd_extension.md R242). -/
structure RoundsMagnitude (mode : RoundingMode) (neg : Bool) (x : ℚ) (q n : Nat) : Prop where
  lower : (q : ℚ) ≤ x
  upper : x < q + 1
  choice : n = q ∧ ¬ToNextInteger mode neg q x ∨ n = q + 1 ∧ ToNextInteger mode neg q x

theorem roundsMagnitude_roundToExponent (mode : RoundingMode) (neg : Bool) (m : Nat) (e : Int) :
    ∃ q, RoundsMagnitude mode neg (m * 2 ^ e) q (roundToExponent mode neg m e 0).1 ∧
      ((roundToExponent mode neg m e 0).2 = true ↔ (m * 2 ^ e : ℚ) ≠ q) := by
  have hcast : ((m * 2 ^ e : ℚ) : ℝ) = m * 2 ^ e := by push_cast; rfl
  obtain ⟨q, hlo, hhi, hinexact, hchoice⟩ :=
    roundToExponent_spec (T := 0) mode neg (compares_exact m e) (.inl rfl)
  simp only [zpow_zero, mul_one, ← hcast, awayFromZero_iff] at hlo hhi hinexact hchoice
  refine ⟨q, ⟨by exact_mod_cast hlo, by exact_mod_cast hhi, hchoice⟩, hinexact.trans ?_⟩
  exact_mod_cast Iff.rfl

/-- The rational number of a sign and a magnitude. -/
def signedRat (neg : Bool) (x : ℚ) : ℚ := if neg then -x else x

@[simp] theorem signedRat_true (x : ℚ) : signedRat true x = -x := rfl

@[simp] theorem signedRat_false (x : ℚ) : signedRat false x = x := rfl

theorem rationalOf_eq_signedRat (neg : Bool) (m : Nat) (e : Int) :
    rationalOf neg m e = signedRat neg (m * 2 ^ e) := by
  cases neg <;> simp [rationalOf]

theorem signedNat_eq_signedRat (neg : Bool) (n : Nat) : ((signedNat neg n : Int) : ℚ) = signedRat neg n := by
  cases neg <;> simp [signedNat]

theorem signedRat_sub (neg : Bool) (x y : ℚ) : signedRat neg x - signedRat neg y = signedRat neg (x - y) := by
  cases neg <;> simp; ring

theorem abs_signedRat (neg : Bool) (x : ℚ) : |signedRat neg x| = |x| := by
  cases neg <;> simp

theorem signedRat_inj {neg : Bool} {x y : ℚ} : signedRat neg x = signedRat neg y ↔ x = y := by
  cases neg <;> simp

theorem even_signedNat (neg : Bool) (n : Nat) : Even (signedNat neg n) ↔ Even n := by
  cases neg <;> simp [signedNat]

/-- A magnitude rounded up unless it is an integer. -/
theorem ceil_of_choice (hlo : (q : ℚ) ≤ x) (hhi : x < q + 1) (h : n = q ∧ ¬x ≠ q ∨ n = q + 1 ∧ x ≠ q) :
    x ≤ n ∧ (n : ℚ) < x + 1 := by
  rcases h with ⟨rfl, hc⟩ | ⟨rfl, hc⟩
  · rw [not_not.1 hc]
    exact ⟨le_rfl, lt_add_one _⟩
  · push_cast
    exact ⟨hhi.le, add_lt_add_left (lt_of_le_of_ne hlo hc.symm) 1⟩

/-- The chosen neighbour is the integer the signed number rounds to (spec/45_fd_extension.md R242): the nearest modes
see the distance to it alone, the directed modes its side, which the sign turns round. -/
theorem RoundsMagnitude.roundsToInteger (h : RoundsMagnitude mode neg x q n) :
    RoundsToInteger mode (signedRat neg x) (signedNat neg n) := by
  obtain ⟨hlo, hhi, hchoice⟩ := h
  have hdown : |x - q| = x - q := abs_of_nonneg (sub_nonneg.2 hlo)
  have hup : |x - (q + 1)| = q + 1 - x := by rw [abs_of_neg (sub_neg.2 hhi), neg_sub]
  have hx : |x| = x := abs_of_nonneg (q.cast_nonneg.trans hlo)
  have hn : |(n : ℚ)| = n := abs_of_nonneg n.cast_nonneg
  cases mode <;> simp only [RoundsToInteger, signedNat_eq_signedRat, signedRat_sub, abs_signedRat, even_signedNat] <;>
    simp only [ToNextInteger] at hchoice
  case rne =>
    rcases hchoice with ⟨rfl, hc⟩ | ⟨rfl, hc⟩
    · rw [hdown]
      push Not at hc
      refine ⟨by linarith, fun hmid => ?_⟩
      have := hc.2 (by linarith)
      rw [Nat.even_iff]
      omega
    · push_cast
      rw [hup, Nat.even_iff]
      rcases hc with hc | ⟨hc, hodd⟩
      · exact ⟨by linarith, fun hmid => absurd hmid (by linarith)⟩
      · exact ⟨by linarith, fun _ => by omega⟩
  case rtz =>
    obtain ⟨rfl, -⟩ := hchoice.resolve_right And.right
    rw [hdown, hx, hn]
    exact ⟨hlo, by linarith⟩
  case rdn =>
    cases neg
    · obtain ⟨rfl, -⟩ := hchoice.resolve_right fun ⟨_, hneg, _⟩ => Bool.false_ne_true hneg
      exact ⟨hlo, hhi⟩
    · obtain ⟨hle, hlt⟩ := ceil_of_choice hlo hhi (by simpa using hchoice)
      exact ⟨neg_le_neg hle, by simp only [signedRat_true]; linarith⟩
  case rup =>
    cases neg
    · obtain ⟨hle, hlt⟩ := ceil_of_choice hlo hhi (by simpa using hchoice)
      exact ⟨hle, hlt⟩
    · obtain ⟨rfl, -⟩ := hchoice.resolve_right fun ⟨_, hneg, _⟩ => Bool.false_ne_true hneg.symm
      exact ⟨neg_le_neg hlo, by simp only [signedRat_true]; linarith⟩
  case rmm =>
    rcases hchoice with ⟨rfl, hc⟩ | ⟨rfl, hc⟩
    · rw [hdown]
      exact ⟨by linarith, fun hmid => absurd hmid (by linarith)⟩
    · push_cast at hn ⊢
      rw [hup, hx, hn]
      exact ⟨by linarith, fun _ => hhi⟩

/-- Rounding is exact when the magnitude is the integer below it. -/
theorem RoundsMagnitude.eq_iff (h : RoundsMagnitude mode neg x q n) : (n : ℚ) = x ↔ x = q := by
  obtain ⟨hlo, hhi, hchoice⟩ := h
  constructor
  · rintro rfl
    rcases hchoice with ⟨hn, -⟩ | ⟨hn, -⟩
    · rw [hn]
    · rw [hn] at hhi
      push_cast at hhi
      exact absurd hhi (lt_irrefl _)
  · rintro rfl
    rcases hchoice with ⟨hn, -⟩ | ⟨-, haway⟩
    · rw [hn]
    · exact absurd haway not_toNextInteger_natCast

/-! ## Conversion -/

section

variable {fmt : FloatFormat} {p : BitVec fmt.width}

theorem fpToInt_nan {signaling : Bool} (mode : RoundingMode) (least greatest : Int)
    (hp : unpack fmt p = .nan signaling) : fpToInt fmt mode least greatest p = (greatest, flagNV) := by
  rw [fpToInt, hp]

theorem fpToInt_infinity (mode : RoundingMode) (least greatest : Int) (hp : unpack fmt p = .infinity neg) :
    fpToInt fmt mode least greatest p = (if neg then least else greatest, flagNV) := by
  rw [fpToInt, hp]

/-- What a conversion does with a finite operand: an integer the number rounds to in the mode, tested for range. -/
theorem fpToInt_finite {m : Nat} {e : Int} (mode : RoundingMode) (hp : unpack fmt p = .finite neg m e) :
    ∃ r : Int, RoundsToInteger mode (rationalOf neg m e) r ∧ ∀ least greatest : Int,
      fpToInt fmt mode least greatest p =
        if r < least then (least, flagNV)
        else if greatest < r then (greatest, flagNV)
        else (r, if (r : ℚ) = rationalOf neg m e then flagNone else flagNX) := by
  obtain ⟨q, hround, hinexact⟩ := roundsMagnitude_roundToExponent mode neg m e
  refine ⟨signedNat neg (roundToExponent mode neg m e 0).1, ?_, fun least greatest => ?_⟩
  · rw [rationalOf_eq_signedRat]
    exact hround.roundsToInteger
  · have hflag : flagIf (roundToExponent mode neg m e 0).2 flagNX =
        if ((signedNat neg (roundToExponent mode neg m e 0).1 : Int) : ℚ) = rationalOf neg m e then flagNone
        else flagNX := by
      rw [signedNat_eq_signedRat, rationalOf_eq_signedRat, flagIf]
      simp only [signedRat_inj, hround.eq_iff, hinexact, ne_eq, ite_not]
    simp only [fpToInt, hp, hflag]

end

/-- Settles O54: the range test saturates, and what is in range is the integer the operand rounds to. -/
theorem integerConversionTable : Obligations.IntegerConversionTable := by
  intro fmt mode p _
  cases hp : unpack fmt p with
  | nan signaling =>
    refine ⟨?_, ?_⟩
    · rw [fpToWord, fpToInt_nan mode _ _ hp]
      rfl
    · rw [fpToWordUnsigned, fpToInt_nan mode _ _ hp]
      rfl
  | infinity neg =>
    refine ⟨?_, ?_⟩
    · rw [fpToWord, fpToInt_infinity mode _ _ hp]
      cases neg <;> rfl
    · rw [fpToWordUnsigned, fpToInt_infinity mode _ _ hp]
      cases neg <;> rfl
  | finite neg m e =>
    obtain ⟨r, hround, hvalue⟩ := fpToInt_finite mode hp
    refine ⟨r, hround, ?_, ?_⟩
    · rw [fpToWord, hvalue]
      split_ifs <;> rfl
    · rw [fpToWordUnsigned, hvalue]
      split_ifs <;> rfl

end Sys2Proof.Machine
end

section
/-! PROOFS. Exceptions are precise (spec/60_exceptions.md R415), and who raises Breakpoint and EnvironmentCall
(R404, R409). A step that raises is taken apart once: the fetch raised, the word stands for no instruction, or its
instruction raised. -/

namespace Sys2Proof.Machine

variable {i : Instr} {s t : State} {o : Trap}

/-! ## What an instruction that raises leaves -/

/-- Of the ways an instruction can end, only an exception touches the trap outcome. -/
theorem ExecResult.trap_eq_or_raised (r : ExecResult i s t) :
    t.trap = s.trap ∨ ∃ c v, MayRaise i s c v ∧ t = { s with trap := some { cause := c, pc := s.pc, tval := v } } := by
  cases r with
  | raised c v h => exact .inr ⟨c, v, h, rfl⟩
  | advanced hs => exact .inl rfl
  | fenced rd rs1 imm h => exact .inl rfl
  | branched a h hs ha => exact .inl rfl
  | wroteX rd v h hs => exact .inl (by simp)
  | wroteXFlags rd v fl h hs hf => exact .inl (by simp)
  | wroteF rd v fl h hs hf hv => exact .inl (by simp)
  | stored a n v h hs hn ha => exact .inl (by simp)
  | jumped rd a h hs ha => exact .inl (by simp)
  | wroteCsr rd c v h hf => exact .inl (by simp)
  | reserved rd rs1 aq rl a v h hA => exact .inl (by simp)
  | conditional rd rs2 rs1 aq rl a v h ha => exact .inl (by simp)
  | failed rd rs2 rs1 aq rl h => exact .inl (by simp)
  | updated rd a v w h ha => exact .inl (by simp)

/-- An instruction that leaves a trap outcome where there was none raised it, and did nothing else. -/
theorem exec_raised (hs : s.trap = none) (h : exec i s = .next t) (ht : t.trap = some o) :
    t = { s with trap := some o } ∧ o.pc = s.pc ∧ MayRaise i s o.cause o.tval := by
  rcases (exec_result h).trap_eq_or_raised with he | ⟨c, v, hc, rfl⟩
  · exact absurd (ht.symm.trans (he.trans hs)) (Option.some_ne_none o)
  · cases ht
    exact ⟨rfl, rfl, hc⟩

/-! ## What a step that raises leaves -/

/-- The exceptions a step can raise, with their trap values. -/
inductive StepMayRaise (s : State) : Cause → Word → Prop where
  /-- The fetch raises, with pc as trap value. -/
  | fetch (c : Cause) (h : s.fetch = .trap c) : StepMayRaise s c s.pc
  /-- The word stands for no instruction. -/
  | undecoded (w : Word) (e : DecodeError) (hf : s.fetch = .word w) (hd : decode w = .error e) :
      StepMayRaise s .illegalInstruction w
  /-- The instruction raises. -/
  | instruction (w : Word) (i : Instr) (c : Cause) (v : Word) (hf : s.fetch = .word w) (hd : decode w = .ok i)
      (h : MayRaise i s c v) : StepMayRaise s c v

/-- A step without a pending trap outcome that leaves one raised it, and did nothing else. -/
theorem step_raised (hs : s.trap = none) (h : step s = .next t) (ht : t.trap = some o) :
    t = { s with trap := some o } ∧ o.pc = s.pc ∧ StepMayRaise s o.cause o.tval := by
  have hstep : fetchAndExecute s = .next t := by rwa [step, hs] at h
  unfold fetchAndExecute at hstep
  split at hstep
  next w hf =>
    unfold executeWord at hstep
    split at hstep
    next i hd =>
      obtain ⟨hstate, hpc, hc⟩ := exec_raised hs hstep ht
      exact ⟨hstate, hpc, .instruction w i _ _ hf hd hc⟩
    next e hd =>
      cases raise_next hstep
      cases ht
      exact ⟨rfl, rfl, .undecoded w e hf hd⟩
  next c hf =>
    cases raise_next hstep
    cases ht
    exact ⟨rfl, rfl, .fetch c hf⟩
  next => cases hstep

/-! ## Who raises Breakpoint and EnvironmentCall -/

/-- An access raises only the two exceptions of its class. -/
theorem accessCause_ne_some {k : Access} {a : Word} {n : Nat} {c : Cause} (hm : c ≠ misalignedCause k)
    (hf : c ≠ accessFaultCause k) : accessCause k a n ≠ some c := by
  intro h
  rcases accessCause_some_inv h with ⟨-, hc⟩ | ⟨-, -, hc⟩
  · exact hm hc
  · exact hf hc

theorem MayRaise.eq_ebreak {v : Word} (h : MayRaise i s .breakpoint v) : i = .ebreak := by
  cases h with
  | breakpoint h => exact h
  | load a n c h hc => exact absurd hc (accessCause_ne_some (by decide) (by decide))
  | store a n c h hc => exact absurd hc (accessCause_ne_some (by decide) (by decide))

theorem MayRaise.eq_ecall {v : Word} (h : MayRaise i s .environmentCall v) : i = .ecall := by
  cases h with
  | call h => exact h
  | load a n c h hc => exact absurd hc (accessCause_ne_some (by decide) (by decide))
  | store a n c h hc => exact absurd hc (accessCause_ne_some (by decide) (by decide))

theorem State.fetch_trap_inv {c : Cause} (h : s.fetch = .trap c) :
    c = .instructionAddressMisaligned ∨ c = .instructionAccessFault := by
  unfold State.fetch at h
  split_ifs at h
  · exact .inr (Fetched.trap.inj h).symm
  · exact .inl (Fetched.trap.inj h).symm

/-- A step raises an exception that neither the fetch nor the decoder raises only by an instruction that may raise
it, and the word fetched is the word of that instruction. -/
theorem StepMayRaise.fetch_eq_encode {c : Cause} {v : Word} (h : StepMayRaise s c v)
    (hc : c ∉ [.instructionAddressMisaligned, .instructionAccessFault, .illegalInstruction]) :
    ∃ i, MayRaise i s c v ∧ s.fetch = .word (encode i) := by
  cases h with
  | fetch c hf => rcases State.fetch_trap_inv hf with rfl | rfl <;> exact absurd (by decide) hc
  | undecoded w e hf hd => exact absurd (by decide) hc
  | instruction w i c v hf hd hr => exact ⟨i, hr, by rw [hf, encode_of_decode hd]⟩

/-- Settles O15: by the ways a step can raise. -/
theorem exceptionsArePrecise : Obligations.ExceptionsArePrecise := by
  intro s t o hs h ht
  obtain ⟨hstate, hpc, -⟩ := step_raised hs h ht
  exact ⟨hstate, hpc⟩

/-- Settles O40: an instruction that may raise one of the two exceptions is `ebreak` or `ecall`, and the word fetched
is its word. -/
theorem ecallAndEbreakRaise : Obligations.EcallAndEbreakRaise := by
  refine ⟨rfl, rfl, fun s => ⟨rfl, rfl⟩, fun s t o hs h ht => ?_⟩
  obtain ⟨-, -, hr⟩ := step_raised hs h ht
  refine ⟨fun hc => ?_, fun hc => ?_⟩ <;> rw [hc] at hr
  · obtain ⟨i, hi, hf⟩ := hr.fetch_eq_encode (by decide)
    rw [hf, hi.eq_ebreak]
    rfl
  · obtain ⟨i, hi, hf⟩ := hr.fetch_eq_encode (by decide)
    rw [hf, hi.eq_ecall]
    rfl

end Sys2Proof.Machine
end

section
/-! PROOFS. When a fetched word raises IllegalInstruction, and only then (spec/60_exceptions.md R403). -/

namespace Sys2Proof.Machine

variable {i : Instr} {s : State}

theorem State.csrAccess_absent {rd : Reg} {csr : BitVec 12} {writes : Bool} {new : Word → Word}
    (h : csrAt s.cfg csr = none) : s.csrAccess i rd csr writes new = raiseIllegal i s := by
  rw [State.csrAccess, h]

theorem csrAt_eq_none {c : Config} {a : BitVec 12}
    (h : ¬(c.hasF = true ∧ (a = 0x001#12 ∨ a = 0x002#12 ∨ a = 0x003#12))) : csrAt c a = none := by
  cases hr : csrAt c a with
  | none => rfl
  | some r =>
    obtain ⟨hF, hreg⟩ := csrAt_some_inv hr
    refine absurd ⟨hF, ?_⟩ h
    rcases hreg with ⟨ha, -⟩ | ⟨ha, -⟩ | ⟨ha, -⟩
    · exact .inl ha
    · exact .inr (.inl ha)
    · exact .inr (.inr ha)

/-- The six CSR instructions differ in the value they write and in whether they write. -/
theorem exec_csr {a : BitVec 12} (h : csrField i = some a) :
    ∃ rd writes new, exec i s = s.csrAccess i rd a writes new := by
  cases i
  case csrrw rd csr rs1 => cases h; exact ⟨rd, true, fun _ => s.getX rs1, rfl⟩
  case csrrs rd csr rs1 => cases h; exact ⟨rd, rs1 != 0#5, fun old => old ||| s.getX rs1, rfl⟩
  case csrrc rd csr rs1 => cases h; exact ⟨rd, rs1 != 0#5, fun old => old &&& ~~~s.getX rs1, rfl⟩
  case csrrwi rd csr uimm => cases h; exact ⟨rd, true, fun _ => csrImmediate uimm, rfl⟩
  case csrrsi rd csr uimm => cases h; exact ⟨rd, uimm != 0#5, fun old => old ||| csrImmediate uimm, rfl⟩
  case csrrci rd csr uimm => cases h; exact ⟨rd, uimm != 0#5, fun old => old &&& ~~~csrImmediate uimm, rfl⟩
  all_goals cases h

/-- Case (c): a control register that does not exist. -/
theorem exec_of_absent_csr {a : BitVec 12} (h : csrField i = some a) (ha : csrAt s.cfg a = none) :
    exec i s = raiseIllegal i s := by
  obtain ⟨rd, writes, new, he⟩ := exec_csr h
  exact he.trans (State.csrAccess_absent ha)

/-- Whether its group is absent or its rounding mode reserved, an instruction raises the same exception. -/
theorem whenPresent_withRm_reserved {p : Bool} {rm : BitVec 3} {k : RoundingMode → Result}
    (h : reservedRounding s rm) : whenPresent p i s (s.withRm i rm k) = raiseIllegal i s := by
  rw [withRm_none ((effectiveRm_eq_none_iff rm).2 h), whenPresent, ite_self]

/-- Case (d): a reserved rounding mode, also of an instruction that does not round. -/
theorem exec_of_reserved_rounding {rm : BitVec 3} (h : roundingField i = some rm) (hr : reservedRounding s rm) :
    exec i s = raiseIllegal i s := by
  cases i
  case fcvtSL | fcvtDL | fcvtSLu | fcvtDLu | fcvtLS | fcvtLD | fcvtLuS | fcvtLuD => exact exec_of_not_admitted rfl
  case faddS | faddD | fsubS | fsubD | fmulS | fmulD | fdivS | fdivD | fsqrtS | fsqrtD | fmaddS | fmaddD | fmsubS
    | fmsubD | fnmsubS | fnmsubD | fnmaddS | fnmaddD | fcvtDS | fcvtSD | fcvtSW | fcvtDW | fcvtSWu | fcvtDWu
    | fcvtWS | fcvtWD | fcvtWuS | fcvtWuD => cases h; exact whenPresent_withRm_reserved hr
  all_goals cases h

theorem exec_of_isIllegal (h : IsIllegal s i) : exec i s = raiseIllegal i s := by
  rcases h with hg | ha | ⟨a, hf, hc⟩ | ⟨rm, hf, hr⟩
  · exact exec_of_absent_group hg
  · exact exec_of_not_admitted ha
  · exact exec_of_absent_csr hf (csrAt_eq_none hc)
  · exact exec_of_reserved_rounding hf hr

theorem MayRaise.isIllegal {v : Word} (h : MayRaise i s .illegalInstruction v) : IsIllegal s i := by
  cases h with
  | illegal h => exact h
  | load a n c h hc => exact absurd hc (accessCause_ne_some (by decide) (by decide))
  | store a n c h hc => exact absurd hc (accessCause_ne_some (by decide) (by decide))

theorem raisesIllegal_iff_of_decode {w : Word} (hs : s.trap = none) (hd : decode w = .ok i) :
    RaisesIllegal w s ↔ IsIllegal s i := by
  have hw : executeWord w s = exec i s := by rw [executeWord, hd]
  constructor
  · intro h
    obtain ⟨-, -, hr⟩ := exec_raised hs (hw.symm.trans h) rfl
    exact hr.isIllegal
  · intro h
    calc executeWord w s = exec i s := hw
      _ = raiseIllegal i s := exec_of_isIllegal h
      _ = raise .illegalInstruction w s := by rw [raiseIllegal, encode_of_decode hd]

/-- Settles O7: a word without a row raises, and a word with one raises exactly when its instruction is illegal. -/
theorem illegalInstructionExactly : Obligations.IllegalInstructionExactly := by
  refine ⟨rfl, fun w s hs => ?_, csrReadOnly_eq_false⟩
  cases hd : decode w with
  | error e => exact ⟨fun _ => .inl ⟨e, rfl⟩, fun _ => raisesIllegal_of_no_row (by rw [hd]; rfl)⟩
  | ok i =>
    rw [raisesIllegal_iff_of_decode hs hd]
    constructor
    · exact fun h => .inr ⟨i, rfl, h⟩
    · rintro (⟨e, he⟩ | ⟨j, hj, h⟩)
      · cases he
      · cases hj
        exact h

end Sys2Proof.Machine
end

section
/-! PROOFS. Jumps and taken branches to a misaligned target (spec/60_exceptions.md R401). -/

namespace Sys2Proof.Machine

variable {s : State}

theorem aligned_eq_false {a : Word} {n : Nat} (h : ¬AlignedTo a n) : aligned a n = false :=
  Bool.eq_false_iff.2 fun ha => h ((aligned_iff a n).1 ha)

theorem jumpAndLink_misaligned {rd : Reg} {a : Word} (h : ¬AlignedTo a 4) :
    s.jumpAndLink rd a = raise .instructionAddressMisaligned a s := by
  rw [State.jumpAndLink, aligned_eq_false h]
  rfl

theorem branchIf_taken_misaligned {offset : BitVec 13} (h : ¬AlignedTo (s.branchTarget offset) 4) :
    s.branchIf true offset = raise .instructionAddressMisaligned (s.branchTarget offset) s := by
  rw [State.branchIf, if_pos rfl, aligned_eq_false h]
  rfl

theorem State.aligned_pc_of_wf (h : s.wf = true) : aligned s.pc 4 = true := by
  simp only [State.wf, Bool.and_eq_true] at h
  tauto

theorem State.fetch_ne_misaligned (h : aligned s.pc 4 = true) :
    s.fetch ≠ .trap .instructionAddressMisaligned := by
  unfold State.fetch
  split_ifs <;> simp

/-- Settles O33: by the two shared operations of control transfer, and for the fetch by the alignment of pc in the
invariant. -/
theorem misalignedTargetsRaise : Obligations.MisalignedTargetsRaise := by
  refine ⟨rfl, fun s rd rs1 jump imm => ⟨?_, ?_, ?_, ?_, ?_⟩⟩
  · exact jumpAndLink_misaligned
  · exact jumpAndLink_misaligned
  · exact fun i offset hb h => (exec_branch hb).trans (branchIf_taken_misaligned h)
  · exact fun i offset hb => ⟨s.advance, exec_branch hb, rfl⟩
  · exact fun h => State.fetch_ne_misaligned (State.aligned_pc_of_wf h)

end Sys2Proof.Machine
end

section
/-! PROOFS. When loads, stores and atomics raise (spec/60_exceptions.md R405 to R408). -/

namespace Sys2Proof.Machine

variable {i : Instr} {s : State} {a : Word} {n : Nat} {c : Cause}

/-! ## The exception of the access is the exception of the instruction -/

theorem raises_of_dataLoad (h : dataLoad s i = some (a, n)) (hg : groupEnabled s.cfg (groupOf i) = true)
    (hc : accessCause .load a n = some c) : Raises i s c a := by
  cases i
  case lb | lh | lw | lbu | lhu => cases h; exact loadThen_raises hc
  case flw | fld => cases h; exact (whenPresent_true hg).trans (loadThen_raises hc)
  case lrW => cases h; exact (whenPresent_true hg).trans (loadReserved_raises hc)
  all_goals cases h

theorem raises_of_dataStore (h : dataStore s i = some (a, n)) (hg : groupEnabled s.cfg (groupOf i) = true)
    (hc : accessCause .storeAmo a n = some c) : Raises i s c a := by
  cases i
  case sb | sh | sw => cases h; exact storeThenAdvance_raises hc
  case fsw | fsd => cases h; exact (whenPresent_true hg).trans (storeThenAdvance_raises hc)
  case scW => cases h; exact (whenPresent_true hg).trans (storeConditional_raises hc)
  case amoswapW | amoaddW | amoxorW | amoandW | amoorW | amominW | amomaxW | amominuW | amomaxuW =>
    cases h; exact (whenPresent_true hg).trans (atomicUpdate_raises hc)
  all_goals cases h

/-! ## Bytes outside `MEM_VALID`, and one-byte loads -/

theorem bytesValid_eq_false (h : ∃ k, k < n ∧ memValid ((a.toNat + k) % 2 ^ 32) = false) :
    bytesValid a n = false := by
  obtain ⟨k, hk, hv⟩ := h
  exact Bool.eq_false_iff.2 fun hb => Bool.false_ne_true (hv.symm.trans ((bytesValid_iff a n).1 hb k hk))

/-- Only a load to an address that is no multiple of its size raises LoadAddressMisaligned. -/
theorem MayRaise.misaligned_load (h : MayRaise i s .loadAddressMisaligned a) :
    ∃ n, dataLoad s i = some (a, n) ∧ a.toNat % n ≠ 0 := by
  cases h with
  | load a n c h hc =>
    rcases accessCause_some_inv hc with ⟨ha, -⟩ | ⟨-, -, he⟩
    · exact ⟨n, h, fun h0 => Bool.false_ne_true (ha.symm.trans ((aligned_iff a n).2 h0))⟩
    · cases he
  | store a n c h hc => exact absurd hc (accessCause_ne_some (by decide) (by decide))

/-- Settles O37: by the exception of the access; every address is a multiple of 1. -/
theorem loadsRaise : Obligations.LoadsRaise := by
  refine ⟨rfl, rfl, fun i s a n hl hg => ⟨fun ha => ?_, fun ha hv => ?_, ?_⟩⟩
  · exact raises_of_dataLoad hl hg (accessCause_misaligned ha)
  · exact raises_of_dataLoad hl hg (accessCause_fault ha (bytesValid_eq_false hv))
  · rintro rfl t o hs h ht hc
    obtain ⟨-, -, hr⟩ := exec_raised hs h ht
    rw [hc] at hr
    obtain ⟨m, hm, hne⟩ := hr.misaligned_load
    cases hl.symm.trans hm
    exact hne (Nat.mod_one _)

/-- Settles O38: by the exception of the access, which `sc.w` checks before its reservation. -/
theorem storesAndAtomicsRaise : Obligations.StoresAndAtomicsRaise := by
  refine ⟨rfl, rfl, fun i s a n hl hg => ⟨fun ha => ?_, fun ha hv => ?_⟩⟩
  · exact raises_of_dataStore hl hg (accessCause_misaligned ha)
  · exact raises_of_dataStore hl hg (accessCause_fault ha (bytesValid_eq_false hv))

end Sys2Proof.Machine
end

section
/-! PROOFS. Decoding and encoding are inverse to each other (spec/30_encoding.md R80 to R100). The direction from words
to words rests on `encode_of_decode`; what is left of it is that decoded offsets are even. -/

namespace Sys2Proof

open Machine

/-! ## A decoded instruction is well-formed -/

theorem wellFormed_of_decodeBranch {w : Word} {i : Instr} (h : decodeBranch w = .ok i) : i.wellFormed = true := by
  unfold decodeBranch at h
  split at h <;> cases h <;> exact branchOffsetEven_fieldOffsetB w

theorem decode_eq_jal {w : Word} (h : fieldOpcode w = 0b1101111#7) :
    decode w = .ok (.jal (fieldRd w) (fieldOffsetJ w)) := by
  simp [decode, h]

/-- Only the offsets of branches and of `jal` have a bit that no word holds. -/
theorem wellFormed_of_decode {w : Word} {i : Instr} (h : decode w = .ok i) : i.wellFormed = true := by
  have hw := encode_of_decode h
  cases i
  case beq | bne | blt | bge | bltu | bgeu =>
    have ho : fieldOpcode w = 0b1100011#7 := by rw [← hw]; exact fieldOpcode_encodeB ..
    exact wellFormed_of_decodeBranch ((decode_eq_decodeBranch ho).symm.trans h)
  case jal rd offset =>
    have ho : fieldOpcode w = 0b1101111#7 := by rw [← hw]; exact fieldOpcode_encodeJ ..
    cases (decode_eq_jal ho).symm.trans h
    exact jumpOffsetEven_fieldOffsetJ w
  all_goals rfl

/-- Settles O2: a word that decodes is the word of its instruction, whose offset is even. -/
theorem encodeOfDecode : Obligations.EncodeOfDecode :=
  fun _ _ h => ⟨wellFormed_of_decode h, encode_of_decode h⟩

/-! ## An encoded instruction decodes to itself -/

/-- Settles O1: the opcode of an encoding selects its decoder, and the fields of the encoding are its operands. -/
theorem decodeOfEncode : Obligations.DecodeOfEncode := by
  intro i hi
  cases i
  case lb | lh | lw | lbu | lhu =>
    rw [encode, decode_eq_decodeLoad (fieldOpcode_encodeI ..)]; simp [decodeLoad]
  case fence | fenceI =>
    rw [encode, decode_eq_decodeFence (fieldOpcode_encodeI ..)]; simp [decodeFence]
  case addi | slti | sltiu | xori | ori | andi =>
    rw [encode, decode_eq_decodeOpImm (fieldOpcode_encodeI ..)]; simp [decodeOpImm]
  case slli | srli | srai =>
    rw [encode, decode_eq_decodeOpImm (fieldOpcode_encodeR ..)]; simp [decodeOpImm]
  case sb | sh | sw =>
    rw [encode, decode_eq_decodeStore (fieldOpcode_encodeS ..)]; simp [decodeStore]
  case add | sub | sll | slt | sltu | xor | srl | sra | or | and | mul | mulh | mulhsu | mulhu | div | divu | rem
      | remu =>
    rw [encode, decode_eq_decodeOp (fieldOpcode_encodeR ..)]; simp [decodeOp]
  case beq | bne | blt | bge | bltu | bgeu =>
    rw [encode, decode_eq_decodeBranch (fieldOpcode_encodeB ..)]
    simp [decodeBranch, fieldOffsetB_encodeB _ _ _ _ _ hi]
  case jalr => rw [encode, decode_eq_decodeJalr (fieldOpcode_encodeI ..)]; simp [decodeJalr]
  case jal =>
    rw [encode, decode_eq_jal (fieldOpcode_encodeJ ..), fieldRd_encodeJ, fieldOffsetJ_encodeJ _ _ _ hi]
  case auipc | lui => simp [encode, decode]
  case ecall | ebreak => rfl
  case csrrw | csrrs | csrrc | csrrwi | csrrsi | csrrci =>
    rw [encode, decode_eq_decodeSystem (fieldOpcode_encodeI ..)]; simp [decodeSystem]
  case lrW | lrD | scW | scD | amoswapW | amoswapD | amoaddW | amoaddD | amoxorW | amoxorD | amoandW | amoandD | amoorW
      | amoorD | amominW | amominD | amomaxW | amomaxD | amominuW | amominuD | amomaxuW | amomaxuD =>
    rw [encode, decode_eq_decodeAtomic (fieldOpcode_encodeA ..)]; simp [decodeAtomic]
  case flw | fld => rw [encode, decode_eq_decodeFpLoad (fieldOpcode_encodeI ..)]; simp [decodeFpLoad]
  case fsw | fsd => rw [encode, decode_eq_decodeFpStore (fieldOpcode_encodeS ..)]; simp [decodeFpStore]
  case fmaddS | fmaddD => rw [encode, decode_eq_decodeFmadd (fieldOpcode_encodeR4 ..)]; simp [decodeFmadd]
  case fmsubS | fmsubD => rw [encode, decode_eq_decodeFmsub (fieldOpcode_encodeR4 ..)]; simp [decodeFmsub]
  case fnmsubS | fnmsubD => rw [encode, decode_eq_decodeFnmsub (fieldOpcode_encodeR4 ..)]; simp [decodeFnmsub]
  case fnmaddS | fnmaddD => rw [encode, decode_eq_decodeFnmadd (fieldOpcode_encodeR4 ..)]; simp [decodeFnmadd]
  all_goals rw [encode, decode_eq_decodeOpFp (fieldOpcode_encodeR ..)]; simp [decodeOpFp]

end Sys2Proof
end

section
/-! PROOFS. What every step keeps: the invariant of the hart (spec/10_state.md), its parameters, the reservation,
memory, `dirty` and the flags. A step is taken apart once; each rule then goes through the ways an instruction can
end. -/

namespace Sys2Proof.Machine

variable {i : Instr} {s t : State}

/-! ## The invariant, part by part -/

/-- The invariant of the hart as a proposition. -/
structure State.WF (s : State) : Prop where
  mem : Memory.wf s.mem = true
  rising : s.dirty.Pairwise (· < ·)
  dirty : ∀ a ∈ s.dirty, memValid a = true
  zero : s.x[0] = 0#32
  pc : aligned s.pc 4 = true
  float : ∀ (k : Nat) (hk : k < 32), s.f[k].toNat < 2 ^ s.cfg.flen
  fcsr : s.cfg.hasF = true ∨ s.fcsr = 0#8
  reservation : ∀ a, s.reservation = some a → s.cfg.hasA = true ∧ granule s.cfg a = a

theorem State.wf_iff : s.wf = true ↔ s.WF := by
  have hf : s.f.toList.all (fun v => decide (v.toNat < 2 ^ s.cfg.flen)) = true ↔
      ∀ (k : Nat) (hk : k < 32), s.f[k].toNat < 2 ^ s.cfg.flen := by
    simp
  have hr : (match s.reservation with
      | none => true
      | some a => s.cfg.hasA && granule s.cfg a == a) = true ↔
      ∀ a, s.reservation = some a → s.cfg.hasA = true ∧ granule s.cfg a = a := by
    cases s.reservation <;> simp
  unfold State.wf
  simp only [Bool.and_eq_true, hf, Bool.or_eq_true, decide_eq_true_eq, beq_iff_eq, List.all_eq_true]
  constructor
  · rintro ⟨⟨⟨⟨⟨⟨⟨h1, h2⟩, h3⟩, h4⟩, h5⟩, h6⟩, h7⟩, h8⟩
    exact ⟨h1, h2, h3, h4, h5, h6, h7, hr.1 h8⟩
  · rintro ⟨h1, h2, h3, h4, h5, h6, h7, h8⟩
    exact ⟨⟨⟨⟨⟨⟨⟨h1, h2⟩, h3⟩, h4⟩, h5⟩, h6⟩, h7⟩, hr.2 h8⟩

/-! ## Every operation on the state keeps the invariant -/

namespace State.WF

theorem withPc (h : s.WF) {a : Word} (ha : aligned a 4 = true) : State.WF { s with pc := a } :=
  { h with pc := ha }

theorem advance (h : s.WF) : s.advance.WF := by
  refine h.withPc ?_
  have hp := (aligned_iff _ _).1 h.pc
  rw [aligned_iff, BitVec.toNat_add, BitVec.toNat_ofNat]
  omega

theorem withTrap (h : s.WF) (o : Option Trap) : State.WF { s with trap := o } := { h with }

theorem setX (h : s.WF) (r : Reg) (v : Word) : (s.setX r v).WF := by
  unfold State.setX
  split
  · exact h
  · refine { h with zero := ?_ }
    have hr : r.toNat ≠ 0 := fun h0 => ‹r ≠ 0#5› (BitVec.eq_of_toNat_eq h0)
    simpa [Vector.getElem_set_ne, hr] using h.zero

theorem setF (h : s.WF) (r : Reg) {v : Double} (hv : v.toNat < 2 ^ s.cfg.flen) : (s.setF r v).WF := by
  refine { h with float := fun k hk => ?_ }
  show ((s.f.set r.toNat v r.isLt)[k]).toNat < 2 ^ s.cfg.flen
  rw [Vector.getElem_set]
  split
  · exact hv
  · exact h.float k hk

theorem withFcsr (h : s.WF) (hf : s.cfg.hasF = true) (b : BitVec 8) : State.WF { s with fcsr := b } :=
  { h with fcsr := .inl hf }

theorem accrue (h : s.WF) (hf : s.cfg.hasF = true) (fl : FpFlags) : (s.accrue fl).WF := h.withFcsr hf _

theorem writeCsr (h : s.WF) (hf : s.cfg.hasF = true) (c : Csr) (v : Word) : (s.writeCsr c v).WF := by
  cases c <;> exact h.withFcsr hf _

theorem clearDirty (h : s.WF) : State.WF { s with dirty := [] } :=
  { h with
    rising := .nil
    dirty := fun _ ha => absurd ha List.not_mem_nil }

theorem reserve (h : s.WF) (hA : s.cfg.hasA = true) (a : Word) :
    State.WF { s with reservation := some (granule s.cfg a) } := by
  refine { h with reservation := fun b hb => ⟨hA, ?_⟩ }
  cases hb
  exact granule_granule s.cfg a

theorem released (h : s.WF) : s.released.WF :=
  { h with reservation := fun _ hb => absurd hb (Option.some_ne_none _).symm }

theorem store (h : s.WF) {a : Word} {n : Nat} (v : BitVec (8 * n)) (hn : n ∣ 2 ^ 32)
    (ha : accessCause .storeAmo a n = none) : (s.store a n v).WF := by
  obtain ⟨hal, hv⟩ := accessCause_none_inv ha
  have hvalid := memValid_of_bytesValid hn hal hv
  refine { h with
    mem := Memory.wf_storeBytes n v.toNat h.mem hvalid
    rising := rising_markDirty a.toNat n h.rising
    dirty := fun b hb => ?_ }
  rcases (mem_markDirty _ _ _ _).1 hb with hb | ⟨hlo, hhi⟩
  · exact h.dirty b hb
  · have := hvalid (b - a.toNat) (by omega)
    rwa [Nat.add_sub_cancel' hlo] at this

end State.WF

/-- Every way an instruction can end keeps the invariant. -/
theorem ExecResult.keeps_wf (r : ExecResult i s t) (h : s.WF) : t.WF := by
  cases r with
  | raised c v hr => exact h.withTrap _
  | wroteX rd v => exact (h.setX rd v).advance
  | wroteXFlags rd v fl hc hs hf => exact ((h.accrue hf fl).setX rd v).advance
  | wroteF rd v fl hc hs hf hv => exact ((h.setF rd hv).accrue hf fl).advance
  | stored a n v hc hs hn ha => exact (h.store v hn ha).advance
  | advanced => exact h.advance
  | fenced => exact h.advance.clearDirty
  | jumped rd a hc hs ha => exact (h.setX rd _).withPc ha
  | branched a hc hs ha => exact h.withPc ha
  | wroteCsr rd c v hc hf => exact ((h.writeCsr hf c v).setX rd _).advance
  | reserved rd rs1 aq rl a v hi hA => exact ((h.reserve hA a).setX rd v).advance
  | conditional rd rs2 rs1 aq rl a v hi ha =>
    exact ((h.released.store (n := 4) v (by norm_num) ha).setX rd 0#32).advance
  | failed rd => exact (h.released.setX rd 1#32).advance
  | updated rd a v w hi ha => exact ((h.store (n := 4) w (by norm_num) ha).setX rd v).advance

/-! ## Everything a step that answers a next state can have done -/

/-- The environment supplied a state of the hart, the step raised, or an instruction was executed. -/
theorem step_next (h : step s = .next t) :
    (t.wf = true ∧ t.cfg = s.cfg ∧ t.scIndex = s.scIndex) ∨
      (∃ o, t = { s with trap := some o }) ∨ ∃ i, ExecResult i s t := by
  unfold step at h
  split at h
  next o ho =>
    unfold handOver at h
    split at h
    next => cases h
    next r hr =>
      dsimp only at h
      split at h
      next hw =>
        cases h
        exact .inl ⟨hw, rfl, rfl⟩
      next => cases h
  next =>
    unfold fetchAndExecute at h
    split at h
    next w hf =>
      unfold executeWord at h
      split at h
      next i hd => exact .inr (.inr ⟨i, exec_result h⟩)
      next => exact .inr (.inl ⟨_, raise_next h⟩)
    next => exact .inr (.inl ⟨_, raise_next h⟩)
    next => cases h

/-- Settles O13: a state the environment supplies is checked, an exception leaves all but the trap outcome, and every
way an instruction can end keeps the invariant. -/
theorem stepKeepsWellFormed : Obligations.StepKeepsWellFormed := by
  intro s t hs h
  rcases step_next h with ⟨hw, -⟩ | ⟨o, rfl⟩ | ⟨i, hr⟩
  · exact hw
  · exact State.wf_iff.2 ((State.wf_iff.1 hs).withTrap _)
  · exact State.wf_iff.2 (hr.keeps_wf (State.wf_iff.1 hs))

/-! ## The parameters and the `sc_may_succeed` input -/

theorem ExecResult.keeps_parameters (r : ExecResult i s t) :
    t.cfg = s.cfg ∧ (t.scIndex = s.scIndex ∨ t.scIndex = s.scIndex + 1) := by
  cases r with
  | conditional => exact ⟨by simp, .inr (by simp)⟩
  | failed => exact ⟨by simp, .inr (by simp)⟩
  | _ => exact ⟨by simp, .inl (by simp)⟩

/-- Settles O14: only `sc.w` moves the position, by one, and the environment's reply keeps both. -/
theorem stepKeepsParameters : Obligations.StepKeepsParameters := by
  intro s t h
  rcases step_next h with ⟨-, hc, hi⟩ | ⟨o, rfl⟩ | ⟨i, hr⟩
  · exact ⟨hc, by omega, by omega⟩
  · exact ⟨rfl, Nat.le_refl _, Nat.le_succ _⟩
  · obtain ⟨hc, hi⟩ := hr.keeps_parameters
    exact ⟨hc, by omega, by omega⟩

/-! ## The reservation -/

theorem ExecResult.reservation_of_ne_lr_sc (r : ExecResult i s t) (hlr : ∀ rd rs1 aq rl, i ≠ .lrW rd rs1 aq rl)
    (hsc : ∀ rd rs2 rs1 aq rl, i ≠ .scW rd rs2 rs1 aq rl) : t.reservation = s.reservation := by
  cases r with
  | reserved rd rs1 aq rl a v hi => exact absurd hi (hlr rd rs1 aq rl)
  | conditional rd rs2 rs1 aq rl a v hi => exact absurd hi (hsc rd rs2 rs1 aq rl)
  | failed rd rs2 rs1 aq rl hi => exact absurd hi (hsc rd rs2 rs1 aq rl)
  | _ => simp

/-- An `sc.w` that completes leaves no reservation, stored or not. -/
theorem reservation_of_scW {rd rs2 rs1 : Reg} {aq rl : BitVec 1}
    (h : exec (.scW rd rs2 rs1 aq rl) s = .next t) (ht : t.trap = none) : t.reservation = none := by
  rcases whenPresent_next h with ⟨-, h⟩ | ⟨-, h⟩
  · rcases State.storeConditional_next h with ⟨c, -, hr⟩ | ⟨-, ⟨-, rfl⟩ | ⟨-, rfl⟩⟩
    · cases raise_next hr
      cases ht
    · simp
    · simp
  · cases raise_next h
    cases ht

/-- Settles O16: of the ways an instruction can end only those of `lr.w` and `sc.w` change the reservation. -/
theorem reservationChangedOnlyByLrAndSc : Obligations.ReservationChangedOnlyByLrAndSc := by
  refine fun i s t hs h => ⟨fun hne => ?_, fun ht => ?_, ?_⟩
  · by_contra hi
    push Not at hi
    exact hne ((exec_result h).reservation_of_ne_lr_sc hi.1 hi.2)
  · obtain ⟨o, ho⟩ := Option.ne_none_iff_exists'.1 ht
    rw [(exec_raised hs h ho).1]
  · rintro rd rs2 rs1 aq rl rfl ht
    exact reservation_of_scW h ht

/-! ## Memory and `dirty` -/

theorem isStoring_of_isAtomicUpdate (h : isAtomicUpdate i = true) : isStoring i = true := by
  cases i <;> simp only [isAtomicUpdate, Bool.false_eq_true] at h <;> rfl

/-- An instruction that does not store leaves memory, and but for `fence.i` also `dirty`. -/
theorem ExecResult.mem_of_not_storing (r : ExecResult i s t) (hi : isStoring i = false) :
    t.mem = s.mem ∧ ((∀ rd rs1 imm, i ≠ .fenceI rd rs1 imm) → t.dirty = s.dirty) := by
  have contra : isStoring i ≠ true := Bool.eq_false_iff.1 hi
  cases r with
  | stored a n v hc hs => exact absurd hs contra
  | conditional rd rs2 rs1 aq rl a v h => exact absurd (h ▸ rfl) contra
  | updated rd a v w h => exact absurd (isStoring_of_isAtomicUpdate h) contra
  | fenced rd rs1 imm h => exact ⟨rfl, fun hne => absurd h (hne rd rs1 imm)⟩
  | _ => exact ⟨by simp, fun _ => by simp⟩

/-- But for `fence.i` no way an instruction can end removes an address from `dirty`. -/
theorem ExecResult.dirty_subset (r : ExecResult i s t) (hi : ∀ rd rs1 imm, i ≠ .fenceI rd rs1 imm) {a : Nat}
    (ha : a ∈ s.dirty) : a ∈ t.dirty := by
  cases r with
  | stored b n v => exact (mem_markDirty ..).2 (.inl ha)
  | conditional rd rs2 rs1 aq rl b v =>
    simpa using (mem_markDirty s.dirty b.toNat 4 a).2 (.inl ha)
  | updated rd b v w => simpa using (mem_markDirty s.dirty b.toNat 4 a).2 (.inl ha)
  | fenced rd rs1 imm h => exact absurd h (hi rd rs1 imm)
  | _ => simpa using ha

/-- Settles O17: of the ways an instruction can end only those of a store touch memory, and only that of `fence.i`
removes from `dirty`. -/
theorem memoryChangesOnlyByStores : Obligations.MemoryChangesOnlyByStores := by
  refine fun i s t hs h => ⟨?_, fun hi => ((exec_result h).mem_of_not_storing hi).2, fun hi a ha => ?_, ?_⟩
  · rintro (hi | ht) a
    · exact congrArg (Memory.read · a) ((exec_result h).mem_of_not_storing hi).1
    · obtain ⟨o, ho⟩ := Option.ne_none_iff_exists'.1 ht
      rw [(exec_raised hs h ho).1]
      rfl
  · refine (exec_result h).dirty_subset (fun rd rs1 imm hf => ?_) ha
    subst hf
    cases hi
  · rintro rd rs1 imm rfl
    cases h
    rfl

/-! ## Flags -/

theorem and_or_self (a b : FpFlags) : a &&& (a ||| b) = a := by
  ext k hk
  rw [BitVec.getElem_and, BitVec.getElem_or]
  cases a[k] <;> rfl

/-- But for the CSR instructions every way an instruction can end adds flags, or none, and keeps `frm`. -/
theorem ExecResult.adds_flags (r : ExecResult i s t) (hi : isCsrAccess i = false) :
    (∃ fl, t.fflags = s.fflags ||| fl) ∧ t.frm = s.frm := by
  have same : ∀ u : State, u.fcsr = s.fcsr → (∃ fl, u.fflags = s.fflags ||| fl) ∧ u.frm = s.frm := by
    intro u hu
    refine ⟨⟨0#5, ?_⟩, by rw [State.frm, hu, State.frm]⟩
    rw [State.fflags, hu, BitVec.or_zero, State.fflags]
  cases r with
  | wroteCsr rd c v hc => exact absurd (hi.symm.trans hc) Bool.false_ne_true
  | wroteXFlags rd v fl => exact ⟨⟨fl, by simp⟩, by simp⟩
  | wroteF rd v fl => exact ⟨⟨fl, by simp; rfl⟩, by simp; rfl⟩
  | _ => exact same _ (by simp)

/-- Settles O18: flags are only added. -/
theorem flagsAreSticky : Obligations.FlagsAreSticky := by
  intro i s t hi h
  obtain ⟨⟨fl, hfl⟩, hrm⟩ := (exec_result h).adds_flags hi
  exact ⟨by rw [hfl, and_or_self], hrm⟩

end Sys2Proof.Machine
end

section
/-! PROOFS. A step is a fetch, then a decoded instruction, or a hand-over to the environment (spec/20_memory.md R58;
spec/60_exceptions.md R410, R411), and the values of reset (spec/10_state.md R37). -/

namespace Sys2Proof.Machine

variable {s : State}

/-! ## Reset -/

/-- Settles O11: each is a field of the reset state. -/
theorem resetValues : Obligations.ResetValues := ⟨rfl, State.getX_zero _, rfl, rfl, rfl⟩

/-- Settles O12: memory and `dirty` are empty, every register is 0 and pc is `PC_RESET`. -/
theorem resetStateIsWellFormed : Obligations.ResetStateIsWellFormed := by
  unfold Obligations.ResetStateIsWellFormed
  decide

/-! ## What a fetch gives -/

theorem State.fetch_of_misaligned (h : ¬AlignedTo s.pc 4) : s.fetch = .trap .instructionAddressMisaligned := by
  simp [State.fetch, aligned_eq_false h]

/-- The four bytes of an aligned pc exist exactly when the first does. -/
theorem bytesValid_pc_iff (ha : AlignedTo s.pc 4) : bytesValid s.pc 4 = true ↔ InMemory s.pc :=
  bytesValid_aligned_iff (by norm_num) (by norm_num) ((aligned_iff _ _).2 ha)

theorem State.fetch_of_missing (ha : AlignedTo s.pc 4) (hm : ¬InMemory s.pc) :
    s.fetch = .trap .instructionAccessFault := by
  have hv : bytesValid s.pc 4 = false := Bool.eq_false_iff.2 fun hv => hm ((bytesValid_pc_iff ha).1 hv)
  simp [State.fetch, (aligned_iff _ _).2 ha, hv]

/-- The fetch of an aligned pc whose bytes exist goes on to `dirty` and the word. -/
theorem State.fetch_of_valid (ha : AlignedTo s.pc 4) (hm : InMemory s.pc) :
    s.fetch = if overlapsDirty s.dirty s.pc.toNat 4 then .stale else .word (s.wordAt s.pc.toNat) := by
  rw [State.fetch, if_pos ((aligned_iff _ _).2 ha), if_pos ((bytesValid_pc_iff ha).2 hm)]
  rfl

theorem overlapsDirty_iff (d : List Nat) (a n : Nat) : overlapsDirty d a n = true ↔ ∃ k ∈ d, a ≤ k ∧ k < a + n := by
  simp [overlapsDirty]

theorem State.fetch_of_stale (ha : AlignedTo s.pc 4) (hm : InMemory s.pc)
    (hd : ∃ a ∈ s.dirty, s.pc.toNat ≤ a ∧ a < s.pc.toNat + 4) : s.fetch = .stale := by
  rw [State.fetch_of_valid ha hm, if_pos ((overlapsDirty_iff ..).2 hd)]

theorem State.fetch_of_clean (ha : AlignedTo s.pc 4) (hm : InMemory s.pc)
    (hd : ∀ a ∈ s.dirty, a < s.pc.toNat ∨ s.pc.toNat + 4 ≤ a) : s.fetch = .word (s.wordAt s.pc.toNat) := by
  rw [State.fetch_of_valid ha hm, if_neg]
  rw [overlapsDirty_iff]
  rintro ⟨k, hk, hlo, hhi⟩
  rcases hd k hk with h | h <;> omega

/-! ## What a step makes of a fetch -/

theorem step_of_trap {c : Cause} (hs : s.trap = none) (h : s.fetch = .trap c) : step s = raise c s.pc s := by
  simp only [step, hs, fetchAndExecute, h]

theorem step_of_stale (hs : s.trap = none) (h : s.fetch = .stale) : step s = .refused (.staleFetch s.pc) := by
  simp only [step, hs, fetchAndExecute, h]

theorem step_of_word {w : Word} (hs : s.trap = none) (h : s.fetch = .word w) : step s = executeWord w s := by
  simp only [step, hs, fetchAndExecute, h]

theorem executeWord_of_ok {w : Word} {i : Instr} (h : decode w = .ok i) : executeWord w s = exec i s := by
  simp only [executeWord, h]

theorem executeWord_of_error {w : Word} {e : DecodeError} (h : decode w = .error e) :
    executeWord w s = raise .illegalInstruction w s := by
  simp only [executeWord, h]

/-- Settles O22: the fetch gives the word at pc. -/
theorem stepRunsTheDecodedInstruction : Obligations.StepRunsTheDecodedInstruction := fun _ _ hs ha hm hd hi =>
  (step_of_word hs (State.fetch_of_clean ha hm hd)).trans (executeWord_of_ok hi)

/-- Settles O23: one fetch lemma for each outcome. -/
theorem fetchOutcomes : Obligations.FetchOutcomes := by
  refine ⟨rfl, fun s hs => ⟨fun ha => ?_, fun ha hm => ?_, fun ha hm hd => ?_, fun ha hm hd he => ?_⟩⟩
  · exact step_of_trap hs (State.fetch_of_misaligned ha)
  · exact step_of_trap hs (State.fetch_of_missing ha hm)
  · exact step_of_stale hs (State.fetch_of_stale ha hm hd)
  · obtain ⟨e, he⟩ := he
    exact (step_of_word hs (State.fetch_of_clean ha hm hd)).trans (executeWord_of_error he)

/-- Settles O24: a pending outcome is handed over. -/
theorem pendingTrapGoesToTheEnvironment : Obligations.PendingTrapGoesToTheEnvironment := by
  intro s o ho
  unfold step
  rw [ho]
  rfl

/-! ## A word placed at pc -/

theorem withFetchWord_pc_valid (s : State) (nbits w : Nat) :
    AlignedTo (s.withFetchWord nbits w).pc 4 ∧ InMemory (s.withFetchWord nbits w).pc := by
  show AlignedTo (if fetchable s.pc then s.pc else Config.pcReset) 4 ∧
    InMemory (if fetchable s.pc then s.pc else Config.pcReset)
  split
  next h =>
    obtain ⟨ha, hv⟩ := Bool.and_eq_true_iff.1 h
    have ha := (aligned_iff _ _).1 ha
    exact ⟨ha, (bytesValid_pc_iff ha).1 hv⟩
  next => exact ⟨by unfold AlignedTo; decide, by unfold InMemory; decide⟩

theorem withFetchWord_clean (s : State) (nbits w : Nat) : ∀ a ∈ (s.withFetchWord nbits w).dirty,
    a < (s.withFetchWord nbits w).pc.toNat ∨ (s.withFetchWord nbits w).pc.toNat + 4 ≤ a := by
  intro a ha
  have hout := (List.mem_filter.1 ha).2
  simp only [Bool.not_eq_true', Bool.and_eq_false_iff, decide_eq_false_iff_not] at hout
  show a < (if fetchable s.pc then s.pc else Config.pcReset).toNat ∨
    (if fetchable s.pc then s.pc else Config.pcReset).toNat + 4 ≤ a
  omega

theorem withFetchWord_wordAt (s : State) (nbits w : Nat) (h : Memory.wf s.mem = true) :
    (s.withFetchWord nbits w).wordAt (s.withFetchWord nbits w).pc.toNat = tableWord nbits w := by
  rw [wordAt_eq]
  exact ofNat_loadBytes_storeBytes _ 4 (tableWord nbits w) ((Memory.wf_iff _).1 h).1

/-- Settles O25: the placed word is the word at pc, which is valid and not in `dirty`. -/
theorem placedWordRunsNext : Obligations.PlacedWordRunsNext := by
  intro s nbits w i hm hi
  obtain ⟨ha, hv⟩ := withFetchWord_pc_valid s nbits w
  refine stepRunsTheDecodedInstruction _ i rfl ha hv (withFetchWord_clean s nbits w) ?_
  rw [withFetchWord_wordAt s nbits w hm, hi]

/-! ## Every instruction answers a next state -/

/-- A result is a next state. -/
def Answers (r : Result) : Prop := ∃ t, r = .next t

theorem answers_next (t : State) : Answers (.next t) := ⟨t, rfl⟩

theorem answers_raise (c : Cause) (v : Word) (s : State) : Answers (raise c v s) := answers_next _

theorem answers_raiseIllegal (i : Instr) (s : State) : Answers (raiseIllegal i s) := answers_raise _ _ _

theorem answers_whenPresent {p : Bool} {i : Instr} {k : Result} (h : Answers k) : Answers (whenPresent p i s k) := by
  unfold whenPresent
  split
  · exact h
  · exact answers_raiseIllegal i s

theorem answers_withRm {i : Instr} {rm : BitVec 3} {k : RoundingMode → Result} (h : ∀ mode, Answers (k mode)) :
    Answers (s.withRm i rm k) := by
  unfold State.withRm
  split
  · exact answers_raiseIllegal i s
  · exact h _

theorem answers_loadThen {a : Word} {n : Nat} {k : BitVec (8 * n) → Result} (h : ∀ v, Answers (k v)) :
    Answers (s.loadThen a n k) := by
  unfold State.loadThen
  split
  · exact answers_raise _ _ s
  · exact h _

theorem answers_storeThenAdvance (a : Word) (n : Nat) (v : BitVec (8 * n)) : Answers (s.storeThenAdvance a n v) := by
  unfold State.storeThenAdvance
  split
  · exact answers_raise _ _ s
  · exact answers_next _

theorem answers_jumpAndLink (rd : Reg) (a : Word) : Answers (s.jumpAndLink rd a) := by
  unfold State.jumpAndLink
  split
  · exact answers_next _
  · exact answers_raise _ _ s

theorem answers_branchIf (cond : Bool) (offset : BitVec 13) : Answers (s.branchIf cond offset) := by
  unfold State.branchIf
  split
  · split
    · exact answers_next _
    · exact answers_raise _ _ s
  · exact answers_next _

theorem answers_csrAccess (i : Instr) (rd : Reg) (csr : BitVec 12) (writes : Bool) (new : Word → Word) :
    Answers (s.csrAccess i rd csr writes new) := by
  unfold State.csrAccess
  split
  · exact answers_raiseIllegal i s
  · split
    · exact answers_raiseIllegal i s
    · exact answers_next _

theorem answers_of_csrField {i : Instr} {csr : BitVec 12} (h : csrField i = some csr) : Answers (exec i s) := by
  obtain ⟨rd, writes, new, he⟩ := exec_csr (s := s) h
  rw [he]
  exact answers_csrAccess ..

theorem answers_loadReserved (rd : Reg) (a : Word) : Answers (s.loadReserved rd a) := by
  unfold State.loadReserved
  split
  · exact answers_raise _ _ s
  · exact answers_next _

theorem answers_storeConditional (rd : Reg) (a v : Word) : Answers (s.storeConditional rd a v) := by
  unfold State.storeConditional
  split
  · exact answers_raise _ _ s
  · dsimp only
    split <;> exact answers_next _

theorem answers_atomicUpdate (rd : Reg) (a : Word) (op : Word → Word) : Answers (s.atomicUpdate rd a op) := by
  unfold State.atomicUpdate
  split
  · exact answers_raise _ _ s
  · exact answers_next _

/-- Every instruction ends in one of the shared operations, and each of them answers a next state. -/
theorem answers_exec (i : Instr) (s : State) : Answers (exec i s) := by
  cases i
  case lb | lh | lw | lbu | lhu => exact answers_loadThen fun _ => answers_next _
  case sb | sh | sw => exact answers_storeThenAdvance ..
  case beq | bne | blt | bge | bltu | bgeu => exact answers_branchIf ..
  case jal | jalr => exact answers_jumpAndLink ..
  case csrrw | csrrs | csrrc | csrrwi | csrrsi | csrrci => exact answers_of_csrField rfl
  case lrW => exact answers_whenPresent (answers_loadReserved ..)
  case scW => exact answers_whenPresent (answers_storeConditional ..)
  case amoswapW | amoaddW | amoxorW | amoandW | amoorW | amominW | amomaxW | amominuW | amomaxuW =>
    exact answers_whenPresent (answers_atomicUpdate ..)
  case flw | fld => exact answers_whenPresent (answers_loadThen fun _ => answers_next _)
  case fsw | fsd => exact answers_whenPresent (answers_storeThenAdvance ..)
  case faddS | faddD | fsubS | fsubD | fmulS | fmulD | fdivS | fdivD | fsqrtS | fsqrtD | fmaddS | fmaddD | fmsubS
      | fmsubD | fnmsubS | fnmsubD | fnmaddS | fnmaddD | fcvtDS | fcvtSD | fcvtSW | fcvtDW | fcvtSWu | fcvtDWu | fcvtWS
      | fcvtWD | fcvtWuS | fcvtWuD =>
    exact answers_whenPresent (answers_withRm fun _ => answers_next _)
  case mul | mulh | mulhsu | mulhu | div | divu | rem | remu | fsgnjS | fsgnjD | fsgnjnS | fsgnjnD | fsgnjxS | fsgnjxD
      | fminS | fminD | fmaxS | fmaxD | feqS | feqD | fltS | fltD | fleS | fleD | fclassS | fclassD | fmvSX | fmvXS =>
    exact answers_whenPresent (answers_next _)
  all_goals exact answers_next _

theorem handOver_cases (o : Trap) (s : State) : Answers (handOver o s) ∨
    handOver o s = .fault (.halted o.cause o.pc o.tval) ∨ handOver o s = .refused .envNotHartState := by
  unfold handOver
  split
  · exact .inr (.inl rfl)
  · dsimp only
    split
    · exact .inl (answers_next _)
    · exact .inr (.inr rfl)

/-- Settles O20: every shared operation answers a next state; a step stops at a fetch of stored bytes and at the
environment. -/
theorem everyInstructionAnswersANextState : Obligations.EveryInstructionAnswersANextState := by
  refine ⟨answers_exec, fun s => ?_⟩
  cases hs : s.trap with
  | some o =>
    have hstep : step s = handOver o s := by simp only [step, hs]
    rw [hstep]
    rcases handOver_cases o s with h | h | h
    · exact .inl h
    · exact .inr (.inr ⟨o, rfl, .inl h⟩)
    · exact .inr (.inr ⟨o, rfl, .inr h⟩)
  | none =>
    cases hf : s.fetch with
    | trap c => exact .inl (step_of_trap hs hf ▸ answers_raise c s.pc s)
    | stale => exact .inr (.inl ⟨rfl, step_of_stale hs hf⟩)
    | word w =>
      rw [step_of_word hs hf]
      cases hd : decode w with
      | ok i => exact .inl (executeWord_of_ok (s := s) hd ▸ answers_exec i s)
      | error e => exact .inl (executeWord_of_error (s := s) hd ▸ answers_raise _ w s)

/-! ## Which instruction raises which exception -/

/-- A byte of an access that does not exist lies below `MEM_VALID`. -/
theorem exists_below_of_bytesValid_eq_false {a : Word} {n : Nat} (h : bytesValid a n = false) :
    ∃ k, k < n ∧ (a.toNat + k) % 2 ^ 32 < 0x00400000 := by
  by_contra hall
  push Not at hall
  refine Bool.false_ne_true (h.symm.trans ((bytesValid_iff a n).2 fun k hk => (memValid_iff _).2 ⟨hall k hk, ?_⟩))
  exact Nat.mod_lt _ (by norm_num [Config.memTop])

theorem mod_ne_zero_of_aligned_eq_false {a : Word} {n : Nat} (h : aligned a n = false) : a.toNat % n ≠ 0 :=
  fun h0 => Bool.false_ne_true (h.symm.trans ((aligned_iff a n).2 h0))

/-- Settles O21: by the exceptions an instruction may raise, and for an access by the order of its checks. -/
theorem exceptionsByInstruction : Obligations.ExceptionsByInstruction := by
  rintro i s t ⟨c, pc, v⟩ hs h ht
  obtain ⟨-, -, hr⟩ := exec_raised hs h ht
  dsimp only at hr ⊢
  cases hr with
  | illegal hi => exact ⟨rfl, hi⟩
  | breakpoint hi => exact ⟨hi, rfl⟩
  | call hi => exact ⟨hi, rfl⟩
  | target _ hi ha => exact ⟨hi, mod_ne_zero_of_aligned_eq_false ha⟩
  | load _ n _ hi hc =>
    rcases accessCause_some_inv hc with ⟨ha, rfl⟩ | ⟨ha, hv, rfl⟩
    · exact ⟨n, hi, mod_ne_zero_of_aligned_eq_false ha⟩
    · exact ⟨n, hi, (aligned_iff _ _).1 ha, exists_below_of_bytesValid_eq_false hv⟩
  | store _ n _ hi hc =>
    rcases accessCause_some_inv hc with ⟨ha, rfl⟩ | ⟨ha, hv, rfl⟩
    · exact ⟨n, hi, mod_ne_zero_of_aligned_eq_false ha⟩
    · exact ⟨n, hi, (aligned_iff _ _).1 ha, exists_below_of_bytesValid_eq_false hv⟩

/-- Settles O8: the meaning of each is the exception. -/
theorem sixtyFourBitFormsRaise : Obligations.SixtyFourBitFormsRaise := fun _ _ _ _ _ _ _ =>
  ⟨rfl, rfl, rfl, rfl, rfl, rfl, rfl, rfl, rfl, rfl, rfl, rfl, rfl, rfl, rfl, rfl, rfl, rfl, rfl, rfl, rfl⟩

end Sys2Proof.Machine
end

section
/-! PROOFS. The integer instructions complete with the values their rules state over integers
(spec/40_integer_computational.md, spec/41_control_transfer.md, spec/44_m_extension.md): the values of the model's bit
operations first, then each instruction by the shared operation it ends in. -/

namespace Sys2Proof.Machine

variable {i : Instr} {s : State}

/-! ## The register file -/

/-- Settles O9: by the two read-after-write lemmas, and x0 by definition. -/
theorem integerRegisterFile : Obligations.IntegerRegisterFile := by
  refine fun s r q v => ⟨?_, State.getX_zero s, if_pos rfl⟩
  split
  next h =>
    obtain ⟨rfl, hr⟩ := h
    exact s.getX_setX_same q v hr
  next h =>
    by_cases hq : q = r
    · obtain rfl : r = 0#5 := not_not.1 fun hr => h ⟨hq, hr⟩
      rw [hq, State.getX_zero, State.getX_zero]
    · exact s.getX_setX_other r q v hq

/-! ## Values of the bit operations over integers -/

theorem add_eq_ofNat (a b : Word) : a + b = BitVec.ofNat 32 (a.toNat + b.toNat) := by
  simp [BitVec.ofNat_add]

theorem sub_eq_ofInt (a b : Word) : a - b = BitVec.ofInt 32 ((a.toNat : Int) - b.toNat) := by
  rw [Int.sub_eq_add_neg, BitVec.ofInt_add, BitVec.ofInt_neg, BitVec.ofInt_natCast, BitVec.ofInt_natCast,
    BitVec.ofNat_toNat, BitVec.ofNat_toNat, BitVec.setWidth_eq, BitVec.setWidth_eq, BitVec.sub_eq_add_neg]

theorem shiftAmount_eq (b : Word) : shiftAmount b = b.toNat % 32 := by
  simp [shiftAmount, BitVec.extractLsb'_toNat]

theorem shiftLeft_eq_ofNat (a : Word) (n : Nat) : a <<< n = BitVec.ofNat 32 (a.toNat * 2 ^ n) := by
  apply BitVec.eq_of_toNat_eq
  rw [BitVec.toNat_shiftLeft, BitVec.toNat_ofNat, Nat.shiftLeft_eq]

theorem ushiftRight_eq_ofNat (a : Word) (n : Nat) : a >>> n = BitVec.ofNat 32 (a.toNat / 2 ^ n) := by
  apply BitVec.eq_of_toNat_eq
  rw [BitVec.toNat_ushiftRight, BitVec.toNat_ofNat, Nat.shiftRight_eq_div_pow,
    Nat.mod_eq_of_lt ((Nat.div_le_self _ _).trans_lt a.isLt)]

theorem sshiftRight_eq_ofInt (a : Word) (n : Nat) : a.sshiftRight n = BitVec.ofInt 32 (a.toInt / 2 ^ n) := by
  rw [BitVec.sshiftRight, Int.shiftRight_eq_div_pow]
  norm_cast

theorem truthWord_decide (p : Prop) [Decidable p] : truthWord (decide p) = if p then 1#32 else 0#32 := by
  unfold truthWord
  simp

theorem toInt_immediate (imm : BitVec 12) : (immediate imm).toInt = imm.toInt :=
  BitVec.toInt_signExtend_of_le (by norm_num)

theorem add_immediate_eq_ofInt (a : Word) (imm : BitVec 12) :
    a + immediate imm = BitVec.ofInt 32 ((a.toNat : Int) + imm.toInt) := by
  rw [BitVec.ofInt_add, BitVec.ofInt_natCast, BitVec.ofNat_toNat, BitVec.setWidth_eq]
  rfl

theorem upperImmediate_eq_ofNat (upper : BitVec 20) : upperImmediate upper = BitVec.ofNat 32 (upper.toNat * 4096) := by
  have := upper.isLt
  apply BitVec.eq_of_toNat_eq
  rw [upperImmediate, BitVec.toNat_append, BitVec.toNat_ofNat, BitVec.toNat_ofNat, Nat.zero_mod, Nat.or_zero,
    Nat.shiftLeft_eq]
  omega

/-! ## Integer computation -/

/-- An integer result, in the terms of its rule. -/
theorem completesWithX_of_eq {rd : Reg} {v v' : Word} (h : exec i s = s.finishX rd v) (hv : v = v') :
    CompletesWithX i s rd v' :=
  hv ▸ completesWithX_of_finishX h

/-- Settles O29: each instruction writes one value, which its rule states over integers. -/
theorem registerArithmeticCompletes : Obligations.RegisterArithmeticCompletes := by
  rintro s rd rs1 rs2 a b rfl rfl
  rw [← shiftAmount_eq]
  exact ⟨completesWithX_of_eq rfl (add_eq_ofNat _ _), completesWithX_of_eq rfl (sub_eq_ofInt _ _),
    completesWithX_of_eq rfl (shiftLeft_eq_ofNat _ _), completesWithX_of_eq rfl (truthWord_decide _),
    completesWithX_of_eq rfl (truthWord_decide _), completesWithX_of_finishX rfl,
    completesWithX_of_eq rfl (ushiftRight_eq_ofNat _ _), completesWithX_of_eq rfl (sshiftRight_eq_ofInt _ _),
    completesWithX_of_finishX rfl, completesWithX_of_finishX rfl⟩

/-- Settles O30: as for registers, the immediate extended by its sign. -/
theorem immediateArithmeticCompletes : Obligations.ImmediateArithmeticCompletes := by
  rintro s rd rs1 a imm shamt upper rfl
  refine ⟨completesWithX_of_eq rfl (add_immediate_eq_ofInt _ _), completesWithX_of_eq rfl ?_,
    completesWithX_of_eq rfl (truthWord_decide _), completesWithX_of_finishX rfl, completesWithX_of_finishX rfl,
    completesWithX_of_finishX rfl, completesWithX_of_eq rfl (shiftLeft_eq_ofNat _ _),
    completesWithX_of_eq rfl (ushiftRight_eq_ofNat _ _), completesWithX_of_eq rfl (sshiftRight_eq_ofInt _ _),
    completesWithX_of_eq rfl (upperImmediate_eq_ofNat _), completesWithX_of_eq rfl ?_⟩
  · rw [← toInt_immediate]
    exact truthWord_decide _
  · rw [upperImmediate_eq_ofNat, BitVec.ofNat_add, BitVec.ofNat_toNat, BitVec.setWidth_eq]

/-! ## Multiplication and division -/

/-- Bits 63 to 32 of a product are its quotient by 2^32, rounded down. -/
theorem highHalf_eq_ofInt (p : Int) : highHalf p = BitVec.ofInt 32 (p / 2 ^ 32) := by
  apply BitVec.eq_of_toNat_eq
  rw [highHalf, BitVec.extractLsb'_toNat, BitVec.toNat_ofInt, BitVec.toNat_ofInt, Nat.shiftRight_eq_div_pow]
  omega

/-- Settles O42: the low half is the product modulo 2^32, the high halves are its quotient by 2^32. -/
theorem multipliesComplete : Obligations.MultipliesComplete := by
  rintro s rd rs1 rs2 a b hM rfl rfl
  have hmul : s.getX rs1 * s.getX rs2 = BitVec.ofInt 32 ((s.getX rs1).toInt * (s.getX rs2).toInt) := by
    rw [BitVec.ofInt_mul, BitVec.ofInt_toInt, BitVec.ofInt_toInt]
  have hmulhu : highHalf ((s.getX rs1).toNat * (s.getX rs2).toNat : Int) =
      BitVec.ofNat 32 ((s.getX rs1).toNat * (s.getX rs2).toNat / 2 ^ 32) := by
    rw [highHalf_eq_ofInt, ← BitVec.ofInt_natCast]
    norm_cast
  rw [← hmul, ← highHalf_eq_ofInt, ← highHalf_eq_ofInt, ← hmulhu]
  exact ⟨completesWithX_of_present hM rfl, completesWithX_of_present hM rfl, completesWithX_of_present hM rfl,
    completesWithX_of_present hM rfl⟩

theorem divideSigned_eq (a b : Word) : divideSigned a b =
    if b.toNat = 0 then 0xFFFFFFFF#32 else BitVec.ofInt 32 (a.toInt.tdiv b.toInt) := by
  split
  next h => rw [(BitVec.eq_of_toNat_eq h : b = 0#32), divideSigned_zero]
  next h => exact divideSigned_of_ne_zero a fun h0 => h (congrArg BitVec.toNat h0)

theorem divideUnsigned_eq (a b : Word) : divideUnsigned a b =
    if b.toNat = 0 then 0xFFFFFFFF#32 else BitVec.ofNat 32 (a.toNat / b.toNat) := by
  split
  next h => rw [(BitVec.eq_of_toNat_eq h : b = 0#32), divideUnsigned_zero]
  next h => exact divideUnsigned_of_ne_zero a fun h0 => h (congrArg BitVec.toNat h0)

theorem remainderSigned_eq (a b : Word) : remainderSigned a b =
    if b.toNat = 0 then a else BitVec.ofInt 32 (a.toInt.tmod b.toInt) := by
  split
  next h => rw [(BitVec.eq_of_toNat_eq h : b = 0#32), remainderSigned_zero]
  next => exact remainderSigned_eq_tmod a b

theorem remainderUnsigned_eq (a b : Word) : remainderUnsigned a b =
    if b.toNat = 0 then a else BitVec.ofNat 32 (a.toNat % b.toNat) := by
  split
  next h => rw [(BitVec.eq_of_toNat_eq h : b = 0#32), remainderUnsigned_zero]
  next => exact remainderUnsigned_eq_mod a b

/-- Settles O43: the overflowing quotient wraps to the value R229 gives it. -/
theorem divisionsComplete : Obligations.DivisionsComplete := by
  rintro s rd rs1 rs2 a b hM rfl rfl
  rw [← divideSigned_eq, ← divideUnsigned_eq, ← remainderSigned_eq, ← remainderUnsigned_eq]
  exact ⟨completesWithX_of_present hM rfl, completesWithX_of_present hM rfl, completesWithX_of_present hM rfl,
    completesWithX_of_present hM rfl⟩

/-! ## Control transfer -/

/-- The target of `jalr` is a multiple of 4 when bit 1 of the sum is clear, because bit 0 is cleared. -/
theorem aligned_jalrTarget {a : Word} (h : a.getLsbD 1 = false) : aligned (a &&& 0xFFFFFFFE#32) 4 = true := by
  rw [aligned_iff]
  have h0 : (a &&& 0xFFFFFFFE#32).getLsbD 0 = false := by simp
  have h1 : (a &&& 0xFFFFFFFE#32).getLsbD 1 = false := by
    rw [BitVec.getLsbD_and, h, Bool.false_and]
  rw [BitVec.getLsbD, Nat.testBit_eq_decide_div_mod_eq, decide_eq_false_iff_not] at h0 h1
  omega

/-- Settles O31: both end in the shared jump with link. -/
theorem jumpsComplete : Obligations.JumpsComplete := fun _ _ _ _ _ =>
  ⟨fun h => completesWithJump_of_jumpAndLink rfl ((aligned_iff _ _).2 h),
    fun h => completesWithJump_of_jumpAndLink rfl (aligned_jalrTarget h)⟩

/-- Settles O32: a branch whose target is aligned, or that is not taken, only sets pc. -/
theorem branchesComplete : Obligations.BranchesComplete := fun _ _ _ _ _ _ _ hb ha =>
  completesWithPc_of_branch hb ha

/-- Settles O41: `fence` only advances, `fence.i` also empties `dirty`. -/
theorem fencesComplete : Obligations.FencesComplete := fun _ _ _ _ =>
  ⟨completesWithPc_of_pc rfl,
    _, rfl, rfl, rfl, fun _ => rfl, ⟨fun _ => rfl, rfl⟩, fun _ => rfl, rfl, rfl, rfl, rfl⟩

end Sys2Proof.Machine
end

section
/-! PROOFS. The instructions that access memory or a control register complete (spec/42_load_store.md,
spec/43_system_csr_fence.md, spec/45_fd_extension.md R250 to R253, spec/46_a_extension.md). -/

namespace Sys2Proof.Machine

variable {i : Instr} {s : State} {a : Word}

/-! ## Read after write -/

/-- Settles O26: the stored bytes load as the value, the others as before. -/
theorem readAfterWrite : Obligations.ReadAfterWrite := by
  intro s a n v k hn hm ha hmem
  have hr := ((Memory.wf_iff _).1 hm).1
  obtain ⟨-, hout, hdirty⟩ := State.store_storesBytes s a n v hr
  refine ⟨s.store a n v, State.memWrite_eq_ok (accessCause_of_width hn ha hmem), ?_, hout, hdirty⟩
  rw [State.memRead_eq_ok (accessCause_of_width hn ha hmem), State.store_mem, ofNat_loadBytes_storeBytes _ _ _ hr]

/-! ## Integer loads and stores -/

theorem alignedTo_one (a : Word) : AlignedTo a 1 := Nat.mod_one _

theorem byteAt_eq (s : State) (a : Nat) : s.byteAt a = BitVec.ofNat 8 (loadBytes s.mem a 1) :=
  (ofNat_loadBytes_one s.mem a).symm

/-- Settles O35: each load completes with the bytes read, extended as it says. -/
theorem loadsComplete : Obligations.LoadsComplete := by
  rintro s rd rs1 imm a rfl hm
  rw [byteAt_eq, halfAt_eq, wordAt_eq]
  have byte := accessCause_of_width (c := .load) (n := 1) (by decide) (alignedTo_one _) hm
  exact ⟨completesWithX_of_loadThen (n := 1) (extend := (·.signExtend 32)) rfl byte,
    completesWithX_of_loadThen (n := 1) (extend := (·.setWidth 32)) rfl byte,
    fun ha => completesWithX_of_loadThen (n := 2) (extend := (·.signExtend 32)) rfl
      (accessCause_of_width (by decide) ha hm),
    fun ha => completesWithX_of_loadThen (n := 2) (extend := (·.setWidth 32)) rfl
      (accessCause_of_width (by decide) ha hm),
    fun ha => completesWithX_of_loadThen (n := 4) (extend := id) rfl (accessCause_of_width (by decide) ha hm)⟩

/-- A store of a width the hart has, aligned and in memory, completes with the number it stores. -/
theorem completesWithStore_of_eq {n v' : Nat} {v : BitVec (8 * n)} (h : exec i s = s.storeThenAdvance a n v)
    (hn : n ∈ [1, 2, 4, 8]) (ha : AlignedTo a n) (hmem : InMemory a) (hm : Memory.wf s.mem = true)
    (hv : v.toNat = v') : CompletesWithStore i s a.toNat n v' :=
  hv ▸ completesWithStore_of_store h (accessCause_of_width hn ha hmem) ((Memory.wf_iff _).1 hm).1

theorem toNat_extractLsb'_zero {w : Nat} (v : BitVec w) (n : Nat) : (v.extractLsb' 0 n).toNat = v.toNat % 2 ^ n := by
  rw [BitVec.extractLsb'_toNat, Nat.shiftRight_zero]

/-- Settles O36: each store is the shared operation on the low bytes of its register. -/
theorem storesComplete : Obligations.StoresComplete := by
  rintro s rs2 rs1 imm a rfl hmem hm
  exact ⟨completesWithStore_of_eq (n := 1) rfl (by decide) (alignedTo_one _) hmem hm (toNat_extractLsb'_zero ..),
    fun ha => completesWithStore_of_eq (n := 2) rfl (by decide) ha hmem hm (toNat_extractLsb'_zero ..),
    fun ha => completesWithStore_of_eq (n := 4) rfl (by decide) ha hmem hm rfl⟩

/-! ## Floating-point loads and stores -/

theorem completesWithF_of_loadThen_wrS {rd : Reg} (h : exec i s = s.loadThen a 4 fun v => .next (s.wrS rd v).advance)
    (ha : AlignedTo a 4) (hmem : InMemory a) :
    CompletesWithF i s rd (boxedSingle s (s.wordAt a.toNat)) flagNone := by
  rw [loadThen_ok (accessCause_of_width (by decide) ha hmem)] at h
  rw [wordAt_eq]
  exact completesWithF_of_finishS (r := (BitVec.ofNat 32 (loadBytes s.mem a.toNat 4), flagNone))
    (h.trans (next_wrS_eq_finishS s rd _))

theorem completesWithF_of_loadThen_wrD {rd : Reg} (h : exec i s = s.loadThen a 8 fun v => .next (s.wrD rd v).advance)
    (ha : AlignedTo a 8) (hmem : InMemory a) : CompletesWithF i s rd (s.doubleAt a.toNat) flagNone := by
  rw [loadThen_ok (accessCause_of_width (by decide) ha hmem)] at h
  rw [doubleAt_eq]
  exact completesWithF_of_finishD (r := (BitVec.ofNat 64 (loadBytes s.mem a.toNat 8), flagNone))
    (h.trans (next_wrD_eq_finishD s rd _))

/-- Settles O47: the group is present, and the access raises nothing. -/
theorem floatLoadsAndStoresComplete : Obligations.FloatLoadsAndStoresComplete := by
  rintro s rd rs2 rs1 imm a rfl hmem hm
  exact ⟨fun hF ha => ⟨completesWithF_of_loadThen_wrS (whenPresent_true hF) ha hmem,
      completesWithStore_of_eq (n := 4) (whenPresent_true hF) (by decide) ha hmem hm (toNat_extractLsb'_zero ..)⟩,
    fun hD ha => ⟨completesWithF_of_loadThen_wrD (whenPresent_true hD) ha hmem,
      completesWithStore_of_eq (n := 8) (whenPresent_true hD) (by decide) ha hmem hm rfl⟩⟩

/-! ## Atomics -/

/-- The block of an address as a multiple of the granule (spec/46_a_extension.md R332). -/
theorem granule_eq (c : Config) (a : Word) :
    granule c a = BitVec.ofNat 32 (a.toNat / c.resGranule * c.resGranule) := by
  have := Nat.div_add_mod' a.toNat c.resGranule
  rw [granule, show a.toNat - a.toNat % c.resGranule = a.toNat / c.resGranule * c.resGranule by omega]

theorem loadReserved_ok {rd : Reg} (h : accessCause .load a 4 = none) :
    s.loadReserved rd a =
      .next ({ s with reservation := some (granule s.cfg a) }.setX rd (s.wordAt a.toNat)).advance := by
  rw [State.loadReserved, State.memRead_eq_ok h, wordAt_eq]
  rfl

theorem storeConditional_stores {rd : Reg} {v : Word} (h : accessCause .storeAmo a 4 = none)
    (hr : s.reservation = some (granule s.cfg a) ∧ Config.scMaySucceed s.scIndex = true) :
    s.storeConditional rd a v = .next ((s.released.store a 4 v).setX rd 0#32).advance := by
  simp only [State.storeConditional, h, hr.1, hr.2, beq_self_eq_true, Bool.and_self, if_true]
  rfl

theorem storeConditional_fails {rd : Reg} {v : Word} (h : accessCause .storeAmo a 4 = none)
    (hr : ¬(s.reservation = some (granule s.cfg a) ∧ Config.scMaySucceed s.scIndex = true)) :
    s.storeConditional rd a v = .next (s.released.setX rd 1#32).advance := by
  rw [← beq_iff_eq, ← Bool.and_eq_true] at hr
  simp only [State.storeConditional, h, if_neg hr]
  rfl

/-- A register written after a store leaves what the store wrote. -/
theorem storesBytes_setX {t : State} {n v : Nat} {b : Nat} (h : StoresBytes s t b n v) (rd : Reg) (w : Word) :
    StoresBytes s (t.setX rd w) b n v := by
  simpa [StoresBytes] using h

/-- Settles O45: by the shared operations; for `sc.w` in the two cases of the reservation and the input. -/
theorem loadReservedAndStoreConditionalComplete : Obligations.LoadReservedAndStoreConditionalComplete := by
  rintro s rd rs2 rs1 aq rl a block hA rfl ha hmem hm hblock
  rw [← granule_eq] at hblock
  subst hblock
  have hcause : ∀ c, accessCause c (s.getX rs1) 4 = none := fun c => accessCause_of_width (by decide) ha hmem
  refine ⟨⟨_, (whenPresent_true hA).trans (loadReserved_ok (hcause _)), writesX_setX _ rd _, by simp, by simp, ?_, ?_,
    ?_⟩, ?_⟩
  · exact ⟨fun r => by simp [State.getF], by simp⟩
  · exact ⟨fun b => by simp [State.byteAt], by simp⟩
  · exact ⟨by simp, by simp, by simp⟩
  · by_cases hr : s.reservation = some (granule s.cfg (s.getX rs1)) ∧ Config.scMaySucceed s.scIndex = true
    · refine ⟨_, (whenPresent_true hA).trans (storeConditional_stores (hcause _) hr), ?_, by simp, by simp,
        ⟨fun r => by simp [State.getF], by simp⟩, by simp, by simp, by simp⟩
      rw [if_pos hr]
      have hstore := State.store_storesBytes s.released (s.getX rs1) 4 (s.getX rs2) ((Memory.wf_iff _).1 hm).1
      exact ⟨writesX_setX _ rd 0#32, storesBytes_advance (storesBytes_setX hstore rd 0#32)⟩
    · refine ⟨_, (whenPresent_true hA).trans (storeConditional_fails (hcause _) hr), ?_, by simp, by simp,
        ⟨fun r => by simp [State.getF], by simp⟩, by simp, by simp, by simp⟩
      rw [if_neg hr]
      exact ⟨writesX_setX _ rd 1#32, fun b => by simp [State.byteAt], by simp⟩

theorem completesWithAtomic_of_present {rd rs1 : Reg} {op : Word → Word} {new : Word} (hA : s.cfg.hasA = true)
    (h : exec i s = whenPresent s.cfg.hasA i s (s.atomicUpdate rd (s.getX rs1) op)) (ha : AlignedTo (s.getX rs1) 4)
    (hmem : InMemory (s.getX rs1)) (hm : Memory.wf s.mem = true) (hv : op (s.wordAt (s.getX rs1).toNat) = new) :
    CompletesWithAtomic i s rd (s.getX rs1) new :=
  hv ▸ completesWithAtomic_of_atomicUpdate (h.trans (whenPresent_true hA))
    (accessCause_of_width (by decide) ha hmem) ((Memory.wf_iff _).1 hm).1

theorem signedMin_eq (v b : Word) : (if b.slt v then b else v) = BitVec.ofInt 32 (min v.toInt b.toInt) := by
  rw [BitVec.slt_eq_decide]
  rcases Int.lt_or_le b.toInt v.toInt with h | h
  · rw [if_pos (decide_eq_true h), min_eq_right h.le, BitVec.ofInt_toInt]
  · rw [if_neg (by simpa using h), min_eq_left h, BitVec.ofInt_toInt]

theorem signedMax_eq (v b : Word) : (if v.slt b then b else v) = BitVec.ofInt 32 (max v.toInt b.toInt) := by
  rw [BitVec.slt_eq_decide]
  rcases Int.lt_or_le v.toInt b.toInt with h | h
  · rw [if_pos (decide_eq_true h), max_eq_right h.le, BitVec.ofInt_toInt]
  · rw [if_neg (by simpa using h), max_eq_left h, BitVec.ofInt_toInt]

theorem unsignedMin_eq (v b : Word) : (if b.ult v then b else v) = BitVec.ofNat 32 (min v.toNat b.toNat) := by
  rw [BitVec.ult_eq_decide]
  rcases Nat.lt_or_ge b.toNat v.toNat with h | h
  · rw [if_pos (decide_eq_true h), min_eq_right h.le, BitVec.ofNat_toNat, BitVec.setWidth_eq]
  · rw [if_neg (by simpa using h), min_eq_left h, BitVec.ofNat_toNat, BitVec.setWidth_eq]

theorem unsignedMax_eq (v b : Word) : (if v.ult b then b else v) = BitVec.ofNat 32 (max v.toNat b.toNat) := by
  rw [BitVec.ult_eq_decide]
  rcases Nat.lt_or_ge v.toNat b.toNat with h | h
  · rw [if_pos (decide_eq_true h), max_eq_right h.le, BitVec.ofNat_toNat, BitVec.setWidth_eq]
  · rw [if_neg (by simpa using h), max_eq_left h, BitVec.ofNat_toNat, BitVec.setWidth_eq]

/-- Settles O46: the shared operation with the combination each rule states. -/
theorem atomicUpdatesComplete : Obligations.AtomicUpdatesComplete := by
  rintro s rd rs2 rs1 aq rl a b v hA rfl rfl rfl ha hmem hm
  have done : ∀ {i : Instr} {op : Word → Word} {new : Word},
      exec i s = whenPresent s.cfg.hasA i s (s.atomicUpdate rd (s.getX rs1) op) →
      op (s.wordAt (s.getX rs1).toNat) = new → CompletesWithAtomic i s rd (s.getX rs1) new :=
    fun h hv => completesWithAtomic_of_present hA h ha hmem hm hv
  exact ⟨done rfl rfl, done rfl (add_eq_ofNat _ _), done rfl rfl, done rfl rfl, done rfl rfl,
    done rfl (signedMin_eq _ _), done rfl (signedMax_eq _ _), done rfl (unsignedMin_eq _ _),
    done rfl (unsignedMax_eq _ _)⟩

/-! ## Control registers -/

theorem fcsr_toNat_div (s : State) : s.frm.toNat = s.fcsr.toNat / 32 := by
  have := s.fcsr.isLt
  rw [State.frm, BitVec.extractLsb'_toNat, Nat.shiftRight_eq_div_pow]
  omega

theorem fcsr_toNat_mod (s : State) : s.fflags.toNat = s.fcsr.toNat % 32 := toNat_extractLsb'_zero ..

/-- A control register reads as its rule says (spec/10_state.md R32). -/
theorem readCsr_eq (s : State) (c : Csr) : s.readCsr c = BitVec.ofNat 32 (csrValue s.fcsr c) := by
  apply BitVec.eq_of_toNat_eq
  cases c with
  | fflags => rw [State.readCsr, BitVec.toNat_setWidth, BitVec.toNat_ofNat, fcsr_toNat_mod, csrValue]
  | frm => rw [State.readCsr, BitVec.toNat_setWidth, BitVec.toNat_ofNat, fcsr_toNat_div, csrValue]
  | fcsr => rw [State.readCsr, BitVec.toNat_setWidth, BitVec.toNat_ofNat, csrValue]

theorem toNat_append_five (u : BitVec 3) (v : BitVec 5) : (u ++ v).toNat = u.toNat * 32 + v.toNat := by
  rw [BitVec.toNat_append, ← Nat.shiftLeft_add_eq_or_of_lt v.isLt, Nat.shiftLeft_eq]

/-- A control register is written as its rule says (spec/10_state.md R32). -/
theorem writeCsr_fcsr (s : State) (c : Csr) (v : Word) :
    (s.writeCsr c v).fcsr = BitVec.ofNat 8 (csrWritten s.fcsr c v) := by
  apply BitVec.eq_of_toNat_eq
  have h3 := (s.frm ++ v.extractLsb' 0 5 : BitVec 8).isLt
  have h5 := (v.extractLsb' 0 3 ++ s.fflags : BitVec 8).isLt
  cases c with
  | fflags =>
    show (s.frm ++ v.extractLsb' 0 5 : BitVec 8).toNat = _
    rw [toNat_append_five, fcsr_toNat_div, toNat_extractLsb'_zero] at h3 ⊢
    exact (Nat.mod_eq_of_lt h3).symm
  | frm =>
    show (v.extractLsb' 0 3 ++ s.fflags : BitVec 8).toNat = _
    rw [toNat_append_five, fcsr_toNat_mod, toNat_extractLsb'_zero] at h5 ⊢
    exact (Nat.mod_eq_of_lt h5).symm
  | fcsr =>
    show (v.extractLsb' 0 8).toNat = v.toNat % 256 % 2 ^ 8
    rw [toNat_extractLsb'_zero]
    exact (Nat.mod_mod _ _).symm

theorem csrAt_of_mem {cfg : Config} {csr : BitVec 12} {c : Csr} (hF : cfg.hasF = true)
    (h : (csr, c) ∈ [(0x001#12, Csr.fflags), (0x002#12, .frm), (0x003#12, .fcsr)]) : csrAt cfg csr = some c := by
  simp only [List.mem_cons, Prod.mk.injEq, List.not_mem_nil, or_false] at h
  unfold csrAt
  rw [if_pos hF]
  rcases h with ⟨rfl, rfl⟩ | ⟨rfl, rfl⟩ | ⟨rfl, rfl⟩ <;> rfl

/-- A CSR instruction on a register the hart has: the old value to `rd`, and what it writes, if it writes. -/
theorem completesWithCsr_of_csrAccess {rd : Reg} {csr : BitVec 12} {writes : Bool} {new : Word → Word} {c : Csr}
    {written : Nat} (h : exec i s = s.csrAccess i rd csr writes new) (hc : csrAt s.cfg csr = some c)
    (hw : written = if writes then csrWritten s.fcsr c (new (s.readCsr c)) else s.fcsr.toNat) :
    CompletesWithCsr i s rd (s.readCsr c) written := by
  subst hw
  have hexec : exec i s = .next
      ((if writes then s.writeCsr c (new (s.readCsr c)) else s).setX rd (s.readCsr c)).advance := by
    rw [h, State.csrAccess, hc]
    simp only [csrReadOnly_eq_false, Bool.and_false, Bool.false_eq_true, if_false]
    rfl
  cases writes with
  | false =>
    exact ⟨_, hexec, writesX_setX s rd _, by simp, fun r => by simp, by simp, ⟨fun b => by simp, by simp⟩, by simp,
      by simp, by simp, by simp⟩
  | true =>
    exact ⟨_, hexec, by simpa [WritesX] using writesX_setX (s.writeCsr c _) rd (s.readCsr c),
      by simpa using writeCsr_fcsr s c _, fun r => by simp, by simp, ⟨fun b => by simp, by simp⟩, by simp, by simp,
      by simp, by simp⟩

theorem exec_csrrw (s : State) (rd : Reg) (csr : BitVec 12) (rs1 : Reg) :
    exec (.csrrw rd csr rs1) s = s.csrAccess (.csrrw rd csr rs1) rd csr true (fun _ => s.getX rs1) := rfl

theorem exec_csrrs (s : State) (rd : Reg) (csr : BitVec 12) (rs1 : Reg) : exec (.csrrs rd csr rs1) s =
    s.csrAccess (.csrrs rd csr rs1) rd csr (rs1 != 0#5) (fun old => old ||| s.getX rs1) := rfl

theorem exec_csrrc (s : State) (rd : Reg) (csr : BitVec 12) (rs1 : Reg) : exec (.csrrc rd csr rs1) s =
    s.csrAccess (.csrrc rd csr rs1) rd csr (rs1 != 0#5) (fun old => old &&& ~~~s.getX rs1) := rfl

theorem exec_csrrwi (s : State) (rd : Reg) (csr : BitVec 12) (uimm : BitVec 5) :
    exec (.csrrwi rd csr uimm) s = s.csrAccess (.csrrwi rd csr uimm) rd csr true (fun _ => csrImmediate uimm) := rfl

theorem exec_csrrsi (s : State) (rd : Reg) (csr : BitVec 12) (uimm : BitVec 5) : exec (.csrrsi rd csr uimm) s =
    s.csrAccess (.csrrsi rd csr uimm) rd csr (uimm != 0#5) (fun old => old ||| csrImmediate uimm) := rfl

theorem exec_csrrci (s : State) (rd : Reg) (csr : BitVec 12) (uimm : BitVec 5) : exec (.csrrci rd csr uimm) s =
    s.csrAccess (.csrrci rd csr uimm) rd csr (uimm != 0#5) (fun old => old &&& ~~~csrImmediate uimm) := rfl

/-- A form that does not write where its operand is 0. -/
theorem written_of_ne_zero (r : BitVec 5) (m n : Nat) :
    (if r = 0#5 then m else n) = if (r != 0#5) = true then n else m := by
  by_cases h : r = 0#5 <;> simp [h]

/-- Settles O39: the shared operation on the register at the address. -/
theorem csrInstructionsComplete : Obligations.CsrInstructionsComplete := by
  rintro s rd rs1 uimm csr c old hF hcsr rfl
  rw [← readCsr_eq]
  have hc := csrAt_of_mem hF hcsr
  have hu : BitVec.ofNat 32 uimm.toNat = csrImmediate uimm := BitVec.eq_of_toNat_eq (by simp [csrImmediate])
  rw [hu]
  exact ⟨completesWithCsr_of_csrAccess (exec_csrrw ..) hc (if_pos rfl).symm,
    completesWithCsr_of_csrAccess (exec_csrrs ..) hc (written_of_ne_zero ..),
    completesWithCsr_of_csrAccess (exec_csrrc ..) hc (written_of_ne_zero ..),
    completesWithCsr_of_csrAccess (exec_csrrwi ..) hc (if_pos rfl).symm,
    completesWithCsr_of_csrAccess (exec_csrrsi ..) hc (written_of_ne_zero ..),
    completesWithCsr_of_csrAccess (exec_csrrci ..) hc (written_of_ne_zero ..)⟩

end Sys2Proof.Machine
end

section
/-! PROOFS. Single operands and rounding modes (spec/45_fd_extension.md R240, R242), and the floating-point
instructions complete with the functions of FP (spec/45_fd_extension.md, spec/48_fd_compare_convert.md): each ends in
one of the shared operations, once its group is present and its mode is one. -/

namespace Sys2Proof.Machine

variable {i : Instr} {s : State}

/-! ## Singles in f registers -/

theorem getF_wrS_same (s : State) (r : Reg) (v : Single) : (s.wrS r v).getF r = boxedSingle s v := by
  rw [State.wrS_eq_setF, State.getF_setF_same]

theorem getF_wrS_other (s : State) (q r : Reg) (v : Single) (h : q ≠ r) : (s.wrS r v).getF q = s.getF q := by
  rw [State.wrS_eq_setF, State.getF_setF_other _ _ _ _ h]

theorem boxedSingle_low (s : State) (v : Single) : (boxedSingle s v).extractLsb' 0 32 = v := by
  have := v.isLt
  apply BitVec.eq_of_toNat_eq
  unfold boxedSingle
  split <;> simp only [BitVec.extractLsb'_toNat, BitVec.toNat_ofNat] <;> omega

theorem boxedSingle_high (s : State) (v : Single) (h : s.cfg.hasD = true) :
    (boxedSingle s v).extractLsb' 32 32 = 0xFFFFFFFF#32 := by
  have := v.isLt
  apply BitVec.eq_of_toNat_eq
  rw [boxedSingle, if_pos h, BitVec.extractLsb'_toNat, BitVec.toNat_ofNat, Nat.shiftRight_eq_div_pow]
  simp only [BitVec.toNat_ofNat]
  omega

/-- A single that was written reads back: it is boxed where the box is checked. -/
theorem rdS_wrS (s : State) (r : Reg) (v : Single) : (s.wrS r v).rdS r = v := by
  rw [State.rdS, getF_wrS_same, boxedSingle_low, State.wrS_cfg]
  split
  next h => rw [if_pos (boxedSingle_high s v h)]
  next => rfl

/-- Settles O10: a written single is held as its boxed pattern. -/
theorem floatRegisterBoxing : Obligations.FloatRegisterBoxing := by
  refine fun s r q v d => ⟨rdS_wrS s r v, ?_, s.getF_setF_same r d, fun h => ?_, rdS_of_not_boxed, rfl, fun h => ?_⟩
  · rw [State.lowF, getF_wrS_same, boxedSingle_low]
  · rw [getF_wrS_same, boxedSingle_high s v h]
  · exact ⟨getF_wrS_other s q r v h, s.getF_setF_other r q d h⟩

/-! ## Rounding modes -/

/-- Settles O60: a static field names its own mode, the dynamic one that of `frm`. -/
theorem roundingModeTable : Obligations.RoundingModeTable := by
  refine fun s => ⟨rfl, rfl, rfl, rfl, rfl, rfl, rfl, fun h => ?_, fun h => ?_⟩
  · rw [State.effectiveRm, State.effectiveRm, if_pos rfl, if_neg h]
  · rw [State.effectiveRm, if_pos rfl, h]
    rfl

/-! ## Instructions that round -/

section

variable {p : Bool} {rm : BitVec 3} {mode : RoundingMode} {rd : Reg} (hp : p = true) (hm : s.effectiveRm rm = some mode)

include hp hm

theorem completesWithF_of_rounding_single {r : RoundingMode → Single × FpFlags}
    (h : exec i s = whenPresent p i s (s.withRm i rm fun mode => s.finishS rd (r mode))) :
    CompletesWithF i s rd (boxedSingle s (r mode).1) (r mode).2 :=
  completesWithF_of_finishS (h.trans ((whenPresent_true hp).trans (withRm_some hm)))

theorem completesWithF_of_rounding_double {r : RoundingMode → Double × FpFlags}
    (h : exec i s = whenPresent p i s (s.withRm i rm fun mode => s.finishD rd (r mode))) :
    CompletesWithF i s rd (r mode).1 (r mode).2 :=
  completesWithF_of_finishD (h.trans ((whenPresent_true hp).trans (withRm_some hm)))

theorem completesWithXFlags_of_rounding {r : RoundingMode → Word × FpFlags}
    (h : exec i s = whenPresent p i s (s.withRm i rm fun mode => s.finishInteger rd (r mode))) :
    CompletesWithXFlags i s rd (r mode).1 (r mode).2 :=
  completesWithXFlags_of_finishInteger (h.trans ((whenPresent_true hp).trans (withRm_some hm)))

end

/-- Settles O49: each is the function of its name on its operands. -/
theorem floatArithmeticCompletes : Obligations.FloatArithmeticCompletes := by
  rintro s rd rs1 rs2 rm mode a b x y hm rfl rfl rfl rfl
  refine ⟨fun hF => ⟨?_, ?_, ?_, ?_, ?_⟩, fun hD => ⟨?_, ?_, ?_, ?_, ?_⟩⟩
  · exact completesWithF_of_rounding_single hF hm (r := fun mode => fpAdd .single mode _ _) rfl
  · exact completesWithF_of_rounding_single hF hm (r := fun mode => fpSub .single mode _ _) rfl
  · exact completesWithF_of_rounding_single hF hm (r := fun mode => fpMul .single mode _ _) rfl
  · exact completesWithF_of_rounding_single hF hm (r := fun mode => fpDiv .single mode _ _) rfl
  · exact completesWithF_of_rounding_single hF hm (r := fun mode => fpSqrt .single mode _) rfl
  · exact completesWithF_of_rounding_double hD hm (r := fun mode => fpAdd .double mode _ _) rfl
  · exact completesWithF_of_rounding_double hD hm (r := fun mode => fpSub .double mode _ _) rfl
  · exact completesWithF_of_rounding_double hD hm (r := fun mode => fpMul .double mode _ _) rfl
  · exact completesWithF_of_rounding_double hD hm (r := fun mode => fpDiv .double mode _ _) rfl
  · exact completesWithF_of_rounding_double hD hm (r := fun mode => fpSqrt .double mode _) rfl

theorem fpNegate_single (v : Single) : fpNegate .single v = v ^^^ 0x80000000#32 := rfl

theorem fpNegate_double (v : Double) : fpNegate .double v = v ^^^ 0x8000000000000000#64 := rfl

/-- Settles O50: a negated operand is the operand with its sign bit flipped, before the one rounding. -/
theorem fusedMultiplyAddCompletes : Obligations.FusedMultiplyAddCompletes := by
  rintro s rd rs1 rs2 rs3 rm mode a b c x y z hm rfl rfl rfl rfl rfl rfl
  simp only [← fpNegate_single, ← fpNegate_double, forall_eq]
  refine ⟨fun hF => ⟨?_, ?_, ?_, ?_⟩, fun hD => ⟨?_, ?_, ?_, ?_⟩⟩
  · exact completesWithF_of_rounding_single hF hm (r := fun mode => fpFma .single mode _ _ _) rfl
  · exact completesWithF_of_rounding_single hF hm (r := fun mode => fpFma .single mode _ _ _) rfl
  · exact completesWithF_of_rounding_single hF hm (r := fun mode => fpFma .single mode _ _ _) rfl
  · exact completesWithF_of_rounding_single hF hm (r := fun mode => fpFma .single mode _ _ _) rfl
  · exact completesWithF_of_rounding_double hD hm (r := fun mode => fpFma .double mode _ _ _) rfl
  · exact completesWithF_of_rounding_double hD hm (r := fun mode => fpFma .double mode _ _ _) rfl
  · exact completesWithF_of_rounding_double hD hm (r := fun mode => fpFma .double mode _ _ _) rfl
  · exact completesWithF_of_rounding_double hD hm (r := fun mode => fpFma .double mode _ _ _) rfl

/-- Settles O53: each is the conversion of its name; the exact ones have the mode checked and not used. -/
theorem conversionsComplete : Obligations.ConversionsComplete := by
  rintro s rd rs1 rm mode a x v hm rfl rfl rfl
  simp only [forall_eq]
  refine ⟨fun hF => ⟨?_, ?_, ?_, ?_⟩, fun hD => ⟨?_, ?_, ?_, ?_, ?_, ?_⟩⟩
  · exact completesWithF_of_rounding_single hF hm (r := fun mode => fpOfInt .single mode _) rfl
  · exact completesWithF_of_rounding_single hF hm (r := fun mode => fpOfInt .single mode _) rfl
  · exact completesWithXFlags_of_rounding hF hm (r := fun mode => fpToWord .single mode _) rfl
  · exact completesWithXFlags_of_rounding hF hm (r := fun mode => fpToWordUnsigned .single mode _) rfl
  · exact completesWithF_of_rounding_double hD hm (r := fun _ => fpConvert .single .double .rne _) rfl
  · exact completesWithF_of_rounding_single hD hm (r := fun mode => fpConvert .double .single mode _) rfl
  · exact completesWithF_of_rounding_double hD hm (r := fun _ => fpOfInt .double .rne _) rfl
  · exact completesWithF_of_rounding_double hD hm (r := fun _ => fpOfInt .double .rne _) rfl
  · exact completesWithXFlags_of_rounding hD hm (r := fun mode => fpToWord .double mode _) rfl
  · exact completesWithXFlags_of_rounding hD hm (r := fun mode => fpToWordUnsigned .double mode _) rfl

/-! ## Sign injection and moves -/

section

variable {w : Nat} {sign rest : BitVec (1 + w)} (hs : ∀ k, k < 1 + w → sign.getLsbD k = decide (k = w))

include hs

/-- A sign bit above the other bits of a pattern, by masks. -/
theorem append_sign (hr : ∀ k, k < 1 + w → rest.getLsbD k = decide (k < w)) (c : BitVec 1) (x y : BitVec (1 + w))
    (hc : c.getLsbD 0 = y.getLsbD w) : c ++ x.extractLsb' 0 w = (y &&& sign) ||| (x &&& rest) := by
  apply BitVec.eq_of_getLsbD_eq
  intro k hk
  rw [BitVec.getLsbD_append, BitVec.getLsbD_or, BitVec.getLsbD_and, BitVec.getLsbD_and, hs k hk, hr k hk]
  by_cases h : k < w
  · simp [h, h.ne]
  · obtain rfl : k = w := by omega
    simpa using hc

/-- The exclusive or of a sign bit above the other bits of a pattern, by a mask. -/
theorem append_xor_sign (c : BitVec 1) (x y : BitVec (1 + w)) (hc : c.getLsbD 0 = (x.getLsbD w ^^ y.getLsbD w)) :
    c ++ x.extractLsb' 0 w = x ^^^ (y &&& sign) := by
  apply BitVec.eq_of_getLsbD_eq
  intro k hk
  rw [BitVec.getLsbD_append, BitVec.getLsbD_xor, BitVec.getLsbD_and, hs k hk]
  by_cases h : k < w
  · simp [h, h.ne]
  · obtain rfl : k = w := by omega
    simpa using hc

end

theorem completesWithF_of_wrS {p : Bool} {rd : Reg} {v v' : Single} (hp : p = true)
    (h : exec i s = whenPresent p i s (.next (s.wrS rd v).advance)) (hv : v = v') :
    CompletesWithF i s rd (boxedSingle s v') flagNone :=
  completesWithF_of_finishS (r := (v', flagNone))
    (h.trans ((whenPresent_true hp).trans (hv ▸ next_wrS_eq_finishS s rd v)))

theorem completesWithF_of_wrD {p : Bool} {rd : Reg} {v v' : Double} (hp : p = true)
    (h : exec i s = whenPresent p i s (.next (s.wrD rd v).advance)) (hv : v = v') :
    CompletesWithF i s rd v' flagNone :=
  completesWithF_of_finishD (r := (v', flagNone))
    (h.trans ((whenPresent_true hp).trans (hv ▸ next_wrD_eq_finishD s rd v)))

theorem extractLsb'_zero_eq_ofNat (x : Double) : x.extractLsb' 0 32 = BitVec.ofNat 32 x.toNat := by
  rw [BitVec.extractLsb', Nat.shiftRight_zero]

/-- Settles O48: each writes a sign bit above the other bits of the first operand, or 32 bits as they are. -/
theorem signInjectionAndMovesComplete : Obligations.SignInjectionAndMovesComplete := by
  rintro s rd rs1 rs2 a b x y rfl rfl rfl rfl
  have sign32 : ∀ k, k < 1 + 31 → (0x80000000#32).getLsbD k = decide (k = 31) := by decide
  have rest32 : ∀ k, k < 1 + 31 → (0x7FFFFFFF#32).getLsbD k = decide (k < 31) := by decide
  have sign64 : ∀ k, k < 1 + 63 → (0x8000000000000000#64).getLsbD k = decide (k = 63) := by decide
  have rest64 : ∀ k, k < 1 + 63 → (0x7FFFFFFFFFFFFFFF#64).getLsbD k = decide (k < 63) := by decide
  refine ⟨fun hF => ⟨?_, ?_, ?_, ?_, ?_⟩, fun hD => ⟨?_, ?_, ?_⟩⟩
  · exact completesWithF_of_wrS hF rfl (append_sign sign32 rest32 _ _ _ (by simp))
  · exact completesWithF_of_wrS hF rfl (append_sign sign32 rest32 _ _ _ (by simp))
  · exact completesWithF_of_wrS hF rfl (append_xor_sign sign32 _ _ _ (by simp))
  · exact completesWithF_of_wrS hF rfl rfl
  · exact completesWithX_of_eq (whenPresent_true hF) (extractLsb'_zero_eq_ofNat _)
  · exact completesWithF_of_wrD hD rfl (append_sign sign64 rest64 _ _ _ (by simp [State.rdD]))
  · exact completesWithF_of_wrD hD rfl (append_sign sign64 rest64 _ _ _ (by simp [State.rdD]))
  · exact completesWithF_of_wrD hD rfl (append_xor_sign sign64 _ _ _ (by simp [State.rdD]))

end Sys2Proof.Machine
end

section
/-! PROOFS. Minimum, maximum and the comparisons (spec/45_fd_extension.md R278 to R281;
spec/48_fd_compare_convert.md R282 to R287): the instructions complete with the functions of FP, and the functions
compare the numbers of their operands. -/

namespace Sys2Proof.Machine

variable {fmt : FloatFormat} {a b : BitVec fmt.width} {x y : EReal}

/-! ## Operands with numbers -/

section

variable (hx : HasNumber (unpack fmt a) x) (hy : HasNumber (unpack fmt b) y)

include hx hy

theorem fpLt_iff : (fpLt fmt a b).1 = true ↔ x < y := by
  simp only [fpLt, hasNumber_not_nan hx, hasNumber_not_nan hy, Bool.not_false, Bool.true_and, valueLess_iff hx hy]

theorem fpLe_iff : (fpLe fmt a b).1 = true ↔ x ≤ y := by
  simp only [fpLe, hasNumber_not_nan hx, hasNumber_not_nan hy, Bool.not_false, Bool.true_and, Bool.not_eq_true',
    ← Bool.not_eq_true, valueLess_iff hy hx, not_lt]

theorem fpEq_iff : (fpEq fmt a b).1 = true ↔ x = y := by
  simp only [fpEq, hasNumber_not_nan hx, hasNumber_not_nan hy, Bool.not_false, Bool.true_and, Bool.and_eq_true,
    Bool.not_eq_true', ← Bool.not_eq_true, valueLess_iff hx hy, valueLess_iff hy hx, not_lt]
  exact ⟨fun h => le_antisymm h.2 h.1, fun h => ⟨h.ge, h.le⟩⟩

theorem fpMin_of_numbers : (fpMin fmt a b).1 = if precedes (unpack fmt a) (unpack fmt b) then a else b := by
  simp only [fpMin, hasNumber_not_nan hx, hasNumber_not_nan hy, Bool.false_eq_true, if_false]

theorem fpMax_of_numbers : (fpMax fmt a b).1 = if precedes (unpack fmt a) (unpack fmt b) then b else a := by
  simp only [fpMax, hasNumber_not_nan hx, hasNumber_not_nan hy, Bool.false_eq_true, if_false]

theorem precedes_of_lt (h : x < y) : precedes (unpack fmt a) (unpack fmt b) = true := by
  rw [precedes, (valueLess_iff hx hy).2 h, Bool.true_or]

/-- A greater operand does not come first: two zeros are equal. -/
theorem precedes_of_gt (h : y < x) : precedes (unpack fmt a) (unpack fmt b) = false := by
  rw [precedes, Bool.eq_false_iff.2 fun hl => h.not_gt ((valueLess_iff hx hy).1 hl), Bool.false_or]
  refine Bool.eq_false_iff.2 fun hz => ?_
  obtain ⟨hz, -⟩ := Bool.and_eq_true_iff.1 hz
  obtain ⟨ha, hb⟩ := Bool.and_eq_true_iff.1 hz
  exact h.ne ((hasNumber_of_isZero hy hb).trans (hasNumber_of_isZero hx ha).symm)

/-- Operands with one number are one pattern, or the two zeros, of which the negative one comes first. -/
theorem eq_or_precedes_of_eq (h : x = y) : a = b ∨ precedes (unpack fmt a) (unpack fmt b) = a.msb := by
  subst h
  by_cases hs : isNegative (unpack fmt a) = isNegative (unpack fmt b)
  · exact .inl (pattern_inj hx hy hs)
  · obtain ⟨ha, hb⟩ := isZero_of_signs hx hy hs
    refine .inr ?_
    rw [precedes, ha, hb, Bool.eq_false_iff.2 fun hl => lt_irrefl x ((valueLess_iff hx hy).1 hl), msb_eq,
      isNegative_unpack (hasNumber_not_nan hx)]
    rfl

theorem minMax_of_eq (h : x = y) :
    (fpMin fmt a b).1 = (if a.msb then a else b) ∧ (fpMax fmt a b).1 = (if a.msb then b else a) := by
  rw [fpMin_of_numbers hx hy, fpMax_of_numbers hx hy]
  rcases eq_or_precedes_of_eq hx hy h with rfl | hp
  · simp only [ite_self, and_self]
  · rw [hp]
    exact ⟨rfl, rfl⟩

theorem comparisons_of_numbers :
    ((fpEq fmt a b).1 = true ↔ x = y) ∧ ((fpLt fmt a b).1 = true ↔ x < y) ∧ ((fpLe fmt a b).1 = true ↔ x ≤ y) ∧
      (x < y → (fpMin fmt a b).1 = a ∧ (fpMax fmt a b).1 = b) ∧
      (y < x → (fpMin fmt a b).1 = b ∧ (fpMax fmt a b).1 = a) ∧
      (x = y → (fpMin fmt a b).1 = (if a.msb then a else b) ∧ (fpMax fmt a b).1 = (if a.msb then b else a)) := by
  refine ⟨fpEq_iff hx hy, fpLt_iff hx hy, fpLe_iff hx hy, fun h => ?_, fun h => ?_, minMax_of_eq hx hy⟩
  · rw [fpMin_of_numbers hx hy, fpMax_of_numbers hx hy, precedes_of_lt hx hy h]
    exact ⟨rfl, rfl⟩
  · rw [fpMin_of_numbers hx hy, fpMax_of_numbers hx hy, precedes_of_gt hx hy h]
    exact ⟨rfl, rfl⟩

end

/-! ## NaN operands, and flags -/

theorem comparisons_of_nan (h : AnyNaN fmt a ∨ AnyNaN fmt b) :
    (fpEq fmt a b).1 = false ∧ (fpLt fmt a b).1 = false ∧ (fpLe fmt a b).1 = false := by
  rw [← isNaN_iff, ← isNaN_iff] at h
  rcases h with h | h <;> simp [fpEq, fpLt, fpLe, h]

theorem minMax_of_nan (h : AnyNaN fmt a ∨ AnyNaN fmt b) :
    (fpMin fmt a b).1 = (if AnyNaN fmt a then if AnyNaN fmt b then canonicalNaN fmt else b else a) ∧
      (fpMax fmt a b).1 = (if AnyNaN fmt a then if AnyNaN fmt b then canonicalNaN fmt else b else a) := by
  simp only [← isNaN_iff] at h ⊢
  by_cases ha : isNaN (unpack fmt a) = true
  · simp only [fpMin, fpMax, ha, if_true, and_self]
  · simp only [fpMin, fpMax, h.resolve_left ha, if_neg ha, if_true, and_self]

theorem flagIf_eq {c : Bool} {p : Prop} [Decidable p] (h : c = true ↔ p) (fl : FpFlags) :
    flagIf c fl = if p then fl else flagNone := by
  unfold flagIf
  simp only [h]

theorem quietFlags_eq : quietFlags (unpack fmt a) (unpack fmt b) =
    if SignalingNaN fmt a ∨ SignalingNaN fmt b then flagNV else flagNone :=
  flagIf_eq (by rw [Bool.or_eq_true, isSignaling_iff, isSignaling_iff]) flagNV

theorem signalingFlags_eq : signalingFlags (unpack fmt a) (unpack fmt b) =
    if AnyNaN fmt a ∨ AnyNaN fmt b then flagNV else flagNone :=
  flagIf_eq (by rw [Bool.or_eq_true, isNaN_iff, isNaN_iff]) flagNV

/-! ## The instructions -/

theorem completesWithXFlags_of_finishTruth {i : Instr} {s : State} {p : Bool} {rd : Reg} {r : Bool × FpFlags}
    (hp : p = true) (h : exec i s = whenPresent p i s (s.finishTruth rd r)) :
    CompletesWithXFlags i s rd (if r.1 then 1#32 else 0#32) r.2 :=
  completesWithXFlags_of_finishInteger (r := (truthWord r.1, r.2)) (h.trans (whenPresent_true hp))

/-- Settles O51: the instructions by the shared operations, the functions by the order of the numbers. -/
theorem minMaxAndComparisonsComplete : Obligations.MinMaxAndComparisonsComplete := by
  refine ⟨?_, fun fmt a b _ => ⟨fun x y hx hy => comparisons_of_numbers hx hy, fun h => ?_, fun fl hfl => ?_,
    fun fl hfl => ?_⟩⟩
  · rintro s rd rs1 rs2 a b x y rfl rfl rfl rfl
    refine ⟨fun hF => ⟨?_, ?_, ?_, ?_, ?_⟩, fun hD => ⟨?_, ?_, ?_, ?_, ?_⟩⟩
    · exact completesWithF_of_finishS (whenPresent_true hF)
    · exact completesWithF_of_finishS (whenPresent_true hF)
    · exact completesWithXFlags_of_finishTruth hF rfl
    · exact completesWithXFlags_of_finishTruth hF rfl
    · exact completesWithXFlags_of_finishTruth hF rfl
    · exact completesWithF_of_finishD (whenPresent_true hD)
    · exact completesWithF_of_finishD (whenPresent_true hD)
    · exact completesWithXFlags_of_finishTruth hD rfl
    · exact completesWithXFlags_of_finishTruth hD rfl
    · exact completesWithXFlags_of_finishTruth hD rfl
  · obtain ⟨heq, hlt, hle⟩ := comparisons_of_nan h
    exact ⟨heq, hlt, hle, minMax_of_nan h⟩
  · simp only [List.mem_cons, List.not_mem_nil, or_false] at hfl
    rcases hfl with rfl | rfl | rfl <;> exact quietFlags_eq
  · simp only [List.mem_cons, List.not_mem_nil, or_false] at hfl
    rcases hfl with rfl | rfl <;> exact signalingFlags_eq

end Sys2Proof.Machine
end

section
/-! PROOFS. The words printed in the rules, and the pseudo-instructions (spec/47_pseudo_instructions.md): an expansion
of one instruction delivers what that instruction writes, one of two instructions what the second makes of the upper
part the first has written. -/

namespace Sys2Proof.Machine

/-- Settles O3: each word is the encoding of the instruction, which decodes to itself. -/
theorem decodesWordsOfTheSpec : Obligations.DecodesWordsOfTheSpec :=
  ⟨rfl, rfl, rfl, rfl, rfl, rfl, rfl, rfl, rfl, rfl, rfl, rfl, rfl, rfl, rfl, rfl, rfl, rfl, rfl, rfl, rfl, rfl, rfl⟩

variable {i j : Instr} {s : State} {rd : Reg} {v : Word}

/-! ## Lists of instructions -/

/-- Executing the instructions delivers `v` in `rd`, advances past them, and changes nothing else. -/
def DeliversX (is : List Instr) (s : State) (rd : Reg) (v : Word) : Prop :=
  ∃ t, execList is s = .next t ∧ WritesX s t rd v ∧ t.pc = s.pc + BitVec.ofNat 32 (4 * is.length) ∧
    KeepsFloat s t ∧ KeepsMemory s t ∧ t.reservation = s.reservation ∧ KeepsModelFields s t

theorem execList_cons {is : List Instr} {t : State} (h : exec i s = .next t) (ht : t.trap = none) :
    execList (i :: is) s = execList is t := by
  simp only [execList, h, ht, if_true]

theorem deliversX_singleton (hs : s.trap = none) (h : CompletesWithX i s rd v) : DeliversX [i] s rd v := by
  obtain ⟨t, he, hw, hpc, hf, hm, hr, hk⟩ := h
  exact ⟨t, execList_cons he (hk.2.2.trans hs), hw, hpc, hf, hm, hr, hk⟩

/-- Two instructions with one destination: the second may use what the first has written there, unless it is x0. -/
theorem deliversX_pair {u : Word} (hs : s.trap = none) (hi : CompletesWithX i s rd u)
    (hj : ∀ t, ∃ w, CompletesWithX j t rd w ∧ (rd ≠ 0#5 → t.getX rd = u → w = v)) : DeliversX [i, j] s rd v := by
  obtain ⟨t, he, ⟨hw, -, hwo⟩, hpc, ⟨hf, hfc⟩, ⟨hm, hd⟩, hr, hcfg, hsc, htr⟩ := hi
  obtain ⟨w, ⟨t', he', ⟨hw', hw0, hwo'⟩, hpc', ⟨hf', hfc'⟩, ⟨hm', hd'⟩, hr', hcfg', hsc', htr'⟩, hv⟩ := hj t
  refine ⟨t', ?_, ⟨fun hrd => (hw' hrd).trans (hv hrd (hw hrd)), hw0, fun r h => (hwo' r h).trans (hwo r h)⟩, ?_,
    ⟨fun r => (hf' r).trans (hf r), hfc'.trans hfc⟩, ⟨fun b => (hm' b).trans (hm b), hd'.trans hd⟩, hr'.trans hr,
    hcfg'.trans hcfg, hsc'.trans hsc, htr'.trans htr⟩
  · rw [execList_cons he (htr.trans hs), execList_cons he' (htr'.trans (htr.trans hs))]
    rfl
  · rw [hpc', hpc, BitVec.add_assoc]
    rfl

/-- `addi rd, rd, imm` after an instruction that wrote `u` to `rd`. -/
theorem deliversX_then_addi {u : Word} {imm : BitVec 12} (hs : s.trap = none) (hi : CompletesWithX i s rd u)
    (hv : u + immediate imm = v) : DeliversX [i, .addi rd rd imm] s rd v :=
  deliversX_pair hs hi fun t =>
    ⟨t.getX rd + immediate imm, completesWithX_of_finishX rfl, fun _ hu => by rw [hu, hv]⟩

/-! ## The two parts of a constant -/

theorem immediate_toNat_mod (a : BitVec 12) : (immediate a).toNat % 4096 = a.toNat := by
  have := a.isLt
  rw [immediate, BitVec.toNat_signExtend, BitVec.toNat_setWidth]
  split <;> omega

/-- What is left for the upper immediate is a multiple of 2^12 (spec/47_pseudo_instructions.md R378). -/
theorem upperImmediate_highPart (v : Word) : upperImmediate (highPart v) = v - immediate (lowPart v) := by
  have hlow : (v - immediate (lowPart v)).toNat % 4096 = 0 := by
    have := v.isLt
    have hi := immediate_toNat_mod (lowPart v)
    have hv : (lowPart v).toNat = v.toNat % 4096 := toNat_extractLsb'_zero v 12
    rw [BitVec.toNat_sub]
    omega
  rw [upperImmediate_eq_ofNat]
  apply BitVec.eq_of_toNat_eq
  have := (v - immediate (lowPart v)).isLt
  rw [BitVec.toNat_ofNat, highPart, BitVec.extractLsb'_toNat, Nat.shiftRight_eq_div_pow]
  omega

/-- The two parts of a constant make it up again. -/
theorem upperImmediate_add_immediate (v : Word) : upperImmediate (highPart v) + immediate (lowPart v) = v := by
  rw [upperImmediate_highPart, BitVec.sub_add_cancel]

/-! ## The pseudo-instructions -/

theorem deliversX_li (hs : s.trap = none) (rd : Reg) (v : Word) : DeliversX (expandPseudo s.pc (.li rd v)) s rd v := by
  rw [expandPseudo]
  split
  next h => exact deliversX_singleton hs (completesWithX_of_eq rfl (by rw [State.getX_zero, h, BitVec.zero_add]))
  next =>
    split
    next h =>
      refine deliversX_singleton hs (completesWithX_of_eq rfl ?_)
      have hv := upperImmediate_add_immediate v
      rwa [h, show immediate 0#12 = 0#32 from rfl, BitVec.add_zero] at hv
    next => exact deliversX_then_addi hs (completesWithX_of_finishX rfl) (upperImmediate_add_immediate v)

theorem deliversX_la (hs : s.trap = none) (rd : Reg) (v : Word) : DeliversX (expandPseudo s.pc (.la rd v)) s rd v := by
  refine deliversX_then_addi hs (completesWithX_of_finishX rfl) ?_
  rw [BitVec.add_assoc, upperImmediate_add_immediate, BitVec.add_comm, BitVec.sub_add_cancel]

theorem sltiu_one (a : Word) : truthWord (a.ult (immediate 1#12)) = if a = 0#32 then 1#32 else 0#32 := by
  rw [BitVec.ult_eq_decide, truthWord_decide]
  refine if_congr ?_ rfl rfl
  rw [show (immediate 1#12).toNat = 1 from rfl, Nat.lt_one_iff]
  exact ⟨fun h => BitVec.eq_of_toNat_eq h, fun h => congrArg BitVec.toNat h⟩

theorem sltu_zero (a : Word) : truthWord ((0#32).ult a) = if a = 0#32 then 0#32 else 1#32 := by
  rw [BitVec.ult_eq_decide, truthWord_decide, ← ite_not]
  refine if_congr ?_ rfl rfl
  rw [BitVec.toNat_zero, Nat.not_lt, Nat.le_zero]
  exact ⟨fun h => BitVec.eq_of_toNat_eq h, fun h => congrArg BitVec.toNat h⟩

/-- Settles O59: `li` and `la` by the two parts of the constant, the others by the one instruction they are. -/
theorem pseudoInstructionsDeliver : Obligations.PseudoInstructionsDeliver := by
  intro s rd rs v p result hs hp
  simp only [List.mem_cons, Prod.mk.injEq, List.not_mem_nil, or_false] at hp
  rcases hp with ⟨rfl, rfl⟩ | ⟨rfl, rfl⟩ | ⟨rfl, rfl⟩ | ⟨rfl, rfl⟩ | ⟨rfl, rfl⟩ | ⟨rfl, rfl⟩ | ⟨rfl, rfl⟩
  · exact deliversX_li hs rd result
  · exact deliversX_la hs rd result
  · exact deliversX_singleton hs (completesWithX_of_eq rfl (by rw [show immediate 0#12 = 0#32 from rfl, BitVec.add_zero]))
  · exact deliversX_singleton hs (completesWithX_of_eq rfl (by rw [State.getX_zero]))
  · exact deliversX_singleton hs (completesWithX_of_eq rfl
      (by rw [show immediate 0xFFF#12 = BitVec.allOnes 32 from rfl, BitVec.xor_allOnes]))
  · exact deliversX_singleton hs (completesWithX_of_eq rfl (sltiu_one _))
  · exact deliversX_singleton hs (completesWithX_of_eq rfl (by rw [State.getX_zero]; exact sltu_zero _))

end Sys2Proof.Machine
end

section
/-! PROOFS. Rounding and the arithmetic functions on finite operands (spec/45_fd_extension.md R241 to R243, R245, R247,
R254 to R271): each function hands `roundAndPack` something that stands for its exact result. -/

namespace Sys2Proof.Machine

variable {fmt : FloatFormat} {a b c : BitVec fmt.width} {na nb nc : Bool} {ma mb mc : Nat} {ea eb ec : Int}

/-! ## The fields of a pattern -/

/-- A significand in units of the last place is its fraction in units of the power of two the exponent field names. -/
theorem mul_two_zpow_floatMinExp (fmt : FloatFormat) (x : ℚ) (t : Int) :
    x * 2 ^ (floatMinExp fmt + t) = x / 2 ^ fmt.fracBits * 2 ^ (1 - (floatBias fmt : Int) + t) := by
  rw [show floatMinExp fmt + t = 1 - (floatBias fmt : Int) + t - (fmt.fracBits : Nat) by rw [floatMinExp]; ring,
    zpow_sub₀ two_ne_zero, zpow_natCast]
  ring

theorem rationalOf_subnormal (neg : Bool) (F : Nat) :
    rationalOf neg F (floatMinExp fmt) =
      (if neg then -1 else 1) * ((F : ℚ) / 2 ^ fmt.fracBits * 2 ^ (1 - (floatBias fmt : Int))) := by
  have h := mul_two_zpow_floatMinExp fmt F 0
  rw [add_zero, add_zero] at h
  rw [rationalOf, mul_assoc, h]

theorem rationalOf_normal (neg : Bool) (E F : Nat) :
    rationalOf neg (2 ^ fmt.fracBits + F) (floatMinExp fmt + (E : Int) - 1) =
      (if neg then -1 else 1) * ((1 + (F : ℚ) / 2 ^ fmt.fracBits) * 2 ^ ((E : Int) - floatBias fmt)) := by
  have hfrac : ((2 ^ fmt.fracBits + F : Nat) : ℚ) / 2 ^ fmt.fracBits = 1 + (F : ℚ) / 2 ^ fmt.fracBits := by
    push_cast
    rw [add_div, div_self (by positivity)]
  rw [rationalOf, mul_assoc, add_sub_assoc, mul_two_zpow_floatMinExp, hfrac,
    show 1 - (floatBias fmt : Int) + ((E : Int) - 1) = E - floatBias fmt by ring]

/-- The number of a pattern is that of its fields (spec/45_fd_extension.md R241). -/
theorem standsFor_unpack (hf : 1 ≤ fmt.fracBits) {bias : Nat} (hbias : floatBias fmt = bias) (p : BitVec fmt.width) :
    StandsFor fmt bias p (unpack fmt p) := by
  subst hbias
  unfold unpack
  split
  next hexp =>
    split
    next hfrac => exact ⟨hexp, hfrac, rfl⟩
    next hfrac => exact ⟨hexp, hfrac, by simp only [quietBit_eq hf, ← decide_not, not_le]⟩
  next hexp =>
    split
    next hzero => exact ⟨hexp, rfl, (rationalOf_subnormal _ _).trans (congrArg _ (if_pos hzero).symm)⟩
    next hzero => exact ⟨hexp, rfl, (rationalOf_normal _ _ _).trans (congrArg _ (if_neg hzero).symm)⟩

/-! ## Negation -/

theorem unpack_fpNegate_infinity (hb : unpack fmt b = .infinity nb) : unpack fmt (fpNegate fmt b) = .infinity !nb := by
  rw [unpack_fpNegate, hb]

theorem unpack_fpNegate_finite (hb : unpack fmt b = .finite nb mb eb) :
    unpack fmt (fpNegate fmt b) = .finite (!nb) mb eb := by
  rw [unpack_fpNegate, hb]

theorem rationalOf_not (neg : Bool) (m : Nat) (e : Int) :
    ((rationalOf (!neg) m e : ℚ) : ℝ) = -(rationalOf neg m e : ℚ) := by
  cases neg <;> simp [rationalOf_cast]

/-! ## The functions on finite operands -/

section

variable (mode : RoundingMode) (ha : unpack fmt a = .finite na ma ea)

include ha

theorem fpMul_finite (hb : unpack fmt b = .finite nb mb eb) :
    fpMul fmt mode a b = roundAndPack fmt mode (na != nb) (ma * mb) (ea + eb) := by
  simp only [fpMul, ha, hb, isNaN, multiplyExact, Bool.or_self, Bool.false_eq_true, if_false]

theorem fpFma_finite (hb : unpack fmt b = .finite nb mb eb) :
    fpFma fmt mode a b c = addValues fmt mode (.finite (na != nb) (ma * mb) (ea + eb)) (unpack fmt c) := by
  simp only [fpFma, ha, hb, isNaN, multiplyExact, Bool.or_self, Bool.false_eq_true, if_false]

theorem fpDiv_finite (hb : unpack fmt b = .finite nb mb eb) (hmb : mb ≠ 0) :
    fpDiv fmt mode a b = roundAndPack fmt mode (na != nb)
      (2 * (ma * 2 ^ (fmt.fracBits + 4 + Nat.log2 mb) / mb) +
        if ma * 2 ^ (fmt.fracBits + 4 + Nat.log2 mb) % mb = 0 then 0 else 1)
      (ea - eb - ((fmt.fracBits + 4 + Nat.log2 mb : Nat) : Int) - 1) := by
  simp only [fpDiv, ha, hb, if_neg hmb]

theorem fpDiv_by_zero (hb : unpack fmt b = .finite nb 0 eb) :
    fpDiv fmt mode a b = if ma = 0 then invalidResult fmt else (packInfinity fmt (na != nb), flagDZ) := by
  simp only [fpDiv, ha, hb, if_true]

theorem fpSqrt_finite : fpSqrt fmt mode a =
    if ma = 0 then (packZero fmt na, flagNone) else if na then invalidResult fmt else
      let scale := 2 * (fmt.fracBits + 4) + (ea % 2).toNat
      let radicand := ma * 2 ^ scale
      let root := integerSqrt ((Nat.log2 ma + scale) / 2 + 1) radicand
      roundAndPack fmt mode false (2 * root + if root * root = radicand then 0 else 1)
        ((ea - (scale : Int)) / 2 - 1) := by
  simp only [fpSqrt, ha]

end

/-! ## What they deliver -/

section

variable (he : 2 ≤ fmt.expBits) (hf : 1 ≤ fmt.fracBits) (mode : RoundingMode) (ha : unpack fmt a = .finite na ma ea)

include he hf ha

theorem fpAdd_deliversRounded (hb : unpack fmt b = .finite nb mb eb) :
    DeliversRounded fmt mode (zeroSumSign mode na nb) (rationalOf na ma ea + rationalOf nb mb eb : ℝ)
      (fpAdd fmt mode a b) := by
  rw [fpAdd, ha, hb]
  exact addValues_finite he hf mode na nb ma mb ea eb

theorem fpSub_deliversRounded (hb : unpack fmt b = .finite nb mb eb) :
    DeliversRounded fmt mode (zeroSumSign mode na !nb) (rationalOf na ma ea - rationalOf nb mb eb : ℝ)
      (fpSub fmt mode a b) := by
  rw [sub_eq_add_neg, ← rationalOf_not]
  exact fpAdd_deliversRounded he hf mode ha (unpack_fpNegate_finite hb)

theorem fpMul_deliversRounded (hb : unpack fmt b = .finite nb mb eb) :
    DeliversRounded fmt mode (na != nb) (rationalOf na ma ea * rationalOf nb mb eb : ℝ) (fpMul fmt mode a b) := by
  rw [fpMul_finite mode ha hb, rationalOf_mul]
  exact roundAndPack_exact he hf mode _ _ _

theorem fpFma_deliversRounded (hb : unpack fmt b = .finite nb mb eb) (hc : unpack fmt c = .finite nc mc ec) :
    DeliversRounded fmt mode (zeroSumSign mode (na != nb) nc)
      (rationalOf na ma ea * rationalOf nb mb eb + rationalOf nc mc ec : ℝ) (fpFma fmt mode a b c) := by
  rw [fpFma_finite mode ha hb, hc, rationalOf_mul]
  exact addValues_finite he hf mode _ nc _ mc _ ec

/-- A quotient is 0, or stands for the exact one in the rounding. -/
theorem fpDiv_deliversRounded (hb : unpack fmt b = .finite nb mb eb) (hmb : mb ≠ 0) :
    DeliversRounded fmt mode (na != nb) (rationalOf na ma ea / rationalOf nb mb eb : ℝ) (fpDiv fmt mode a b) := by
  rw [fpDiv_finite mode ha hb hmb]
  rcases eq_or_ne ma 0 with rfl | hma
  · rw [rationalOf_eq_zero.2 rfl, zero_div]
    simp only [Nat.zero_mul, Nat.zero_div, Nat.zero_mod, if_true, Nat.mul_zero, Nat.add_zero, roundAndPack]
    exact deliversRounded_zero (deliversZero_packZero he _)
  · have hvalue : (rationalOf na ma ea / rationalOf nb mb eb : ℝ) =
        signedReal (na != nb) (ma * 2 ^ ea / (mb * 2 ^ eb)) := by
      rw [rationalOf_cast, rationalOf_cast]
      cases na <;> cases nb <;> simp [neg_div, div_neg]
    have hpos : (0 : ℝ) < ma * 2 ^ ea / (mb * 2 ^ eb) := by positivity
    rw [hvalue]
    exact roundAndPack_deliversRounded he hf mode _ _ (represents_quotient hma hmb ea eb) hpos

/-- A square root is the zero of the operand's sign, or stands for the exact one in the rounding. -/
theorem fpSqrt_deliversRounded (hx : (0 : ℝ) ≤ rationalOf na ma ea) :
    DeliversRounded fmt mode na √(rationalOf na ma ea : ℝ) (fpSqrt fmt mode a) := by
  rw [fpSqrt_finite mode ha]
  rcases eq_or_ne ma 0 with rfl | hma
  · rw [rationalOf_eq_zero.2 rfl, Real.sqrt_zero, if_pos rfl]
    exact deliversRounded_zero (deliversZero_packZero he _)
  · have hpos : (0 : ℝ) < ma * 2 ^ ea := by positivity
    rw [rationalOf_cast] at hx ⊢
    cases na with
    | true => exact absurd hx (not_le.2 (neg_lt_zero.2 hpos))
    | false =>
      rw [if_neg hma]
      exact roundAndPack_deliversRounded he hf mode false false (represents_sqrt hma ea) (Real.sqrt_pos.2 hpos)

end

theorem fpSqrt_of_negative (mode : RoundingMode) (ha : unpack fmt a = .finite na ma ea)
    (hx : (rationalOf na ma ea : ℝ) < 0) : DeliversInvalid fmt (fpSqrt fmt mode a) := by
  have hma : ma ≠ 0 := fun h => hx.ne (rationalOf_eq_zero.2 h)
  rw [fpSqrt_finite mode ha, if_neg hma]
  cases na with
  | true => rfl
  | false =>
    rw [rationalOf_cast] at hx
    exact absurd hx (not_lt.2 (by positivity : (0 : ℝ) ≤ ma * 2 ^ ea))

theorem widths_of_format (h : fmt = .single ∨ fmt = .double) : 2 ≤ fmt.expBits ∧ 1 ≤ fmt.fracBits := by
  rcases h with rfl | rfl <;> decide

/-- Settles O55: the fields of a pattern, `roundAndPack` of an exact number, and each function of finite operands. -/
theorem roundingDeliversTheNearestNumber : Obligations.RoundingDeliversTheNearestNumber := by
  refine ⟨rfl, rfl, standsFor_unpack (fmt := .single) (by decide) rfl,
    standsFor_unpack (fmt := .double) (by decide) rfl, fun fmt mode h => ?_⟩
  obtain ⟨he, hf⟩ := widths_of_format h
  refine ⟨roundAndPack_exact he hf mode, ?_⟩
  rintro a b c na nb nc ma mb mc ea eb ec x y z ha hb hc rfl rfl rfl
  refine ⟨fpAdd_deliversRounded he hf mode ha hb, fpSub_deliversRounded he hf mode ha hb,
    fpMul_deliversRounded he hf mode ha hb, fpFma_deliversRounded he hf mode ha hb hc, fun hy => ?_, fun hy hx => ?_,
    fun hy hx => ?_, fpSqrt_deliversRounded he hf mode ha, fpSqrt_of_negative mode ha⟩
  · exact fpDiv_deliversRounded he hf mode ha hb fun h0 => hy (rationalOf_eq_zero.2 h0)
  · obtain rfl := rationalOf_eq_zero.1 hy
    rw [fpDiv_by_zero mode ha hb, if_neg fun h0 => hx (rationalOf_eq_zero.2 h0)]
    exact ⟨unpack_packInfinity _, rfl⟩
  · obtain rfl := rationalOf_eq_zero.1 hy
    rw [fpDiv_by_zero mode ha hb, if_pos (rationalOf_eq_zero.1 hx)]
    rfl

end Sys2Proof.Machine
end

section
/-! PROOFS. NaN and infinity operands, and the flags (spec/45_fd_extension.md R243, R244, R254 to R271;
spec/48_fd_compare_convert.md R294, R295, R312): what every function of FP can answer, said once. -/

namespace Sys2Proof.Machine

variable {fmt : FloatFormat} {a b c : BitVec fmt.width} {na nb nc neg : Bool} {m : Nat} {e : Int}

/-! ## What the arithmetic functions can answer -/

/-- The results of the arithmetic functions but for a division by zero. -/
inductive ArithmeticResult (fmt : FloatFormat) (mode : RoundingMode) : BitVec fmt.width × FpFlags → Prop where
  /-- An operand is a NaN. -/
  | nan (signaling : Bool) : ArithmeticResult fmt mode (nanResult fmt signaling)
  /-- The operation is invalid. -/
  | invalid : ArithmeticResult fmt mode (invalidResult fmt)
  /-- The exact result is an infinity. -/
  | infinity (neg : Bool) : ArithmeticResult fmt mode (packInfinity fmt neg, flagNone)
  /-- The exact result is zero. -/
  | zero (neg : Bool) : ArithmeticResult fmt mode (packZero fmt neg, flagNone)
  /-- The exact result is rounded. -/
  | rounded (neg : Bool) (m : Nat) (e : Int) : ArithmeticResult fmt mode (roundAndPack fmt mode neg m e)

theorem addValues_result (mode : RoundingMode) (x y : FloatValue) :
    ArithmeticResult fmt mode (addValues fmt mode x y) := by
  cases x with
  | nan sx => exact .nan _
  | infinity nx =>
    cases y with
    | nan sy => exact .nan sy
    | infinity ny =>
      simp only [addValues]
      split
      · exact .infinity nx
      · exact .invalid
    | finite ny my ey => exact .infinity nx
  | finite nx mx ex =>
    cases y with
    | nan sy => exact .nan sy
    | infinity ny => exact .infinity ny
    | finite ny my ey =>
      simp only [addValues]
      split
      · exact .zero _
      · exact .rounded _ _ _

theorem fpMul_result (mode : RoundingMode) (a b : BitVec fmt.width) : ArithmeticResult fmt mode (fpMul fmt mode a b) := by
  simp only [fpMul]
  split
  · exact .nan _
  · split
    · exact .invalid
    · exact .rounded _ _ _
    · exact .infinity _
    · exact .nan _

theorem fpFma_result (mode : RoundingMode) (a b c : BitVec fmt.width) :
    ArithmeticResult fmt mode (fpFma fmt mode a b c) := by
  simp only [fpFma]
  split
  · exact .nan _
  · split
    · exact .invalid
    · exact addValues_result mode _ _

theorem fpSqrt_result (mode : RoundingMode) (a : BitVec fmt.width) : ArithmeticResult fmt mode (fpSqrt fmt mode a) := by
  simp only [fpSqrt]
  split
  · exact .nan _
  · split
    · exact .invalid
    · exact .infinity _
  · split
    · exact .zero _
    · split
      · exact .invalid
      · exact .rounded _ _ _

theorem fpConvert_result (source : FloatFormat) (mode : RoundingMode) (p : BitVec source.width) :
    ArithmeticResult fmt mode (fpConvert source fmt mode p) := by
  simp only [fpConvert]
  split
  · exact .nan _
  · exact .infinity _
  · exact .rounded _ _ _

/-- A number that is not zero is divided by a zero. -/
def DivisionByZero (fmt : FloatFormat) (a b : BitVec fmt.width) : Prop :=
  isZero (unpack fmt b) = true ∧ ∃ neg m e, unpack fmt a = .finite neg m e ∧ m ≠ 0

theorem fpDiv_of_divisionByZero (mode : RoundingMode) (h : DivisionByZero fmt a b) :
    ∃ neg, fpDiv fmt mode a b = (packInfinity fmt neg, flagDZ) := by
  obtain ⟨hb, na, m, e, ha, hm⟩ := h
  cases hub : unpack fmt b with
  | nan sb => rw [hub] at hb; cases hb
  | infinity nb => rw [hub] at hb; cases hb
  | finite nb mb eb =>
    rw [hub] at hb
    obtain rfl : mb = 0 := beq_iff_eq.1 hb
    exact ⟨na != nb, (fpDiv_by_zero mode ha hub).trans (if_neg hm)⟩

theorem fpDiv_result (mode : RoundingMode) (h : ¬DivisionByZero fmt a b) :
    ArithmeticResult fmt mode (fpDiv fmt mode a b) := by
  cases hua : unpack fmt a with
  | nan sa => simp only [fpDiv, hua]; exact .nan _
  | infinity na =>
    cases hub : unpack fmt b with
    | nan sb => simp only [fpDiv, hua, hub]; exact .nan _
    | infinity nb => simp only [fpDiv, hua, hub]; exact .invalid
    | finite nb mb eb => simp only [fpDiv, hua, hub]; exact .infinity _
  | finite na ma ea =>
    cases hub : unpack fmt b with
    | nan sb => simp only [fpDiv, hua, hub]; exact .nan _
    | infinity nb => simp only [fpDiv, hua, hub]; exact .zero _
    | finite nb mb eb =>
      rcases eq_or_ne mb 0 with rfl | hmb
      · have hma : ma = 0 := by
          by_contra hma
          exact h ⟨by rw [hub]; rfl, na, ma, ea, hua, hma⟩
        rw [fpDiv_by_zero mode hua hub, if_pos hma]
        exact .invalid
      · rw [fpDiv_finite mode hua hub hmb]
        exact .rounded _ _ _

/-! ## A NaN result is the canonical one -/

theorem not_nan_packMagnitude {M : Nat} (hM : M ≤ infinityMagnitude fmt) :
    ¬AnyNaN fmt (packMagnitude fmt neg M) := by
  rw [← isNaN_iff, Bool.not_eq_true]
  rcases hM.lt_or_eq with hlt | rfl
  · rw [unpack_packMagnitude neg hlt, isNaN]
  · rw [← packInfinity, unpack_packInfinity, isNaN]

theorem ArithmeticResult.eq_canonicalNaN {mode : RoundingMode} {r : BitVec fmt.width × FpFlags}
    (h : ArithmeticResult fmt mode r) (hr : AnyNaN fmt r.1) : r.1 = canonicalNaN fmt := by
  cases h with
  | nan signaling => rfl
  | invalid => rfl
  | infinity neg => exact absurd hr (not_nan_packMagnitude le_rfl)
  | zero neg => exact absurd hr (not_nan_packMagnitude (Nat.zero_le _))
  | rounded neg m e =>
    obtain ⟨⟨M, hM, hp⟩, -⟩ := roundAndPack_cases (fmt := fmt) mode neg m e
    rw [hp] at hr
    exact absurd hr (not_nan_packMagnitude hM)

theorem fpDiv_eq_canonicalNaN {mode : RoundingMode} (hr : AnyNaN fmt (fpDiv fmt mode a b).1) :
    (fpDiv fmt mode a b).1 = canonicalNaN fmt := by
  by_cases h : DivisionByZero fmt a b
  · obtain ⟨neg, hd⟩ := fpDiv_of_divisionByZero mode h
    rw [hd] at hr
    exact absurd hr (not_nan_packMagnitude le_rfl)
  · exact (fpDiv_result mode h).eq_canonicalNaN hr

/-! ## NaN operands -/

theorem nanResult_eq {s : Bool} {p : Prop} [Decidable p] (h : s = true ↔ p) :
    nanResult fmt s = (canonicalNaN fmt, if p then flagNV else flagNone) := by
  rw [nanResult, flagIf_eq h]

theorem unpack_of_nan (h : AnyNaN fmt a) : ∃ s, unpack fmt a = .nan s :=
  h.elim (fun h => ⟨true, h⟩) fun h => ⟨false, h⟩

theorem anyNaN_fpNegate : AnyNaN fmt (fpNegate fmt b) ↔ AnyNaN fmt b := by
  rw [← isNaN_iff, ← isNaN_iff, unpack_fpNegate]
  cases unpack fmt b <;> rfl

theorem signalingNaN_fpNegate : SignalingNaN fmt (fpNegate fmt b) ↔ SignalingNaN fmt b := by
  rw [← isSignaling_iff, ← isSignaling_iff, unpack_fpNegate]
  cases unpack fmt b <;> rfl

theorem addValues_nan (mode : RoundingMode) {x y : FloatValue} (h : isNaN x = true ∨ isNaN y = true) :
    addValues fmt mode x y = nanResult fmt (isSignaling x || isSignaling y) := by
  cases x with
  | nan sx => rfl
  | infinity nx => cases y with
    | nan sy => rfl
    | infinity ny => exact absurd h (by simp only [isNaN]; decide)
    | finite ny my ey => exact absurd h (by simp only [isNaN]; decide)
  | finite nx mx ex => cases y with
    | nan sy => rfl
    | infinity ny => exact absurd h (by simp only [isNaN]; decide)
    | finite ny my ey => exact absurd h (by simp only [isNaN]; decide)

section

variable (mode : RoundingMode) (h : AnyNaN fmt a ∨ AnyNaN fmt b)

include h

theorem fpAdd_nan : fpAdd fmt mode a b =
    (canonicalNaN fmt, if SignalingNaN fmt a ∨ SignalingNaN fmt b then flagNV else flagNone) := by
  rw [← isNaN_iff, ← isNaN_iff] at h
  rw [fpAdd, addValues_nan mode h, nanResult_eq (by rw [Bool.or_eq_true, isSignaling_iff, isSignaling_iff])]

theorem fpMul_nan : fpMul fmt mode a b =
    (canonicalNaN fmt, if SignalingNaN fmt a ∨ SignalingNaN fmt b then flagNV else flagNone) := by
  rw [← isNaN_iff, ← isNaN_iff, ← Bool.or_eq_true] at h
  simp only [fpMul, h, if_true]
  exact nanResult_eq (by rw [Bool.or_eq_true, isSignaling_iff, isSignaling_iff])

theorem fpDiv_nan : fpDiv fmt mode a b =
    (canonicalNaN fmt, if SignalingNaN fmt a ∨ SignalingNaN fmt b then flagNV else flagNone) := by
  have hdiv : fpDiv fmt mode a b = nanResult fmt (isSignaling (unpack fmt a) || isSignaling (unpack fmt b)) := by
    rw [← isNaN_iff, ← isNaN_iff] at h
    cases ha : unpack fmt a with
    | nan sa => simp only [fpDiv, ha, isSignaling]
    | infinity na =>
      obtain ⟨sb, hb⟩ := unpack_of_nan ((isNaN_iff b).1 (h.resolve_left (by rw [ha, isNaN]; decide)))
      simp only [fpDiv, ha, hb, isSignaling, Bool.false_or]
    | finite na ma ea =>
      obtain ⟨sb, hb⟩ := unpack_of_nan ((isNaN_iff b).1 (h.resolve_left (by rw [ha, isNaN]; decide)))
      simp only [fpDiv, ha, hb, isSignaling, Bool.false_or]
  rw [hdiv, nanResult_eq (by rw [Bool.or_eq_true, isSignaling_iff, isSignaling_iff])]

theorem fpSub_nan : fpSub fmt mode a b =
    (canonicalNaN fmt, if SignalingNaN fmt a ∨ SignalingNaN fmt b then flagNV else flagNone) := by
  rw [fpSub, fpAdd_nan mode (h.imp_right anyNaN_fpNegate.2)]
  simp only [signalingNaN_fpNegate]

end

theorem signalingNaN_of_unpack {s : Bool} (ha : unpack fmt a = .nan s) : s = true ↔ SignalingNaN fmt a := by
  rw [← isSignaling_iff, ha]
  rfl

theorem fpSqrt_nan (mode : RoundingMode) (h : AnyNaN fmt a) :
    fpSqrt fmt mode a = (canonicalNaN fmt, if SignalingNaN fmt a then flagNV else flagNone) := by
  obtain ⟨s, hs⟩ := unpack_of_nan h
  simp only [fpSqrt, hs]
  exact nanResult_eq (signalingNaN_of_unpack hs)

theorem fpConvert_nan (target : FloatFormat) (mode : RoundingMode) (h : AnyNaN fmt a) :
    fpConvert fmt target mode a = (canonicalNaN target, if SignalingNaN fmt a then flagNV else flagNone) := by
  obtain ⟨s, hs⟩ := unpack_of_nan h
  simp only [fpConvert, hs]
  exact nanResult_eq (signalingNaN_of_unpack hs)

/-! ## The product in a fused multiply-add -/

/-- A value of `a * b` from operands that are no NaN: none, or a value that is no NaN. -/
theorem multiplyExact_not_nan {x y p : FloatValue} (h : multiplyExact x y = some p) : isNaN p = false := by
  unfold multiplyExact at h
  split at h
  · cases h
    rfl
  · split at h
    · cases h
    · cases h
      rfl

theorem multiplyExact_none (ha : isNaN (unpack fmt a) = false) (hb : isNaN (unpack fmt b) = false)
    (h : multiplyExact (unpack fmt a) (unpack fmt b) = none) : ZeroTimesInfinity fmt a b := by
  cases hua : unpack fmt a with
  | nan sa => rw [hua] at ha; cases ha
  | infinity na =>
    cases hub : unpack fmt b with
    | nan sb => rw [hub] at hb; cases hb
    | infinity nb => rw [hua, hub] at h; cases h
    | finite nb mb eb =>
      rcases eq_or_ne mb 0 with rfl | hmb
      · exact ⟨na, nb, eb, .inl ⟨hua, hub⟩⟩
      · simp [hua, hub, multiplyExact, isZero, hmb] at h
  | finite na ma ea =>
    cases hub : unpack fmt b with
    | nan sb => rw [hub] at hb; cases hb
    | infinity nb =>
      rcases eq_or_ne ma 0 with rfl | hma
      · exact ⟨na, nb, ea, .inr ⟨hua, hub⟩⟩
      · simp [hua, hub, multiplyExact, isZero, hma] at h
    | finite nb mb eb => rw [hua, hub] at h; cases h

theorem ZeroTimesInfinity.product_eq (h : ZeroTimesInfinity fmt a b) :
    (isNaN (unpack fmt a) || isNaN (unpack fmt b)) = false ∧ multiplyExact (unpack fmt a) (unpack fmt b) = none := by
  obtain ⟨na, nb, e, ⟨ha, hb⟩ | ⟨ha, hb⟩⟩ := h <;> rw [ha, hb] <;> exact ⟨rfl, rfl⟩

theorem InfiniteProduct.product_eq (h : InfiniteProduct fmt a b neg) :
    (isNaN (unpack fmt a) || isNaN (unpack fmt b)) = false ∧
      multiplyExact (unpack fmt a) (unpack fmt b) = some (.infinity neg) := by
  obtain ⟨na, nb, m, e, rfl, ⟨ha, hb⟩ | ⟨hm, ha, hb⟩ | ⟨hm, ha, hb⟩⟩ := h <;> rw [ha, hb]
  · exact ⟨rfl, rfl⟩
  · exact ⟨rfl, by simp [multiplyExact, isZero, isNegative, hm]⟩
  · exact ⟨rfl, by simp [multiplyExact, isZero, isNegative, hm]⟩

theorem fpFma_of_product {mode : RoundingMode} {p : FloatValue}
    (h : (isNaN (unpack fmt a) || isNaN (unpack fmt b)) = false ∧
      multiplyExact (unpack fmt a) (unpack fmt b) = some p) :
    fpFma fmt mode a b c = addValues fmt mode p (unpack fmt c) := by
  simp only [fpFma, h.1, h.2, Bool.false_eq_true, if_false]

theorem isSignaling_of_not_nan {x : FloatValue} (h : isNaN x = false) : isSignaling x = false := by
  cases x with
  | nan s => cases h
  | infinity neg => rfl
  | finite neg m e => rfl

/-- A NaN in the product decides at once; a NaN added to a product that is none decides then. -/
theorem fpFma_nan (mode : RoundingMode) (h : AnyNaN fmt a ∨ AnyNaN fmt b ∨ AnyNaN fmt c)
    (hz : ¬ZeroTimesInfinity fmt a b) : fpFma fmt mode a b c = (canonicalNaN fmt,
      if SignalingNaN fmt a ∨ SignalingNaN fmt b ∨ SignalingNaN fmt c then flagNV else flagNone) := by
  have hfma : fpFma fmt mode a b c = nanResult fmt
      (isSignaling (unpack fmt a) || isSignaling (unpack fmt b) || isSignaling (unpack fmt c)) := by
    cases hab : isNaN (unpack fmt a) || isNaN (unpack fmt b) with
    | true => simp only [fpFma, hab, if_true]
    | false =>
      obtain ⟨ha, hb⟩ := Bool.or_eq_false_iff.1 hab
      cases hp : multiplyExact (unpack fmt a) (unpack fmt b) with
      | none => exact absurd (multiplyExact_none ha hb hp) hz
      | some p =>
        rw [← isNaN_iff, ← isNaN_iff, ← isNaN_iff, ha, hb] at h
        have hc : isNaN (unpack fmt c) = true := by simpa using h
        rw [fpFma_of_product ⟨hab, hp⟩, addValues_nan mode (.inr hc), isSignaling_of_not_nan ha,
          isSignaling_of_not_nan hb, isSignaling_of_not_nan (multiplyExact_not_nan hp)]
        rfl
  rw [hfma, nanResult_eq (by
    rw [Bool.or_eq_true, Bool.or_eq_true, isSignaling_iff, isSignaling_iff, isSignaling_iff, or_assoc])]

/-! ## Infinity operands -/

theorem deliversInfinity_packInfinity (neg : Bool) : DeliversInfinity fmt neg (packInfinity fmt neg, flagNone) :=
  ⟨unpack_packInfinity neg, rfl⟩

section

variable (mode : RoundingMode)

theorem addValues_infinities (na nb : Bool) : addValues fmt mode (.infinity na) (.infinity nb) =
    if na = nb then (packInfinity fmt na, flagNone) else invalidResult fmt := by
  rw [addValues]

/-- The infinities of one sign have a sum, those of different signs none. -/
theorem addValues_infinities_delivers (na nb : Bool) :
    if na = nb then DeliversInfinity fmt na (addValues fmt mode (.infinity na) (.infinity nb))
    else DeliversInvalid fmt (addValues fmt mode (.infinity na) (.infinity nb)) := by
  rw [addValues_infinities]
  split
  next h => exact deliversInfinity_packInfinity na
  next h => rfl

end

theorem fpMul_of_infiniteProduct (mode : RoundingMode) (h : InfiniteProduct fmt a b neg) :
    fpMul fmt mode a b = (packInfinity fmt neg, flagNone) := by
  simp only [fpMul, h.product_eq.1, h.product_eq.2, Bool.false_eq_true, if_false]

theorem fpMul_of_zeroTimesInfinity (mode : RoundingMode) (h : ZeroTimesInfinity fmt a b) :
    fpMul fmt mode a b = invalidResult fmt := by
  simp only [fpMul, h.product_eq.1, h.product_eq.2, Bool.false_eq_true, if_false]

theorem fpFma_of_zeroTimesInfinity (mode : RoundingMode) (h : ZeroTimesInfinity fmt a b) :
    fpFma fmt mode a b c = invalidResult fmt := by
  simp only [fpFma, h.product_eq.1, h.product_eq.2, Bool.false_eq_true, if_false]

section

variable (mode : RoundingMode)

theorem infinities_deliver (ha : unpack fmt a = .infinity na) (hb : unpack fmt b = .infinity nb) :
    (if na = nb then DeliversInfinity fmt na (fpAdd fmt mode a b) else DeliversInvalid fmt (fpAdd fmt mode a b)) ∧
      (if na = nb then DeliversInvalid fmt (fpSub fmt mode a b) else DeliversInfinity fmt na (fpSub fmt mode a b)) ∧
      DeliversInvalid fmt (fpDiv fmt mode a b) := by
  refine ⟨?_, ?_, ?_⟩
  · rw [fpAdd, ha, hb]
    exact addValues_infinities_delivers mode na nb
  · have h := addValues_infinities_delivers (fmt := fmt) mode na !nb
    rw [fpSub, fpAdd, ha, unpack_fpNegate_infinity hb]
    cases na <;> cases nb <;> exact h
  · simp only [DeliversInvalid, fpDiv, ha, hb, invalidResult]

theorem infinity_finite_deliver (ha : unpack fmt a = .infinity na) (hb : unpack fmt b = .finite nb m e) :
    DeliversInfinity fmt na (fpAdd fmt mode a b) ∧ DeliversInfinity fmt na (fpSub fmt mode a b) ∧
      DeliversInfinity fmt (na != nb) (fpDiv fmt mode a b) := by
  refine ⟨?_, ?_, ?_⟩
  · rw [fpAdd, ha, hb]
    exact deliversInfinity_packInfinity na
  · rw [fpSub, fpAdd, ha, unpack_fpNegate_finite hb]
    exact deliversInfinity_packInfinity na
  · simp only [fpDiv, ha, hb]
    exact deliversInfinity_packInfinity _

theorem finite_infinity_deliver (he : 2 ≤ fmt.expBits) (ha : unpack fmt a = .finite na m e)
    (hb : unpack fmt b = .infinity nb) :
    DeliversInfinity fmt nb (fpAdd fmt mode a b) ∧ DeliversInfinity fmt (!nb) (fpSub fmt mode a b) ∧
      DeliversZero fmt (na != nb) (fpDiv fmt mode a b) := by
  refine ⟨?_, ?_, ?_⟩
  · rw [fpAdd, ha, hb]
    exact deliversInfinity_packInfinity nb
  · rw [fpSub, fpAdd, ha, unpack_fpNegate_infinity hb]
    exact deliversInfinity_packInfinity _
  · simp only [fpDiv, ha, hb]
    exact deliversZero_packZero he _

/-- An infinite product and a third operand that is not the infinity of the other sign. -/
theorem infiniteProduct_deliver (h : InfiniteProduct fmt a b neg) :
    DeliversInfinity fmt neg (fpMul fmt mode a b) ∧
      (∀ nc m e, unpack fmt c = .finite nc m e → DeliversInfinity fmt neg (fpFma fmt mode a b c)) ∧
      (unpack fmt c = .infinity neg → DeliversInfinity fmt neg (fpFma fmt mode a b c)) ∧
      (unpack fmt c = .infinity (!neg) → DeliversInvalid fmt (fpFma fmt mode a b c)) := by
  rw [fpMul_of_infiniteProduct mode h, fpFma_of_product h.product_eq]
  refine ⟨deliversInfinity_packInfinity neg, fun nc m e hc => ?_, fun hc => ?_, fun hc => ?_⟩
  · rw [hc]
    exact deliversInfinity_packInfinity neg
  · rw [hc, addValues_infinities, if_pos rfl]
    exact deliversInfinity_packInfinity neg
  · rw [hc, addValues_infinities, if_neg (by cases neg <;> decide)]
    rfl

theorem fpSqrt_infinity (ha : unpack fmt a = .infinity na) :
    fpSqrt fmt mode a = if na then invalidResult fmt else (packInfinity fmt false, flagNone) := by
  simp only [fpSqrt, ha]

end

/-- Settles O56: NaN operands, infinity operands, and the results that can be a NaN at all. -/
theorem naNAndInfinityOperands : Obligations.NaNAndInfinityOperands := by
  refine ⟨rfl, rfl, fun fmt target mode a b c hfmt htarget => ?_⟩
  obtain ⟨he, -⟩ := widths_of_format hfmt
  refine ⟨fun h r hr => ?_, fpSqrt_nan mode, fpFma_nan mode, fpConvert_nan target mode, fun h => ⟨?_, ?_⟩,
    fun na nb ha hb => infinities_deliver mode ha hb, fun na nb m e ha hb => infinity_finite_deliver mode ha hb,
    fun na nb m e ha hb => finite_infinity_deliver mode he ha hb, fun neg h => infiniteProduct_deliver mode h,
    fun na nb nc ma mb ea eb ha hb hc => ?_, fun ha => ?_, fun ha => ?_, fun r hr hnan => ?_,
    (fpConvert_result fmt mode a).eq_canonicalNaN⟩
  · simp only [List.mem_cons, List.not_mem_nil, or_false] at hr
    rcases hr with rfl | rfl | rfl | rfl
    · exact fpAdd_nan mode h
    · exact fpSub_nan mode h
    · exact fpMul_nan mode h
    · exact fpDiv_nan mode h
  · exact fpMul_of_zeroTimesInfinity mode h
  · exact fpFma_of_zeroTimesInfinity mode h
  · rw [fpFma_finite mode ha hb, hc]
    exact deliversInfinity_packInfinity nc
  · rw [fpSqrt_infinity mode ha]
    exact deliversInfinity_packInfinity false
  · rw [fpSqrt_infinity mode ha]
    rfl
  · simp only [List.mem_cons, List.not_mem_nil, or_false] at hr
    rcases hr with rfl | rfl | rfl | rfl | rfl | rfl
    · exact (addValues_result mode _ _).eq_canonicalNaN hnan
    · exact (addValues_result mode _ _).eq_canonicalNaN hnan
    · exact (fpMul_result mode a b).eq_canonicalNaN hnan
    · exact fpDiv_eq_canonicalNaN hnan
    · exact (fpSqrt_result mode a).eq_canonicalNaN hnan
    · exact (fpFma_result mode a b c).eq_canonicalNaN hnan

end Sys2Proof.Machine
end

section
/-! PROOFS. The flags of the functions of FP (spec/45_fd_extension.md R243, R260): each answers one of five sets of flags,
a division by zero one more. -/

namespace Sys2Proof.Machine

variable {fmt : FloatFormat} {a b : BitVec fmt.width}

/-- The flags of every function of FP, but for a division by zero. -/
def ordinaryFlags : List FpFlags := [flagNone, flagNV, flagNX, flagUF ||| flagNX, flagOF ||| flagNX]

/-- No divide-by-zero, and neither overflow nor underflow without inexact. -/
theorem ordinaryFlags_rules : ∀ fl ∈ ordinaryFlags, fl &&& flagDZ = flagNone ∧
    (fl &&& flagOF ≠ flagNone → fl &&& flagNX = flagNX) ∧ (fl &&& flagUF ≠ flagNone → fl &&& flagNX = flagNX) := by
  decide

theorem flagIf_NV_mem (c : Bool) : flagIf c flagNV ∈ ordinaryFlags := by
  cases c <;> decide

theorem flagIf_NX_mem (c : Bool) : flagIf c flagNX ∈ ordinaryFlags := by
  cases c <;> decide

theorem roundAndPack_flags_mem (mode : RoundingMode) (neg : Bool) (m : Nat) (e : Int) :
    (roundAndPack fmt mode neg m e).2 ∈ ordinaryFlags := by
  obtain ⟨-, h⟩ := roundAndPack_cases (fmt := fmt) mode neg m e
  simp only [List.mem_cons, List.not_mem_nil, or_false] at h
  rcases h with h | h | h | h <;> rw [h] <;> decide

theorem ArithmeticResult.flags_mem {mode : RoundingMode} {r : BitVec fmt.width × FpFlags}
    (h : ArithmeticResult fmt mode r) : r.2 ∈ ordinaryFlags := by
  cases h with
  | nan signaling => exact flagIf_NV_mem signaling
  | invalid => exact flagIf_NV_mem true
  | infinity neg => exact flagIf_NV_mem false
  | zero neg => exact flagIf_NV_mem false
  | rounded neg m e => exact roundAndPack_flags_mem mode neg m e

theorem fpToInt_flags_mem (mode : RoundingMode) (least greatest : Int) (a : BitVec fmt.width) :
    (fpToInt fmt mode least greatest a).2 ∈ ordinaryFlags := by
  simp only [fpToInt]
  split
  · exact flagIf_NV_mem true
  · exact flagIf_NV_mem true
  · split
    · exact flagIf_NV_mem true
    · split
      · exact flagIf_NV_mem true
      · exact flagIf_NX_mem _

theorem fpDiv_flags_cases (mode : RoundingMode) (a b : BitVec fmt.width) :
    DivisionByZero fmt a b ∧ (fpDiv fmt mode a b).2 = flagDZ ∨
      ¬DivisionByZero fmt a b ∧ (fpDiv fmt mode a b).2 ∈ ordinaryFlags := by
  by_cases h : DivisionByZero fmt a b
  · obtain ⟨neg, hd⟩ := fpDiv_of_divisionByZero mode h
    exact .inl ⟨h, congrArg Prod.snd hd⟩
  · exact .inr ⟨h, (fpDiv_result mode h).flags_mem⟩

/-- Settles O57: the flags are in the list, or a division by zero sets DZ alone. -/
theorem flagRules : Obligations.FlagRules := by
  refine ⟨rfl, rfl, rfl, rfl, rfl, rfl, fun fmt target mode a b c i _ _ => ⟨fun fl hfl => ?_, ?_, ?_, ?_, ?_⟩⟩
  · apply ordinaryFlags_rules
    simp only [List.mem_cons, List.not_mem_nil, or_false] at hfl
    rcases hfl with rfl | rfl | rfl | rfl | rfl | rfl | rfl | rfl | rfl | rfl | rfl | rfl | rfl | rfl
    · exact (addValues_result mode _ _).flags_mem
    · exact (addValues_result mode _ _).flags_mem
    · exact (fpMul_result mode a b).flags_mem
    · exact (fpSqrt_result mode a).flags_mem
    · exact (fpFma_result mode a b c).flags_mem
    · exact flagIf_NV_mem _
    · exact flagIf_NV_mem _
    · exact flagIf_NV_mem _
    · exact flagIf_NV_mem _
    · exact flagIf_NV_mem _
    · exact (fpConvert_result fmt mode a).flags_mem
    · exact roundAndPack_flags_mem mode _ _ _
    · exact fpToInt_flags_mem mode _ _ a
    · exact fpToInt_flags_mem mode _ _ a
  · rcases fpDiv_flags_cases mode a b with ⟨-, hfl⟩ | ⟨-, hfl⟩
    · exact fun hne => absurd (by rw [hfl]; decide) hne
    · obtain ⟨-, hoverflow, -⟩ := ordinaryFlags_rules _ hfl
      exact hoverflow
  · rcases fpDiv_flags_cases mode a b with ⟨-, hfl⟩ | ⟨-, hfl⟩
    · exact fun hne => absurd (by rw [hfl]; decide) hne
    · obtain ⟨-, -, hunderflow⟩ := ordinaryFlags_rules _ hfl
      exact hunderflow
  · rcases fpDiv_flags_cases mode a b with ⟨hdz, hfl⟩ | ⟨hdz, hfl⟩
    · exact iff_of_true (by rw [hfl]; decide) hdz
    · exact iff_of_false (not_not.2 (ordinaryFlags_rules _ hfl).1) hdz
  · intro na m e nb eb ha hm hb
    rw [fpDiv_by_zero mode ha hb, if_neg hm]
    exact unpack_packInfinity _

end Sys2Proof.Machine
end

section
/-! PROOFS. Conversions between the formats and from integers (spec/48_fd_compare_convert.md R294 to R297, R300, R301):
one rounding, which changes nothing where the target has the number. -/

namespace Sys2Proof.Machine

variable {fmt : FloatFormat} {neg : Bool} {m : Nat} {e : Int}

/-! ## Rounding once -/

theorem rationalOf_natAbs (v : Int) : ((rationalOf (decide (v < 0)) v.natAbs 0 : ℚ) : ℝ) = v := by
  rw [rationalOf_cast, zpow_zero, mul_one]
  rcases lt_or_ge v 0 with hv | hv
  · rw [decide_eq_true hv, signedReal_true, ← Int.cast_natCast, Int.ofNat_natAbs_of_nonpos hv.le, Int.cast_neg, neg_neg]
  · rw [decide_eq_false hv.not_gt, signedReal_false, ← Int.cast_natCast, Int.natAbs_of_nonneg hv]

theorem fpOfInt_deliversRounded (he : 2 ≤ fmt.expBits) (hf : 1 ≤ fmt.fracBits) (mode : RoundingMode) (v : Int) :
    DeliversRounded fmt mode false (v : ℝ) (fpOfInt fmt mode v) := by
  have h := roundAndPack_exact he hf mode (decide (v < 0)) v.natAbs 0
  rw [rationalOf_natAbs] at h
  rcases eq_or_ne v 0 with rfl | hv
  · exact h
  · exact h.zeroNeg (Int.cast_ne_zero.2 hv)

theorem fpConvert_infinity {source : FloatFormat} (target : FloatFormat) (mode : RoundingMode) {p : BitVec source.width}
    (hp : unpack source p = .infinity neg) : fpConvert source target mode p = (packInfinity target neg, flagNone) := by
  simp only [fpConvert, hp]

theorem fpConvert_finite {source : FloatFormat} (target : FloatFormat) (mode : RoundingMode) {p : BitVec source.width}
    (hp : unpack source p = .finite neg m e) : fpConvert source target mode p = roundAndPack target mode neg m e := by
  simp only [fpConvert, hp]

/-! ## Numbers the target has -/

/-- A short significand at an exponent not below the normal numbers', shifted into place. -/
theorem exists_magnitudeValue_eq (hm : m ≠ 0) (hshort : m < 2 ^ (fmt.fracBits + 1))
    (hexp : floatMinExp fmt + fmt.fracBits ≤ e) : ∃ N, magnitudeValue fmt N = m * 2 ^ e := by
  have hlog : Nat.log2 m ≤ fmt.fracBits := Nat.lt_succ_iff.1 ((Nat.log2_lt hm).2 hshort)
  obtain ⟨k, hk⟩ := Nat.exists_eq_add_of_le hlog
  obtain ⟨t, ht⟩ : ∃ t : Nat, e - k = floatMinExp fmt + t := ⟨(e - k - floatMinExp fmt).toNat, by omega⟩
  have hlo : 2 ^ fmt.fracBits ≤ m * 2 ^ k := by
    rw [hk, pow_add]
    exact Nat.mul_le_mul_right _ (Nat.log2_self_le hm)
  have hhi : m * 2 ^ k ≤ 2 ^ (fmt.fracBits + 1) := by
    rw [hk, Nat.add_right_comm, pow_add]
    exact Nat.mul_le_mul_right _ Nat.lt_log2_self.le
  refine ⟨t * 2 ^ fmt.fracBits + m * 2 ^ k, ?_⟩
  rw [magnitudeValue_grid (.inr hlo) hhi, ← ht, Nat.cast_mul, Nat.cast_pow, Nat.cast_ofNat, mul_assoc, ← zpow_natCast,
    ← zpow_add₀ two_ne_zero, add_sub_cancel]

/-- A number that a magnitude stands for is packed as that magnitude, with no flag. -/
theorem roundAndPack_of_magnitude (hf : 1 ≤ fmt.fracBits) (mode : RoundingMode) (neg : Bool) {N : Nat} (hm : m ≠ 0)
    (hN : N < infinityMagnitude fmt) (hvalue : magnitudeValue fmt N = m * 2 ^ e) :
    roundAndPack fmt mode neg m e = (packMagnitude fmt neg N, flagNone) := by
  obtain ⟨M₀, M, hlo, hhi, hM, -, hpack⟩ := roundAndPack_magnitude hf mode neg (.inl (compares_exact m e)) hm
  rw [← hvalue] at hlo hhi hM hpack
  have hmono := magnitudeValue_strictMono fmt
  obtain rfl : M₀ = N := by
    have := hmono.le_iff_le.1 hlo
    have := hmono.lt_iff_lt.1 hhi
    omega
  obtain rfl : M = M₀ := hM.elim And.left fun ⟨_, haway⟩ => absurd haway (not_awayFromZero_exact hhi)
  obtain ⟨hp, hnone, -⟩ := hpack hN
  exact Prod.ext hp (hnone rfl)

/-- The result has the sign and the number of what was rounded, and no flag is set. -/
def RoundsExactly (fmt : FloatFormat) (neg : Bool) (m : Nat) (e : Int) (r : BitVec fmt.width × FpFlags) : Prop :=
  r.2 = flagNone ∧ ∃ m' e', unpack fmt r.1 = .finite neg m' e' ∧ rationalOf neg m' e' = rationalOf neg m e

theorem roundAndPack_roundsExactly (he : 2 ≤ fmt.expBits) (hf : 1 ≤ fmt.fracBits) (mode : RoundingMode) (neg : Bool)
    (hshort : m < 2 ^ (fmt.fracBits + 1)) (hexp : floatMinExp fmt + fmt.fracBits ≤ e)
    (hsize : (m : ℝ) * 2 ^ e < overflowThreshold fmt) :
    RoundsExactly fmt neg m e (roundAndPack fmt mode neg m e) := by
  rcases eq_or_ne m 0 with rfl | hm
  · rw [roundAndPack, if_pos rfl]
    exact ⟨rfl, 0, _, unpack_packZero he neg, by simp only [rationalOf, Nat.cast_zero, mul_zero, zero_mul]⟩
  · obtain ⟨N, hN⟩ := exists_magnitudeValue_eq hm hshort hexp
    have hlt : N < infinityMagnitude fmt := by
      rwa [← (magnitudeValue_strictMono fmt).lt_iff_lt, hN, magnitudeValue_infinityMagnitude he]
    rw [roundAndPack_of_magnitude hf mode neg hm hlt hN]
    refine ⟨rfl, _, _, unpack_packMagnitude neg hlt, ?_⟩
    have h := rationalOf_packMagnitude (fmt := fmt) neg N
    rw [hN, ← rationalOf_cast] at h
    exact Rat.cast_injective h

/-! ## To double -/

theorem overflowThreshold_cast (fmt : FloatFormat) :
    ((overflowThreshold fmt : ℚ) : ℝ) = 2 ^ ((floatBias fmt : Int) + 1) := by
  rw [overflowThreshold]
  push_cast
  rfl

theorem fpOfInt_double_exact (mode : RoundingMode) {v : Int} (hv : v.natAbs ≤ 2 ^ 32) :
    RoundsExactly .double (decide (v < 0)) v.natAbs 0 (fpOfInt .double mode v) := by
  refine roundAndPack_roundsExactly (by decide) (by decide) mode _ ?_ (by decide) ?_
  · exact hv.trans_lt (by norm_num)
  · have hle : (v.natAbs : ℝ) ≤ 2 ^ (32 : Int) := by exact_mod_cast hv
    rw [zpow_zero, mul_one, overflowThreshold_cast]
    exact hle.trans_lt (zpow_lt_zpow_right₀ one_lt_two (by decide))

theorem significandOf_lt (M : Nat) : significandOf fmt M < 2 ^ (fmt.fracBits + 1) := by
  have hlt := Nat.mod_lt M (Nat.two_pow_pos fmt.fracBits)
  rw [significandOf, pow_succ]
  split <;> omega

theorem floatMinExp_le_exponentOf (M : Nat) : floatMinExp fmt ≤ exponentOf fmt M := by
  rw [exponentOf]
  generalize M / 2 ^ fmt.fracBits = E
  split <;> omega

theorem fpConvert_single_double_exact (mode : RoundingMode) {p : Single} (hp : unpack .single p = .finite neg m e) :
    RoundsExactly .double neg m e (fpConvert .single .double mode p) := by
  rw [fpConvert_finite .double mode hp]
  obtain ⟨M, hM, -, rfl, rfl⟩ := unpack_eq_finite hp
  refine roundAndPack_roundsExactly (by decide) (by decide) mode neg ?_ ?_ ?_
  · exact (significandOf_lt M).trans (by norm_num)
  · exact le_trans (by decide) (floatMinExp_le_exponentOf M)
  · have hlt := magnitudeValue_strictMono .single hM
    rw [magnitudeValue_infinityMagnitude (by decide), overflowThreshold_cast] at hlt
    rw [overflowThreshold_cast]
    exact hlt.trans (zpow_lt_zpow_right₀ one_lt_two (by decide))

/-- Settles O58: every conversion is one rounding, and double has the 32-bit integers and the singles. -/
theorem conversionsDeliver : Obligations.ConversionsDeliver := by
  refine ⟨fun fmt mode v h => ?_, fun source target mode p neg _ h => ⟨fun hp => ?_, fun m e hp => ?_⟩,
    fun mode v hv => ?_, fun mode p neg m e hp => fpConvert_single_double_exact mode hp⟩
  · obtain ⟨he, hf⟩ := widths_of_format h
    exact fpOfInt_deliversRounded he hf mode v
  · rw [fpConvert_infinity target mode hp]
    exact deliversInfinity_packInfinity neg
  · obtain ⟨he, hf⟩ := widths_of_format h
    rw [fpConvert_finite target mode hp]
    exact roundAndPack_exact he hf mode neg m e
  · obtain ⟨hflags, m, e, hp, hvalue⟩ := fpOfInt_double_exact mode hv
    have hreal := rationalOf_natAbs v
    exact ⟨hflags, _, m, e, hp, hvalue.trans (by exact_mod_cast hreal), rfl⟩

end Sys2Proof.Machine
end
